-- ==== Sys2Proof/Word.lean ====
section
/-! DEFINITION. The words and index types of the SV-2408, and their plainest arithmetic. -/

namespace Sys2Proof

/-- A byte of the control link or of the configuration memory image. -/
abbrev Byte := BitVec 8
/-- A 16-bit word of the control link (R176), of an event unit (R193) or of a profile (R144). -/
abbrev Word := BitVec 16
/-- A 10-bit picture sample code. -/
abbrev Sample := BitVec 10

/-- A frame store slot, 0..95 (R17). -/
abbrev SlotNo := Fin 96
/-- A channel, and the programme output it drives. -/
abbrev Chan := Fin 8
/-- A feed, its receiver, ring and cadence detector. -/
abbrev Feed := Fin 8
/-- A house reference, REF0 or REF1. -/
abbrev RefNo := Fin 2
/-- A standard of the catalogue, 0..11. -/
abbrev StdId := Fin 12
/-- An entry of the profile table, 0..15. -/
abbrev EntryNo := Fin 16
/-- A lane of the render engine. -/
abbrev LaneNo := Fin 2
/-- An auxiliary line. -/
abbrev AuxNo := Fin 4
/-- An event group, 0..18; the number is the priority, 0 the highest. -/
abbrev GroupNo := Fin 19

/-- A saturating sum: a counter stops at its maximum value (00_scope, Counters). -/
def satAdd (max a b : Nat) : Nat := if a + b ≤ max then a + b else max

/-- The absolute difference of two natural numbers. -/
def absDiff (a b : Nat) : Nat := if a ≤ b then b - a else a - b

/-- ceil(n/2). -/
def ceilHalf (n : Nat) : Nat := (n + 1) / 2

/-- Clamp to a closed interval: lo when x < lo, hi when x > hi, x otherwise (00_scope, Ranges). -/
def clampInt (x lo hi : Int) : Int := if x < lo then lo else if hi < x then hi else x

end Sys2Proof
end

