-- ==== Sys2Proof/Config.lean ====
section
/-! DEFINITION. What the part fixes (the standards catalogue, times, built-in profiles) and the values
the manual leaves free. -/

namespace Sys2Proof.Config

/-- One row of the standards catalogue (00_scope) with the structure of R41. -/
structure Standard where
  totalLines  : Nat
  activeLines : Nat
  width       : Nat
  interlaced  : Bool
  period      : Nat
  hd          : Bool
deriving DecidableEq, Repr

/-- The standards catalogue: ids 0..11 (00_scope, and the table of R41 for the total lines). -/
def catalogue : Vector Standard 12 := #v[
  ⟨625, 576, 720, true, 1080000, false⟩,
  ⟨525, 486, 720, true, 900900, false⟩,
  ⟨1125, 1080, 1920, true, 1080000, true⟩,
  ⟨1125, 1080, 1920, true, 900900, true⟩,
  ⟨1125, 1080, 1920, false, 1080000, true⟩,
  ⟨1125, 1080, 1920, false, 900900, true⟩,
  ⟨1125, 1080, 1920, false, 540000, true⟩,
  ⟨1125, 1080, 1920, false, 450450, true⟩,
  ⟨750, 720, 1280, false, 540000, true⟩,
  ⟨750, 720, 1280, false, 450450, true⟩,
  ⟨1125, 1080, 1920, false, 1126125, true⟩,
  ⟨1125, 1080, 1920, false, 1125000, true⟩]

/-- The catalogue row of a standard. -/
def std (i : StdId) : Standard := catalogue[i]

/-- P_nom of a standard, in ticks. -/
def pNom (i : StdId) : Nat := (std i).period

/-- Ids 1 and 3: 3:2 detection applies (00_scope, note 5). -/
def is32 (i : StdId) : Bool := i = 1 || i = 3
/-- Ids 0 and 2: 2:2 detection applies (00_scope, note 5). -/
def is22 (i : StdId) : Bool := i = 0 || i = 2

/-- The greatest value of the 64-bit house time counter (R1). -/
def houseMax : Nat := 2 ^ 64 - 1
/-- 65,535, the maximum of a 16-bit counter. -/
def max16 : Nat := 2 ^ 16 - 1
/-- The maximum of a 32-bit counter. -/
def max32 : Nat := 2 ^ 32 - 1
/-- The tolerance of intervals, windows and phase adoption, in ticks (R2, R10, R11). -/
def refTolerance : Nat := 270
/-- Half the window of a line position, in ticks (R42). -/
def lineTolerance : Nat := 54
/-- The loss timer's limit (R38). -/
def lossTicks : Nat := 27000
/-- The debounce time of an auxiliary line (R171). -/
def debounceTicks : Nat := 27000
/-- The hold of an alert (R173). -/
def alertTicks : Nat := 5400000
/-- Initialization of the DRAM, in periods of CLK27 (R185). -/
def dramInitPeriods : Nat := 2700000
/-- A soft reset, in periods of CLK27 (R187). -/
def softResetPeriods : Nat := 27000
/-- The greatest size of the retired set (R30). -/
def retiredMax : Nat := 16

/-- T_align after any reset (R15). -/
def resetTAlign (n : RefNo) : Nat := if n = 0 then 1080000 else 4504500
/-- The three values of T_align (R2). -/
def tAlignOk (t : Nat) : Bool := t = 1080000 || t = 4504500 || t = 4500000

/-- Black level: 64 for luma and 512 for chroma (R28). -/
def blackLuma : Sample := 64#10
/-- Black level of a chroma sample (R28). -/
def blackChroma : Sample := 512#10

/-- Phases 0..32 of the cubic interpolator of entries 0 and 1 (R140, the printed table). -/
def cubicTable : List (List Int) := [
  [0, 256, 0, 0], [-2, 256, 2, 0], [-4, 256, 4, 0], [-5, 254, 7, 0], [-7, 253, 10, 0],
  [-8, 252, 13, -1], [-10, 251, 16, -1], [-11, 248, 20, -1], [-12, 247, 23, -2],
  [-13, 244, 27, -2], [-14, 242, 31, -3], [-15, 239, 35, -3], [-16, 237, 39, -4],
  [-17, 233, 44, -4], [-17, 230, 48, -5], [-18, 226, 53, -5], [-18, 222, 58, -6]] ++ [
  [-18, 218, 63, -7], [-19, 214, 68, -7], [-19, 210, 73, -8], [-19, 206, 78, -9],
  [-19, 200, 84, -9], [-19, 196, 89, -10], [-19, 192, 94, -11], [-19, 186, 100, -11],
  [-19, 182, 105, -12], [-18, 176, 111, -13], [-18, 171, 116, -13], [-18, 166, 122, -14],
  [-17, 160, 127, -14], [-17, 155, 133, -15], [-16, 149, 138, -15], [-16, 144, 144, -16]]

/-- Phase h of the cubic interpolator: the table, and for 33..63 phase 64 − h in reverse order (R140). -/
def cubicPhase (h : Nat) : List Int :=
  if h ≤ 32 then cubicTable.getD h [] else (cubicTable.getD (64 - h) []).reverse

/-- The 256 coefficients of entries 0 and 1, phase after phase (R140). -/
def cubic : List Int := (List.range 64).flatMap cubicPhase
/-- Entry 5: phase h is (256 − 4h, 4h) (R140). -/
def linear : List Int := (List.range 64).flatMap fun h => [256 - 4 * (h : Int), 4 * (h : Int)]
/-- Entry 2: the identity matrix (R140). -/
def identityMatrix : List Int := [1024, 0, 0, 0, 1024, 0, 0, 0, 1024]
/-- Entry 3: SD to HD (R140). -/
def sdToHd : List Int := [1024, -118, -213, 0, 1043, 117, 0, 77, 1050]
/-- Entry 4: HD to SD (R140). -/
def hdToSd : List Int := [1024, 102, 196, 0, 1014, -114, 0, -75, 1007]

/-- FREE VALUE: what a picture sample that has never been written reads as (R35: after power-on and pin
reset "the DRAM contents of every slot are undefined"); the first argument is the state's free counter,
the second the sample's address. It has no body. -/
opaque freeSample : Nat → Nat → Sample

/-- FREE VALUE: what a sample of the picture area of a destination reads as whose job stopped part of the way
(R157: "with its picture area incomplete"); the first argument is the state's count of such pictures, the
second the sample's address. It has no body. -/
opaque freePartial : Nat → Nat → Sample

/-- FREE VALUE: P_est of a feed that has never locked since the last reset: R60 gives it as P_nom of the
detected standard, and there is none. Applied to the state's free counter and the feed. It has no body. -/
opaque freePeriod : Nat → Nat → Nat

end Sys2Proof.Config
end

