-- ==== Sys2Proof/Syntax.lean ====
section
/-! DEFINITION. The commands of the SV-2408: one constructor of `Instr` per row of the operation table,
with the operands that the sender gives.

The first operand of every command, `dt`, is the number of periods of CLK27 that pass between the command
before it and this one (log entry 1): house time advances by it in READY (R1). The requests carry the
parameter words of their SUBMIT frame as they were sent, so that the port's own checks (R179) are part of
their meaning. -/

namespace Sys2Proof

/-- CONTROL A or CONTROL B. -/
inductive Port where
  | a | b
deriving DecidableEq, Repr

/-- The other control port. -/
def Port.other : Port → Port
  | .a => .b
  | .b => .a

/-- What a timing code carries (R37): the field indicator (2 when `field2`) and the blanking indicator. -/
structure LineCode where
  field2 : Bool
  blank  : Bool
deriving DecidableEq, Repr

/-- A line as it reaches a receiver (R37). A timing code whose check bits fail is `none`. `span` is the
time in ticks from the start code to the end code; `margin` is what the equaliser reports now (R52). -/
structure FeedLineData where
  startCode : Option LineCode
  endCode   : Option LineCode
  luma      : List Sample
  cb        : List Sample
  cr        : List Sample
  crcError  : Bool
  margin    : Fin 64
  span      : Nat
deriving DecidableEq, Repr

/-- What the configuration memory read finds (R186): no acknowledge, or the bytes read. -/
inductive ConfigRead where
  | noAck
  | bytes (b : List Byte)
deriving DecidableEq, Repr

/-- A component of a picture sample. -/
inductive Component where
  | y | cb | cr
deriving DecidableEq, Repr

/-- A code word of a picture: eight consecutive samples of one component of one line (R16). -/
structure CodeWord where
  line : Nat
  comp : Component
  word : Nat
deriving DecidableEq, Repr

/-- Who reads a code word from the DRAM: a lane for its job, or an output for emission (R26–R28). -/
inductive Reader where
  | lane (l : LaneNo)
  | output (c : Chan)
deriving DecidableEq, Repr

/-- Which read of a lane fails (R27, R154, R155): a code word of a source picture of a pass (the older
picture is 0; the line is the picture's own line, R154), or of the ON_AIR slot read for substitute samples. -/
inductive LaneRead where
  | source (pass pic : Fin 2) (w : CodeWord)
  | onAir (w : CodeWord)
deriving DecidableEq, Repr

/-- The commands. -/
inductive Instr where
  | powerOnReset (dt : Nat)
  | pinReset (dt : Nat)
  | dramInitialized (dt : Nat)
  | configurationReadDone (dt : Nat) (read : ConfigRead)
  | softResetEnd (dt : Nat)
  /-- A malformed frame: its whole bytes as sent, and the bits of a byte that SEL cut off. -/
  | malformedFrame (dt : Nat) (p : Port) (bytes : List Byte) (extraBits : Fin 8)
  /-- A FETCH frame with n = 0 (`none`) or n = 1, and the number of further bytes clocked. -/
  | fetch (dt : Nat) (p : Port) (offset : Option Word) (further : Nat)
  /-- A STATUS frame and the number of further bytes clocked. -/
  | status (dt : Nat) (p : Port) (further : Nat)
  /-- `code` is the request code of the SUBMIT: 0x01, or a code that the table does not hold (log entry 4). -/
  | getDeviceStatus (dt : Nat) (p : Port) (tag code : Byte) (params : List Word)
  | resetDevice (dt : Nat) (p : Port) (tag : Byte) (params : List Word)
  | getPeerChanges (dt : Nat) (p : Port) (tag : Byte) (params : List Word)
  | setReference (dt : Nat) (p : Port) (tag : Byte) (params : List Word)
  | getReferenceStatus (dt : Nat) (p : Port) (tag : Byte) (params : List Word)
  | setFeed (dt : Nat) (p : Port) (tag : Byte) (params : List Word)
  | getFeedStatus (dt : Nat) (p : Port) (tag : Byte) (params : List Word)
  | getLinkCheck (dt : Nat) (p : Port) (tag : Byte) (params : List Word)
  | setChannel (dt : Nat) (p : Port) (tag : Byte) (params : List Word)
  | getChannel (dt : Nat) (p : Port) (tag : Byte) (params : List Word)
  | startChannel (dt : Nat) (p : Port) (tag : Byte) (params : List Word)
  | stopChannel (dt : Nat) (p : Port) (tag : Byte) (params : List Word)
  | take (dt : Nat) (p : Port) (tag : Byte) (params : List Word)
  | getChannelStatus (dt : Nat) (p : Port) (tag : Byte) (params : List Word)
  | getPoolStatus (dt : Nat) (p : Port) (tag : Byte) (params : List Word)
  | getSlot (dt : Nat) (p : Port) (tag : Byte) (params : List Word)
  | retireSlot (dt : Nat) (p : Port) (tag : Byte) (params : List Word)
  | restoreSlot (dt : Nat) (p : Port) (tag : Byte) (params : List Word)
  | profileBegin (dt : Nat) (p : Port) (tag : Byte) (params : List Word)
  | profileData (dt : Nat) (p : Port) (tag : Byte) (params : List Word)
  | profileCommit (dt : Nat) (p : Port) (tag : Byte) (params : List Word)
  | profileAbandon (dt : Nat) (p : Port) (tag : Byte) (params : List Word)
  | getProfile (dt : Nat) (p : Port) (tag : Byte) (params : List Word)
  | validationEnd (dt : Nat) (p : Port)
  | getEvents (dt : Nat) (p : Port) (tag : Byte) (params : List Word)
  | ackEvents (dt : Nat) (p : Port) (tag : Byte) (params : List Word)
  | setEventMode (dt : Nat) (p : Port) (tag : Byte) (params : List Word)
  | setEventEnables (dt : Nat) (p : Port) (tag : Byte) (params : List Word)
  | setAuxLine (dt : Nat) (p : Port) (tag : Byte) (params : List Word)
  | getAuxStatus (dt : Nat) (p : Port) (tag : Byte) (params : List Word)
  | refPulse (dt : Nat) (n : RefNo)
  | syntheticEpoch (dt : Nat) (n : RefNo)
  | provisionalEpoch (dt : Nat) (n : RefNo)
  | windowExpiry (dt : Nat) (n : RefNo)
  | outputFrameStart (dt : Nat) (c : Chan)
  | jobCompletion (dt : Nat) (l : LaneNo)
  | correctableRead (dt : Nat) (r : Reader)
  | uncorrectableRead (dt : Nat) (l : LaneNo) (r : LaneRead)
  | outputReadFault (dt : Nat) (c : Chan) (w : CodeWord)
  | feedLine (dt : Nat) (f : Feed) (line : FeedLineData)
  | lineWindowClose (dt : Nat) (f : Feed)
  | lossTimerExpiry (dt : Nat) (f : Feed)
  /-- The level sensed on a line becomes HIGH (`true`) or LOW. -/
  | auxLevelChange (dt : Nat) (x : AuxNo) (high : Bool)
  | debounceExpiry (dt : Nat) (x : AuxNo)
  | alertExpiry (dt : Nat) (x : AuxNo)
  | resetNRelease (dt : Nat)
deriving DecidableEq, Repr

/-- The request codes of the request code table. -/
def requestCodes : List Byte :=
  [0x01#8, 0x02#8, 0x03#8, 0x10#8, 0x11#8, 0x20#8, 0x21#8, 0x22#8, 0x30#8, 0x31#8, 0x32#8, 0x33#8,
   0x34#8, 0x35#8, 0x40#8, 0x41#8, 0x42#8, 0x43#8, 0x50#8, 0x51#8, 0x52#8, 0x53#8, 0x54#8, 0x60#8,
   0x61#8, 0x62#8, 0x63#8, 0x70#8, 0x71#8]

end Sys2Proof
end

