-- ==== Sys2Proof/WellFormed.lean ====
section
/-! DEFINITION. Which commands can be sent as the manual describes them: a check per form of operand. -/

namespace Sys2Proof

/-- A SUBMIT carries at most nine payload words, so at most eight parameter words (frame layout). -/
def paramsOk (params : List Word) : Bool := params.length ≤ 8

/-- How many bytes a frame kind declares, from its bytes so far: kind, length byte and payload. -/
def declaredBytes (n : Byte) : Nat := 2 + 2 * n.toNat

/-- R177: when the bytes sent and the bits cut off form a malformed frame. A frame of no byte and no bit is
malformed as well (byte 0 is none of the three kinds). -/
def frameMalformed (bytes : List Byte) (extraBits : Fin 8) : Bool :=
  if extraBits ≠ 0 then true else
  match bytes with
  | [] => true
  | kind :: rest =>
    if kind = 0x01#8 then
      match rest with
      | [] => true
      | n :: _ => !(1 ≤ n.toNat && n.toNat ≤ 9) || bytes.length ≠ declaredBytes n
    else if kind = 0x02#8 then
      match rest with
      | [] => true
      | n :: _ => !(n.toNat ≤ 1) || bytes.length < declaredBytes n
    else if kind = 0x03#8 then
      match rest with
      | [] => true
      | n :: _ => n ≠ 0#8
    else true

/-- R37: a chroma sample pair accompanies every second luma sample. -/
def lineOk (l : FeedLineData) : Bool :=
  l.cb.length = l.luma.length / 2 && l.cr.length = l.luma.length / 2

/-- A code word of a slot: 1080 lines, 1920 luma samples and 960 chroma pairs, eight samples a word (R16). -/
def codeWordOk (w : CodeWord) : Bool :=
  w.line < 1080 && (match w.comp with | .y => w.word < 240 | _ => w.word < 120)

/-- A whole image has 178 bytes; the read stops after byte 0 when it is not 0xA5 (R186). -/
def configReadOk : ConfigRead → Bool
  | .noAck => true
  | .bytes b => b.length = 178 || (b.length = 1 && b.head? ≠ some 0xA5#8)

/-- The code of a GET_DEVICE_STATUS command: its own, or one that no request has (log entry 4). -/
def deviceCodeOk (code : Byte) : Bool := code = 0x01#8 || !requestCodes.contains code

/-- Which commands are well formed. -/
def WellFormed : Instr → Bool
  | .powerOnReset _ => true
  | .pinReset _ => true
  | .dramInitialized _ => true
  | .configurationReadDone _ r => configReadOk r
  | .softResetEnd _ => true
  | .malformedFrame _ _ bytes bits => frameMalformed bytes bits
  | .fetch _ _ _ _ => true
  | .status _ _ _ => true
  | .getDeviceStatus _ _ _ code ps => deviceCodeOk code && paramsOk ps
  | .resetDevice _ _ _ ps => paramsOk ps
  | .getPeerChanges _ _ _ ps => paramsOk ps
  | .setReference _ _ _ ps => paramsOk ps
  | .getReferenceStatus _ _ _ ps => paramsOk ps
  | .setFeed _ _ _ ps => paramsOk ps
  | .getFeedStatus _ _ _ ps => paramsOk ps
  | .getLinkCheck _ _ _ ps => paramsOk ps
  | .setChannel _ _ _ ps => paramsOk ps
  | .getChannel _ _ _ ps => paramsOk ps
  | .startChannel _ _ _ ps => paramsOk ps
  | .stopChannel _ _ _ ps => paramsOk ps
  | .take _ _ _ ps => paramsOk ps
  | .getChannelStatus _ _ _ ps => paramsOk ps
  | .getPoolStatus _ _ _ ps => paramsOk ps
  | .getSlot _ _ _ ps => paramsOk ps
  | .retireSlot _ _ _ ps => paramsOk ps
  | .restoreSlot _ _ _ ps => paramsOk ps
  | .profileBegin _ _ _ ps => paramsOk ps
  | .profileData _ _ _ ps => paramsOk ps
  | .profileCommit _ _ _ ps => paramsOk ps
  | .profileAbandon _ _ _ ps => paramsOk ps
  | .getProfile _ _ _ ps => paramsOk ps
  | .validationEnd _ _ => true
  | .getEvents _ _ _ ps => paramsOk ps
  | .ackEvents _ _ _ ps => paramsOk ps
  | .setEventMode _ _ _ ps => paramsOk ps
  | .setEventEnables _ _ _ ps => paramsOk ps
  | .setAuxLine _ _ _ ps => paramsOk ps
  | .getAuxStatus _ _ _ ps => paramsOk ps
  | .refPulse _ _ => true
  | .syntheticEpoch _ _ => true
  | .provisionalEpoch _ _ => true
  | .windowExpiry _ _ => true
  | .outputFrameStart _ _ => true
  | .jobCompletion _ _ => true
  | .correctableRead _ _ => true
  | .uncorrectableRead _ _ r => match r with | .source _ _ w => codeWordOk w | .onAir w => codeWordOk w
  | .outputReadFault _ _ w => codeWordOk w
  | .feedLine _ _ l => lineOk l
  | .lineWindowClose _ _ => true
  | .lossTimerExpiry _ _ => true
  | .auxLevelChange _ _ _ => true
  | .debounceExpiry _ _ => true
  | .alertExpiry _ _ => true
  | .resetNRelease _ => true

end Sys2Proof
end

