-- ==== Sys2Proof/Machine/State.lean ====
section
/-! DEFINITION. The state of the SV-2408 as plain data, and the machine right after power-on reset. -/

namespace Sys2Proof.Machine

/-- No command of the SV-2408 stops the part: every request is answered (R181), and every event changes
state or does nothing. There is no fault, so the type has no constructor. -/
inductive Fault where
deriving DecidableEq, Repr

/-- Refusals. -/
inductive Refusal where
  /-- Raised by `exec` for a command that has no meaning yet; safe (the model stops where the part goes on). -/
  | notModelled (mnemonic : String)
deriving DecidableEq, Repr

/-- One thing for each control port. -/
structure PerPort (α : Type) where
  a : α
  b : α
deriving DecidableEq, Repr

/-- The port's own. -/
def PerPort.get {α : Type} (x : PerPort α) : Port → α
  | .a => x.a
  | .b => x.b

/-- Replace the port's own. -/
def PerPort.set {α : Type} (x : PerPort α) (p : Port) (v : α) : PerPort α :=
  match p with
  | .a => { x with a := v }
  | .b => { x with b := v }

/-! ## Device (R1, R184–R187) -/

/-- The device state (R184). -/
inductive DevState where
  | starting | ready
deriving DecidableEq, Repr

/-- What a part in STARTING is doing (R185, R187); `none` once it is READY. A soft reset keeps its
requester, the requester's tag, and whether it aborted a request of the other port. -/
inductive Stage where
  | none
  | dramInit
  | configRead
  | softReset (requester : Port) (tag : Byte) (aborted : Bool)
deriving DecidableEq, Repr

/-- The reset cause (R184). -/
inductive Cause where
  | powerOn | pin | request
deriving DecidableEq, Repr

/-- The configuration load result (R186). -/
inductive LoadResult where
  | loaded | skipped | failed
deriving DecidableEq, Repr

/-- The device record. `clk` counts the periods of CLK27 since the start-up stage began. -/
structure Device where
  houseTime : Nat
  state     : DevState
  stage     : Stage
  clk       : Nat
  cause     : Cause
  load      : LoadResult
  /-- The RESET_N pin is asserted (R176). -/
  resetN    : Bool
deriving DecidableEq, Repr

/-! ## Control ports (R176–R189) -/

/-- The statuses of R181. -/
inductive Status where
  | ok | invalid | refused | stale | notReady | aborted | already | notRetired | committed
  | committedPending | empty | checksumError | unrecognised | validationFailed | noResponse
deriving DecidableEq, Repr

/-- A held response (R178, R181). -/
structure Response where
  status : Status
  tag    : Byte
  words  : List Word
deriving DecidableEq, Repr

/-- The request in progress of a BUSY mailbox: only these two do not complete at taking (R178). -/
inductive InProgress where
  | commit (tag : Byte) (checksum : Word) (ends : Nat)
  | reset (tag : Byte)
deriving DecidableEq, Repr

/-- The mailbox state (R178). -/
inductive Mailbox where
  | idle
  | busy (r : InProgress)
  | done
deriving DecidableEq, Repr

/-- An entry of a peer-change list (R182). -/
structure PeerEntry where
  code     : Byte
  target   : Option Nat
  revision : Option (BitVec 16)
deriving DecidableEq, Repr

/-- Kind and shape of a profile content. -/
inductive Shape where
  | resample (taps phases : Nat)
  | matrix
deriving DecidableEq, Repr

/-- The declared size S: T · Ph for RESAMPLE, 9 for MATRIX (file 08). -/
def Shape.size : Shape → Nat
  | .resample t p => t * p
  | .matrix => 9

/-- An open staging buffer (R143). -/
structure Staging where
  entry : EntryNo
  shape : Shape
  words : List (Option Word)
deriving DecidableEq, Repr

/-- A control port. `dout` is what the part returned on DO during the last frame. -/
structure PortRec where
  mailbox       : Mailbox
  held          : Option Response
  submitRefused : Bool
  framingError  : Bool
  peers         : List PeerEntry
  overflow      : Bool
  staging       : Option Staging
  dout          : List Byte
deriving DecidableEq, Repr

/-! ## Event units (R190–R197) -/

/-- The clear mode of a unit (R195). -/
inductive ClearMode where
  | onRead | byAck
deriving DecidableEq, Repr

/-- An event unit: one flags word, enables word and edge selects word per group. -/
structure EventUnit where
  flags   : Vector Word 19
  enables : Vector Word 19
  edges   : Vector Word 19
  mode    : ClearMode
  master  : Bool
deriving DecidableEq, Repr

/-! ## Reference timebase (R1–R15) -/

/-- Reference states. -/
inductive RefState where
  | absent | locking | locked | holdover
deriving DecidableEq, Repr

/-- How E was established. -/
inductive EpochKind where
  | synthetic | provisional | pulse
deriving DecidableEq, Repr

/-- The reference record. -/
structure Reference where
  state     : RefState
  tAlign    : Nat
  epoch     : Nat
  kind      : EpochKind
  interval  : Nat
  lastPulse : Option Nat
  good      : Nat
  oot       : Nat
deriving DecidableEq, Repr

/-- Where an output's next frame start lies in its sequence (log entry 15): on no grid (free-running, R3),
frame `j` of the alignment period `m` periods after the current one (R5), or a frame start that is left of
an alignment period that has ended. -/
inductive FrameGrid where
  | free
  | past
  | at (m j : Nat)
deriving DecidableEq, Repr

/-- The frame timing of an output (R5, R15). `lastPeriod` is the output period at the last frame start, 0
before there is one: R5 spaces two frame starts by the greater of the periods at the two. -/
structure OutTiming where
  last       : Option Nat
  next       : Nat
  grid       : FrameGrid
  lastPeriod : Nat
deriving DecidableEq, Repr

/-! ## Frame store (R16–R36) -/

/-- Slot states (R18). -/
inductive SlotState where
  | free | filling | complete | detached | rendering | ready | onAir | retired
deriving DecidableEq, Repr

/-- Slot kinds. -/
inductive SlotKind where
  | input | output
deriving DecidableEq, Repr

/-- Field roles of a film tag. -/
inductive TagRole where
  | first | second | dropped
deriving DecidableEq, Repr

/-- A film tag of one field. -/
structure FilmTag where
  number : BitVec 16
  role   : TagRole
deriving DecidableEq, Repr

/-- The slot record. -/
structure Slot where
  state         : SlotState
  kind          : Option SlotKind
  owner         : Option (Fin 8)
  std           : Option StdId
  seq           : Option (BitVec 32)
  raw           : Option Nat
  stamp1        : Option Int
  stamp2        : Option Int
  tag1          : Option FilmTag
  tag2          : Option FilmTag
  breakBefore   : Bool
  damaged       : Bool
  fault         : Bool
  retirePending : Bool
  pins          : Nat
deriving DecidableEq, Repr

/-- Reasons of the fault record (R29). -/
inductive FaultReason where
  | none | uncorrectable | retireLimit
deriving DecidableEq, Repr

/-- The fault record (R29). -/
structure FaultRec where
  reason : FaultReason
  slot   : Option SlotNo
  reader : Option Reader
  time   : Option Nat
deriving DecidableEq, Repr

/-- The store's counters and fault record. -/
structure Pool where
  correctable      : Nat
  uncorrectable    : Nat
  allocFailures    : Nat
  transitionErrors : Nat
  faultRec         : FaultRec
deriving DecidableEq, Repr

/-- The DRAM: (sample address, sample) pairs, addresses strictly rising; a sample never written is not
listed (log entry 6). -/
abbrev Dram := List (Nat × Sample)

/-! ## Feed receivers (R37–R58) -/

/-- Receiver states. -/
inductive RxState where
  | noSignal | acquiring | locked | unknown
deriving DecidableEq, Repr

/-- A layout: the indicators of each line position, and the width. -/
structure Layout where
  lines : List LineCode
  width : Nat
deriving DecidableEq, Repr

/-- The acquisition run: its first frame's layout and period, its count and the periods of its frames. -/
structure Run where
  layout  : Option Layout
  pRun    : Nat
  count   : Nat
  periods : List Nat
deriving DecidableEq, Repr

/-- The measured frame in progress in ACQUIRING: its start, its valid lines so far, how many of its lines were
not valid, the width of its active lines so far, and whether it is already irregular (R39). -/
structure Measure where
  start     : Nat
  lines     : List LineCode
  unread    : Nat
  width     : Option Nat
  irregular : Bool
deriving DecidableEq, Repr

/-- The measured structure that GET_FEED_STATUS shows (R56); `width` is absent when irregular. -/
structure Structure where
  total      : Nat
  active     : Nat
  width      : Option Nat
  interlaced : Bool
deriving DecidableEq, Repr

/-- The capture slot of a receiver. -/
inductive CapSlot where
  | none
  | skipped
  | slot (n : SlotNo)
deriving DecidableEq, Repr

/-- A 64 × 36 luma signature, row after row. -/
abbrev Signature := List Nat

/-- The receiver record. -/
structure Receiver where
  state         : RxState
  detected      : Option StdId
  lastLocked    : Option StdId
  layout        : Option Layout
  run           : Run
  pRef          : Option Nat
  lastRaw       : Option Nat
  seq           : BitVec 32
  capture       : CapSlot
  lineErrors    : Nat
  linkErrors    : Nat
  erroredFrames : Nat
  margin        : Nat
  lowestMargin  : Nat
  sig1          : Option Signature
  sig2          : Option Signature
  /-- The house time from which the loss timer runs, or stopped. -/
  lossFrom      : Option Nat
  measure       : Option Measure
  lastClosed    : Option Structure
  /-- The last valid line was an active line (R39). -/
  prevActive    : Bool
  /-- The frame in progress has counted an error and is not yet closed (R51). -/
  frameErrored  : Bool
  /-- The flywheel's next line position (R42). -/
  nextPos       : Nat
  /-- The position before `nextPos` was received, not missing. -/
  posReceived   : Bool
  /-- A line of the frame in progress was missing or not valid (R39). -/
  missed        : Bool
deriving DecidableEq, Repr

/-! ## Feed rings (R59–R75) -/

/-- The ring record. `lastHorizon` holds the horizon and the time it was computed. -/
structure Ring where
  depth          : Nat
  cadenceEnable  : Bool
  threshold      : Nat
  members        : List SlotNo
  window         : List Int
  prevRaw        : Option Nat
  prevSmooth     : Option Int
  lastError      : Option Int
  pendingBreak   : Bool
  lastHorizon    : Option (Int × Nat)
  admitted       : Nat
  skips          : Nat
  overruns       : Nat
  steps          : Nat
deriving DecidableEq, Repr

/-! ## Cadence detectors (R76–R91) -/

/-- Detector states. -/
inductive DetState where
  | video | candidate32 | locked32 | candidate22 | locked22
deriving DecidableEq, Repr

/-- Repeat flags. -/
inductive RepeatFlag where
  | set | clear | unknown
deriving DecidableEq, Repr

/-- Verdicts on a 2:2 frame. -/
inductive Verdict where
  | pass | fail | static | unknown
deriving DecidableEq, Repr

/-- A reference buffer: a signature with its damaged mark. -/
structure RefBuffer where
  sig     : Signature
  damaged : Bool
deriving DecidableEq, Repr

/-- One field of a film frame: a slot and which of its fields (field 2 when `field2`). -/
structure FieldRef where
  slot   : SlotNo
  field2 : Bool
deriving DecidableEq, Repr

/-- A complete film frame. -/
structure FilmEntry where
  number : BitVec 16
  stamp  : Int
  first  : FieldRef
  second : FieldRef
  brk    : Bool
deriving DecidableEq, Repr

/-- An open film frame: its first field has been taken and its second has not. -/
structure OpenFilm where
  number : BitVec 16
  stamp  : Int
  first  : FieldRef
deriving DecidableEq, Repr

/-- The detector record. `buf1` and `buf2` are the reference buffers of field 1 and field 2. -/
structure Detector where
  state         : DetState
  history       : List RepeatFlag
  buf1          : Option RefBuffer
  buf2          : Option RefBuffer
  lastM         : Option Nat
  phase         : Option Nat
  candidates    : Nat
  mIntra        : Option Nat
  /-- The frame before the one to be judged next was skipped (R82). -/
  followsSkip   : Bool
  passCount     : Nat
  failCount     : Nat
  verdict       : Option Verdict
  anchor        : Option Int
  half          : Nat
  /-- A cycle has begun since entry into LOCKED_32 (R86, log entry 14). -/
  cycleBegun    : Bool
  nextFilm      : BitVec 16
  lastFilmStamp : Option Int
  breakSeen     : Bool
  lastSlot      : Option (BitVec 32 × Int)
  openFilm      : Option OpenFilm
  films         : List FilmEntry
  breaks        : Nat
deriving DecidableEq, Repr

/-! ## Channels (R92–R132) -/

/-- Which bank. -/
inductive BankId where
  | a | b
deriving DecidableEq, Repr

/-- Temporal modes. -/
inductive TempMode where
  | blend | nearest | filmAware
deriving DecidableEq, Repr

/-- Dither periods. -/
inductive DitherPeriod where
  | off | d4 | d8 | d16 | d32
deriving DecidableEq, Repr

/-- A bank record. AUTO is `none`; the dither phase counts quarters of the period. -/
structure Bank where
  feed         : Feed
  outStd       : StdId
  ref          : RefNo
  expected     : Option StdId
  offset       : Nat
  delay        : Option Nat
  mode         : TempMode
  ditherPeriod : DitherPeriod
  ditherPhase  : Fin 4
  lossHold     : Nat
  vProf        : Option EntryNo
  hProf        : Option EntryNo
  mProf        : Option EntryNo
  enable       : Bool
deriving DecidableEq, Repr

/-- The outcome of the most recent take application, with its house time. -/
inductive TakeResult where
  | none
  | applied (t : Nat)
  | rejected (t : Nat)
deriving DecidableEq, Repr

/-- Channel states. -/
inductive ChanState where
  | stopped | waitFeed | priming | running | holding
deriving DecidableEq, Repr

/-- Kinds of picture list. -/
inductive ListKind where
  | frames | fields | film
deriving DecidableEq, Repr

/-- Outcomes of a dispatch. -/
inductive DispatchOutcome where
  | job | noPicture | noSlot
deriving DecidableEq, Repr

/-- Field roles of a read (R129). -/
inductive FieldRole where
  | frame | field1 | field2
deriving DecidableEq, Repr

/-- A read of a source picture: a slot and a role. -/
structure Read where
  slot : SlotNo
  role : FieldRole
deriving DecidableEq, Repr

/-- A picture of a picture list (R114). A FILM picture has two reads, field 1 first. -/
structure Picture where
  stamp : Int
  brk   : Bool
  kind  : ListKind
  reads : List Read
deriving DecidableEq, Repr

/-- Selection cases (R129). -/
inductive SelCase where
  | blend | nearest | single | early | late
deriving DecidableEq, Repr

/-- A pass record (R129). -/
structure PassRec where
  pass   : Nat
  sel    : SelCase
  q      : Option Nat
  b      : Nat
  target : Int
  pics   : List Picture
deriving DecidableEq, Repr

/-- One pass of the selection readback (R130). -/
structure PassReadback where
  sel    : SelCase
  stamps : List Int
  q      : Option Nat
  b      : Nat
deriving DecidableEq, Repr

/-- The selection readback (R130). -/
structure SelReadback where
  kind   : ListKind
  passes : List PassReadback
deriving DecidableEq, Repr

/-- Three profile entries: vertical, horizontal, matrix. -/
structure Resolved where
  v : EntryNo
  h : EntryNo
  m : EntryNo
deriving DecidableEq, Repr

/-- The five counters of a channel (R109). -/
structure ChanCounters where
  presented : Nat
  late      : Nat
  repeats   : Nat
  srcEarly  : Nat
  srcLate   : Nat
deriving DecidableEq, Repr

/-- The channel record. -/
structure Channel where
  bankA       : Bank
  bankB       : Bank
  active      : BankId
  revision    : BitVec 16
  takePending : Bool
  lastTake    : TakeResult
  state       : ChanState
  dlyEff      : Option Nat
  frame       : BitVec 32
  listKind    : Option ListKind
  outcome     : Option DispatchOutcome
  readback    : Option SelReadback
  counters    : ChanCounters
  resolved    : Option Resolved
deriving DecidableEq, Repr

/-! ## Profile table (R133–R148) -/

/-- A profile content: kind, shape and coefficients. -/
structure Content where
  shape  : Shape
  coeffs : List Int
deriving DecidableEq, Repr

/-- A profile entry: EMPTY without active content, ACTIVE_WITH_PENDING with pending content. -/
structure Profile where
  active  : Option Content
  pending : Option Content
  users   : Nat
deriving DecidableEq, Repr

/-! ## Render engine (R149–R162) -/

/-- The contents a job captured at its start. -/
structure Captured where
  v : Content
  h : Content
  m : Content
deriving DecidableEq, Repr

/-- A code word of a picture of a pass that failed (R154). -/
structure FailedWord where
  pass : Nat
  pic  : Nat
  word : CodeWord
deriving DecidableEq, Repr

/-- A job record. It is QUEUED in the queue and RUNNING in a lane. -/
structure Job where
  chan        : Chan
  frame       : BitVec 32
  outStd      : StdId
  srcStd      : StdId
  deadline    : Nat
  passes      : List PassRec
  slots       : List SlotNo
  fields      : Option EntryNo × Option EntryNo × Option EntryNo
  resolved    : Resolved
  captured    : Option Captured
  dest        : SlotNo
  start       : Option Nat
  completion  : Option Nat
  failed      : List FailedWord
  onAirFailed : List CodeWord
deriving DecidableEq, Repr

/-! ## Programme outputs and auxiliary lines (R163–R175) -/

/-- Display states. -/
inductive Display where
  | black | live | repeat
deriving DecidableEq, Repr

/-- A slot held by an output with its output frame number. -/
structure Held where
  slot  : SlotNo
  frame : BitVec 32
deriving DecidableEq, Repr

/-- The output record. `emitStd` is the standard in whose structure the frame in progress is emitted,
`none` while nothing is emitted; `emitFailed` the code words of it that failed (R28). -/
structure Output where
  display    : Display
  onAir      : Option Held
  ready      : Option Held
  hold       : Option Nat
  lateRun    : Bool
  emitStd    : Option StdId
  emitFailed : List CodeWord
deriving DecidableEq, Repr

/-- Modes of an auxiliary line. -/
inductive AuxMode where
  | disabled | takeInput | tallyOutput | alertOutput
deriving DecidableEq, Repr

/-- Edge selects of an auxiliary line. -/
inductive AuxEdge where
  | rising | falling | both
deriving DecidableEq, Repr

/-- The auxiliary line record. Levels are `true` for HIGH; `pin` is the level put on the line from outside. -/
structure AuxLine where
  mode      : AuxMode
  edge      : AuxEdge
  mask      : BitVec 8
  debounced : Option Bool
  timer     : Option Nat
  expiry    : Option Nat
  triggers  : Nat
  pin       : Bool
deriving DecidableEq, Repr

/-! ## The state -/

/-- The state of the SV-2408. -/
structure State where
  pending   : List Instr
  dev       : Device
  ports     : PerPort PortRec
  units     : PerPort EventUnit
  refs      : Vector Reference 2
  timing    : Vector OutTiming 8
  slots     : Vector Slot 96
  free      : List SlotNo
  pool      : Pool
  dram      : Dram
  rxs       : Vector Receiver 8
  rings     : Vector Ring 8
  dets      : Vector Detector 8
  chans     : Vector Channel 8
  profiles  : Vector Profile 16
  queue     : List Job
  lanes     : Vector (Option Job) 2
  outputs   : Vector Output 8
  aux       : Vector AuxLine 4
  /-- The model's own counter, to which the free values of samples never written are applied. -/
  freeCount : Nat
  /-- The model's own counter of pictures left incomplete, to which the free values of their samples are
  applied. -/
  partials  : Nat
deriving DecidableEq, Repr

/-! ## Reset values -/

/-- A port at power-on and pin reset (R189). -/
def PortRec.reset : PortRec :=
  { mailbox := .idle, held := none, submitRefused := false, framingError := false, peers := [],
    overflow := false, staging := none, dout := [] }

/-- The number of sources of a group: 5 + 2 · 2 + 8 · 4 + 8 · 5 = 81 (file 12). -/
def groupSize (g : GroupNo) : Nat :=
  if g.val = 0 then 5 else if g.val ≤ 2 then 2 else if g.val ≤ 10 then 4 else 5

/-- Whether the source at a position of a group is a condition source (file 12). -/
def isCondition (g : GroupNo) (i : Nat) : Bool :=
  if g.val = 0 then false
  else if g.val ≤ 2 then i = 0
  else if g.val ≤ 10 then i = 3
  else i = 0 || i = 2

/-- Every source of the group enabled. -/
def allEnables (g : GroupNo) : Word := BitVec.ofNat 16 (2 ^ groupSize g - 1)

/-- BOTH for every condition source of the group: bits 2i and 2i + 1 (R196). -/
def bothEdges (g : GroupNo) : Word :=
  (List.range 5).foldl (fun w i => if isCondition g i then w ||| (3#16 <<< (2 * i)) else w) 0#16

/-- An event unit at power-on and pin reset (R197). -/
def EventUnit.reset : EventUnit :=
  { flags := Vector.replicate 19 0#16, enables := Vector.ofFn allEnables, edges := Vector.ofFn bothEdges,
    mode := .onRead, master := true }

/-- A reference after any reset (R15). -/
def Reference.reset (n : RefNo) : Reference :=
  { state := .absent, tAlign := Config.resetTAlign n, epoch := 0, kind := .synthetic,
    interval := Config.resetTAlign n, lastPulse := none, good := 0, oot := 0 }

/-- A slot record as it stands in FREE or RETIRED: everything absent or clear, but for the fault flag that
RETIRED keeps (R17). -/
def Slot.cleared (st : SlotState) (fault : Bool) : Slot :=
  { state := st, kind := none, owner := none, std := none, seq := none, raw := none, stamp1 := none,
    stamp2 := none, tag1 := none, tag2 := none, breakBefore := false, damaged := false, fault := fault,
    retirePending := false, pins := 0 }

/-- The fault record with reason NONE. -/
def FaultRec.reset : FaultRec := { reason := .none, slot := none, reader := none, time := none }

/-- The store's counters at 0 and reason NONE (R35). -/
def Pool.reset : Pool :=
  { correctable := 0, uncorrectable := 0, allocFailures := 0, transitionErrors := 0, faultRec := .reset }

/-- An empty run. -/
def Run.empty : Run := { layout := none, pRun := 0, count := 0, periods := [] }

/-- A receiver after any reset (R58). -/
def Receiver.reset : Receiver :=
  { state := .noSignal, detected := none, lastLocked := none, layout := none, run := .empty, pRef := none,
    lastRaw := none, seq := 0, capture := .none, lineErrors := 0, linkErrors := 0, erroredFrames := 0,
    margin := 0, lowestMargin := 0, sig1 := none, sig2 := none, lossFrom := none, measure := none,
    lastClosed := none, prevActive := false, frameErrored := false, nextPos := 0, posReceived := false,
    missed := false }

/-- A ring after any reset (R75). -/
def Ring.reset : Ring :=
  { depth := 7, cadenceEnable := true, threshold := 4, members := [], window := [], prevRaw := none,
    prevSmooth := none, lastError := none, pendingBreak := true, lastHorizon := none, admitted := 0,
    skips := 0, overruns := 0, steps := 0 }

/-- A detector after any reset (R91). -/
def Detector.reset : Detector :=
  { state := .video, history := [], buf1 := none, buf2 := none, lastM := none, phase := none, candidates := 0,
    mIntra := none, followsSkip := false, passCount := 0, failCount := 0, verdict := none, anchor := none, half := 0,
    cycleBegun := false, nextFilm := 0, lastFilmStamp := none, breakSeen := false, lastSlot := none,
    openFilm := none, films := [], breaks := 0 }

/-- The built-in default bank record of a channel (R112). -/
def Bank.builtIn (c : Chan) : Bank :=
  { feed := c, outStd := 7, ref := 1, expected := none, offset := 0, delay := none, mode := .blend,
    ditherPeriod := .off, ditherPhase := 0, lossHold := 25, vProf := none, hProf := none, mProf := none,
    enable := false }

/-- The five counters at 0. -/
def ChanCounters.zero : ChanCounters := { presented := 0, late := 0, repeats := 0, srcEarly := 0, srcLate := 0 }

/-- A channel at power-on and pin reset with one default bank record in both banks (R112). -/
def Channel.reset (bank : Bank) : Channel :=
  { bankA := bank, bankB := bank, active := .a, revision := 0, takePending := false, lastTake := .none,
    state := .stopped, dlyEff := none, frame := 0, listKind := none, outcome := none, readback := none,
    counters := .zero, resolved := none }

/-- An output after any reset (R169). -/
def Output.reset : Output :=
  { display := .black, onAir := none, ready := none, hold := none, lateRun := false, emitStd := none,
    emitFailed := [] }

/-- An auxiliary line whose mode, edge select and mask take the values of R175 without an image, with the
level that is on its pin. -/
def AuxLine.reset (pin : Bool) : AuxLine :=
  { mode := .disabled, edge := .falling, mask := 0, debounced := none, timer := none, expiry := none,
    triggers := 0, pin := pin }

/-- An entry that is ACTIVE with a content and no user. -/
def Profile.ofContent (c : Content) : Profile := { active := some c, pending := none, users := 0 }

/-- An EMPTY entry. -/
def Profile.empty : Profile := { active := none, pending := none, users := 0 }

/-- The built-in content of an entry, for entries 0..5 (R140). -/
def builtInContent (e : EntryNo) : Option Content :=
  if e.val ≤ 1 then some ⟨.resample 4 64, Config.cubic⟩
  else if e.val = 2 then some ⟨.matrix, Config.identityMatrix⟩
  else if e.val = 3 then some ⟨.matrix, Config.sdToHd⟩
  else if e.val = 4 then some ⟨.matrix, Config.hdToSd⟩
  else if e.val = 5 then some ⟨.resample 2 64, Config.linear⟩
  else none

/-- An entry at power-on and pin reset (R148). -/
def Profile.reset (e : EntryNo) : Profile := { active := builtInContent e, pending := none, users := 0 }

/-- An output's frame timing when its active binding is compatible: frame 0 of the current alignment period,
at house time o (R15). -/
def OutTiming.reset : OutTiming := { last := none, next := 0, grid := .at 0 0, lastPeriod := 0 }

/-- The machine right after power-on reset: start-up begins with the initialization of the DRAM (R185). -/
def State.reset : State :=
  { pending := []
    dev := { houseTime := 0, state := .starting, stage := .dramInit, clk := 0, cause := .powerOn,
             load := .skipped, resetN := false }
    ports := { a := .reset, b := .reset }
    units := { a := .reset, b := .reset }
    refs := Vector.ofFn Reference.reset
    timing := Vector.replicate 8 .reset
    slots := Vector.replicate 96 (.cleared .free false)
    free := List.finRange 96
    pool := .reset
    dram := []
    rxs := Vector.replicate 8 .reset
    rings := Vector.replicate 8 .reset
    dets := Vector.replicate 8 .reset
    chans := Vector.ofFn fun c => .reset (.builtIn c)
    profiles := Vector.ofFn Profile.reset
    queue := []
    lanes := Vector.replicate 2 none
    outputs := Vector.replicate 8 .reset
    aux := Vector.replicate 4 (.reset true)
    freeCount := 0
    partials := 0 }

end Sys2Proof.Machine
end

