-- ==== Sys2Proof/Machine/Flags.lean ====
section
/-! DEFINITION. The event units (file 12): sources, setting and clearing flags, conditions, the EVENT line. -/

namespace Sys2Proof.Machine

/-- The 81 event sources (file 12, Groups and sources). -/
inductive Source where
  | resetOccurred | poolEmpty | slotFault | peerChange | requestDone
  | refLock (n : RefNo) | refRetimed (n : RefNo)
  | channelState (c : Chan) | outputLate (c : Chan) | takeDone (c : Chan) | holding (c : Chan)
  | feedLock (f : Feed) | standardChange (f : Feed) | cadence (f : Feed) | stampStep (f : Feed)
  | ringOverrun (f : Feed)
deriving DecidableEq, Repr

/-- Group 0, DEVICE. -/
def deviceGroup : GroupNo := 0
/-- Groups 1 and 2: REF0 and REF1. -/
def refGroup (n : RefNo) : GroupNo := ⟨1 + n.val, by omega⟩
/-- Groups 3..10: CH0..CH7. -/
def chanGroup (c : Chan) : GroupNo := ⟨3 + c.val, by omega⟩
/-- Groups 11..18: FEED0..FEED7. -/
def feedGroup (f : Feed) : GroupNo := ⟨11 + f.val, by omega⟩

/-- A source's group. -/
def Source.group : Source → GroupNo
  | .resetOccurred | .poolEmpty | .slotFault | .peerChange | .requestDone => deviceGroup
  | .refLock n | .refRetimed n => refGroup n
  | .channelState c | .outputLate c | .takeDone c | .holding c => chanGroup c
  | .feedLock f | .standardChange f | .cadence f | .stampStep f | .ringOverrun f => feedGroup f

/-- A source's position in its group. -/
def Source.pos : Source → Nat
  | .resetOccurred | .refLock _ | .channelState _ | .feedLock _ => 0
  | .poolEmpty | .refRetimed _ | .outputLate _ | .standardChange _ => 1
  | .slotFault | .takeDone _ | .cadence _ => 2
  | .peerChange | .holding _ | .stampStep _ => 3
  | .requestDone | .ringOverrun _ => 4

/-- The bit of a position in a flag, enable or condition word. -/
def bitAt (i : Nat) : Word := 1#16 <<< i

/-- Set a source's flag in one unit, enabled or not (R190). -/
def EventUnit.setFlag (u : EventUnit) (src : Source) : EventUnit :=
  { u with flags := u.flags.set src.group (u.flags[src.group] ||| bitAt src.pos) }

/-- Whether a unit's edge select for a condition source includes a gain or a loss (R190, R196). -/
def EventUnit.edgeOn (u : EventUnit) (src : Source) (gain : Bool) : Bool :=
  u.edges[src.group].getLsbD (2 * src.pos + (if gain then 0 else 1))

/-- A change of a condition sets the flag where the edge select includes it (R190). -/
def EventUnit.edge (u : EventUnit) (src : Source) (gain : Bool) : EventUnit :=
  if u.edgeOn src gain then u.setFlag src else u

/-- The unit of a port. -/
def State.unit (s : State) (p : Port) : EventUnit := s.units.get p

/-- Replace the unit of a port. -/
def State.setUnit (s : State) (p : Port) (u : EventUnit) : State := { s with units := s.units.set p u }

/-- Raise a pulse or alarm-level source in one port's unit (PEER_CHANGE and REQUEST_DONE, R190). -/
def raiseAt (p : Port) (src : Source) (s : State) : State := s.setUnit p ((s.unit p).setFlag src)

/-- Raise a source in both units (R190). -/
def raise (src : Source) (s : State) : State :=
  { s with units := ⟨s.units.a.setFlag src, s.units.b.setFlag src⟩ }

/-- A condition source changes from `before` to `after`; each unit applies its own edge select (R190). -/
def condition (src : Source) (before after : Bool) (s : State) : State :=
  if before = after then s
  else { s with units := ⟨s.units.a.edge src after, s.units.b.edge src after⟩ }

/-- Whether the detector is in a locked state: the CADENCE condition (R90). -/
def DetState.isLocked : DetState → Bool
  | .locked32 | .locked22 => true
  | .video | .candidate32 | .candidate22 => false

/-- The conditions word of a group (R193): the condition sources that hold, and POOL_EMPTY's condition,
"the free list is empty" (R22). -/
def conditionsWord (s : State) (g : GroupNo) : Word :=
  if g.val = 0 then (if s.free.isEmpty then bitAt 1 else 0#16)
  else if h : g.val ≤ 2 then
    (if s.refs[g.val - 1].state = .locked then bitAt 0 else 0#16)
  else if h : g.val ≤ 10 then
    (if s.chans[g.val - 3].state = .holding then bitAt 3 else 0#16)
  else
    (if s.rxs[g.val - 11].state = .locked then bitAt 0 else 0#16) |||
    (if s.dets[g.val - 11].state.isLocked then bitAt 2 else 0#16)

/-- The enabled flags of a group that are set. -/
def EventUnit.live (u : EventUnit) (g : GroupNo) : Word := u.flags[g] &&& u.enables[g]

/-- The groups with an enabled flag set, in ascending number. -/
def EventUnit.liveGroups (u : EventUnit) : List GroupNo :=
  (List.finRange 19).filter fun g => u.live g ≠ 0#16

/-- The EVENT line of a port: asserted while the master enable is on and an enabled flag is set, released
while RESET_N is asserted (R192). -/
def eventLine (s : State) (p : Port) : Bool :=
  !s.dev.resetN && (s.unit p).master && !(s.unit p).liveGroups.isEmpty

/-- The named flags that a clear takes effect on: all but POOL_EMPTY while the free list is empty (R191). -/
def clearable (s : State) (g : GroupNo) (named : Word) : Word :=
  if g.val = 0 && s.free.isEmpty then named &&& ~~~(bitAt 1) else named

/-- Clear the named flags of a group in one unit under R191. -/
def clearFlags (p : Port) (g : GroupNo) (named : Word) (s : State) : State :=
  let u := s.unit p
  s.setUnit p { u with flags := u.flags.set g (u.flags[g] &&& ~~~(clearable s g named)) }

/-- Soft reset clears every flag and keeps enables, edge selects, clear mode and master enable (R197). -/
def EventUnit.clearAll (u : EventUnit) : EventUnit := { u with flags := Vector.replicate 19 0#16 }

end Sys2Proof.Machine
end

