-- ==== Sys2Proof/Machine/Ops.lean ====
section
/-! DEFINITION. The named operations over the state that every block uses: passing time, the records by
index, and the frame store's own operations (file 02). -/

namespace Sys2Proof.Machine

/-! ## Passing time -/

/-- `dt` periods of CLK27 pass: the house time counter advances by one each in READY, stops at its maximum,
and is held at 0 in STARTING (R1), where the periods of the start-up stage are counted (R185, R187). While
RESET_N is asserted the part is held in reset and the start-up that follows has not begun (R192, log entry 22). -/
def State.elapse (s : State) (dt : Nat) : State :=
  match s.dev.state with
  | .ready => { s with dev := { s.dev with houseTime := satAdd Config.houseMax s.dev.houseTime dt } }
  | .starting => if s.dev.resetN then s else { s with dev := { s.dev with clk := s.dev.clk + dt } }

/-- House time now. -/
def State.now (s : State) : Nat := s.dev.houseTime

/-- The part is READY. -/
def State.isReady (s : State) : Bool := s.dev.state = .ready

/-! ## Records by index -/

/-- Update one record of a bank of records. -/
def modifyAt {α : Type} {n : Nat} (v : Vector α n) (i : Fin n) (f : α → α) : Vector α n := v.set i (f v[i])

/-- Change a port's record. -/
def State.modPort (s : State) (p : Port) (f : PortRec → PortRec) : State :=
  { s with ports := s.ports.set p (f (s.ports.get p)) }
/-- Change a reference record. -/
def State.modRef (s : State) (n : RefNo) (f : Reference → Reference) : State :=
  { s with refs := modifyAt s.refs n f }
/-- Change an output's frame timing. -/
def State.modTiming (s : State) (c : Chan) (f : OutTiming → OutTiming) : State :=
  { s with timing := modifyAt s.timing c f }
/-- Change a slot record. -/
def State.modSlot (s : State) (n : SlotNo) (f : Slot → Slot) : State :=
  { s with slots := modifyAt s.slots n f }
/-- Change a receiver record. -/
def State.modRx (s : State) (f : Feed) (g : Receiver → Receiver) : State := { s with rxs := modifyAt s.rxs f g }
/-- Change a ring record. -/
def State.modRing (s : State) (f : Feed) (g : Ring → Ring) : State := { s with rings := modifyAt s.rings f g }
/-- Change a detector record. -/
def State.modDet (s : State) (f : Feed) (g : Detector → Detector) : State := { s with dets := modifyAt s.dets f g }
/-- Change a channel record. -/
def State.modChan (s : State) (c : Chan) (f : Channel → Channel) : State := { s with chans := modifyAt s.chans c f }
/-- Change a profile entry. -/
def State.modProfile (s : State) (e : EntryNo) (f : Profile → Profile) : State :=
  { s with profiles := modifyAt s.profiles e f }
/-- Change an output record. -/
def State.modOutput (s : State) (c : Chan) (f : Output → Output) : State :=
  { s with outputs := modifyAt s.outputs c f }
/-- Change an auxiliary line. -/
def State.modAux (s : State) (x : AuxNo) (f : AuxLine → AuxLine) : State := { s with aux := modifyAt s.aux x f }

/-- Apply an operation for each index of a list, in the list's order. -/
def forEach {α : Type} (l : List α) (f : α → State → State) (s : State) : State :=
  l.foldl (fun s x => f x s) s

/-- The channels in ascending order. -/
def allChans : List Chan := List.finRange 8

/-! ## The frame store -/

/-- The slot is in one of the six states of use (R31). -/
def SlotState.inUse : SlotState → Bool
  | .filling | .complete | .detached | .rendering | .ready | .onAir => true
  | .free | .retired => false

/-- The number of slots in a state. -/
def stateCount (s : State) (st : SlotState) : Nat := s.slots.toList.countP fun x => x.state = st

/-- The size of the retired set (R30). -/
def retiredCount (s : State) : Nat := stateCount s .retired

/-- A request from a state that the transition table does not give: counted, the slot unchanged (R18). -/
def transitionError (s : State) : State :=
  { s with pool := { s.pool with transitionErrors := satAdd Config.max16 s.pool.transitionErrors 1 } }

/-- SLOT_FAULT is raised and replaces the fault record (R29). -/
def slotFault (reason : FaultReason) (n : SlotNo) (reader : Option Reader) (s : State) : State :=
  raise .slotFault { s with pool := { s.pool with faultRec := ⟨reason, some n, reader, some s.now⟩ } }

/-- The slot enters FREE: its record is cleared and it joins the tail of the free list (R17, R19). -/
def enterFree (n : SlotNo) (s : State) : State :=
  { s with slots := s.slots.set n (.cleared .free false), free := s.free ++ [n] }

/-- The slot enters RETIRED: its record is cleared but for the fault flag (R17). -/
def enterRetired (n : SlotNo) (s : State) : State :=
  { s with slots := s.slots.set n (.cleared .retired s.slots[n].fault) }

/-- Release: a slot in use goes to RETIRED or to the free list by its flags (R25). -/
def release (n : SlotNo) (s : State) : State :=
  let sl := s.slots[n]
  if sl.state.inUse then
    if sl.retirePending || sl.fault then
      if retiredCount s < Config.retiredMax then enterRetired n s
      else slotFault .retireLimit n none (enterFree n s)
    else enterFree n s
  else transitionError s

/-- Release from one state of the transition table (R18). -/
def releaseFrom (st : SlotState) (n : SlotNo) (s : State) : State :=
  if s.slots[n].state = st then release n s else transitionError s

/-- A transition of a slot in use to another state of use (R18). -/
def moveSlot (from_ to_ : SlotState) (n : SlotNo) (s : State) : State :=
  if s.slots[n].state = from_ then s.modSlot n fun x => { x with state := to_ } else transitionError s

/-- An allocation that finds the free list empty: counted, and POOL_EMPTY is set in both units (R22). -/
def allocationFailure (s : State) : State :=
  raise .poolEmpty
    { s with pool := { s.pool with allocFailures := satAdd Config.max16 s.pool.allocFailures 1 } }

/-- Allocation takes the head of the free list and sets up its record (R17, R19, R22). -/
def allocate (record : Slot) (s : State) : Option SlotNo × State :=
  match s.free with
  | [] => (none, allocationFailure s)
  | n :: rest => (some n, { s with slots := s.slots.set n record, free := rest })

/-- The record of an allocation for capture (R17). -/
def captureRecord (f : Feed) (std : StdId) (seq : BitVec 32) (raw : Nat) (stamp1 : Int) (stamp2 : Option Int)
    (brk : Bool) : Slot :=
  { Slot.cleared .filling false with
    kind := some .input, owner := some f, std := some std, seq := some seq, raw := some raw,
    stamp1 := some stamp1, stamp2 := stamp2, breakBefore := brk }

/-- The record of an allocation for a destination (R17). -/
def destRecord (c : Chan) (std : StdId) (frame : BitVec 32) : Slot :=
  { Slot.cleared .rendering false with kind := some .output, owner := some c, std := some std, seq := some frame }

/-- A job pins a source slot, which is COMPLETE (R23). -/
def pin (n : SlotNo) (s : State) : State :=
  if s.slots[n].state = .complete then s.modSlot n fun x => { x with pins := x.pins + 1 } else transitionError s

/-- A job drops its pin: a DETACHED slot whose count falls to 0 is released (R23). -/
def unpin (n : SlotNo) (s : State) : State :=
  let sl := s.slots[n]
  if sl.state = .complete then s.modSlot n fun x => { x with pins := x.pins - 1 }
  else if sl.state = .detached then
    let s := s.modSlot n fun x => { x with pins := x.pins - 1 }
    if sl.pins ≤ 1 then release n s else s
  else transitionError s

/-- The store's part of a removal from a ring: a COMPLETE slot detaches while pinned and is released
otherwise (R18, R65). -/
def detachOrRelease (n : SlotNo) (s : State) : State :=
  if s.slots[n].state = .complete then
    if s.slots[n].pins = 0 then release n s else s.modSlot n fun x => { x with state := .detached }
  else transitionError s

/-! ## The DRAM (R16, log entry 6) -/

/-- Samples of one line of a slot: 1920 luma, 960 Cb, 960 Cr. -/
def lineSpan : Nat := 3840

/-- Samples of one slot: 1080 lines. -/
def slotSpan : Nat := 1080 * lineSpan

/-- The place of a component in a line. -/
def compBase : Component → Nat
  | .y => 0
  | .cb => 1920
  | .cr => 2880

/-- The number of samples a slot holds of a component on one line (R16). -/
def compRoom : Component → Nat
  | .y => 1920
  | .cb => 960
  | .cr => 960

/-- The address of a sample. -/
def sampleAddr (n : SlotNo) (line : Nat) (c : Component) (x : Nat) : Nat :=
  n.val * slotSpan + line * lineSpan + compBase c + x

/-- What an address holds, if it has been written. -/
def Dram.lookup : Dram → Nat → Option Sample
  | [], _ => none
  | (b, v) :: rest, a => if b = a then some v else Dram.lookup rest a

/-- Pair values with consecutive addresses. -/
def addressed : Nat → List Sample → Dram
  | _, [] => []
  | a, v :: vs => (a, v) :: addressed (a + 1) vs

/-- Write consecutive addresses. -/
def Dram.write (m : Dram) (a : Nat) (vs : List Sample) : Dram :=
  m.filter (fun e => e.1 < a) ++ addressed a vs ++ m.filter (fun e => a + vs.length ≤ e.1)

/-- The canonical form: addresses strictly rising. -/
def Dram.wf : Dram → Bool
  | [] => true
  | [_] => true
  | (a, _) :: (b, v) :: rest => a < b && Dram.wf ((b, v) :: rest)

/-- Read a sample: a sample never written reads as a free value (R35, log entry 6). -/
def readSample (s : State) (n : SlotNo) (line : Nat) (c : Component) (x : Nat) : Sample :=
  let a := sampleAddr n line c x
  (s.dram.lookup a).getD (Config.freeSample s.freeCount a)

/-- Write one component of one line of a slot; a slot has 1080 lines. -/
def writeComponent (n : SlotNo) (line : Nat) (c : Component) (vs : List Sample) (s : State) : State :=
  if line < 1080 then
    { s with dram := s.dram.write (sampleAddr n line c 0) (vs.take (compRoom c)) }
  else s

/-- Write the three components of one line of a slot. -/
def writeLine (n : SlotNo) (line : Nat) (luma cb cr : List Sample) (s : State) : State :=
  writeComponent n line .cr cr (writeComponent n line .cb cb (writeComponent n line .y luma s))

/-- One component of a line of a picture left incomplete: free values, one for each sample. -/
def partialSamples (mark : Nat) (n : SlotNo) (line : Nat) (c : Component) (width : Nat) : List Sample :=
  (List.range width).map fun x => Config.freePartial mark (sampleAddr n line c x)

/-- One line of a picture left incomplete. -/
def partialLine (mark : Nat) (n : SlotNo) (width line : Nat) (s : State) : State :=
  writeLine n line (partialSamples mark n line .y width) (partialSamples mark n line .cb (width / 2))
    (partialSamples mark n line .cr (width / 2)) s

/-- The picture area of a standard in a slot is left incomplete: a job that was writing it stopped part of the
way (R157). What it wrote is not known, so each sample of the area takes a free value; the rest of the slot,
and every other slot, keep what they hold (R16, log entry 6). -/
def leavePartial (n : SlotNo) (std : StdId) (s : State) : State :=
  let d := Config.std std
  { forEach (List.range d.activeLines) (partialLine s.partials n d.width) s with partials := s.partials + 1 }

/-- Clamp a sample value to the picture codes 4..1019 (00_scope, Sample values). -/
def clampCode (x : Int) : Sample := BitVec.ofInt 10 (clampInt x 4 1019)

/-- An active sample as received, clamped (R37). -/
def clampSample (x : Sample) : Sample := clampCode x.toNat

end Sys2Proof.Machine
end

