-- ==== Sys2Proof/Machine/Operands.lean ====
section
/-! DEFINITION. Parameter words in, result words out: the forms of the request code table and its notes
(file 11). A decoder answers `none` where the request does not decode (R179). -/

namespace Sys2Proof.Machine

/-! ## Result words (note 3) -/

/-- A quantity that fits in 16 bits; a signed one in two's complement. -/
def w16 (n : Int) : List Word := [BitVec.ofInt 16 n]

/-- A 32-bit quantity: two words, the high one first. -/
def w32 (n : Int) : List Word :=
  let x := BitVec.ofInt 32 n
  [x.extractLsb' 16 16, x.extractLsb' 0 16]

/-- A house time: four words, the high one first. -/
def w64 (n : Int) : List Word :=
  let x := BitVec.ofInt 64 n
  [x.extractLsb' 48 16, x.extractLsb' 32 16, x.extractLsb' 16 16, x.extractLsb' 0 16]

/-- A flag: one word, 0 or 1. -/
def wFlag (b : Bool) : List Word := [if b then 1#16 else 0#16]

/-- An optional value: a presence word, and `size` value words that are 0 when it is absent. -/
def wOpt {α : Type} (size : Nat) (enc : α → List Word) : Option α → List Word
  | some x => 1#16 :: enc x
  | none => 0#16 :: List.replicate size 0#16

/-- A list: its length, then its elements. -/
def wList {α : Type} (enc : α → List Word) (l : List α) : List Word := w16 l.length ++ l.flatMap enc

/-! ## Codes of enumerated values (note 1) -/

/-- Status codes (R181). -/
def Status.code : Status → Byte
  | .ok => 0#8 | .invalid => 1#8 | .refused => 2#8 | .stale => 3#8 | .notReady => 4#8 | .aborted => 5#8
  | .already => 6#8 | .notRetired => 7#8 | .committed => 8#8 | .committedPending => 9#8 | .empty => 10#8
  | .checksumError => 11#8 | .unrecognised => 12#8 | .validationFailed => 13#8 | .noResponse => 14#8

/-- Reasons of REFUSED (R181). -/
inductive Reason where
  | refIncompatible | feedInUse | notStopped | limitReached | builtIn | noStaging
deriving DecidableEq, Repr

/-- Numbers of the reasons of REFUSED (R181). -/
def Reason.word : Reason → Word
  | .refIncompatible => 1#16 | .feedInUse => 2#16 | .notStopped => 3#16 | .limitReached => 4#16
  | .builtIn => 5#16 | .noStaging => 6#16

/-- Position in the list of values of the device state. -/
def DevState.code : DevState → Nat
  | .starting => 0 | .ready => 1
/-- Position in the list of values of the reset cause. -/
def Cause.code : Cause → Nat
  | .powerOn => 0 | .pin => 1 | .request => 2
/-- Position in the list of values of the load result. -/
def LoadResult.code : LoadResult → Nat
  | .loaded => 0 | .skipped => 1 | .failed => 2
/-- Position in the list of values of the reference state. -/
def RefState.code : RefState → Nat
  | .absent => 0 | .locking => 1 | .locked => 2 | .holdover => 3
/-- Position in the list of values of the epoch kind. -/
def EpochKind.code : EpochKind → Nat
  | .synthetic => 0 | .provisional => 1 | .pulse => 2
/-- Position in the list of values of the slot state. -/
def SlotState.code : SlotState → Nat
  | .free => 0 | .filling => 1 | .complete => 2 | .detached => 3 | .rendering => 4 | .ready => 5
  | .onAir => 6 | .retired => 7
/-- Position in the list of values of the slot kind. -/
def SlotKind.code : SlotKind → Nat
  | .input => 0 | .output => 1
/-- Position in the list of values of the field role of a film tag. -/
def TagRole.code : TagRole → Nat
  | .first => 0 | .second => 1 | .dropped => 2
/-- Position in the list of values of the fault record's reason. -/
def FaultReason.code : FaultReason → Nat
  | .none => 0 | .uncorrectable => 1 | .retireLimit => 2
/-- Position in the list "lane 0, lane 1, output 0..7, or none" (R29). -/
def readerCode : Option Reader → Nat
  | some (.lane l) => l.val
  | some (.output c) => 2 + c.val
  | none => 10
/-- Position in the list of values of the receiver state. -/
def RxState.code : RxState → Nat
  | .noSignal => 0 | .acquiring => 1 | .locked => 2 | .unknown => 3
/-- Position in the list of values of the detector state. -/
def DetState.code : DetState → Nat
  | .video => 0 | .candidate32 => 1 | .locked32 => 2 | .candidate22 => 3 | .locked22 => 4
/-- Position in the list of values of a repeat flag. -/
def RepeatFlag.code : RepeatFlag → Nat
  | .set => 0 | .clear => 1 | .unknown => 2
/-- Position in the list of values of the verdict. -/
def Verdict.code : Verdict → Nat
  | .pass => 0 | .fail => 1 | .static => 2 | .unknown => 3
/-- Position in the list of values of the temporal mode. -/
def TempMode.code : TempMode → Nat
  | .blend => 0 | .nearest => 1 | .filmAware => 2
/-- Position in the list of values of the dither period. -/
def DitherPeriod.code : DitherPeriod → Nat
  | .off => 0 | .d4 => 1 | .d8 => 2 | .d16 => 3 | .d32 => 4
/-- Position in the list of values of the channel state. -/
def ChanState.code : ChanState → Nat
  | .stopped => 0 | .waitFeed => 1 | .priming => 2 | .running => 3 | .holding => 4
/-- Position in the list of values of the list kind. -/
def ListKind.code : ListKind → Nat
  | .frames => 0 | .fields => 1 | .film => 2
/-- Position in the list of values of the last dispatch outcome. -/
def DispatchOutcome.code : DispatchOutcome → Nat
  | .job => 0 | .noPicture => 1 | .noSlot => 2
/-- Selection case codes (note 1). -/
def SelCase.code : SelCase → Nat
  | .blend => 0 | .nearest => 1 | .single => 2 | .early => 3 | .late => 4
/-- Position in the list of values of the display state. -/
def Display.code : Display → Nat
  | .black => 0 | .live => 1 | .repeat => 2
/-- Position in the list of values of an auxiliary line's mode. -/
def AuxMode.code : AuxMode → Nat
  | .disabled => 0 | .takeInput => 1 | .tallyOutput => 2 | .alertOutput => 3
/-- Position in the list of values of an auxiliary line's edge select. -/
def AuxEdge.code : AuxEdge → Nat
  | .rising => 0 | .falling => 1 | .both => 2
/-- A level by its position in the list "HIGH, LOW". -/
def levelCode (high : Bool) : Nat := if high then 0 else 1

/-! ## Enumerated values from codes -/

/-- A temporal mode from its position. -/
def TempMode.ofCode : Nat → Option TempMode
  | 0 => some .blend | 1 => some .nearest | 2 => some .filmAware | _ => none
/-- A dither period from its position. -/
def DitherPeriod.ofCode : Nat → Option DitherPeriod
  | 0 => some .off | 1 => some .d4 | 2 => some .d8 | 3 => some .d16 | 4 => some .d32 | _ => none
/-- An auxiliary line's mode from its position. -/
def AuxMode.ofCode : Nat → Option AuxMode
  | 0 => some .disabled | 1 => some .takeInput | 2 => some .tallyOutput | 3 => some .alertOutput | _ => none
/-- An auxiliary line's edge select from its position. -/
def AuxEdge.ofCode : Nat → Option AuxEdge
  | 0 => some .rising | 1 => some .falling | 2 => some .both | _ => none
/-- A flag parameter: 0 or 1. -/
def flagOf : Nat → Option Bool
  | 0 => some false | 1 => some true | _ => none
/-- An index below a bound. -/
def idx (n : Nat) (v : Nat) : Option (Fin n) := if h : v < n then some ⟨v, h⟩ else none
/-- An index below a bound, or AUTO coded 255. -/
def autoIdx (n : Nat) (v : Nat) : Option (Option (Fin n)) :=
  if v = 255 then some none else (idx n v).map some

/-! ## Parameter words -/

/-- The high byte of a word. -/
def hiByte (w : Word) : Nat := w.toNat / 256
/-- The low byte of a word. -/
def loByte (w : Word) : Nat := w.toNat % 256
/-- A 32-bit value from two words, the high one first. -/
def val32 (hi lo : Word) : Nat := hi.toNat * 65536 + lo.toNat

/-- No parameter word. -/
def params0 : List Word → Option Unit
  | [] => some ()
  | _ => none
/-- One parameter word. -/
def params1 : List Word → Option Nat
  | [a] => some a.toNat
  | _ => none
/-- Two parameter words. -/
def params2 : List Word → Option (Nat × Nat)
  | [a, b] => some (a.toNat, b.toNat)
  | _ => none
/-- Three parameter words. -/
def params3 : List Word → Option (Nat × Nat × Nat)
  | [a, b, c] => some (a.toNat, b.toNat, c.toNat)
  | _ => none
/-- Four parameter words. -/
def params4 : List Word → Option (Nat × Nat × Nat × Nat)
  | [a, b, c, d] => some (a.toNat, b.toNat, c.toNat, d.toNat)
  | _ => none
/-- SET_REFERENCE: the reference, and T_align as two words. -/
def paramsReference : List Word → Option (Nat × Nat)
  | [r, hi, lo] => some (r.toNat, val32 hi lo)
  | _ => none
/-- PROFILE_DATA: the offset and four words. -/
def paramsData : List Word → Option (Nat × List Word)
  | [o, a, b, c, d] => some (o.toNat, [a, b, c, d])
  | _ => none

/-- A decoded SET_CHANNEL (note 2): the channel number, the expected revision, and the field items as
(field code, value) in the order sent. -/
structure ChannelEdit where
  chan     : Nat
  expected : Option (BitVec 16)
  items    : List (Nat × Nat)
deriving DecidableEq, Repr

/-- The field items of a SET_CHANNEL; output offset (4) and delay (5) have a low byte of 0 and two value
words (note 2). The first argument bounds the number of items. -/
def parseItems : Nat → List Word → Option (List (Nat × Nat))
  | _, [] => some []
  | 0, _ :: _ => none
  | k + 1, w :: rest =>
    if hiByte w = 4 ∨ hiByte w = 5 then
      match rest with
      | hi :: lo :: more =>
        if loByte w = 0 then (parseItems k more).map ((hiByte w, val32 hi lo) :: ·) else none
      | _ => none
    else if hiByte w ≤ 13 then (parseItems k rest).map ((hiByte w, loByte w) :: ·)
    else none

/-- SET_CHANNEL: 2..8 parameter words (note 2). -/
def paramsChannel : List Word → Option ChannelEdit
  | head :: rest =>
    if 1 ≤ rest.length ∧ rest.length ≤ 7 then
      if loByte head = 1 then
        match rest with
        | rev :: items => (parseItems 8 items).map fun l => ⟨hiByte head, some rev, l⟩
        | [] => none
      else if loByte head = 0 then (parseItems 8 rest).map fun l => ⟨hiByte head, none, l⟩
      else none
    else none
  | [] => none

/-- Write one field of a bank by its field code; `none` when the value lies outside the field's range. The
output offset's range depends on the output standard and is judged on the resulting bank (R94). -/
def Bank.setField (b : Bank) (code v : Nat) : Option Bank :=
  match code with
  | 0 => (idx 8 v).map fun x => { b with feed := x }
  | 1 => (idx 12 v).map fun x => { b with outStd := x }
  | 2 => (idx 2 v).map fun x => { b with ref := x }
  | 3 => (autoIdx 12 v).map fun x => { b with expected := x }
  | 4 => some { b with offset := v }
  | 5 => if v = 0xFFFFFFFF then some { b with delay := none }
         else if v ≤ 6000000 then some { b with delay := some v } else none
  | 6 => (TempMode.ofCode v).map fun x => { b with mode := x }
  | 7 => (DitherPeriod.ofCode v).map fun x => { b with ditherPeriod := x }
  | 8 => (idx 4 v).map fun x => { b with ditherPhase := x }
  | 9 => if v ≤ 250 then some { b with lossHold := v } else none
  | 10 => (autoIdx 16 v).map fun x => { b with vProf := x }
  | 11 => (autoIdx 16 v).map fun x => { b with hProf := x }
  | 12 => (autoIdx 16 v).map fun x => { b with mProf := x }
  | 13 => (flagOf v).map fun x => { b with enable := x }
  | _ => none

/-- Write every named field. -/
def Bank.setFields : List (Nat × Nat) → Bank → Option Bank
  | [], b => some b
  | (c, v) :: rest, b => (b.setField c v).bind (Bank.setFields rest)

/-- The period of a bank's output standard, P_out. -/
def Bank.pOut (b : Bank) : Nat := Config.pNom b.outStd

/-- A channel's active bank (R92). -/
def Channel.bank (c : Channel) : Bank := match c.active with | .a => c.bankA | .b => c.bankB

/-- A channel's next bank (R92). -/
def Channel.nextBank (c : Channel) : Bank := match c.active with | .a => c.bankB | .b => c.bankA

/-- R94: the output offset of a bank is less than the period of its output standard. -/
def Bank.offsetOk (b : Bank) : Bool := b.offset < b.pOut

/-! ## Result words of records -/

/-- AUTO is 255. -/
def wAuto {n : Nat} (x : Option (Fin n)) : List Word := w16 (match x with | some v => v.val | none => 255)

/-- The fields of a bank record in its table's order. -/
def Bank.words (b : Bank) : List Word :=
  w16 b.feed.val ++ w16 b.outStd.val ++ w16 b.ref.val ++ wAuto b.expected ++ w32 b.offset ++
  w32 (match b.delay with | some d => d | none => 0xFFFFFFFF) ++ w16 b.mode.code ++
  w16 b.ditherPeriod.code ++ w16 b.ditherPhase.val ++ w16 b.lossHold ++ wAuto b.vProf ++ wAuto b.hProf ++
  wAuto b.mProf ++ wFlag b.enable

/-- A film tag. -/
def FilmTag.words (t : FilmTag) : List Word := [t.number] ++ w16 t.role.code

/-- The smoothed stamps of a slot: one per field. -/
def Slot.stamps (x : Slot) : List Int := x.stamp1.toList ++ x.stamp2.toList

/-- GET_SLOT's result (R33). -/
def slotWords (n : SlotNo) (x : Slot) : List Word :=
  w16 n.val ++ w16 x.state.code ++ wOpt 1 (fun k : SlotKind => w16 k.code) x.kind ++
  wOpt 1 (fun o : Fin 8 => w16 o.val) x.owner ++ wOpt 1 (fun i : StdId => w16 i.val) x.std ++
  wOpt 2 (fun q : BitVec 32 => w32 q.toNat) x.seq ++ wOpt 4 (fun t : Nat => w64 t) x.raw ++
  wList w64 x.stamps ++ wOpt 2 FilmTag.words x.tag1 ++ wOpt 2 FilmTag.words x.tag2 ++
  wFlag x.breakBefore ++ wFlag x.damaged ++ wFlag x.fault ++ wFlag x.retirePending ++ w16 x.pins

end Sys2Proof.Machine
end

