-- ==== Sys2Proof/Machine/Ports.lean ====
section
/-! DEFINITION. The control ports (file 11): frames and the status byte, the mailbox, responses, peer
changes, and the requests that the ports own. -/

namespace Sys2Proof.Machine

/-- What a command answers. -/
abbrev Result := Host.Outcome State Fault Refusal

/-- A port's record. -/
def State.port (s : State) (p : Port) : PortRec := s.ports.get p

/-! ## The status byte and what a frame returns -/

/-- Bits 7–6 of the status byte. -/
def Mailbox.code : Mailbox → Nat
  | .idle => 0 | .busy _ => 1 | .done => 2

/-- The port status byte as it stands (frame layout, R176). -/
def statusByte (s : State) (p : Port) : Byte :=
  let r := s.port p
  BitVec.ofNat 8 (r.mailbox.code * 64 + (if eventLine s p then 32 else 0) +
    (if r.submitRefused then 16 else 0) + (if r.framingError then 8 else 0))

/-- A word's bytes, high byte first. -/
def wordBytes (w : Word) : List Byte := [w.extractLsb' 8 8, w.extractLsb' 0 8]

/-- The words a FETCH returns: status word, result count, and up to 24 result words from the offset; with no
response held, NO_RESPONSE, tag 0 and count 0 (R180). -/
def fetchWords (held : Option Response) (offset : Nat) : List Word :=
  match held with
  | none => [Status.noResponse.code ++ 0#8, 0#16]
  | some r => [r.status.code ++ r.tag, BitVec.ofNat 16 r.words.length] ++ (r.words.drop offset).take 24

/-- The tag of the held response, 0 when there is none (R180). -/
def heldTag (held : Option Response) : Byte :=
  match held with
  | none => 0#8
  | some r => r.tag

/-- Pad with 0x00, or cut, to a length. -/
def padTo (k : Nat) (l : List Byte) : List Byte := (l ++ List.replicate (k - l.length) 0#8).take k

/-- The bytes the part returns while the controller sends `bytes`, whole bytes only (frame layout). A frame
whose kind or length byte is out of range returns nothing more from there on (R177, log entry 5). -/
def returnedBytes (s : State) (p : Port) (bytes : List Byte) : List Byte :=
  match bytes with
  | [] => []
  | kind :: rest =>
    statusByte s p ::
      (if kind = 0x01#8 then List.replicate rest.length 0#8
       else if kind = 0x02#8 then
         match rest with
         | [] => []
         | n :: payload =>
           if n.toNat ≤ 1 then
             let offset := match payload with
               | hi :: lo :: _ => if n = 1#8 then hi.toNat * 256 + lo.toNat else 0
               | _ => 0
             padTo rest.length
               (List.replicate (1 + 2 * n.toNat) 0#8 ++ (fetchWords (s.port p).held offset).flatMap wordBytes)
           else [0#8]
       else if kind = 0x03#8 then
         match rest with
         | [] => []
         | n :: _ =>
           if n = 0#8 then
             padTo rest.length [0#8, BitVec.ofNat 8 s.dev.state.code, heldTag (s.port p).held]
           else [0#8]
       else [])

/-- A malformed frame sets framing error seen, and a malformed SUBMIT also submit refused (R177). While
RESET_N is asserted the port takes no frame (R176). -/
def malformedFrame (p : Port) (bytes : List Byte) (s : State) : State :=
  if s.dev.resetN then s else
  s.modPort p fun r =>
    { r with
      framingError := true
      submitRefused := r.submitRefused || bytes.head? = some 0x01#8
      dout := returnedBytes s p bytes }

/-- A FETCH frame: its bytes are returned and nothing else changes (R176, R180). -/
def fetchFrame (p : Port) (offset : Option Word) (further : Nat) (s : State) : State :=
  if s.dev.resetN then s else
  let sent := match offset with
    | none => [0x02#8, 0#8]
    | some w => [0x02#8, 1#8] ++ wordBytes w
  s.modPort p fun r => { r with dout := returnedBytes s p (sent ++ List.replicate further 0#8) }

/-- A STATUS frame: its bytes are returned, and framing error seen is cleared at its end (R176, R177). -/
def statusFrame (p : Port) (further : Nat) (s : State) : State :=
  if s.dev.resetN then s else
  s.modPort p fun r =>
    { r with
      dout := returnedBytes s p ([0x03#8, 0#8] ++ List.replicate further 0#8)
      framingError := false }

/-! ## The mailbox -/

/-- What an owner answers to a request: it completes at taking, or stays BUSY (R178). -/
inductive Answer where
  | complete (status : Status) (words : List Word) (s : State)
  | stays (r : InProgress) (s : State)

/-- The response replaces the held response, and the mailbox becomes DONE (R178). -/
def post (p : Port) (status : Status) (tag : Byte) (words : List Word) (s : State) : State :=
  s.modPort p fun r => { r with mailbox := .done, held := some ⟨status, tag, words⟩ }

/-- The port takes what its owner answers. -/
def finish (p : Port) (tag : Byte) : Answer → State
  | .complete status words s => post p status tag words s
  | .stays r s => s.modPort p fun x => { x with mailbox := .busy r }

/-- What the part returns during a SUBMIT of `k` parameter words: the status byte, then 0x00. -/
def submitReply (p : Port) (k : Nat) (s : State) : State :=
  s.modPort p fun r => { r with dout := statusByte s p :: List.replicate (2 * k + 3) 0#8 }

/-- A well-formed SUBMIT, taken at the release of SEL (R178, R179): refused while BUSY; otherwise taken, and
answered NOT_READY in STARTING, INVALID where it does not decode, and by its owner otherwise. -/
def submit {α : Type} (p : Port) (tag : Byte) (params : List Word) (decode : List Word → Option α)
    (owner : α → State → Answer) (s : State) : State :=
  if s.dev.resetN then s else
  let s := submitReply p params.length s
  match (s.port p).mailbox with
  | .busy _ => s.modPort p fun r => { r with submitRefused := true }
  | .idle | .done =>
    let s := s.modPort p fun r => { r with submitRefused := false }
    if s.isReady then
      match decode params with
      | none => post p .invalid tag [] s
      | some a => finish p tag (owner a s)
    else post p .notReady tag [] s

/-- INVALID: nothing changed (R181). -/
def Answer.invalid (s : State) : Answer := .complete .invalid [] s
/-- REFUSED with its reason in result word 0 (R181). -/
def Answer.refused (r : Reason) (s : State) : Answer := .complete .refused [r.word] s
/-- OK. -/
def Answer.ok (words : List Word) (s : State) : Answer := .complete .ok words s

/-! ## Peer changes (R182) -/

/-- Append an entry to a port's peer-change list and raise PEER_CHANGE in that port's unit (R182). -/
def peerAppend (p : Port) (e : PeerEntry) (s : State) : State :=
  raiseAt p .peerChange <| s.modPort p fun r =>
    if r.peers.length < 8 then { r with peers := r.peers ++ [e] }
    else { r with peers := r.peers.drop (r.peers.length - 7) ++ [e], overflow := true }

/-- Announce an accepted change to the other port (R179, R182). -/
def announce (p : Port) (e : PeerEntry) (s : State) : State := peerAppend p.other e s

/-- Announce where the change is one. -/
def announceIf (cond : Bool) (p : Port) (e : PeerEntry) (s : State) : State := if cond then announce p e s else s

/-- A request that did not complete at its taking completes: REQUEST_DONE in that port's unit (R188). -/
def requestDone (p : Port) (s : State) : State := raiseAt p .requestDone s

/-! ## The ports' own requests -/

/-- The device status (R184). -/
def deviceWords (s : State) : List Word :=
  w16 s.dev.state.code ++ w16 s.dev.cause.code ++ w16 s.dev.load.code ++ w16 s.free.length ++
  w16 (retiredCount s) ++ w16 s.pool.correctable ++ w16 s.pool.uncorrectable ++ w64 s.now

/-- GET_DEVICE_STATUS at its owner. -/
def ownDeviceStatus (_ : Unit) (s : State) : Answer := .ok (deviceWords s) s

/-- A SUBMIT with code 0x01 decodes as GET_DEVICE_STATUS; a code of no request does not decode (R179). -/
def decodeDevice (code : Byte) (params : List Word) : Option Unit :=
  if code = 0x01#8 then params0 params else none

/-- GET_DEVICE_STATUS (R184), and the port's check of the request code (R179). -/
def execGetDeviceStatus (dt : Nat) (p : Port) (tag code : Byte) (params : List Word) (s : State) : Result :=
  .next (submit p tag params (decodeDevice code) ownDeviceStatus (s.elapse dt))

/-- An entry of a peer-change list (R182); the layout of its words is log entry 18. -/
def PeerEntry.words (e : PeerEntry) : List Word :=
  w16 e.code.toNat ++ wOpt 1 (fun n : Nat => w16 n) e.target ++ wOpt 1 (fun r : BitVec 16 => [r]) e.revision

/-- GET_PEER_CHANGES at its owner: the list and the indicator, then both are emptied (R183). -/
def ownPeerChanges (p : Port) (_ : Unit) (s : State) : Answer :=
  let r := s.port p
  .ok (wList PeerEntry.words r.peers ++ wFlag r.overflow)
    (s.modPort p fun r => { r with peers := [], overflow := false })

/-- GET_PEER_CHANGES (R183). -/
def execGetPeerChanges (dt : Nat) (p : Port) (tag : Byte) (params : List Word) (s : State) : Result :=
  .next (submit p tag params params0 (ownPeerChanges p) (s.elapse dt))

/-- MALFORMED_FRAME (R177). -/
def execMalformedFrame (dt : Nat) (p : Port) (bytes : List Byte) (_extraBits : Fin 8) (s : State) : Result :=
  .next (malformedFrame p bytes (s.elapse dt))

/-- FETCH (R180). -/
def execFetch (dt : Nat) (p : Port) (offset : Option Word) (further : Nat) (s : State) : Result :=
  .next (fetchFrame p offset further (s.elapse dt))

/-- STATUS (R176). -/
def execStatus (dt : Nat) (p : Port) (further : Nat) (s : State) : Result :=
  .next (statusFrame p further (s.elapse dt))

/-! ## The event units' requests (R193–R196) -/

/-- GET_EVENTS at its owner (R193). -/
def ownGetEvents (p : Port) (_ : Unit) (s : State) : Answer :=
  let u := s.unit p
  match u.liveGroups with
  | [] => .ok (w16 255 ++ [0#16, 0#16, 0#16] ++ w16 0) s
  | g :: _ =>
    let words := w16 g.val ++ [u.flags[g], u.enables[g], conditionsWord s g] ++ w16 u.liveGroups.length
    .ok words (match u.mode with
      | .onRead => clearFlags p g u.flags[g] s
      | .byAck => s)

/-- GET_EVENTS (R193). -/
def execGetEvents (dt : Nat) (p : Port) (tag : Byte) (params : List Word) (s : State) : Result :=
  .next (submit p tag params params0 (ownGetEvents p) (s.elapse dt))

/-- ACK_EVENTS at its owner (R194). -/
def ownAckEvents (p : Port) (a : Nat × Nat) (s : State) : Answer :=
  match idx 19 a.1 with
  | none => .invalid s
  | some g =>
    if a.2 < 2 ^ groupSize g then
      let s := clearFlags p g (BitVec.ofNat 16 a.2) s
      .ok [(s.unit p).flags[g]] s
    else .invalid s

/-- ACK_EVENTS (R194). -/
def execAckEvents (dt : Nat) (p : Port) (tag : Byte) (params : List Word) (s : State) : Result :=
  .next (submit p tag params params2 (ownAckEvents p) (s.elapse dt))

/-- SET_EVENT_MODE at its owner (R195). -/
def ownSetEventMode (p : Port) (a : Nat × Nat) (s : State) : Answer :=
  match flagOf a.1, flagOf a.2 with
  | some m, some e => .ok [] (s.setUnit p { s.unit p with mode := if m then .byAck else .onRead, master := e })
  | _, _ => .invalid s

/-- SET_EVENT_MODE (R195). -/
def execSetEventMode (dt : Nat) (p : Port) (tag : Byte) (params : List Word) (s : State) : Result :=
  .next (submit p tag params params2 (ownSetEventMode p) (s.elapse dt))

/-- R196: each condition source of the group has an edge bit set and no other source has one. -/
def edgesOk (g : GroupNo) (edges : Nat) : Bool :=
  (List.range (groupSize g)).all fun i =>
    let bits := edges / 4 ^ i % 4
    if isCondition g i then bits ≠ 0 else bits = 0

/-- SET_EVENT_ENABLES at its owner (R196). -/
def ownSetEventEnables (p : Port) (a : Nat × Nat × Nat) (s : State) : Answer :=
  match idx 19 a.1 with
  | none => .invalid s
  | some g =>
    if a.2.1 < 2 ^ groupSize g ∧ a.2.2 < 4 ^ groupSize g ∧ edgesOk g a.2.2 then
      let u := s.unit p
      .ok [] (s.setUnit p { u with enables := u.enables.set g (BitVec.ofNat 16 a.2.1)
                                   edges := u.edges.set g (BitVec.ofNat 16 a.2.2) })
    else .invalid s

/-- SET_EVENT_ENABLES (R196). -/
def execSetEventEnables (dt : Nat) (p : Port) (tag : Byte) (params : List Word) (s : State) : Result :=
  .next (submit p tag params params3 (ownSetEventEnables p) (s.elapse dt))

end Sys2Proof.Machine
end

