-- ==== Sys2Proof/Machine/Picture.lean ====
section
/-! DEFINITION. The sample arithmetic of a pass (file 08, R133–R139; the temporal blend R131; substitution of
failed samples R154, R155). A sample that has failed is `none`. -/

namespace Sys2Proof.Machine

/-! ## Source samples -/

/-- Where line `l` of a source picture lies: the slot and its line (R135, R136). -/
def Picture.place (p : Picture) (l : Nat) : SlotNo × Nat :=
  match p.kind, p.reads with
  | .film, a :: b :: _ => if l % 2 = 0 then (a.slot, l) else (b.slot, l)
  | .fields, a :: _ => (a.slot, 2 * l + (if a.role = .field2 then 1 else 0))
  | _, a :: _ => (a.slot, l)
  | _, [] => (0, l)

/-- The lines of a source picture: those of a field or those of a frame (R135, R136). -/
def Picture.lineCount (p : Picture) (lIn : Nat) : Nat :=
  match p.kind with
  | .fields => lIn / 2
  | .frames | .film => lIn

/-- Whether a sample of a source picture lies in a code word that failed (R154). -/
def Job.failedAt (j : Job) (pass pic l : Nat) (c : Component) (x : Nat) : Bool :=
  j.failed.contains ⟨pass, pic, ⟨l, c, x / 8⟩⟩

/-- A sample of a source picture, as the DRAM holds it. -/
def pictureSample (s : State) (p : Picture) (l : Nat) (c : Component) (x : Nat) : Int :=
  let at_ := p.place l
  (readSample s at_.1 at_.2 c x).toNat

/-- A sample of picture `pic` of a pass: a failed one is taken from the other picture of the pair, and has
failed where there is none or that one failed too (R154, R155). -/
def sourceSample (s : State) (j : Job) (pass : PassRec) (pic l : Nat) (c : Component) (x : Nat) : Option Int :=
  let own (k : Nat) : Option Int :=
    match pass.pics[k]? with
    | some p => if j.failedAt pass.pass k l c x then none else some (pictureSample s p l c x)
    | none => none
  (own pic).or (own (1 - pic))

/-! ## Taps and positions (R134–R138) -/

/-- pos64 of an output line or sample (R134, R138). -/
def pos64 (y lIn lOut : Nat) : Int := (64 * (2 * y + 1) * lIn : Nat) / (2 * lOut : Nat) - 32

/-- A position on a field's own grid (R135). -/
def fieldPos (pos : Int) (parity : Nat) : Int := (pos - 64 * (parity : Int)) / 2

/-- The coefficients of the phase that φ chooses (R137). -/
def Content.phase (c : Content) (phi : Nat) : List Int :=
  match c.shape with
  | .resample t p => (c.coeffs.drop (phi * p / 64 * t)).take t
  | .matrix => []

/-- Clamp an index into 0..last (R137). -/
def clampIndex (i : Int) (last : Nat) : Nat := (clampInt i 0 last).toNat

/-- The weighted sum of the taps; a tap of weight 0 does not reach its sample (R155, worked example of
file 09). -/
def tapSum : List Int → List (Option Int) → Option Int
  | c :: cs, v :: vs =>
    (tapSum cs vs).bind fun acc => if c = 0 then some acc else v.map fun v => c * v + acc
  | _, _ => some 0

/-- The value formed from the taps: clamp(floor((Σ c·s + 128)/256), 4, 1019) (R137). -/
def tapValue (cs : List Int) (vs : List (Option Int)) : Option Int :=
  (tapSum cs vs).map fun v => clampInt ((v + 128) / 256) 4 1019

/-- Resample at a position in 64ths: T taps around its whole part, by the phase of its fraction (R137). -/
def resampleAt (content : Content) (pos : Int) (last : Nat) (sample : Nat → Option Int) : Option Int :=
  let n := pos / 64
  let cs := content.phase (pos - 64 * n).toNat
  tapValue cs ((List.range cs.length).map fun j =>
    sample (clampIndex (n - (cs.length / 2 : Nat) + 1 + j) last))

/-- The parity of a field picture: 1 for field 2. -/
def Picture.parity (p : Picture) : Nat :=
  match p.reads with
  | a :: _ => if a.role = .field2 then 1 else 0
  | [] => 0

/-- The vertical stage of picture `pic` at output frame line `y`, at column `x` of the source (R134–R137). -/
def verticalValue (s : State) (j : Job) (v : Content) (pass : PassRec) (pic y : Nat) (c : Component) (x : Nat) :
    Option Int :=
  match pass.pics[pic]? with
  | none => none
  | some p =>
    let lIn := (Config.std j.srcStd).activeLines
    let pos := pos64 y lIn (Config.std j.outStd).activeLines
    let pos := if p.kind = .fields then fieldPos pos p.parity else pos
    resampleAt v pos (p.lineCount lIn - 1) fun l => sourceSample s j pass pic l c x

/-- The width of a component: chroma has half the luma width. -/
def componentWidth (w : Nat) : Component → Nat
  | .y => w
  | .cb | .cr => w / 2

/-- The horizontal stage after the vertical one: output sample `x` of output line `y` (R138). -/
def resampled (s : State) (j : Job) (cap : Captured) (pass : PassRec) (pic y : Nat) (c : Component) (x : Nat) :
    Option Int :=
  let wIn := componentWidth (Config.std j.srcStd).width c
  let wOut := componentWidth (Config.std j.outStd).width c
  resampleAt cap.h (pos64 x wIn wOut) (wIn - 1) fun k => verticalValue s j cap.v pass pic y c k

/-! ## Blend and matrix (R131, R139) -/

/-- The temporal blend: floor(((32 − q)·a + q·c + 16)/32) (R131). -/
def blendValue (q : Nat) (a c : Int) : Int := ((32 - (q : Int)) * a + (q : Int) * c + 16) / 32

/-- The blend of a pass of two pictures, or its single resampled picture (R131, R133). -/
def blended (s : State) (j : Job) (cap : Captured) (pass : PassRec) (y : Nat) (c : Component) (x : Nat) :
    Option Int :=
  let a := resampled s j cap pass 0 y c x
  if pass.pics.length = 2 then
    match a, resampled s j cap pass 1 y c x with
    | some a, some b => some (clampInt (blendValue (pass.q.getD 0) a b) 4 1019)
    | _, _ => none
  else a

/-- One row of the colour matrix (R139). -/
def matrixRow (m : Content) (r : Nat) (y cb cr : Int) : Int :=
  let k (i : Nat) : Int := m.coeffs.getD (3 * r + i) 0
  clampInt ((k 0 * (y - 64) + k 1 * (cb - 512) + k 2 * (cr - 512) + 512) / 1024 +
    (if r = 0 then 64 else 512)) 4 1019

/-- The matrix row of a component. -/
def matrixRowOf : Component → Nat
  | .y => 0 | .cb => 1 | .cr => 2

/-- Black level of a component (R28). -/
def blackOf : Component → Sample
  | .y => Config.blackLuma
  | .cb | .cr => Config.blackChroma

/-- The substitute of an output sample that reaches a failed one: the ON_AIR picture's, or black (R155). R155 says
that the ON_AIR slot does not change while the job runs, but a loss hold of 0 (R166) can release it; every
substitute is black then (the model's choice, log entry 7). -/
def substitute (s : State) (j : Job) (y : Nat) (c : Component) (x : Nat) : Sample :=
  match s.outputs[j.chan].onAir with
  | some a => if j.onAirFailed.contains ⟨y, c, x / 8⟩ then blackOf c else readSample s a.slot y c x
  | none => blackOf c

/-- An output sample of a pass (R133, R139, R155): a luma sample takes the chroma pair of its position, a
chroma sample the even luma sample. -/
def outputSample (s : State) (j : Job) (cap : Captured) (pass : PassRec) (y : Nat) (c : Component) (x : Nat) :
    Sample :=
  let pair := if c = .y then x / 2 else x
  let yx := if c = .y then x else 2 * x
  match blended s j cap pass y .y yx, blended s j cap pass y .cb pair, blended s j cap pass y .cr pair with
  | some yv, some cb, some cr => BitVec.ofInt 10 (matrixRow cap.m (matrixRowOf c) yv cb cr)
  | _, _, _ => substitute s j y c x

/-- One component of an output line. -/
def outputComponent (s : State) (j : Job) (cap : Captured) (pass : PassRec) (y : Nat) (c : Component) :
    List Sample :=
  (List.range (componentWidth (Config.std j.outStd).width c)).map (outputSample s j cap pass y c)

/-- The output lines a pass writes: every line, or the lines of its parity (R133, R134). -/
def passLines (outStd : StdId) (pass : Nat) : List Nat :=
  let d := Config.std outStd
  if d.interlaced then (List.range (d.activeLines / 2)).map fun m => 2 * m + pass
  else List.range d.activeLines

/-- A pass writes its lines into the destination; the samples are read in the state `s0` (R153). -/
def writePass (s0 : State) (j : Job) (cap : Captured) (pass : PassRec) (s : State) : State :=
  forEach (passLines j.outStd pass.pass) (fun y s =>
    writeLine j.dest y (outputComponent s0 j cap pass y .y) (outputComponent s0 j cap pass y .cb)
      (outputComponent s0 j cap pass y .cr) s) s

/-- The whole output picture of a job (R133, R153; written at completion, log entry 7). -/
def writePicture (j : Job) (s : State) : State :=
  match j.captured with
  | some cap => forEach j.passes (writePass s j cap) s
  | none => s

end Sys2Proof.Machine
end

