-- ==== Sys2Proof/Machine/Profile.lean ====
section
/-! DEFINITION. The profile table (file 08, R140–R148): resolution, capture, staging, commit, readback. -/

namespace Sys2Proof.Machine

/-! ## Resolution and capture (R141, R142) -/

/-- The stages of a pass. -/
inductive ProfStage where
  | vertical | horizontal | matrix
deriving DecidableEq, Repr

/-- Whether a shape fits a stage: RESAMPLE for the first two, MATRIX for the third (R141). -/
def Shape.fits : Shape → ProfStage → Bool
  | .resample _ _, .vertical | .resample _ _, .horizontal => true
  | .matrix, .matrix => true
  | _, _ => false

/-- What AUTO resolves to (R141). -/
def autoEntry (inHd outHd : Bool) : ProfStage → EntryNo
  | .vertical => 0
  | .horizontal => 1
  | .matrix => if inHd = outHd then 2 else if outHd then 3 else 4

/-- A named entry is used when it is not EMPTY and its kind fits (R141). -/
def entryFits (s : State) (e : EntryNo) (st : ProfStage) : Bool :=
  s.profiles[e].active.any fun c => c.shape.fits st

/-- Resolve one profile field (R141). -/
def resolveField (s : State) (inHd outHd : Bool) (st : ProfStage) (field : Option EntryNo) : EntryNo :=
  match field with
  | some e => if entryFits s e st then e else autoEntry inHd outHd st
  | none => autoEntry inHd outHd st

/-- Resolve the three profile fields of a job (R141). -/
def resolveProfiles (s : State) (inStd outStd : StdId) (v h m : Option EntryNo) : Resolved :=
  let i := (Config.std inStd).hd
  let o := (Config.std outStd).hd
  { v := resolveField s i o .vertical v, h := resolveField s i o .horizontal h,
    m := resolveField s i o .matrix m }

/-- The content of an entry; an EMPTY one is never captured. -/
def entryContent (s : State) (e : EntryNo) : Content := s.profiles[e].active.getD ⟨.matrix, []⟩

/-- The distinct entries of a job: each counts it once (R142). -/
def Resolved.entries (r : Resolved) : List EntryNo := [r.v, r.h, r.m].eraseDups

/-- One more RUNNING job uses an entry (R142). -/
def addUser (e : EntryNo) (s : State) : State := s.modProfile e fun x => { x with users := x.users + 1 }

/-- A pending content becomes active (R142). -/
def Profile.promote (x : Profile) : Profile :=
  match x.pending with
  | some c => { x with active := some c, pending := none }
  | none => x

/-- A RUNNING job that used an entry ends; at 0 users the pending content is promoted (R142). -/
def dropUser (e : EntryNo) (s : State) : State :=
  s.modProfile e fun x =>
    let x := { x with users := x.users - 1 }
    if x.users = 0 then x.promote else x

/-! ## Staged loading (R143, R144) -/

/-- A declared kind and shape (R143). -/
def declaredShape (kind taps phases : Nat) : Option Shape :=
  if kind = 0 then
    if [2, 4, 6, 8].contains taps && [16, 32, 64].contains phases then some (.resample taps phases) else none
  else if kind = 1 then
    if taps = 0 ∧ phases = 0 then some .matrix else none
  else none

/-- PROFILE_BEGIN at its owner (R143). -/
def ownProfileBegin (p : Port) (a : Nat × Nat × Nat × Nat) (s : State) : Answer :=
  match idx 16 a.1, declaredShape a.2.1 a.2.2.1 a.2.2.2 with
  | some e, some shape =>
    if e.val ≤ 5 then .refused .builtIn s
    else .ok [] (s.modPort p fun r =>
      { r with staging := some ⟨e, shape, List.replicate shape.size none⟩ })
  | _, _ => .invalid s

/-- PROFILE_BEGIN (R143). -/
def execProfileBegin (dt : Nat) (p : Port) (tag : Byte) (params : List Word) (s : State) : Result :=
  .next (submit p tag params params4 (ownProfileBegin p) (s.elapse dt))

/-- Write words at consecutive positions (R144). -/
def writeAt (l : List (Option Word)) (off : Nat) (ws : List Word) : List (Option Word) :=
  l.take off ++ ws.map some ++ l.drop (off + ws.length)

/-- PROFILE_DATA at its owner (R144). -/
def ownProfileData (p : Port) (a : Nat × List Word) (s : State) : Answer :=
  match (s.port p).staging with
  | none => .refused .noStaging s
  | some b =>
    if a.1 + 3 < b.shape.size then
      .ok [] (s.modPort p fun r => { r with staging := some { b with words := writeAt b.words a.1 a.2 } })
    else .invalid s

/-- PROFILE_DATA (R144). -/
def execProfileData (dt : Nat) (p : Port) (tag : Byte) (params : List Word) (s : State) : Result :=
  .next (submit p tag params paramsData (ownProfileData p) (s.elapse dt))

/-- Discard and close a port's staging buffer. -/
def closeStaging (p : Port) (s : State) : State := s.modPort p fun r => { r with staging := none }

/-- PROFILE_ABANDON at its owner (R144). -/
def ownProfileAbandon (p : Port) (_ : Unit) (s : State) : Answer :=
  match (s.port p).staging with
  | none => .complete .already [] s
  | some _ => .ok [] (closeStaging p s)

/-- PROFILE_ABANDON (R144). -/
def execProfileAbandon (dt : Nat) (p : Port) (tag : Byte) (params : List Word) (s : State) : Result :=
  .next (submit p tag params params0 (ownProfileAbandon p) (s.elapse dt))

/-! ## Commit (R145, R146) -/

/-- The duration of a validation (R145). -/
def validationTicks (size : Nat) : Nat := 2700 + 27 * size

/-- PROFILE_COMMIT at its owner: the validation starts (R145). -/
def ownProfileCommit (p : Port) (tag : Byte) (checksum : Nat) (s : State) : Answer :=
  match (s.port p).staging with
  | none => .refused .noStaging s
  | some b => .stays (.commit tag (BitVec.ofNat 16 checksum) (s.now + validationTicks b.shape.size)) s

/-- PROFILE_COMMIT (R145). -/
def execProfileCommit (dt : Nat) (p : Port) (tag : Byte) (params : List Word) (s : State) : Result :=
  .next (submit p tag params params1 (ownProfileCommit p tag) (s.elapse dt))

/-- The range of a coefficient (R145). -/
def inRange (shape : Shape) (x : Int) : Bool :=
  match shape with
  | .resample _ _ => -512 ≤ x && x ≤ 511
  | .matrix => -8192 ≤ x && x ≤ 8191

/-- Whether a position of a content fails: out of range, or the last of a phase whose sum is not 256 (R145). -/
def failsAt (shape : Shape) (c : List Int) (i : Nat) : Bool :=
  !inRange shape (c.getD i 0) ||
  match shape with
  | .resample t _ => i % t = t - 1 && ((c.drop (i + 1 - t)).take t).sum ≠ 256
  | .matrix => false

/-- The error pointer: the lowest failing position (R145). -/
def errorPointer (shape : Shape) (c : List Int) : Option Nat := (List.range shape.size).find? (failsAt shape c)

/-- What a validation finds: a status with its result words, or the valid content (R145). -/
def judgeStaging (b : Staging) (checksum : Word) : (Status × List Word) ⊕ Content :=
  let written := b.words.filterMap id
  if written.isEmpty then .inl (.empty, [])
  else if written.foldl (· + ·) checksum ≠ 0#16 then .inl (.checksumError, [])
  else if written.length ≠ b.shape.size then .inl (.unrecognised, [])
  else
    let c := written.map BitVec.toInt
    match errorPointer b.shape c with
    | some i => .inl (.validationFailed, w16 i)
    | none => .inr ⟨b.shape, c⟩

/-- R146: install a validated content; the result is COMMITTED or COMMITTED_PENDING. -/
def install (e : EntryNo) (c : Content) (s : State) : Status × State :=
  let x := s.profiles[e]
  if x.active.isSome ∧ x.users ≠ 0 then (.committedPending, s.modProfile e fun x => { x with pending := some c })
  else (.committed, s.modProfile e fun x => { x with active := some c, pending := none })

/-- The end of a validation of a port's staging (R145, R146). -/
def endValidation (p : Port) (tag : Byte) (checksum : Word) (s : State) : State :=
  match (s.port p).staging with
  | none => requestDone p (post p .empty tag [] s)
  | some b =>
    match judgeStaging b checksum with
    | .inl (status, words) => requestDone p (post p status tag words (closeStaging p s))
    | .inr c =>
      let (status, s) := install b.entry c s
      requestDone p (post p status tag [] (announce p ⟨0x52#8, some b.entry.val, none⟩ (closeStaging p s)))

/-- When a port's validation ends, if one is in progress. -/
def validationEnds (s : State) (p : Port) : Option Nat :=
  match (s.port p).mailbox with
  | .busy (.commit _ _ ends) => some ends
  | _ => none

/-- A validation's end is due. -/
def validationDue (s : State) (p : Port) : Bool := s.isReady && (validationEnds s p).any (· ≤ s.now)

/-- The validation ends when house time reaches its end (R145). -/
def validationEnd (p : Port) (s : State) : State :=
  if validationDue s p then
    match (s.port p).mailbox with
    | .busy (.commit tag checksum _) => endValidation p tag checksum s
    | _ => s
  else s

/-- VALIDATION_END (R145). -/
def execValidationEnd (dt : Nat) (p : Port) (s : State) : Result := .next (validationEnd p (s.elapse dt))

/-! ## Readback (R147) -/

/-- Kind, taps and phases. A MATRIX has no taps and no phases; they are sent as 0 (log entry 18). -/
def Shape.words : Shape → List Word
  | .resample t p => w16 0 ++ w16 t ++ w16 p
  | .matrix => w16 1 ++ w16 0 ++ w16 0

/-- Position of an entry's state in the list of values. -/
def Profile.code (x : Profile) : Nat :=
  match x.active, x.pending with
  | none, _ => 0
  | some _, none => 1
  | some _, some _ => 2

/-- The staging state of a port (R147). -/
def Staging.shown (b : Staging) : List Word :=
  w16 b.entry.val ++ b.shape.words ++ w16 b.shape.size ++ w16 (b.words.filterMap id).length

/-- GET_PROFILE's result (R147). The staging state is sent as a presence word, 1 open and 0 closed, before the
open staging's words (log entry 18). -/
def profileWords (s : State) (p : Port) (x : Profile) (pending : Bool) (offset : Nat) : List Word :=
  let content := if pending then x.pending else x.active
  let words := match content with
    | some c => (c.coeffs.drop offset).take 16
    | none => []
  w16 x.code ++ wOpt 3 (fun c : Content => c.shape.words) x.active ++ w16 x.users ++
  wOpt 3 (fun c : Content => c.shape.words) x.pending ++ wList w16 words ++
  wOpt 6 Staging.shown (s.port p).staging

/-- GET_PROFILE at its owner (R147). -/
def ownGetProfile (p : Port) (a : Nat × Nat × Nat) (s : State) : Answer :=
  match idx 16 a.1, flagOf a.2.1 with
  | some e, some pending =>
    if a.2.2 ≤ 511 then .ok (profileWords s p s.profiles[e] pending a.2.2) s else .invalid s
  | _, _ => .invalid s

/-- GET_PROFILE (R147). -/
def execGetProfile (dt : Nat) (p : Port) (tag : Byte) (params : List Word) (s : State) : Result :=
  .next (submit p tag params params3 (ownGetProfile p) (s.elapse dt))

end Sys2Proof.Machine
end

