-- ==== Sys2Proof/Machine/Queue.lean ====
section
/-! DEFINITION. The render engine's queue order and the deadlines of jobs (file 09, R149, R160). -/

namespace Sys2Proof.Machine

/-- Queue order: by deadline, then by channel number (R149). -/
def Job.before (a b : Job) : Bool :=
  a.deadline < b.deadline || (a.deadline = b.deadline && a.chan.val < b.chan.val)

/-- Place a job in the queue (R149). -/
def insertJob (j : Job) : List Job → List Job
  | [] => [j]
  | k :: rest => if j.before k then j :: k :: rest else k :: insertJob j rest

/-- Put a queue in order (R149, R160). -/
def sortJobs (l : List Job) : List Job := l.foldr insertJob []

/-- Give a channel's job a new deadline. -/
def Job.withDeadline (c : Chan) (t : Nat) (j : Job) : Job := if j.chan = c then { j with deadline := t } else j

/-- The deadline of a channel's QUEUED or RUNNING job moves, and the queue with it (R6, R12, R160). -/
def moveDeadline (c : Chan) (t : Nat) (s : State) : State :=
  { s with queue := sortJobs (s.queue.map (Job.withDeadline c t))
           lanes := s.lanes.map fun l => l.map (Job.withDeadline c t) }

end Sys2Proof.Machine
end

