-- ==== Sys2Proof/Machine/Render.lean ====
section
/-! DEFINITION. The render engine (file 09): lanes, start, duration, completion, abandonment, read faults; and
the report of a late frame to the output and the auxiliary lines (R165, R173). -/

namespace Sys2Proof.Machine

/-! ## Start (R150–R152) -/

/-- w of R152: 36 for width 1920, 24 for 1280, 14 for 720. -/
def widthWeight (w : Nat) : Nat := if w = 1920 then 36 else if w = 1280 then 24 else 14

/-- The number of output lines a pass writes (R152). -/
def passLineCount (outStd : StdId) : Nat :=
  let d := Config.std outStd
  if d.interlaced then d.activeLines / 2 else d.activeLines

/-- A job's duration: 8,100 + Σ (lines · w · pictures) (R152). -/
def jobDuration (j : Job) : Nat :=
  let w := widthWeight (Config.std j.outStd).width
  8100 + (j.passes.map fun p => passLineCount j.outStd * w * p.pics.length).sum

/-- The entry a stage captures: the resolved one, or the AUTO entry where it no longer fits (R142, R151). -/
def captureEntry (s : State) (j : Job) (st : ProfStage) (e : EntryNo) : EntryNo :=
  if entryFits s e st then e
  else autoEntry (Config.std j.srcStd).hd (Config.std j.outStd).hd st

/-- The entries a job captures at its start. -/
def captureEntries (s : State) (j : Job) : Resolved :=
  { v := captureEntry s j .vertical j.resolved.v, h := captureEntry s j .horizontal j.resolved.h,
    m := captureEntry s j .matrix j.resolved.m }

/-- A job at its start: contents captured, times set (R151). -/
def startedJob (s : State) (j : Job) : Job :=
  let r := captureEntries s j
  { j with resolved := r, captured := some ⟨entryContent s r.v, entryContent s r.h, entryContent s r.m⟩,
           start := some s.now, completion := some (s.now + jobDuration j) }

/-- The head of the queue starts on a lane (R151). -/
def startJob (l : LaneNo) (j : Job) (rest : List Job) (s : State) : State :=
  let j' := startedJob s j
  let s := { s with queue := rest, lanes := s.lanes.set l (some j') }
  let s := forEach j'.resolved.entries addUser s
  s.modChan j.chan fun c => { c with resolved := some j'.resolved }

/-- An idle lane starts the head of the queue (R150). -/
def startLane (l : LaneNo) (s : State) : State :=
  match s.lanes[l], s.queue with
  | none, j :: rest => startJob l j rest s
  | _, _ => s

/-- Idle lanes start jobs, lane 0 first (R150). -/
def startLanes (s : State) : State := startLane 1 (startLane 0 s)

/-- The channel hands a job over (R149, R150). -/
def handOver (j : Job) (s : State) : State := startLanes { s with queue := insertJob j s.queue }

/-! ## Completion (R156) -/

/-- Drop a job's pins, in the order of its slot set (R156, R157). -/
def dropPins (j : Job) (s : State) : State := forEach j.slots unpin s

/-- Drop a RUNNING job's profile uses (R156, R157). -/
def dropUses (j : Job) (s : State) : State := forEach j.resolved.entries dropUser s

/-- A job of a lane completes (R156). -/
def completeJob (l : LaneNo) (j : Job) (s : State) : State :=
  let s := moveSlot .rendering .ready j.dest (writePicture j s)
  let s := s.modOutput j.chan fun o => { o with ready := some ⟨j.dest, j.frame⟩ }
  let s := dropUses j (dropPins j s)
  startLanes { s with lanes := s.lanes.set l none }

/-- A lane's job is due to complete. -/
def completionDue (s : State) (l : LaneNo) : Bool :=
  s.isReady && (s.lanes[l].bind Job.completion).any (· ≤ s.now)

/-- House time reaches a lane's completion time (R156). -/
def jobCompletion (l : LaneNo) (s : State) : State :=
  if completionDue s l then
    match s.lanes[l] with
    | some j => completeJob l j s
    | none => s
  else s

/-- JOB_COMPLETION (R156). -/
def execJobCompletion (dt : Nat) (l : LaneNo) (s : State) : Result := .next (jobCompletion l (s.elapse dt))

/-! ## Late frames (R165, R173) -/

/-- An occurrence on a channel: each ALERT_OUTPUT line that serves it starts or restarts its hold (R173). -/
def alertOccurrence (c : Chan) (s : State) : State :=
  { s with aux := s.aux.map fun a =>
      if a.mode = .alertOutput && a.mask.getLsbD c.val then
        { a with expiry := some (s.now + Config.alertTicks) }
      else a }

/-- A late frame is reported to the output (R165) and reaches the alert lines (R173). -/
def lateFrame (c : Chan) (s : State) : State :=
  let s := if s.outputs[c].lateRun then s
    else raise (.outputLate c) (s.modOutput c fun o => { o with lateRun := true })
  alertOccurrence c s

/-! ## Abandonment (R157, R159) -/

/-- The channel's RUNNING job with its lane. -/
def runningJob (s : State) (c : Chan) : Option (LaneNo × Job) :=
  [(0 : LaneNo), 1].findSome? fun l =>
    match s.lanes[l] with
    | some j => if j.chan = c then some (l, j) else none
    | none => none

/-- The channel's QUEUED job. -/
def queuedJob (s : State) (c : Chan) : Option Job := s.queue.find? fun j => j.chan = c

/-- Steps 1 to 4 of R157 for a RUNNING job; what it has written so far is not known (log entry 6). -/
def abandonRunning (l : LaneNo) (j : Job) (s : State) : State :=
  let s := dropUses j { s with lanes := s.lanes.set l none }
  dropPins j (releaseFrom .rendering j.dest (leavePartial j.dest j.outStd s))

/-- Steps 1 to 4 of R157 for a QUEUED job. -/
def abandonQueued (j : Job) (s : State) : State :=
  let s := { s with queue := s.queue.filter fun k => k.chan ≠ j.chan }
  dropPins j (releaseFrom .rendering j.dest s)

/-- Steps 1 to 4 of R157; whether there was a job. -/
def abandonJob (c : Chan) (s : State) : Bool × State :=
  match runningJob s c with
  | some (l, j) => (true, abandonRunning l j s)
  | none =>
    match queuedJob s c with
    | some j => (true, abandonQueued j s)
    | none => (false, s)

/-- Abandonment at the deadline: steps 1 to 6 (R157). -/
def abandonAtDeadline (c : Chan) (s : State) : State :=
  match abandonJob c s with
  | (true, s) =>
    let s := s.modChan c fun ch =>
      { ch with counters := { ch.counters with late := satAdd Config.max16 ch.counters.late 1 } }
    startLanes (lateFrame c s)
  | (false, s) => s

/-- Abandonment by STOP_CHANNEL: steps 1 to 4 and 6, not counted and not reported (R159). -/
def abandonAtStop (c : Chan) (s : State) : State :=
  match abandonJob c s with
  | (true, s) => startLanes s
  | (false, s) => s

/-! ## Read faults (R26, R27, R154, R155) -/

/-- An uncorrectable code word at the store: fault is set, counted, and reported (R27, R28). -/
def storeFault (n : SlotNo) (r : Reader) (s : State) : State :=
  let s := s.modSlot n fun x => { x with fault := true }
  slotFault .uncorrectable n (some r)
    { s with pool := { s.pool with uncorrectable := satAdd Config.max16 s.pool.uncorrectable 1 } }

/-- A code word lies within a picture of so many lines of a standard's width (R16). -/
def wordInside (w : CodeWord) (lines : Nat) (std : StdId) : Bool :=
  w.line < lines && w.word * 8 < componentWidth (Config.std std).width w.comp

/-- The source picture a lane's read names, with the slot the code word lies in. -/
def sourceRead (j : Job) (pass pic : Fin 2) (w : CodeWord) : Option SlotNo :=
  ((j.passes.find? fun r => r.pass = pass.val).bind fun r => r.pics[pic.val]?).bind fun p =>
    if wordInside w (p.lineCount (Config.std j.srcStd).activeLines) j.srcStd then some (p.place w.line).1 else none

/-- The ON_AIR slot that a lane reads for substitute samples, which it does only where samples have failed
(R155). -/
def onAirRead (s : State) (j : Job) (w : CodeWord) : Option SlotNo :=
  if j.failed.isEmpty then none
  else s.outputs[j.chan].onAir.bind fun a =>
    if wordInside w (Config.std j.outStd).activeLines j.outStd then some a.slot else none

/-- A lane finds a code word uncorrectable (R27, R154, R155). R153 reads each code word of a picture once in a
pass; a second fault commanded for the same one is taken as another fault, counted and reported again (the
model's choice, log entry 3). -/
def uncorrectableRead (l : LaneNo) (r : LaneRead) (s : State) : State :=
  match s.lanes[l] with
  | none => s
  | some j =>
    match r with
    | .source pass pic w =>
      match sourceRead j pass pic w with
      | some n =>
        storeFault n (.lane l)
          { s with lanes := s.lanes.set l (some { j with failed := j.failed ++ [⟨pass.val, pic.val, w⟩] }) }
      | none => s
    | .onAir w =>
      match onAirRead s j w with
      | some n =>
        storeFault n (.lane l)
          { s with lanes := s.lanes.set l (some { j with onAirFailed := j.onAirFailed ++ [w] }) }
      | none => s

/-- UNCORRECTABLE_READ (R27). -/
def execUncorrectableRead (dt : Nat) (l : LaneNo) (r : LaneRead) (s : State) : Result :=
  .next (uncorrectableRead l r (s.elapse dt))

/-- The output emits the picture of its ON_AIR slot in the frame in progress (R163). -/
def emitsPicture (s : State) (c : Chan) : Option Held :=
  let o := s.outputs[c]
  if o.emitStd.isSome && o.display ≠ .black then o.onAir else none

/-- The reader has something to read: a job in its lane, or a picture being emitted. -/
def readerActive (s : State) : Reader → Bool
  | .lane l => s.lanes[l].isSome
  | .output c => (emitsPicture s c).isSome

/-- A code word with a correctable error: delivered corrected, and counted (R26). -/
def correctableRead (r : Reader) (s : State) : State :=
  if readerActive s r then
    { s with pool := { s.pool with correctable := satAdd Config.max16 s.pool.correctable 1 } }
  else s

/-- CORRECTABLE_READ (R26). -/
def execCorrectableRead (dt : Nat) (r : Reader) (s : State) : Result := .next (correctableRead r (s.elapse dt))

end Sys2Proof.Machine
end

