-- ==== Sys2Proof/Machine/Timebase.lean ====
section
/-! DEFINITION. The reference timebase (file 01): references, epochs, and the output frame starts. -/

namespace Sys2Proof.Machine

/-! ## Frame starts (R3, R5) -/

/-- R3: an output period is compatible with an alignment period that it divides exactly. -/
def compatible (tAlign period : Nat) : Bool := tAlign % period = 0

/-- Whether a bank's binding is compatible with its reference (R3). -/
def bankCompatible (s : State) (b : Bank) : Bool := compatible s.refs[b.ref].tAlign b.pOut

/-- The time of frame start j, m alignment periods after the current one: E + m·I + o + j·P (R5). -/
def gridTime (r : Reference) (b : Bank) (m j : Nat) : Nat := r.epoch + m * r.interval + b.offset + j * b.pOut

/-- The number of frame starts of an alignment period: T_align / P (R5). -/
def framesPerPeriod (r : Reference) (b : Bank) : Nat := r.tAlign / b.pOut

/-- The first frame start of the sequence that is no earlier than a bound. -/
def firstAt (r : Reference) (b : Bank) (bound : Nat) : Nat × Nat :=
  let lastOfCurrent := gridTime r b 0 (framesPerPeriod r b - 1)
  let m := (bound - lastOfCurrent + r.interval - 1) / r.interval
  let j := (bound - gridTime r b m 0 + b.pOut - 1) / b.pOut
  (m, j)

/-- Put an output's next frame start at a place of its sequence. -/
def OutTiming.place (t : OutTiming) (r : Reference) (b : Bank) (mj : Nat × Nat) : OutTiming :=
  { t with next := gridTime r b mj.1 mj.2, grid := .at mj.1 mj.2 }

/-- The active bank of a channel. -/
def bankOf (s : State) (c : Chan) : Bank := s.chans[c].bank

/-- The reference an output is bound to. -/
def refOf (s : State) (c : Chan) : Reference := s.refs[(bankOf s c).ref]

/-- The frame start after one that occurs: a free-running output adds P (R3); otherwise the next of the
sequence (R5). -/
def OutTiming.following (t : OutTiming) (r : Reference) (b : Bank) : OutTiming :=
  match t.grid with
  | .free => { t with next := t.next + b.pOut }
  | .past => t.place r b (0, 0)
  | .at m j => t.place r b (if j + 1 < framesPerPeriod r b then (m, j + 1) else (m + 1, 0))

/-- An output's frame start occurs at its scheduled time, and the next one is scheduled (R5). -/
def advanceTiming (c : Chan) (s : State) : State :=
  s.modTiming c fun t =>
    { t with last := some t.next, lastPeriod := (bankOf s c).pOut }.following (refOf s c) (bankOf s c)

/-- R5: the least time of the next frame start: ceil(P/2) after the last one, P being the greatest of the
periods at the last frame start and of those that the rule at hand names; `now` where there was none. -/
def OutTiming.earliest (t : OutTiming) (period now : Nat) : Nat :=
  match t.last with
  | some l => max now (l + ceilHalf (max t.lastPeriod period))
  | none => now

/-- R15: an output's frame timing as the part becomes READY: none yet, the next at o. -/
def startTiming (s : State) (c : Chan) : OutTiming :=
  { last := none, next := (bankOf s c).offset,
    grid := if bankCompatible s (bankOf s c) then .at 0 0 else .free, lastPeriod := 0 }

/-- The outputs bound to a reference. -/
def boundTo (s : State) (n : RefNo) : List Chan := allChans.filter fun c => (bankOf s c).ref = n

/-! ## Epochs that begin, move and jump -/

/-- The frame start keeps its place in a period whose epoch moved: its time is formed again (R6). -/
def OutTiming.recompute (t : OutTiming) (r : Reference) (b : Bank) : OutTiming :=
  match t.grid with
  | .at m j => t.place r b (m, j)
  | .free | .past => t

/-- A new alignment period has begun: the frame starts of the period it was scheduled for are formed from its
epoch, and one that is left of the ended period keeps its time (R5, R6, log entry 15). -/
def OutTiming.enterPeriod (t : OutTiming) (r : Reference) (b : Bank) : OutTiming :=
  match t.grid with
  | .at (m + 1) j => t.place r b (m, j)
  | .at 0 _ => { t with grid := .past }
  | .free | .past => t

/-- Change the frame timing of an output and move its channel's deadline with the next frame start (R6). -/
def retimeWith (f : OutTiming → Reference → Bank → OutTiming) (c : Chan) (s : State) : State :=
  let t := s.timing[c]
  let t' := f t (refOf s c) (bankOf s c)
  let s := s.modTiming c fun _ => t'
  if t'.next = t.next then s else moveDeadline c t'.next s

/-- The epoch of the current period moves to `t` (R6). -/
def moveEpoch (n : RefNo) (t : Nat) (kind : EpochKind) (interval : Nat) (s : State) : State :=
  let s := s.modRef n fun r => { r with epoch := t, kind := kind, interval := interval }
  forEach (boundTo s n) (retimeWith OutTiming.recompute) s

/-- A new alignment period begins at `t`. -/
def newPeriod (n : RefNo) (t : Nat) (kind : EpochKind) (interval : Nat) (s : State) : State :=
  let s := s.modRef n fun r => { r with epoch := t, kind := kind, interval := interval }
  forEach (boundTo s n) (retimeWith OutTiming.enterPeriod) s

/-- R12: an output's first frame start in the new sequence at least ceil(P/2) after its last one, and spaced
from it as R5 gives where the period has changed since. -/
def OutTiming.retimed (t : OutTiming) (r : Reference) (b : Bank) : OutTiming :=
  match t.grid with
  | .free => t
  | .past | .at _ _ =>
    match t.last with
    | some _ => t.place r b (firstAt r b (t.earliest b.pOut 0))
    | none => t.place r b (0, 0)

/-- R12: a retime. -/
def retime (n : RefNo) (t : Nat) (interval : Nat) (s : State) : State :=
  let s := s.modRef n fun r => { r with epoch := t, kind := .pulse, interval := interval }
  raise (.refRetimed n) (forEach (boundTo s n) (retimeWith OutTiming.retimed) s)

/-- R13: an output's sequence is rebuilt from its active bank; `pOld` is the period before the change, which
a STOPPED channel's earlier take may have made another than the one at the last frame start (R5). -/
def rebuild (c : Chan) (pOld : Nat) (s : State) : State :=
  let b := bankOf s c
  let r := refOf s c
  if bankCompatible s b then
    s.modTiming c fun t => t.place r b (firstAt r b (t.earliest (max pOld b.pOut) s.now))
  else s.modTiming c fun t => { t with grid := .free }

/-! ## Pulses -/

/-- Whether a time lies within a tolerance of 270 ticks of another. -/
def near (t x : Nat) : Bool := absDiff t x ≤ Config.refTolerance

/-- Clamp an interval to T_align − 270 .. T_align + 270 (R10). -/
def Reference.clampInterval (r : Reference) (i : Int) : Nat :=
  (clampInt i ((r.tAlign : Int) - 270) ((r.tAlign : Int) + 270)).toNat

/-- A pulse in ABSENT or HOLDOVER moves the reference to LOCKING (R7, R9). -/
def enterLocking (n : RefNo) (t : Nat) (s : State) : State :=
  let was := s.refs[n].state = .locked
  let s := s.modRef n fun r => { r with state := .locking, lastPulse := some t, good := 0 }
  condition (.refLock n) was false s

/-- R11: the fourth good interval `i` of a pulse at `t`: LOCKED, late, early or retimed. -/
def adopt (n : RefNo) (t i : Nat) (s : State) : State :=
  let r := s.refs[n]
  let s := s.modRef n fun r => { r with state := .locked, lastPulse := some t, good := 4 }
  let s := condition (.refLock n) false true s
  if (t : Int) - r.epoch ≤ 270 then moveEpoch n t .pulse i s
  else if ((r.epoch + r.interval : Nat) : Int) - t ≤ 270 then newPeriod n t .pulse i s
  else retime n t i s

/-- A pulse in LOCKING (R8). -/
def pulseLocking (n : RefNo) (t : Nat) (s : State) : State :=
  let r := s.refs[n]
  let i := t - r.lastPulse.getD 0
  if r.lastPulse.isSome && near i r.tAlign then
    if r.good + 1 = 4 then adopt n t i s
    else s.modRef n fun r => { r with lastPulse := some t, good := r.good + 1 }
  else s.modRef n fun r => { r with lastPulse := some t, good := 0 }

/-- A pulse outside the window (R10). -/
def pulseOutside (n : RefNo) (t : Nat) (s : State) : State :=
  if s.refs[n].oot + 1 = 2 then enterLocking n t (s.modRef n fun r => { r with oot := 0 })
  else s.modRef n fun r => { r with oot := r.oot + 1 }

/-- A pulse in LOCKED (R10). -/
def pulseLocked (n : RefNo) (t : Nat) (s : State) : State :=
  let r := s.refs[n]
  let accept (s : State) : State := s.modRef n fun r => { r with lastPulse := some t, oot := 0 }
  if r.kind = .provisional then
    if near t r.epoch then
      accept (moveEpoch n t .pulse (r.clampInterval ((t : Int) - ((r.epoch : Int) - r.interval))) s)
    else pulseOutside n t s
  else if near t (r.epoch + r.interval) then
    accept (newPeriod n t .pulse (r.clampInterval ((t : Int) - r.epoch)) s)
  else pulseOutside n t s

/-- A pulse by the state of its reference (R2, R7–R10); in STARTING no pulse is stamped (R15). -/
def refPulse (n : RefNo) (s : State) : State :=
  if s.isReady then
    match s.refs[n].state with
    | .absent | .holdover => enterLocking n s.now s
    | .locking => pulseLocking n s.now s
    | .locked => pulseLocked n s.now s
  else s

/-- REF_PULSE (R2). -/
def execRefPulse (dt : Nat) (n : RefNo) (s : State) : Result := .next (refPulse n (s.elapse dt))

/-! ## Epochs without a pulse -/

/-- A synthetic epoch is due (R7–R9). SET_REFERENCE to a shorter T_align keeps E, so that E + new T_align can lie
in the past; R4 does not say what then happens: the missed synthetic epochs are due at once, one after
another, until E + I lies ahead (the model's choice, log entry 30). -/
def syntheticDue (s : State) (n : RefNo) : Bool :=
  let r := s.refs[n]
  s.isReady && r.state ≠ .locked && r.epoch + r.interval ≤ s.now

/-- House time reaches E + I in ABSENT, LOCKING or HOLDOVER (R7, R8, R9). -/
def syntheticEpoch (n : RefNo) (s : State) : State :=
  let r := s.refs[n]
  if syntheticDue s n then newPeriod n (r.epoch + r.interval) .synthetic r.interval s else s

/-- SYNTHETIC_EPOCH (R7, R8, R9). -/
def execSyntheticEpoch (dt : Nat) (n : RefNo) (s : State) : Result := .next (syntheticEpoch n (s.elapse dt))

/-- A provisional epoch is due (R10). -/
def provisionalDue (s : State) (n : RefNo) : Bool :=
  let r := s.refs[n]
  s.isReady && r.state = .locked && r.kind ≠ .provisional && r.epoch + r.interval ≤ s.now

/-- House time reaches X in LOCKED with no in-window pulse yet (R10). -/
def provisionalEpoch (n : RefNo) (s : State) : State :=
  let r := s.refs[n]
  if provisionalDue s n then newPeriod n (r.epoch + r.interval) .provisional r.interval s else s

/-- PROVISIONAL_EPOCH (R10). -/
def execProvisionalEpoch (dt : Nat) (n : RefNo) (s : State) : Result := .next (provisionalEpoch n (s.elapse dt))

/-- The window expires (R10). -/
def windowDue (s : State) (n : RefNo) : Bool :=
  let r := s.refs[n]
  s.isReady && r.state = .locked && r.kind = .provisional && r.epoch + Config.refTolerance ≤ s.now

/-- House time reaches X + 270 with the epoch still PROVISIONAL (R10). -/
def windowExpiry (n : RefNo) (s : State) : State :=
  if windowDue s n then
    condition (.refLock n) true false
      (s.modRef n fun r => { r with state := .holdover, kind := .synthetic, oot := 0 })
  else s

/-- WINDOW_EXPIRY (R10). -/
def execWindowExpiry (dt : Nat) (n : RefNo) (s : State) : Result := .next (windowExpiry n (s.elapse dt))

/-! ## Requests -/

/-- R4: a channel that is not STOPPED would lose its reference. -/
def refusesAlign (s : State) (n : RefNo) (t : Nat) : Bool :=
  (boundTo s n).any fun c => s.chans[c].state ≠ .stopped && !compatible t (bankOf s c).pOut

/-- R4: what happens to one bound output when T_align has changed. -/
def rebind (was : Chan → Bool) (c : Chan) (s : State) : State :=
  if bankCompatible s (bankOf s c) then
    if was c then s else rebuild c (bankOf s c).pOut s
  else s.modTiming c fun t => { t with grid := .free }

/-- R4: T_align takes a new value. -/
def setAlign (n : RefNo) (t : Nat) (s : State) : State :=
  let was (c : Chan) : Bool := bankCompatible s (bankOf s c)
  let locked := s.refs[n].state = .locked
  let s := s.modRef n fun r =>
    { r with tAlign := t, interval := t, state := .absent, kind := .synthetic, lastPulse := none,
             good := 0, oot := 0 }
  forEach (boundTo s n) (rebind was) (condition (.refLock n) locked false s)

/-- SET_REFERENCE at its owner (R4). -/
def ownSetReference (p : Port) (a : Nat × Nat) (s : State) : Answer :=
  match idx 2 a.1 with
  | none => .invalid s
  | some n =>
    if Config.tAlignOk a.2 then
      if refusesAlign s n a.2 then .refused .refIncompatible s
      else if s.refs[n].tAlign = a.2 then .ok [] s
      else .ok [] (announce p ⟨0x10#8, some n.val, none⟩ (setAlign n a.2 s))
    else .invalid s

/-- SET_REFERENCE (R4). -/
def execSetReference (dt : Nat) (p : Port) (tag : Byte) (params : List Word) (s : State) : Result :=
  .next (submit p tag params paramsReference (ownSetReference p) (s.elapse dt))

/-- GET_REFERENCE_STATUS's result (R14). -/
def referenceWords (s : State) (r : Reference) : List Word :=
  w16 r.state.code ++ w32 r.tAlign ++ w64 r.epoch ++ w16 r.kind.code ++ w64 (r.epoch + r.interval) ++
  w32 r.interval ++ w16 r.good ++ w16 r.oot ++ wOpt 4 (fun t : Nat => w64 t) r.lastPulse ++ w64 s.now

/-- GET_REFERENCE_STATUS at its owner (R14). -/
def ownGetReferenceStatus (a : Nat) (s : State) : Answer :=
  match idx 2 a with
  | none => .invalid s
  | some n => .ok (referenceWords s s.refs[n]) s

/-- GET_REFERENCE_STATUS (R14). -/
def execGetReferenceStatus (dt : Nat) (p : Port) (tag : Byte) (params : List Word) (s : State) : Result :=
  .next (submit p tag params params1 ownGetReferenceStatus (s.elapse dt))

end Sys2Proof.Machine
end

