-- ==== Sys2Proof/Machine/Output.lean ====
section
/-! DEFINITION. The programme outputs (file 10, R163–R169): presentation, loss hold, emission. -/

namespace Sys2Proof.Machine

/-- Release the ON_AIR slot, if any. -/
def releaseOnAir (c : Chan) (s : State) : State :=
  match s.outputs[c].onAir with
  | some a => releaseFrom .onAir a.slot (s.modOutput c fun o => { o with onAir := none })
  | none => s

/-- Release the READY slot, if any. -/
def releaseReady (c : Chan) (s : State) : State :=
  match s.outputs[c].ready with
  | some a => releaseFrom .ready a.slot (s.modOutput c fun o => { o with ready := none })
  | none => s

/-- The display state becomes BLACK. -/
def goBlack (c : Chan) (s : State) : State := s.modOutput c fun o => { o with display := .black }

/-! ## Presentation (R164, R166) -/

/-- Count a frame start that shows a new picture. -/
def countPresented (c : Chan) (s : State) : State :=
  s.modChan c fun ch =>
    { ch with counters := { ch.counters with presented := satAdd Config.max16 ch.counters.presented 1 } }

/-- Count a frame start that shows the ON_AIR slot again. -/
def countRepeat (c : Chan) (s : State) : State :=
  s.modChan c fun ch =>
    { ch with counters := { ch.counters with repeats := satAdd Config.max16 ch.counters.repeats 1 } }

/-- The READY slot of the frame goes on air, and the previous ON_AIR slot is released (R164, first row). -/
def showNew (c : Chan) (r : Held) (s : State) : State :=
  let old := s.outputs[c].onAir
  let s := moveSlot .ready .onAir r.slot s
  let s := s.modOutput c fun o => { o with onAir := some r, ready := none, display := .live, lateRun := false }
  let s := match old with
    | some a => releaseFrom .onAir a.slot s
    | none => s
  countPresented c s

/-- No READY slot for the frame: the job, if any, is abandoned, and the ON_AIR slot is shown again, or black
(R164, second and third rows). -/
def showOld (c : Chan) (s : State) : State :=
  let s := abandonAtDeadline c s
  match s.outputs[c].onAir with
  | some _ => countRepeat c (s.modOutput c fun o => { o with display := .repeat })
  | none => goBlack c s

/-- R164, for the frame now beginning. -/
def showFrame (c : Chan) (s : State) : State :=
  match s.outputs[c].ready with
  | some r => if r.frame = s.chans[c].frame then showNew c r s else showOld c s
  | none => showOld c s

/-- Presentation at an output frame start (R164, and R166 while HOLDING). -/
def present (c : Chan) (s : State) : State :=
  if s.chans[c].state = .holding then
    match s.outputs[c].hold with
    | some (n + 1) => (showFrame c s).modOutput c fun o => { o with hold := some n }
    | some 0 | none => goBlack c (releaseOnAir c (abandonAtDeadline c (releaseReady c s)))
  else showFrame c s

/-- The loss hold begins at entry into HOLDING (R166). -/
def beginHold (c : Chan) (s : State) : State :=
  let n := (bankOf s c).lossHold
  let s := s.modOutput c fun o => { o with hold := some n }
  if n = 0 then goBlack c (releaseOnAir c s) else s

/-- The hold countdown becomes absent (R166). -/
def endHold (c : Chan) (s : State) : State := s.modOutput c fun o => { o with hold := none }

/-- A stop releases the READY and ON_AIR slots, and the output shows black (R168). -/
def stopOutput (c : Chan) (s : State) : State := endHold c (goBlack c (releaseOnAir c (releaseReady c s)))

/-! ## Emission (R163, R167) -/

/-- A frame begins: it is emitted in the active bank's standard when the enable is ON (R163). -/
def beginFrame (c : Chan) (s : State) : State :=
  let b := bankOf s c
  s.modOutput c fun o => { o with emitStd := if b.enable then some b.outStd else none, emitFailed := [] }

/-- What a take does to the emission: ON to OFF ceases at once; OFF to ON begins with the frame now beginning
when applied at a frame start, and with the next one otherwise (R167). -/
def takeEmission (c : Chan) (old new : Bank) (atFrameStart : Bool) (s : State) : State :=
  s.modOutput c fun o =>
    { o with emitStd :=
        if !new.enable then none
        else if !old.enable && atFrameStart then some old.outStd
        else o.emitStd }

/-- The slot line that an active line of a frame of a standard carries: an interlaced frame carries the even lines
in field 1 and the odd ones in field 2, a progressive one its lines in field 1; `none` beyond the active lines
(R163, R16). -/
def emittedLine (std : StdId) (field2 : Bool) (line : Nat) : Option Nat :=
  let d := Config.std std
  let y := if d.interlaced then 2 * line + (if field2 then 1 else 0) else line
  if (d.interlaced || !field2) && y < d.activeLines then some y else none

/-- The active sample that OUTc emits at a place of the frame in progress: a line of a field and a sample of a
component. `none` while it emits nothing and outside the active lines and width of the standard in which it
emits (R163, R28). -/
def emittedSample (s : State) (c : Chan) (field2 : Bool) (line : Nat) (comp : Component) (x : Nat) : Option Sample :=
  match s.outputs[c].emitStd with
  | none => none
  | some std =>
    match emittedLine std field2 line with
    | none => none
    | some y =>
      if x < componentWidth (Config.std std).width comp then
        match emitsPicture s c with
        | some a =>
          some (if s.outputs[c].emitFailed.contains ⟨y, comp, x / 8⟩ then blackOf comp
                else readSample s a.slot y comp x)
        | none => some (blackOf comp)
      else none

/-- The slot an output reads a code word from for emission (R28). -/
def emissionRead (s : State) (c : Chan) (w : CodeWord) : Option SlotNo :=
  match s.outputs[c].emitStd, emitsPicture s c with
  | some std, some a => if wordInside w (Config.std std).activeLines std then some a.slot else none
  | _, _ => none

/-- A code word read for emission fails (R28). -/
def outputReadFault (c : Chan) (w : CodeWord) (s : State) : State :=
  match emissionRead s c w with
  | some n =>
    storeFault n (.output c) (s.modOutput c fun o => { o with emitFailed := o.emitFailed ++ [w] })
  | none => s

/-- OUTPUT_READ_FAULT (R28). -/
def execOutputReadFault (dt : Nat) (c : Chan) (w : CodeWord) (s : State) : Result :=
  .next (outputReadFault c w (s.elapse dt))

/-- The output state as GET_CHANNEL_STATUS codes it: OFF, BLACK, LIVE, REPEAT (R163, R169). -/
def outputStateCode (s : State) (c : Chan) : Nat :=
  if (bankOf s c).enable then 1 + s.outputs[c].display.code else 0

/-- A held slot with its output frame number. -/
def Held.words (h : Held) : List Word := w16 h.slot.val ++ w32 h.frame.toNat

/-- The output in GET_CHANNEL_STATUS (R169). -/
def outputWords (s : State) (c : Chan) : List Word :=
  let o := s.outputs[c]
  w16 (outputStateCode s c) ++ w16 o.display.code ++ wOpt 3 Held.words o.onAir ++ wOpt 3 Held.words o.ready ++
  wOpt 1 (fun n : Nat => w16 n) o.hold ++ wFlag o.lateRun

end Sys2Proof.Machine
end

