-- ==== Sys2Proof/Machine/Rate.lean ====
section
/-! DEFINITION. The rate tracker's estimates (file 04, R60, R61), read by rings, detectors and channels. -/

namespace Sys2Proof.Machine

/-- The standard of a feed: the detected one, else the last one locked. -/
def Receiver.standard (r : Receiver) : Option StdId := r.detected.or r.lastLocked

/-- P_nom of a feed; for a feed that never locked since reset a free value (log entry 12). -/
def pNomIn (s : State) (f : Feed) : Nat :=
  match s.rxs[f].standard with
  | some i => Config.pNom i
  | none => Config.freePeriod s.freeCount f.val

/-- P_est of a window of intervals, with P_nom while it holds fewer than four (R60). -/
def pEstOf (window : List Int) (pNom : Nat) : Int :=
  if 4 ≤ window.length then window.sum / (window.length : Int) else pNom

/-- P_est of a feed as it stands (R60). -/
def pEst (s : State) (f : Feed) : Int := pEstOf s.rings[f].window (pNomIn s f)

/-- The rate deviation in ppm (R61). -/
def rateDeviation (s : State) (f : Feed) : Int :=
  if s.rings[f].window.length < 4 then 0
  else clampInt ((pEst s f - pNomIn s f) * 1000000 / (pNomIn s f : Int)) (-9999) 9999

end Sys2Proof.Machine
end

