-- ==== Sys2Proof/Machine/Phase.lean ====
section
/-! DEFINITION. The phase unit (file 07): picture lists, target times, selection, dither and weight. -/

namespace Sys2Proof.Machine

/-! ## Picture lists (R114–R117) -/

/-- The kind of picture list (R114). -/
def listKindOf (std : Option StdId) (mode : TempMode) (det : DetState) : ListKind :=
  if std.any fun i => (Config.std i).interlaced then
    if mode = .filmAware && det.isLocked then .film else .fields
  else .frames

/-- The COMPLETE members of a feed's ring, oldest first. -/
def completeMembers (s : State) (f : Feed) : List SlotNo :=
  s.rings[f].members.filter fun n => s.slots[n].state = .complete

/-- One picture for a COMPLETE member (R115). -/
def framePicture (s : State) (n : SlotNo) : Picture :=
  let x := s.slots[n]
  { stamp := x.stamp1.getD 0, brk := x.breakBefore, kind := .frames, reads := [⟨n, .frame⟩] }

/-- Two pictures for a COMPLETE member (R116). -/
def fieldPictures (s : State) (n : SlotNo) : List Picture :=
  let x := s.slots[n]
  let t1 := x.stamp1.getD 0
  [{ stamp := t1, brk := x.breakBefore, kind := .fields, reads := [⟨n, .field1⟩] },
   { stamp := x.stamp2.getD t1, brk := false, kind := .fields, reads := [⟨n, .field2⟩] }]

/-- A field of a film frame as a read. -/
def FieldRef.read (x : FieldRef) : Read := ⟨x.slot, if x.field2 then .field2 else .field1⟩

/-- One picture for a film frame; the field 1 of the pair supplies the even lines (R117). -/
def filmPicture (x : FilmEntry) : Picture :=
  { stamp := x.stamp, brk := x.brk, kind := .film,
    reads := if x.first.field2 then [x.second.read, x.first.read] else [x.first.read, x.second.read] }

/-- The picture list of a kind (R115–R117). -/
def pictureList (s : State) (f : Feed) : ListKind → List Picture
  | .frames => (completeMembers s f).map (framePicture s)
  | .fields => (completeMembers s f).flatMap (fieldPictures s)
  | .film => s.dets[f].films.map filmPicture

/-! ## Target times, dither, weight (R119, R127, R128) -/

/-- The target time of a pass: To + f · floor(P_out/2) − Dly_eff, signed (R119). -/
def targetTime (frameStart dly pOut : Nat) (pass : Nat) : Int := (frameStart : Int) + (pass * (pOut / 2) : Nat) - dly

/-- The dither period N; 1 when OFF (R127). -/
def DitherPeriod.n : DitherPeriod → Nat
  | .off => 1 | .d4 => 4 | .d8 => 8 | .d16 => 16 | .d32 => 32

/-- log2 N. -/
def DitherPeriod.bits : DitherPeriod → Nat
  | .off => 0 | .d4 => 2 | .d8 => 3 | .d16 => 4 | .d32 => 5

/-- Bit reversal over a number of bits (00_scope, Bits of a quantity). -/
def bitReverse : Nat → Nat → Nat
  | 0, _ => 0
  | k + 1, x => x % 2 * 2 ^ k + bitReverse k (x / 2)

/-- The dither value b of a pass (R127). -/
def ditherValue (d : DitherPeriod) (phase : Fin 4) (frame : BitVec 32) (interlaced : Bool) (pass : Nat) : Nat :=
  let n := d.n
  let o := phase.val * n / 4
  let k := if interlaced then 2 * frame.toNat + pass else frame.toNat
  bitReverse d.bits ((k + o) % n)

/-- The weight q = floor((64·N·(Tt − s_i) + (2b + 1)·Δ) / (2·N·Δ)) (R128). -/
def weight (n b : Nat) (offset delta : Int) : Nat :=
  ((64 * (n : Int) * offset + (2 * (b : Int) + 1) * delta) / (2 * (n : Int) * delta)).toNat

/-! ## Selection (R120–R126) -/

/-- What a pass selects: the case, q where it was formed, and the pictures. -/
structure Selection where
  sel  : SelCase
  q    : Option Nat
  pics : List Picture
deriving DecidableEq, Repr

/-- R124: the nearer of two pictures; halfway takes the newer. -/
def nearest (t : Int) (a c : Picture) : Selection :=
  ⟨.nearest, none, if 2 * (t - a.stamp) < c.stamp - a.stamp then [a] else [c]⟩

/-- R126: the weight decides: the older alone, the newer alone, or a blend. -/
def blendSelection (n b : Nat) (t : Int) (a c : Picture) : Selection :=
  let q := weight n b (t - a.stamp) (c.stamp - a.stamp)
  if q = 0 then ⟨.single, some q, [a]⟩
  else if q = 32 then ⟨.single, some q, [c]⟩
  else ⟨.blend, some q, [a, c]⟩

/-- R120: the selection of a pass from a list that is not empty. -/
def selectPass (l : List Picture) (forceNearest : Bool) (n b : Nat) (t : Int) : Option Selection :=
  match l with
  | [] => none
  | first :: _ =>
    let k := (l.takeWhile fun p => p.stamp ≤ t).length
    if k = 0 then some ⟨.early, none, [first]⟩
    else
      match l[k - 1]?, l[k]? with
      | some a, some c =>
        some (if c.brk || forceNearest then nearest t a c else blendSelection n b t a c)
      | some a, none => some ⟨.late, none, [a]⟩
      | none, _ => none

/-- The pass record of pass `f` (R129). -/
def passRecord (l : List Picture) (bank : Bank) (modeChange : Bool) (frame : BitVec 32) (start dly f : Nat) :
    Option PassRec :=
  let interlaced := (Config.std bank.outStd).interlaced
  let b := ditherValue bank.ditherPeriod bank.ditherPhase frame interlaced f
  let t := targetTime start dly bank.pOut f
  (selectPass l (modeChange || bank.mode = .nearest) bank.ditherPeriod.n b t).map fun x =>
    ⟨f, x.sel, x.q, b, t, x.pics⟩

/-- The passes of an output standard: two for an interlaced one (R119). -/
def passNumbers (outStd : StdId) : List Nat := if (Config.std outStd).interlaced then [0, 1] else [0]

/-- The pass records of a dispatch (R120, R129). -/
def passRecords (l : List Picture) (bank : Bank) (modeChange : Bool) (frame : BitVec 32) (start dly : Nat) :
    List PassRec :=
  (passNumbers bank.outStd).filterMap (passRecord l bank modeChange frame start dly)

/-- The readback of a pass (R130). -/
def PassRec.readback (r : PassRec) : PassReadback := ⟨r.sel, r.pics.map Picture.stamp, r.q, r.b⟩

/-- The distinct slots named by the reads of the passes, ascending (R129). -/
def slotSet (passes : List PassRec) : List SlotNo :=
  let named := passes.flatMap fun r => r.pics.flatMap fun p => p.reads.map Read.slot
  (List.finRange 96).filter named.contains

/-- How many passes fell into a case. -/
def countCase (c : SelCase) (passes : List PassRec) : Nat := passes.countP fun r => r.sel = c

end Sys2Proof.Machine
end

