-- ==== Sys2Proof/Machine/Detector.lean ====
section
/-! DEFINITION. The cadence detectors (file 05): repeat flags, the 3:2 and 2:2 patterns, film frames. -/

namespace Sys2Proof.Machine

/-- A field as it is handed to the detector (R55, R76). -/
structure FieldIn where
  sig     : Signature
  damaged : Bool
  ref     : FieldRef
  stamp   : Int
deriving DecidableEq, Repr

/-- The difference of two signatures: floor(Σ |a − b| / 2304) (R77). -/
def sigDiff (a b : Signature) : Nat := (List.zipWith absDiff a b).sum / 2304

/-- The reference buffer of a parity. -/
def Detector.buffer (d : Detector) (field2 : Bool) : Option RefBuffer := if field2 then d.buf2 else d.buf1

/-- m against a reference buffer, where the flag is not UNKNOWN (R77). -/
def repeatDiff (buf : Option RefBuffer) (x : Option FieldIn) : Option Nat :=
  match buf, x with
  | some b, some x => if b.damaged || x.damaged then none else some (sigDiff x.sig b.sig)
  | _, _ => none

/-- The repeat flag for an m (R77). -/
def flagOfDiff (threshold : Nat) : Option Nat → RepeatFlag
  | none => .unknown
  | some m => if m ≤ threshold then .set else .clear

/-- Append a flag; the history holds at most 10 (R77). -/
def appendFlag (h : List RepeatFlag) (x : RepeatFlag) : List RepeatFlag :=
  let h := h ++ [x]
  h.drop (h.length - 10)

/-- R77: the flag enters the history, last m takes m, and the field replaces its parity's buffer. -/
def Detector.takeFlag (d : Detector) (threshold : Nat) (field2 : Bool) (x : Option FieldIn) : Detector :=
  let m := repeatDiff (d.buffer field2) x
  let buf := x.map fun x => (⟨x.sig, x.damaged⟩ : RefBuffer)
  { d with
    history := appendFlag d.history (flagOfDiff threshold m)
    lastM := m.or d.lastM
    buf1 := if field2 then d.buf1 else buf
    buf2 := if field2 then buf else d.buf2 }

/-- The newest flag of the history. -/
def Detector.lastFlag (d : Detector) : RepeatFlag := d.history.getLast?.getD .unknown

/-! ## The 3:2 pattern -/

/-- R79: ten flags, none UNKNOWN, exactly two SET and these 5 fields apart; the phase of the field just
taken, the newer SET field having phase 2. -/
def candidatePhase (h : List RepeatFlag) : Option Nat :=
  let sets := (List.range 10).filter fun i => h.getD i .unknown = .set
  if h.length = 10 ∧ !h.contains .unknown then
    match sets with
    | [i, j] => if j - i = 5 then some ((2 + (9 - j)) % 5) else none
    | _ => none
  else none

/-- R84: entry into a locked state. -/
def enterLocked (f : Feed) (st : DetState) (s : State) : State :=
  let s := s.modRing f fun r => { r with pendingBreak := true }
  let s := s.modDet f fun d =>
    { d with state := st, breakSeen := true, nextFilm := 0, anchor := none, lastFilmStamp := none,
             cycleBegun := false, failCount := 0 }
  condition (.cadence f) false true s

/-- R84: exit from a locked state to VIDEO. -/
def exitLocked (f : Feed) (s : State) : State :=
  let s := s.modRing f fun r => { r with pendingBreak := true }
  let s := s.modDet f fun d =>
    { d with state := .video, openFilm := none, films := [], breakSeen := false, phase := none,
             anchor := none, lastFilmStamp := none, failCount := 0 }
  condition (.cadence f) true false s

/-- A break of a lock: counted, then exit (R81, R83). -/
def cadenceBreak (f : Feed) (s : State) : State :=
  exitLocked f (s.modDet f fun d => { d with breaks := satAdd Config.max32 d.breaks 1 })

/-- The phase after the next field (R80, R81). -/
def nextPhase (p : Option Nat) : Nat := (p.getD 0 + 1) % 5

/-- R80: whether a candidate fails at a field. -/
def candidateFails (flag : RepeatFlag) (phase : Nat) : Bool :=
  flag = .unknown || (flag = .set && phase ≠ 2) || (flag = .clear && phase = 2)

/-! ## Film frames -/

/-- Write a field's film tag into its slot record (R85, R87). -/
def tagField (x : FieldIn) (tag : FilmTag) (s : State) : State :=
  if s.slots[x.ref.slot].state.inUse then
    s.modSlot x.ref.slot fun sl => if x.ref.field2 then { sl with tag2 := some tag } else { sl with tag1 := some tag }
  else s

/-- R86: a film stamp that is not greater than the last one becomes the last one + 1. -/
def guardStamp (last : Option Int) (t : Int) : Int :=
  match last with
  | some l => if t ≤ l then l + 1 else t
  | none => t

/-- Append to the film frame list, which holds 8 (R88). -/
def appendFilm (l : List FilmEntry) (x : FilmEntry) : List FilmEntry :=
  let l := l ++ [x]
  l.drop (l.length - 8)

/-- A second field completes the open film frame: the entry takes break seen (R85, R87). -/
def Detector.completeFilm (d : Detector) (second : FieldRef) : Detector :=
  match d.openFilm with
  | none => d
  | some o =>
    { d with films := appendFilm d.films ⟨o.number, o.stamp, o.first, second, d.breakSeen⟩
             breakSeen := false, openFilm := none }

/-- R86: phase 0 begins a half, and half 0 begins a cycle, which sets the anchor. -/
def Detector.beginHalf (d : Detector) (pEst : Int) (x : Option FieldIn) : Detector :=
  let half := if d.cycleBegun then 1 - d.half else 0
  { d with
    half := half
    cycleBegun := true
    anchor := if half = 0 then
        (match x with
         | some x => some x.stamp
         | none => d.anchor.map (· + 5 * pEst))
      else d.anchor }

/-- R85, R86: a film frame position `j` of the cycle: it takes the next number and its stamp, and opens a
film frame when its field is present (and the position is stamped, log entry 14). -/
def Detector.openPosition (d : Detector) (pEst : Int) (j : Nat) (x : Option FieldIn) : Detector :=
  let stamp := d.anchor.map fun a => guardStamp d.lastFilmStamp (a + (j : Int) * 5 * pEst / 4)
  { d with
    nextFilm := d.nextFilm + 1
    lastFilmStamp := stamp.or d.lastFilmStamp
    openFilm := match x, stamp with
      | some x, some t => some ⟨d.nextFilm, t, x.ref⟩
      | _, _ => none }

/-- R85: tag and group a field at a phase of LOCKED_32. -/
def filmField32 (f : Feed) (phase : Nat) (x : Option FieldIn) (s : State) : State :=
  let est := pEst s f
  let d := s.dets[f]
  let tag (role : TagRole) (number : BitVec 16) (s : State) : State :=
    match x with
    | some x => tagField x ⟨number, role⟩ s
    | none => s
  if phase = 0 then
    let d := d.beginHalf est x
    tag .first d.nextFilm (s.modDet f fun _ => d.openPosition est (2 * d.half) x)
  else if !d.cycleBegun then s
  else if phase = 3 then
    tag .first d.nextFilm (s.modDet f fun _ => d.openPosition est (2 * d.half + 1) x)
  else if phase = 2 then tag .dropped (d.nextFilm - 1) s
  else
    let d' := match x with
      | some x => d.completeFilm x.ref
      | none => { d with openFilm := none }
    tag .second (d.nextFilm - 1) (s.modDet f fun _ => d')

/-- R87: field 1 of a frame in LOCKED_22 opens its film frame. -/
def openFilm22 (f : Feed) (x : FieldIn) (s : State) : State :=
  let d := s.dets[f]
  let t := guardStamp d.lastFilmStamp x.stamp
  tagField x ⟨d.nextFilm, .first⟩ <| s.modDet f fun d =>
    { d with openFilm := some ⟨d.nextFilm, t, x.ref⟩, nextFilm := d.nextFilm + 1, lastFilmStamp := some t }

/-- R87: field 2 of a frame in LOCKED_22 completes it. -/
def completeFilm22 (f : Feed) (x : FieldIn) (s : State) : State :=
  tagField x ⟨s.dets[f].nextFilm - 1, .second⟩ (s.modDet f fun d => d.completeFilm x.ref)

/-! ## States -/

/-- The state rule for a field of a 3:2 standard (R79–R81, R85). -/
def rule32 (f : Feed) (x : Option FieldIn) (s : State) : State :=
  let d := s.dets[f]
  match d.state with
  | .video =>
    match candidatePhase d.history with
    | some p => s.modDet f fun d => { d with state := .candidate32, phase := some p, candidates := 0 }
    | none => s
  | .candidate32 =>
    let p := nextPhase d.phase
    if candidateFails d.lastFlag p then
      s.modDet f fun d => { d with state := .video, phase := none, candidates := 0 }
    else
      let s := s.modDet f fun d => { d with phase := some p, candidates := d.candidates + 1 }
      if d.candidates + 1 = 5 then enterLocked f .locked32 s else s
  | .locked32 =>
    let p := nextPhase d.phase
    if p = 2 ∧ d.lastFlag = .clear then cadenceBreak f (s.modDet f fun d => { d with phase := some p })
    else filmField32 f p x (s.modDet f fun d => { d with phase := some p })
  | .candidate22 | .locked22 => s

/-- R82, the table: the verdict on the frame before, given its two buffers, its m_intra and the new field 1. -/
def judge (threshold : Nat) (b1 b2 : Option RefBuffer) (mIntra : Option Nat) (x : Option FieldIn) : Verdict :=
  match b1, b2, mIntra, x with
  | some b1, some b2, some mi, some x =>
    if b1.damaged || b2.damaged || x.damaged then .unknown
    else
      let mCross := sigDiff x.sig b2.sig
      if mCross ≤ threshold then .static
      else if 2 * mi < mCross then .pass
      else .fail
  | _, _, _, _ => .unknown

/-- R82: the verdict on the frame before a new field 1: UNKNOWN when that frame follows a skip, and by the table
otherwise. -/
def Detector.verdictOn (d : Detector) (threshold : Nat) (x : Option FieldIn) : Verdict :=
  if d.followsSkip then .unknown else judge threshold d.buf1 d.buf2 d.mIntra x

/-- R79, R83: what a verdict does. -/
def applyVerdict (f : Feed) (v : Verdict) (s : State) : State :=
  let d := s.dets[f]
  match d.state with
  | .video =>
    if v = .pass then s.modDet f fun d => { d with state := .candidate22, passCount := 1 }
    else s.modDet f fun d => { d with passCount := 0 }
  | .candidate22 =>
    if v = .pass then
      let s := s.modDet f fun d => { d with passCount := d.passCount + 1 }
      if d.passCount + 1 = 8 then enterLocked f .locked22 s else s
    else s.modDet f fun d => { d with state := .video, passCount := 0 }
  | .locked22 =>
    match v with
    | .fail =>
      if d.failCount + 1 = 3 then cadenceBreak f s
      else s.modDet f fun d => { d with failCount := d.failCount + 1 }
    | .pass => s.modDet f fun d => { d with failCount := 0 }
    | .static | .unknown => s
  | .candidate32 | .locked32 => s

/-- The film rule for a field in LOCKED_22; an absent field forms nothing (R87). -/
def film22 (f : Feed) (field2 : Bool) (x : Option FieldIn) (s : State) : State :=
  match s.dets[f].state, x with
  | .locked22, some x => if field2 then completeFilm22 f x s else openFilm22 f x s
  | _, _ => s

/-- The detector takes a field, or an absent field of a skip (R76). A frame judged whose field 2 is absent was
skipped, and the frame whose field 1 is taken now follows it (R82). -/
def takeField (f : Feed) (field2 : Bool) (x : Option FieldIn) (s : State) : State :=
  let before := s.dets[f]
  let threshold := s.rings[f].threshold
  let enable := s.rings[f].cadenceEnable
  let std := s.rxs[f].detected
  let is32 := std.any Config.is32
  let is22 := std.any Config.is22
  let s := s.modDet f fun d => d.takeFlag threshold field2 x
  let s :=
    if is22 && field2 then
      s.modDet f fun d => { d with
        mIntra := match d.buf1, x with
          | some b, some x => some (sigDiff x.sig b.sig)
          | _, _ => none }
    else if is22 && !before.history.isEmpty then
      let v := before.verdictOn threshold x
      let s := s.modDet f fun d => { d with verdict := some v, followsSkip := before.buf2.isNone }
      if enable then applyVerdict f v s else s
    else s
  if !enable then s
  else if is32 then rule32 f x s
  else if is22 then film22 f field2 x s
  else s

/-- R86: a break slot's handover in LOCKED_32 first moves the anchor. -/
def anchorShift (est : Int) (seq : BitVec 32) (stamp : Int) (brk : Bool) (d : Detector) : Detector :=
  if d.state = .locked32 ∧ brk then
    match d.lastSlot, d.anchor with
    | some (seq0, stamp0), some a =>
      let predicted := stamp0 + ((seq - seq0).toNat : Int) * est
      { d with anchor := some (a + (stamp - predicted)) }
    | _, _ => d
  else d

/-- The handover of a capture of an interlaced standard (R76): field 1 of the slot, then field 2. -/
def handover (f : Feed) (n : SlotNo) (sig1 sig2 : Signature) (s : State) : State :=
  let sl := s.slots[n]
  let seq := sl.seq.getD 0
  let t1 := sl.stamp1.getD 0
  let t2 := sl.stamp2.getD t1
  let est := pEst s f
  let s := s.modDet f (anchorShift est seq t1 sl.breakBefore)
  let s := s.modDet f fun d =>
    { d with lastSlot := some (seq, t1), breakSeen := d.breakSeen || sl.breakBefore }
  takeField f true (some ⟨sig2, sl.damaged, ⟨n, true⟩, t2⟩)
    (takeField f false (some ⟨sig1, sl.damaged, ⟨n, false⟩, t1⟩) s)

/-- A skip report: two absent fields (R76). R76 and R77 speak of interlaced captures and R49 reports every skip:
a skipped frame of a progressive feed enters two UNKNOWN flags into the history as well (the model's choice, log
entry 13). -/
def skipReport (f : Feed) (s : State) : State := takeField f true none (takeField f false none s)

/-! ## Reports, removals and the enable -/

/-- R78: a report of LOCKED. -/
def detectorRestart (f : Feed) (s : State) : State :=
  let was := s.dets[f].state.isLocked
  let s := s.modDet f fun d =>
    { d with state := .video, history := [], buf1 := none, buf2 := none, lastM := none, phase := none,
             candidates := 0, mIntra := none, followsSkip := false, passCount := 0, failCount := 0, verdict := none,
             anchor := none, nextFilm := 0, lastFilmStamp := none, breakSeen := false, lastSlot := none,
             openFilm := none, films := [] }
  condition (.cadence f) was false s

/-- R78: a report of NO_SIGNAL, ACQUIRING or UNKNOWN. -/
def detectorLoss (f : Feed) (s : State) : State := s.modDet f fun d => { d with openFilm := none }

/-- R88: a slot leaves the ring. -/
def Detector.dropSlot (n : SlotNo) (d : Detector) : Detector :=
  { d with
    films := d.films.filter fun x => x.first.slot ≠ n ∧ x.second.slot ≠ n
    openFilm := match d.openFilm with
      | some o => if o.first.slot = n then none else some o
      | none => none }

/-- R89: an accepted SET_FEED turns the enable off. -/
def cadenceDisable (f : Feed) (s : State) : State :=
  match s.dets[f].state with
  | .video => s
  | .candidate32 | .candidate22 =>
    s.modDet f fun d => { d with state := .video, phase := none, candidates := 0, passCount := 0 }
  | .locked32 | .locked22 => exitLocked f s

end Sys2Proof.Machine
end

