-- ==== Sys2Proof/Machine/Ring.lean ====
section
/-! DEFINITION. The feed rings (file 04): smoothing, admission, removal, pruning, relock, SET_FEED. -/

namespace Sys2Proof.Machine

/-! ## Removal -/

/-- A slot leaves the ring: the members keep their order, the store detaches or releases the slot (R65), and
the detector drops the film frames that name it (R88). -/
def removeMember (f : Feed) (n : SlotNo) (s : State) : State :=
  let s := s.modRing f fun r => { r with members := r.members.filter (· ≠ n) }
  (detachOrRelease n s).modDet f (Detector.dropSlot n)

/-- The FILLING member leaves the ring at its release from FILLING (R68). -/
def dropFilling (f : Feed) (n : SlotNo) (s : State) : State :=
  let s := s.modRing f fun r => { r with members := r.members.filter (· ≠ n) }
  (releaseFrom .filling n s).modDet f (Detector.dropSlot n)

/-- Remove the oldest `k` members, oldest first. -/
def removeOldest (f : Feed) (k : Nat) (s : State) : State :=
  forEach (s.rings[f].members.take k) (removeMember f) s

/-! ## Admission -/

/-- The latest stamp a slot holds (R64). -/
def Slot.latestStamp (x : Slot) : Option Int := x.stamp2.or x.stamp1

/-- The latest stamp held by a ring's newest member (R64). -/
def newestStamp (s : State) (f : Feed) : Option Int :=
  s.rings[f].members.getLast?.bind fun n => s.slots[n].latestStamp

/-- R60, R62, R63: what the smoother makes of a raw stamp: the ring, and whether the frame is a step. -/
def smoothRing (pNom : Nat) (raw : Nat) (r : Ring) : Ring × Bool :=
  match r.prevSmooth with
  | none => ({ r with prevRaw := some raw, prevSmooth := some (raw : Int) }, false)
  | some sp =>
    let predicted := sp + pEstOf r.window pNom
    let e := (raw : Int) - predicted
    if e.natAbs ≤ pNom / 8 then
      let window := match r.prevRaw with
        | some a =>
          let w := r.window ++ [(raw : Int) - a]
          w.drop (w.length - 16)
        | none => r.window
      ({ r with prevRaw := some raw, prevSmooth := some (predicted + e / 8), lastError := some e,
                window := window }, false)
    else
      ({ r with prevRaw := some raw, prevSmooth := some (raw : Int), lastError := some e, window := [],
                pendingBreak := true, steps := satAdd Config.max32 r.steps 1 }, true)

/-- R64: a smoothed stamp that is not after the newest member's latest stamp is raised past it. -/
def guardRing (latest : Option Int) (r : Ring) : Ring :=
  match latest, r.prevSmooth with
  | some l, some t => if t ≤ l then { r with prevSmooth := some (l + 1), pendingBreak := true } else r
  | _, _ => r

/-- R59 step 1: the tracker and the smoother take a frame start. -/
def smoothFrame (f : Feed) (std : StdId) (raw : Nat) (s : State) : State :=
  let (r, step) := smoothRing (Config.pNom std) raw s.rings[f]
  let s := s.modRing f fun _ => guardRing (newestStamp s f) r
  if step then raise (.stampStep f) s else s

/-- R66: a full ring removes its oldest member. -/
def overrun (f : Feed) (s : State) : State :=
  if s.rings[f].members.length < s.rings[f].depth then s
  else
    let s := removeOldest f 1 s
    raise (.ringOverrun f) (s.modRing f fun r => { r with overruns := satAdd Config.max32 r.overruns 1 })

/-- R59: a frame start in LOCKED; the answer is the receiver's capture slot. -/
def admitCapture (f : Feed) (std : StdId) (seq : BitVec 32) (raw : Nat) (s : State) : CapSlot × State :=
  let s := overrun f (smoothFrame f std raw s)
  let r := s.rings[f]
  let stamp := r.prevSmooth.getD raw
  let stamp2 := if (Config.std std).interlaced then
      some (stamp + pEstOf r.window (Config.pNom std) / 2) else none
  match allocate (captureRecord f std seq raw stamp stamp2 r.pendingBreak) s with
  | (some n, s) =>
    (.slot n, s.modRing f fun r =>
      { r with members := r.members ++ [n], pendingBreak := false,
               admitted := satAdd Config.max32 r.admitted 1 })
  | (none, s) => (.skipped, s.modRing f fun r => { r with skips := satAdd Config.max32 r.skips 1 })

/-! ## Pruning -/

/-- The channel is bound to the feed and PRIMING or RUNNING (R69). -/
def drawsOn (s : State) (f : Feed) (c : Chan) : Bool :=
  let ch := s.chans[c]
  ch.bank.feed = f && (ch.state = .priming || ch.state = .running)

/-- A channel's term in the horizon (R69). -/
def horizonTerm (s : State) (c : Chan) : Int := (s.timing[c].next : Int) - (s.chans[c].dlyEff.getD 0 : Nat)

/-- The horizon H of a feed, where a bound channel is PRIMING or RUNNING (R69). -/
def horizon (s : State) (f : Feed) : Option Int := ((allChans.filter (drawsOn s f)).map (horizonTerm s)).min?

/-- R69: how many of the oldest members leave at a horizon, their first stamps in order. -/
def pruneCount (h : Int) : List Int → Nat
  | _ :: b :: c :: rest => if c ≤ h then 1 + pruneCount h (b :: c :: rest) else 0
  | _ => 0

/-- The first stamps of a ring's members. -/
def firstStamps (s : State) (f : Feed) : List Int := s.rings[f].members.map fun n => s.slots[n].stamp1.getD 0

/-- How many members are COMPLETE. -/
def completeCount (s : State) (f : Feed) : Nat :=
  s.rings[f].members.countP fun n => s.slots[n].state = .complete

/-- The prune at a capture completion or at the end of a dispatch (R69, R70). -/
def prune (f : Feed) (s : State) : State :=
  match horizon s f with
  | some h =>
    (removeOldest f (pruneCount h (firstStamps s f)) s).modRing f fun r => { r with lastHorizon := some (h, s.now) }
  | none => (removeOldest f (completeCount s f - 2) s).modRing f fun r => { r with lastHorizon := none }

/-- R71: a report of LOCKED removes every member and restarts the tracker. -/
def relock (f : Feed) (s : State) : State :=
  (removeOldest f s.rings[f].members.length s).modRing f fun r =>
    { r with window := [], prevRaw := none, prevSmooth := none, lastError := none, pendingBreak := true }

/-! ## Requests -/

/-- The ring in GET_FEED_STATUS (R73). -/
def ringWords (s : State) (f : Feed) : List Word :=
  let r := s.rings[f]
  w16 r.depth ++ wFlag r.cadenceEnable ++ w16 r.threshold ++
  wList (fun n : SlotNo =>
    let x := s.slots[n]
    w16 n.val ++ w16 x.state.code ++ w32 (x.seq.getD 0).toNat ++ wList w64 x.stamps ++ wFlag x.breakBefore ++
      w16 x.pins) r.members ++
  w16 r.window.length ++ w32 (pEst s f) ++ w16 (rateDeviation s f) ++ wOpt 4 w64 r.prevSmooth ++
  wOpt 2 w32 r.lastError ++ wFlag r.pendingBreak ++
  wOpt 8 (fun h : Int × Nat => w64 h.1 ++ w64 h.2) r.lastHorizon ++
  w32 r.admitted ++ w32 r.skips ++ w32 r.overruns ++ w32 r.steps

/-- R72: the accepted parameters take effect on the ring, and on the detector where the enable goes off (R89). -/
def setRing (f : Feed) (depth : Nat) (enable : Bool) (threshold : Nat) (s : State) : State :=
  let goesOff := s.rings[f].cadenceEnable && !enable
  let s := removeOldest f (s.rings[f].members.length - depth)
    (s.modRing f fun r => { r with depth := depth, cadenceEnable := enable, threshold := threshold })
  if goesOff then cadenceDisable f s else s

/-- SET_FEED at its owner (R72). -/
def ownSetFeed (p : Port) (a : Nat × Nat × Nat × Nat) (s : State) : Answer :=
  match idx 8 a.1, flagOf a.2.2.1 with
  | some f, some enable =>
    let depth := a.2.1
    let threshold := a.2.2.2
    if 3 ≤ depth ∧ depth ≤ 8 ∧ threshold ≤ 255 then
      if allChans.any (drawsOn s f) then .refused .feedInUse s
      else
        let r := s.rings[f]
        let changed := !(r.depth = depth && r.cadenceEnable = enable && r.threshold = threshold)
        .ok [] (announceIf changed p ⟨0x20#8, some f.val, none⟩ (setRing f depth enable threshold s))
    else .invalid s
  | _, _ => .invalid s

/-- SET_FEED (R72). -/
def execSetFeed (dt : Nat) (p : Port) (tag : Byte) (params : List Word) (s : State) : Result :=
  .next (submit p tag params params4 (ownSetFeed p) (s.elapse dt))

end Sys2Proof.Machine
end

