-- ==== Sys2Proof/Machine/Channel.lean ====
section
/-! DEFINITION. The channel contexts (file 06): states, takes, the effective delay, dispatch, output frame
starts, and the channel requests. -/

namespace Sys2Proof.Machine

/-! ## The effective delay (R105) -/

/-- Dly_eff from the delay field and mode of a bank, P_nom_in and the ring's depth D (R105). -/
def effectiveDelay (b : Bank) (pIn depth : Nat) : Nat :=
  match b.delay with
  | none => (if b.mode = .filmAware then 3 else 2) * pIn + b.pOut + 27000
  | some x =>
    let lo := pIn + b.pOut
    let hi := (depth - 1) * pIn
    if hi < lo then lo else if x < lo then lo else if hi < x then hi else x

/-- The detected standard of the channel's feed, when the feed is LOCKED and the standard is accepted
(R92). -/
def acceptedFeed (s : State) (c : Chan) : Option StdId :=
  let b := bankOf s c
  let r := s.rxs[b.feed]
  if r.state = .locked then r.detected.filter fun i => b.expected.all (· = i) else none

/-- Compute Dly_eff when the feed is LOCKED and accepted; otherwise it stays (R105). -/
def computeDelay (c : Chan) (s : State) : State :=
  match acceptedFeed s c with
  | some i =>
    let b := bankOf s c
    s.modChan c fun ch => { ch with dlyEff := some (effectiveDelay b (Config.pNom i) s.rings[b.feed].depth) }
  | none => s

/-! ## States (R101, R111) -/

/-- The channel takes a state: CHANNEL_STATE is raised and HOLDING follows (R111). -/
def setChanState (c : Chan) (st : ChanState) (s : State) : State :=
  let before := s.chans[c].state
  let s := raise (.channelState c) (s.modChan c fun ch => { ch with state := st })
  condition (.holding c) (before = .holding) (st = .holding) s

/-- Entry into PRIMING: Dly_eff is computed and the last list kind becomes none (R101); the countdown becomes
absent (R166). -/
def enterPriming (c : Chan) (s : State) : State :=
  let s := setChanState c .priming (endHold c s)
  computeDelay c (s.modChan c fun ch => { ch with listKind := none })

/-- Entry into HOLDING: the loss hold begins (R166), and it is an occurrence for the alert lines (R173). -/
def enterHolding (c : Chan) (s : State) : State := alertOccurrence c (beginHold c (setChanState c .holding s))

/-- R101: what a channel does on a report of its feed's receiver. -/
def followFeed (c : Chan) (s : State) : State :=
  let ok := (acceptedFeed s c).isSome
  match s.chans[c].state with
  | .stopped => s
  | .waitFeed => if ok then enterPriming c s else s
  | .priming | .running => if ok then s else enterHolding c s
  | .holding => if ok then enterPriming c s else s

/-- R101: a report of a receiver reaches the channels whose active banks name the feed, in ascending order
(log entry 17). -/
def reportToChannels (f : Feed) (s : State) : State :=
  forEach (allChans.filter fun c => (bankOf s c).feed = f) followFeed s

/-! ## Takes (R97–R100, R104) -/

/-- A structural field differs (the bank record table). -/
def structuralChange (a b : Bank) : Bool :=
  a.feed ≠ b.feed || a.outStd ≠ b.outStd || a.ref ≠ b.ref || a.expected ≠ b.expected

/-- R13: the frame start sequence is rebuilt when reference, output standard or offset changes. -/
def sequenceChange (a b : Bank) : Bool := a.ref ≠ b.ref || a.outStd ≠ b.outStd || a.offset ≠ b.offset

/-- R104: a structural take re-primes a channel that is not STOPPED. -/
def reprime (c : Chan) (old new : Bank) (s : State) : State :=
  let s := if old.outStd ≠ new.outStd then goBlack c (releaseOnAir c s) else s
  if (acceptedFeed s c).isSome then enterPriming c s
  else
    match s.chans[c].state with
    | .priming | .running => enterHolding c s
    | .stopped | .waitFeed | .holding => s

/-- R93: what an applied take does to the channel. -/
def takeEffects (c : Chan) (old new : Bank) (s : State) : State :=
  if structuralChange old new then
    if s.chans[c].state = .stopped then s else reprime c old new s
  else computeDelay c s

/-- The take changes the active bank (R98, steps 2 to 4). -/
def swapBanks (c : Chan) (s : State) : State :=
  s.modChan c fun ch =>
    { ch with active := (match ch.active with | .a => .b | .b => .a), revision := ch.revision + 1,
              takePending := false, lastTake := .applied s.now }

/-- A take application (R98), or its rejection (R99). -/
def applyTake (c : Chan) (atFrameStart : Bool) (s : State) : State :=
  let old := bankOf s c
  let new := s.chans[c].nextBank
  if bankCompatible s new then
    let s := swapBanks c s
    let s := if sequenceChange old new then rebuild c old.pOut s else s
    raise (.takeDone c) (takeEffects c old new (takeEmission c old new atFrameStart s))
  else
    raise (.takeDone c)
      (s.modChan c fun ch => { ch with takePending := false, lastTake := .rejected s.now })

/-- Results of a take on one channel (R181). -/
inductive TakeWord where
  | applied | rejected | pending
deriving DecidableEq, Repr

/-- Codes of the results (R181). -/
def TakeWord.word : TakeWord → Word
  | .applied => 0#16 | .rejected => 1#16 | .pending => 2#16

/-- A take on one channel (R97). -/
def takeOn (c : Chan) (s : State) : TakeWord × State :=
  let ch := s.chans[c]
  if ch.state = .stopped ∧ !ch.takePending then
    (if bankCompatible s ch.nextBank then .applied else .rejected, applyTake c false s)
  else (.pending, s.modChan c fun ch => { ch with takePending := true })

/-- The channels of a mask, in ascending order. -/
def maskChans (mask : Nat) : List Chan := allChans.filter fun c => mask.testBit c.val

/-- The peer-change entry of a take on a channel (R97, R100). -/
def takeEntry (s : State) (c : Chan) : PeerEntry := ⟨0x34#8, some c.val, some s.chans[c].revision⟩

/-- Takes on a list of channels, each announced to the other port (R97). -/
def takeAll (p : Port) : List Chan → State → List Word × State
  | [], s => ([], s)
  | c :: rest, s =>
    let (w, s) := takeOn c s
    let (ws, s) := takeAll p rest (announce p (takeEntry s c) s)
    (w.word :: ws, s)

/-- TAKE at its owner (R97). -/
def ownTake (p : Port) (mask : Nat) (s : State) : Answer :=
  if mask = 0 ∨ 255 < mask then .invalid s
  else
    let (ws, s) := takeAll p (maskChans mask) s
    .ok ws s

/-- TAKE (R97). -/
def execTake (dt : Nat) (p : Port) (tag : Byte) (params : List Word) (s : State) : Result :=
  .next (submit p tag params params1 (ownTake p) (s.elapse dt))

/-- A take by an auxiliary line, with entries to both ports (R100). -/
def auxTake (c : Chan) (s : State) : State :=
  let (_, s) := takeOn c s
  let e := takeEntry s c
  peerAppend .b e (peerAppend .a e s)

/-! ## Dispatch (R107, R108) -/

/-- The selection's marks on the channel (R125, R130). -/
def recordSelection (c : Chan) (kind : ListKind) (passes : List PassRec) (s : State) : State :=
  s.modChan c fun ch =>
    { ch with
      listKind := some kind
      readback := some ⟨kind, passes.map PassRec.readback⟩
      counters := { ch.counters with
        srcEarly := satAdd Config.max16 ch.counters.srcEarly (countCase .early passes)
        srcLate := satAdd Config.max16 ch.counters.srcLate (countCase .late passes) } }

/-- Record the last dispatch outcome. -/
def setOutcome (c : Chan) (x : DispatchOutcome) (s : State) : State :=
  s.modChan c fun ch => { ch with outcome := some x }

/-- The job of a dispatch (R108). -/
def makeJob (s : State) (c : Chan) (srcStd : StdId) (passes : List PassRec) (dest : SlotNo) : Job :=
  let b := bankOf s c
  { chan := c, frame := s.chans[c].frame + 1, outStd := b.outStd, srcStd := srcStd,
    deadline := s.timing[c].next, passes := passes, slots := slotSet passes,
    fields := (b.vProf, b.hProf, b.mProf),
    resolved := resolveProfiles s srcStd b.outStd b.vProf b.hProf b.mProf, captured := none, dest := dest,
    start := none, completion := none, failed := [], onAirFailed := [] }

/-- Steps 3 and 4 of a dispatch: the pins, and the hand-over (R107). -/
def queueJob (c : Chan) (j : Job) (s : State) : State :=
  let s := forEach j.slots pin s
  let s := s.modChan c fun ch => { ch with resolved := some j.resolved }
  let s := setOutcome c .job (handOver j s)
  if s.chans[c].state = .priming then setChanState c .running s else s

/-- Steps 2 to 4 of a dispatch whose list is not empty (R107). -/
def dispatchJob (c : Chan) (srcStd : StdId) (passes : List PassRec) (s : State) : State :=
  let b := bankOf s c
  match allocate (destRecord c b.outStd (s.chans[c].frame + 1)) s with
  | (some n, s) => queueJob c (makeJob s c srcStd passes n) s
  | (none, s) => setOutcome c .noSlot s

/-- Dispatch of frame k + 1, and the prune that ends it (R107, R125, R130). -/
def dispatch (c : Chan) (s : State) : State :=
  let b := bankOf s c
  let ch := s.chans[c]
  let std := s.rxs[b.feed].detected
  let kind := listKindOf std b.mode s.dets[b.feed].state
  let list := pictureList s b.feed kind
  let modeChange := ch.listKind.any (· ≠ kind)
  let passes := passRecords list b modeChange (ch.frame + 1) s.timing[c].next (ch.dlyEff.getD 0)
  let s := recordSelection c kind passes s
  prune b.feed <|
    match list, std with
    | _ :: _, some i => dispatchJob c i passes s
    | _, _ => setOutcome c .noPicture s

/-! ## Output frame starts (R106) -/

/-- An output frame start is due. -/
def frameStartDue (s : State) (c : Chan) : Bool := s.isReady && s.timing[c].next ≤ s.now

/-- Step 1: the output frame counter (R106). -/
def countFrame (c : Chan) (s : State) : State :=
  s.modChan c fun ch => if ch.state = .stopped then ch else { ch with frame := ch.frame + 1 }

/-- Step 3: a pending take (R98). -/
def pendingTake (c : Chan) (s : State) : State := if s.chans[c].takePending then applyTake c true s else s

/-- Step 4: the dispatch (R106). -/
def dispatchIfActive (c : Chan) (s : State) : State :=
  match s.chans[c].state with
  | .priming | .running => dispatch c s
  | .stopped | .waitFeed | .holding => s

/-- An output frame start, its four steps in order (R106); the frame start occurs at its scheduled time, and
the next one is scheduled before the steps (R5, log entry 17). -/
def outputFrameStart (c : Chan) (s : State) : State :=
  if frameStartDue s c then
    dispatchIfActive c (pendingTake c (present c (beginFrame c (countFrame c (advanceTiming c s)))))
  else s

/-- OUTPUT_FRAME_START (R106). -/
def execOutputFrameStart (dt : Nat) (c : Chan) (s : State) : Result := .next (outputFrameStart c (s.elapse dt))

/-! ## Requests -/

/-- Replace the next bank. -/
def Channel.setNext (ch : Channel) (b : Bank) : Channel :=
  match ch.active with
  | .a => { ch with bankB := b }
  | .b => { ch with bankA := b }

/-- R94: the next bank as it would stand; `none` when the edit is INVALID. -/
def editBank (items : List (Nat × Nat)) (b : Bank) : Option Bank :=
  if items.isEmpty ∨ !(items.map Prod.fst).Nodup then none
  else (b.setFields items).filter Bank.offsetOk

/-- SET_CHANNEL at its owner (R94, R95). -/
def ownSetChannel (p : Port) (a : ChannelEdit) (s : State) : Answer :=
  match idx 8 a.chan with
  | none => .invalid s
  | some c =>
    match editBank a.items s.chans[c].nextBank with
    | none => .invalid s
    | some b =>
      let rev := s.chans[c].revision
      if a.expected.all (· = rev) then
        .ok [rev + 1]
          (announce p ⟨0x30#8, some c.val, some (rev + 1)⟩
            (s.modChan c fun ch => { ch.setNext b with revision := rev + 1 }))
      else .complete .stale [rev] s

/-- SET_CHANNEL (R94). -/
def execSetChannel (dt : Nat) (p : Port) (tag : Byte) (params : List Word) (s : State) : Result :=
  .next (submit p tag params paramsChannel (ownSetChannel p) (s.elapse dt))

/-- Position of a bank in the list of values. -/
def BankId.code : BankId → Nat
  | .a => 0 | .b => 1

/-- GET_CHANNEL at its owner (R96). -/
def ownGetChannel (a : Nat) (s : State) : Answer :=
  match idx 8 a with
  | none => .invalid s
  | some c =>
    let ch := s.chans[c]
    .ok (ch.bankA.words ++ ch.bankB.words ++ w16 ch.active.code ++ [ch.revision] ++ wFlag ch.takePending) s

/-- GET_CHANNEL (R96). -/
def execGetChannel (dt : Nat) (p : Port) (tag : Byte) (params : List Word) (s : State) : Result :=
  .next (submit p tag params params1 ownGetChannel (s.elapse dt))

/-- R102: what a start sets to none and to 0; the output's late run is cleared (R165). -/
def clearRun (c : Chan) (s : State) : State :=
  let s := s.modChan c fun ch =>
    { ch with counters := .zero, frame := 0, listKind := none, outcome := none, readback := none }
  s.modOutput c fun o => { o with lateRun := false }

/-- R102, step 3. -/
def startState (c : Chan) (s : State) : State :=
  if (acceptedFeed s c).isSome then enterPriming c s
  else (setChanState c .waitFeed s).modChan c fun ch => { ch with dlyEff := none }

/-- START_CHANNEL at its owner (R102). -/
def ownStartChannel (p : Port) (a : Nat) (s : State) : Answer :=
  match idx 8 a with
  | none => .invalid s
  | some c =>
    if s.chans[c].state ≠ .stopped then .refused .notStopped s
    else if bankCompatible s (bankOf s c) then
      let s := startState c (clearRun c s)
      .ok (w16 s.chans[c].state.code) (announce p ⟨0x32#8, some c.val, some s.chans[c].revision⟩ s)
    else .refused .refIncompatible s

/-- START_CHANNEL (R102). -/
def execStartChannel (dt : Nat) (p : Port) (tag : Byte) (params : List Word) (s : State) : Result :=
  .next (submit p tag params params1 (ownStartChannel p) (s.elapse dt))

/-- R103: the channel enters STOPPED; its job is abandoned, and its slots are released. -/
def stopChannel (c : Chan) (s : State) : State := stopOutput c (abandonAtStop c (setChanState c .stopped s))

/-- STOP_CHANNEL at its owner (R103). -/
def ownStopChannel (p : Port) (a : Nat) (s : State) : Answer :=
  match idx 8 a with
  | none => .invalid s
  | some c =>
    if s.chans[c].state = .stopped then .complete .already [] s
    else .ok [] (announce p ⟨0x33#8, some c.val, some s.chans[c].revision⟩ (stopChannel c s))

/-- STOP_CHANNEL (R103). -/
def execStopChannel (dt : Nat) (p : Port) (tag : Byte) (params : List Word) (s : State) : Result :=
  .next (submit p tag params params1 (ownStopChannel p) (s.elapse dt))

/-- The last take result with its house time. -/
def TakeResult.words : TakeResult → List Word
  | .none => w16 0 ++ wOpt 4 (fun t : Nat => w64 t) Option.none
  | .applied t => w16 1 ++ wOpt 4 (fun t : Nat => w64 t) (some t)
  | .rejected t => w16 2 ++ wOpt 4 (fun t : Nat => w64 t) (some t)

/-- One pass of the selection readback. -/
def PassReadback.words (x : PassReadback) : List Word :=
  w16 x.sel.code ++ wList w64 x.stamps ++ wOpt 1 (fun q : Nat => w16 q) x.q ++ w16 x.b

/-- The selection readback. -/
def SelReadback.words (x : SelReadback) : List Word := w16 x.kind.code ++ wList PassReadback.words x.passes

/-- GET_CHANNEL_STATUS's result (R110, R169). -/
def channelWords (s : State) (c : Chan) : List Word :=
  let ch := s.chans[c]
  let k := ch.counters
  w16 ch.state.code ++ w16 ch.active.code ++ [ch.revision] ++ wFlag ch.takePending ++ ch.lastTake.words ++
  wOpt 2 (fun d : Nat => w32 d) ch.dlyEff ++ w32 ch.frame.toNat ++
  wOpt 1 (fun x : DispatchOutcome => w16 x.code) ch.outcome ++
  wOpt 1 (fun x : ListKind => w16 x.code) ch.listKind ++ wOpt 2 SelReadback.words ch.readback ++
  w16 k.presented ++ w16 k.late ++ w16 k.repeats ++ w16 k.srcEarly ++ w16 k.srcLate ++
  wOpt 3 (fun r : Resolved => w16 r.v.val ++ w16 r.h.val ++ w16 r.m.val) ch.resolved ++ outputWords s c

/-- GET_CHANNEL_STATUS at its owner (R110). -/
def ownGetChannelStatus (a : Nat × Nat) (s : State) : Answer :=
  match idx 8 a.1, flagOf a.2 with
  | some c, some clear =>
    .ok (channelWords s c) (if clear then s.modChan c fun ch => { ch with counters := .zero } else s)
  | _, _ => .invalid s

/-- GET_CHANNEL_STATUS (R110). -/
def execGetChannelStatus (dt : Nat) (p : Port) (tag : Byte) (params : List Word) (s : State) : Result :=
  .next (submit p tag params params2 ownGetChannelStatus (s.elapse dt))

end Sys2Proof.Machine
end

