-- ==== Sys2Proof/Machine/Receiver.lean ====
section
/-! DEFINITION. The feed receivers (file 03): lines, frames, acquisition, flywheel, capture, link quality. -/

namespace Sys2Proof.Machine

/-! ## Lines and structures (R37, R39, R41) -/

/-- A valid line: both codes valid and alike (R37). -/
def lineCode (l : FeedLineData) : Option LineCode :=
  match l.startCode, l.endCode with
  | some a, some b => if a = b then some a else none
  | _, _ => none

/-- The loss timer's start after a line: its last valid timing code (R37, R38, log entry 8). -/
def lossStart (l : FeedLineData) (now : Nat) (before : Option Nat) : Option Nat :=
  if l.endCode.isSome then some (now + l.span) else if l.startCode.isSome then some now else before

/-- |p − P| · 1,000,000 ≤ 200 · P (R40). -/
def withinPpm (p ref : Nat) : Bool := absDiff p ref * 1000000 ≤ 200 * ref

/-- The structure of a layout (R39). -/
def Layout.structure_ (l : Layout) (regular : Bool) : Structure :=
  { total := l.lines.length, active := l.lines.countP fun c => !c.blank,
    width := if regular then some l.width else none, interlaced := l.lines.any LineCode.field2 }

/-- A catalogue entry has a structure (R41). -/
def structureMatches (x : Structure) (i : StdId) : Bool :=
  let d := Config.std i
  x.total = d.totalLines && x.active = d.activeLines && x.width = some d.width && x.interlaced = d.interlaced

/-- The catalogue entry that a structure and periods match (R41). -/
def identify (x : Structure) (periods : List Nat) : Option StdId :=
  (List.finRange 12).find? fun i => structureMatches x i && periods.all (withinPpm · (Config.pNom i))

/-! ## Counting (R51, R52) -/

/-- A line CRC error or a missing line (R51). -/
def Receiver.countError (r : Receiver) : Receiver :=
  { r with linkErrors := satAdd Config.max32 r.linkErrors 1, lineErrors := satAdd 1125 r.lineErrors 1,
           frameErrored := true }

/-- Count a line's CRC error, if it has one (R51). -/
def Receiver.countLine (r : Receiver) (l : FeedLineData) : Receiver := if l.crcError then r.countError else r

/-- The frame in progress is closed for the errored-frame count (R51, log entry 11). -/
def Receiver.closeErrored (r : Receiver) : Receiver :=
  { r with erroredFrames := if r.frameErrored then satAdd Config.max16 r.erroredFrames 1 else r.erroredFrames
           frameErrored := false }

/-- What every frame start does: raw stamp, frame line errors, margin, signature buffers (R39, R51, R52,
R55). -/
def Receiver.atFrameStart (r : Receiver) (t : Nat) (l : FeedLineData) : Receiver :=
  { r.closeErrored with lastRaw := some t, lineErrors := 0, margin := l.margin.val,
                        lowestMargin := min r.lowestMargin l.margin.val, sig1 := none, sig2 := none }

/-! ## Reports (R45) -/

/-- A change of receiver state is reported to the ring, the detector and the bound channels (R45). -/
def reportState (f : Feed) (s : State) : State :=
  let s := match s.rxs[f].state with
    | .locked => detectorRestart f (relock f s)
    | .noSignal | .acquiring | .unknown => detectorLoss f s
  reportToChannels f s

/-- The receiver takes a state: FEED_LOCK follows it (R57), and it is reported (R45). -/
def enterRxState (f : Feed) (st : RxState) (s : State) : State :=
  let was := s.rxs[f].state
  let s := s.modRx f fun r => { r with state := st }
  reportState f (condition (.feedLock f) (was = .locked) (st = .locked) s)

/-- A capture in progress is abandoned (R50). -/
def abandonCapture (f : Feed) (s : State) : State :=
  let c := s.rxs[f].capture
  let s := s.modRx f fun r => { r with capture := .none, sig1 := none, sig2 := none }
  match c with
  | .slot n => dropFilling f n s
  | .none | .skipped => s

/-- A structural change (R42). -/
def structuralChangeRx (f : Feed) (s : State) : State :=
  let s := abandonCapture f s
  let s := s.modRx f fun r =>
    { r.closeErrored with layout := none, run := .empty, detected := none, measure := none }
  enterRxState f .acquiring s

/-! ## Capture (R47–R50, R54) -/

/-- The slot line of an active position: the i-th active line of its field (R48). -/
def slotLine (lines : List LineCode) (k : Nat) : Nat :=
  match lines[k]? with
  | none => 0
  | some c =>
    let i := (lines.take k).countP fun x => !x.blank && x.field2 = c.field2
    if lines.any LineCode.field2 then 2 * i + (if c.field2 then 1 else 0) else i

/-- The sum of a block of luma samples of a field. -/
def blockSum (s : State) (n : SlotNo) (parity x0 x1 y0 y1 : Nat) : Nat :=
  ((List.range' y0 (y1 - y0)).map fun y =>
    ((List.range' x0 (x1 - x0)).map fun x => (readSample s n (2 * y + parity) .y x).toNat).sum).sum

/-- An element of a field's signature (R54). -/
def signatureElement (s : State) (n : SlotNo) (parity w lf r c : Nat) : Nat :=
  let x0 := c * w / 64
  let x1 := (c + 1) * w / 64
  let y0 := r * lf / 36
  let y1 := (r + 1) * lf / 36
  blockSum s n parity x0 x1 y0 y1 / ((x1 - x0) * (y1 - y0))

/-- The 64 × 36 luma signature of a field in a slot (R54). -/
def signature (s : State) (n : SlotNo) (std : StdId) (field2 : Bool) : Signature :=
  let d := Config.std std
  (List.range 36).flatMap fun r => (List.range 64).map fun c =>
    signatureElement s n (if field2 then 1 else 0) d.width (d.activeLines / 2) r c

/-- The end of a capture into a slot (R49). The handover needs both signatures: R49 takes the last active line of
an interlaced frame to be of field 2, and of a frame that ends with field 1 nothing reaches the detector (the
model's choice, log entry 31). -/
def endSlotCapture (f : Feed) (n : SlotNo) (s : State) : State :=
  let r := s.rxs[f]
  let s := if 64 < r.lineErrors then s.modSlot n fun x => { x with damaged := true } else s
  let s := prune f (moveSlot .filling .complete n s)
  match r.sig1, r.sig2 with
  | some a, some b => handover f n a b s
  | _, _ => s

/-- The last active position ends the capture (R49). A skip is reported for a progressive feed as well (log
entry 13). -/
def endCapture (f : Feed) (s : State) : State :=
  let c := s.rxs[f].capture
  let s := match c with
    | .slot n => endSlotCapture f n s
    | .skipped => skipReport f s
    | .none => s
  s.modRx f fun r => { r with capture := .none }

/-- No later position is an active line. -/
def lastActive (lines : List LineCode) (k : Nat) : Bool := (lines.drop (k + 1)).all LineCode.blank

/-- No later position is an active line of field 1. -/
def lastOfField1 (lines : List LineCode) (k : Nat) : Bool :=
  (lines.drop (k + 1)).all fun c => c.blank || c.field2

/-- A field's last active line completes its signature (R54, R55). The field 1 signature is formed once: a line
repeated in the window of its last position is written over the slot, and the signature stays that of the first
receipt (the model's choice, log entry 9). In a layout whose last active line is of field 1, which R41 does not
shut out, no field 1 signature is formed (the model's choice, log entry 31). -/
def formSignatures (f : Feed) (k : Nat) (lines : List LineCode) (s : State) : State :=
  let r := s.rxs[f]
  match r.capture, r.detected with
  | .slot n, some i =>
    if (Config.std i).interlaced then
      if lastActive lines k then s.modRx f fun r => { r with sig2 := some (signature s n i true) }
      else if lastOfField1 lines k && r.sig1.isNone then
        s.modRx f fun r => { r with sig1 := some (signature s n i false) }
      else s
    else s
  | _, _ => s

/-- An active position received or declared missing: written, and the capture ends with the last one (R48,
R49). -/
def activeLine (f : Feed) (k : Nat) (luma cb cr : List Sample) (s : State) : State :=
  match s.rxs[f].layout with
  | none => s
  | some lay =>
    let s := match s.rxs[f].capture with
      | .slot n => writeLine n (slotLine lay.lines k) luma cb cr s
      | .none | .skipped => s
    let s := formSignatures f k lay.lines s
    if lastActive lay.lines k then endCapture f s else s

/-- A capture is opened at a frame start in LOCKED (R47). -/
def openCapture (f : Feed) (t : Nat) (s : State) : State :=
  match s.rxs[f].detected with
  | none => s
  | some i =>
    let seq := s.rxs[f].seq
    let (c, s) := admitCapture f i seq t s
    s.modRx f fun r => { r with seq := seq + 1, capture := c }

/-! ## Acquisition (R40, R41, R46) -/

/-- A measured frame's first line (R39). -/
def Measure.first (t : Nat) (c : LineCode) : Measure :=
  { start := t, lines := [c], unread := 0, width := none, irregular := false }

/-- A further line of a measured frame (R39). -/
def Measure.add (m : Measure) (c : LineCode) (width : Nat) : Measure :=
  { m with
    lines := m.lines ++ [c]
    width := if c.blank then m.width else some (m.width.getD width)
    irregular := m.irregular || (!c.blank && m.width.any (· ≠ width)) }

/-- A line that is not valid in a measured frame: it is one of its lines and makes it irregular (R39). -/
def Measure.addUnread (m : Measure) : Measure := { m with unread := m.unread + 1, irregular := true }

/-- The layout of a measured frame: the indicator pairs of its lines, which is all that R39 calls its layout, and
with them its width, as in the record table's layout (`0` for a frame with no active line). The model's deduction,
log entry 32. -/
def Measure.layout (m : Measure) : Layout := ⟨m.lines, m.width.getD 0⟩

/-- The structure of a measured frame: a line that was not valid counts in its total lines (R39, log entry 10). -/
def Measure.structure_ (m : Measure) : Structure :=
  { m.layout.structure_ !m.irregular with total := m.lines.length + m.unread }

/-- The run after a closed frame of period p (R40). "A layout identical to the run's" compares the width as well as
the indicators: a regular frame of another width begins a new run (the model's deduction, log entry 32). -/
def Run.judge (run : Run) (m : Measure) (p : Nat) : Run :=
  if m.irregular then .empty
  else if run.layout = some m.layout && withinPpm p run.pRun then
    { run with count := run.count + 1, periods := run.periods ++ [p] }
  else { layout := some m.layout, pRun := p, count := 1, periods := [p] }

/-- The flywheel begins a frame at its frame start (R42). -/
def Receiver.startFlywheel (r : Receiver) : Receiver :=
  { r with nextPos := 1, posReceived := true, missed := false, measure := none }

/-- Entry into LOCKED to a standard: STANDARD_CHANGE, report, and the first capture (R41, R46, R47). -/
def enterLockedRx (f : Feed) (i : StdId) (t : Nat) (s : State) : State :=
  let last := s.rxs[f].lastLocked
  let s := s.modRx f fun r =>
    { r.startFlywheel with detected := some i, layout := r.run.layout, lastLocked := some i }
  let s := if last.any (· ≠ i) then raise (.standardChange f) s else s
  openCapture f t (enterRxState f .locked s)

/-- Entry into UNKNOWN (R41). -/
def enterUnknown (f : Feed) (s : State) : State :=
  enterRxState f .unknown (s.modRx f fun r => { r.startFlywheel with layout := r.run.layout })

/-- A run of three is identified (R41). -/
def identifyRun (f : Feed) (t : Nat) (s : State) : State :=
  let run := s.rxs[f].run
  match run.layout with
  | none => s
  | some lay =>
    match identify (lay.structure_ true) run.periods with
    | some i => enterLockedRx f i t s
    | none => enterUnknown f s

/-- A frame start closes the measured frame, if there is one (R39, R40). -/
def Receiver.closeMeasure (r : Receiver) (t : Nat) : Receiver :=
  match r.measure with
  | none => r
  | some m =>
    { r with run := r.run.judge m (t - m.start), pRef := some (t - m.start),
             lastClosed := some m.structure_ }

/-- A frame start in ACQUIRING (R39, R40). -/
def acquireFrameStart (f : Feed) (t : Nat) (c : LineCode) (l : FeedLineData) (s : State) : State :=
  let s := s.modRx f fun r =>
    { ((r.closeMeasure t).atFrameStart t l).countLine l with measure := some (.first t c) }
  if s.rxs[f].run.count = 3 then identifyRun f t s else s

/-- A valid line is a frame start: blank, of field 1, after a valid line that was active (R39). -/
def Receiver.startsFrame (r : Receiver) (c : LineCode) : Bool := c.blank && !c.field2 && r.prevActive

/-- A valid line in ACQUIRING. -/
def acquireLine (f : Feed) (t : Nat) (c : LineCode) (l : FeedLineData) (s : State) : State :=
  if s.rxs[f].startsFrame c then acquireFrameStart f t c l s
  else s.modRx f fun r =>
    { r.countLine l with measure := r.measure.map fun m => m.add c l.luma.length }

/-! ## The flywheel (R42–R44) -/

/-- The expected time of position k: A_n + floor(k · P_ref / N_tot) (R42). -/
def Receiver.expected (r : Receiver) (k : Nat) : Option Nat :=
  match r.lastRaw, r.pRef, r.layout with
  | some a, some p, some l => some (a + k * p / l.lines.length)
  | _, _, _ => none

/-- A time lies inside the window of position k (R42). -/
def Receiver.inWindow (r : Receiver) (k t : Nat) : Bool :=
  (r.expected k).any fun x => absDiff t x ≤ Config.lineTolerance

/-- The position a valid line is placed at, if it lies inside a window (R42, log entry 9). -/
def Receiver.position (r : Receiver) (t : Nat) : Option Nat :=
  if r.inWindow r.nextPos t then some r.nextPos
  else if r.posReceived && 1 < r.nextPos && r.inWindow (r.nextPos - 1) t then some (r.nextPos - 1)
  else none

/-- A line carries what the layout gives for its position; position N_tot carries the frame-start indicators
(R42). -/
def Layout.fits (lay : Layout) (k : Nat) (c : LineCode) (width : Nat) : Bool :=
  lay.lines[k % lay.lines.length]? = some c && (c.blank || width = lay.width)

/-- The period of the frame that a frame start at t closes. -/
def Receiver.framePeriod (r : Receiver) (t : Nat) : Nat := t - r.lastRaw.getD t

/-- R43, R44: whether a frame start at position N_tot keeps the receiver's state. -/
def Receiver.keeps (r : Receiver) (p : Nat) : Bool :=
  match r.state, r.detected, r.layout with
  | .locked, some i, _ => withinPpm p (Config.pNom i)
  | .unknown, _, some lay =>
    withinPpm p r.run.pRun && (identify (lay.structure_ !r.missed) [p]).isNone
  | _, _, _ => false

/-- A frame start in LOCKED or UNKNOWN closes the frame in progress: its period, and the structure of the
positions it has passed (R39). -/
def Receiver.closeFlywheel (r : Receiver) (t : Nat) : Receiver :=
  { r with
    lastClosed := r.layout.map fun lay => (⟨lay.lines.take r.nextPos, lay.width⟩ : Layout).structure_ !r.missed
    pRef := some (r.framePeriod t) }

/-- A frame start that is a structural change: the line is taken as the first frame start in ACQUIRING (R42, R43,
R44). -/
def restartAcquiring (f : Feed) (t : Nat) (c : LineCode) (l : FeedLineData) (s : State) : State :=
  (structuralChangeRx f (s.modRx f fun r => r.closeFlywheel t)).modRx f fun r =>
    { (r.atFrameStart t l).countLine l with measure := some (.first t c) }

/-- A frame start in LOCKED or UNKNOWN at position N_tot (R43, R44). -/
def flywheelFrameStart (f : Feed) (t : Nat) (c : LineCode) (l : FeedLineData) (s : State) : State :=
  let r := s.rxs[f]
  if r.keeps (r.framePeriod t) then
    let s := s.modRx f fun r => (((r.closeFlywheel t).atFrameStart t l).countLine l).startFlywheel
    if r.state = .locked then openCapture f t s else s
  else restartAcquiring f t c l s

/-- A valid line that is a structural change: one that is a frame start is taken as the first in ACQUIRING (R39),
and a mid-frame line leaves the run to the next frame start (R42). -/
def changeLine (f : Feed) (t : Nat) (c : LineCode) (l : FeedLineData) (s : State) : State :=
  if s.rxs[f].startsFrame c then restartAcquiring f t c l s
  else (structuralChangeRx f s).modRx f fun r => r.countLine l

/-- A line received at a position before N_tot (R42, R48). -/
def receiveLine (f : Feed) (k : Nat) (c : LineCode) (l : FeedLineData) (s : State) : State :=
  let s := s.modRx f fun r => { r.countLine l with nextPos := k + 1, posReceived := true }
  if c.blank then s
  else activeLine f k (l.luma.map clampSample) (l.cb.map clampSample) (l.cr.map clampSample) s

/-- A valid line in LOCKED or UNKNOWN (R42). -/
def flywheelLine (f : Feed) (t : Nat) (c : LineCode) (l : FeedLineData) (s : State) : State :=
  let r := s.rxs[f]
  match r.position t, r.layout with
  | some k, some lay =>
    if lay.fits k c l.luma.length then
      if k < lay.lines.length then receiveLine f k c l s else flywheelFrameStart f t c l s
    else changeLine f t c l s
  | _, _ => changeLine f t c l s

/-- A valid line by the receiver's state. -/
def validLine (f : Feed) (t : Nat) (c : LineCode) (l : FeedLineData) (s : State) : State :=
  let s := match s.rxs[f].state with
    | .noSignal => enterRxState f .acquiring s
    | .acquiring => acquireLine f t c l s
    | .locked | .unknown => flywheelLine f t c l s
  s.modRx f fun r => { r with prevActive := !c.blank }

/-- A line that is not valid: only its valid codes count (R37), and the frame that holds it is irregular, in
ACQUIRING and on the flywheel (R39). -/
def invalidLine (f : Feed) (s : State) : State :=
  s.modRx f fun r =>
    { r with measure := r.measure.map Measure.addUnread
             missed := r.missed || r.state = .locked || r.state = .unknown }

/-- A line arrives; while the part is STARTING the receivers do not follow their feeds (R58). In NO_SIGNAL
the loss timer does not run (R38). -/
def feedLine (f : Feed) (l : FeedLineData) (s : State) : State :=
  if s.isReady then
    let restart (s : State) : State :=
      s.modRx f fun r =>
        { r with lossFrom := if r.state = .noSignal then none else lossStart l s.now r.lossFrom }
    match lineCode l with
    | some c => restart (validLine f s.now c l s)
    | none => restart (invalidLine f s)
  else s

/-- FEED_LINE (R37, R42). -/
def execFeedLine (dt : Nat) (f : Feed) (l : FeedLineData) (s : State) : Result :=
  .next (feedLine f l (s.elapse dt))

/-! ## Windows that close (R42) -/

/-- A line window closes at the end of its tolerance. -/
def lineWindowDue (s : State) (f : Feed) : Bool :=
  let r := s.rxs[f]
  s.isReady && (r.state = .locked || r.state = .unknown) &&
    (r.expected r.nextPos).any fun x => x + Config.lineTolerance ≤ s.now

/-- Line k is missing: counted, written at black when active (R42, R48, R51). -/
def missLine (f : Feed) (k : Nat) (lay : Layout) (s : State) : State :=
  let s := s.modRx f fun r => { r.countError with nextPos := k + 1, posReceived := false, missed := true }
  if (lay.lines[k]?).any fun c => !c.blank then
    activeLine f k (List.replicate lay.width Config.blackLuma)
      (List.replicate (lay.width / 2) Config.blackChroma) (List.replicate (lay.width / 2) Config.blackChroma) s
  else s

/-- The window of the next position closes with no valid line in it (R42). -/
def lineWindowClose (f : Feed) (s : State) : State :=
  if lineWindowDue s f then
    let r := s.rxs[f]
    match r.layout with
    | some lay => if r.nextPos < lay.lines.length then missLine f r.nextPos lay s else structuralChangeRx f s
    | none => s
  else s

/-- LINE_WINDOW_CLOSE (R42). -/
def execLineWindowClose (dt : Nat) (f : Feed) (s : State) : Result := .next (lineWindowClose f (s.elapse dt))

/-! ## Loss (R38) -/

/-- The loss timer has reached 27,000 ticks. -/
def lossDue (s : State) (f : Feed) : Bool :=
  s.isReady && s.rxs[f].state ≠ .noSignal && s.rxs[f].lossFrom.any (· + Config.lossTicks ≤ s.now)

/-- The loss timer expires (R38). The last closed frame is forgotten, so that after a loss GET_FEED_STATUS shows
no measured structure in ACQUIRING until a new frame is closed (the model's choice, log entry 20). -/
def lossExpiry (f : Feed) (s : State) : State :=
  if lossDue s f then
    let s := abandonCapture f s
    let s := s.modRx f fun r =>
      { r.closeErrored with run := .empty, layout := none, lastRaw := none, detected := none, margin := 0,
                            lowestMargin := 0, lossFrom := none, measure := none, lastClosed := none,
                            prevActive := false }
    enterRxState f .noSignal s
  else s

/-- LOSS_TIMER_EXPIRY (R38). -/
def execLossTimerExpiry (dt : Nat) (f : Feed) (s : State) : Result := .next (lossExpiry f (s.elapse dt))

/-! ## Requests (R53, R56, R90) -/

/-- GET_LINK_CHECK at its owner (R53). -/
def ownGetLinkCheck (a : Nat) (s : State) : Answer :=
  match idx 8 a with
  | none => .invalid s
  | some f =>
    let r := s.rxs[f]
    .ok (w16 r.state.code ++ w32 r.linkErrors ++ w16 r.erroredFrames ++ w16 r.margin ++ w16 r.lowestMargin)
      (s.modRx f fun r => { r with linkErrors := 0, erroredFrames := 0, lowestMargin := r.margin })

/-- GET_LINK_CHECK (R53). -/
def execGetLinkCheck (dt : Nat) (p : Port) (tag : Byte) (params : List Word) (s : State) : Result :=
  .next (submit p tag params params1 ownGetLinkCheck (s.elapse dt))

/-- The measured structure as shown: from the last closed frame in ACQUIRING, from the layout in LOCKED and
UNKNOWN, absent in NO_SIGNAL (R56). -/
def Receiver.shownStructure (r : Receiver) : Option Structure :=
  match r.state with
  | .noSignal => none
  | .acquiring => r.lastClosed
  | .locked | .unknown => r.layout.map fun l => l.structure_ true

/-- A measured structure (R56). The spec gives its counts no width: each is sent in 16 bits, a longer one cut to its
low bits. No record table lists the values of its scan, so that note 1 of file 11 gives them no position: the scan is
sent as a flag, 1 for interlaced and 0 for progressive. Both are the model's choice (log entry 18). -/
def Structure.words (x : Structure) : List Word :=
  w16 x.total ++ w16 x.active ++ wOpt 1 (fun w : Nat => w16 w) x.width ++ wFlag x.interlaced

/-- A capture slot: slot, SKIPPED or none (log entry 18). -/
def CapSlot.words : CapSlot → List Word
  | .slot n => w16 0 ++ w16 n.val
  | .skipped => w16 1 ++ w16 0
  | .none => w16 2 ++ w16 0

/-- The receiver in GET_FEED_STATUS (R56). The spec gives P_ref no width: it is sent in 32 bits, a longer one cut to
its low bits (the model's choice, log entry 18). -/
def receiverWords (r : Receiver) : List Word :=
  w16 r.state.code ++ wOpt 1 (fun i : StdId => w16 i.val) r.detected ++
  wOpt 1 (fun i : StdId => w16 i.val) r.lastLocked ++ wOpt 5 Structure.words r.shownStructure ++
  wOpt 2 (fun p : Nat => w32 p) r.pRef ++ wOpt 4 (fun t : Nat => w64 t) r.lastRaw ++ w16 r.run.count ++
  w32 r.seq.toNat ++ r.capture.words ++ w16 r.lineErrors ++ w16 r.margin

/-- A field of a film frame: its slot, and 1 or 2. -/
def FieldRef.words (x : FieldRef) : List Word := w16 x.slot.val ++ w16 (if x.field2 then 2 else 1)

/-- A film frame. -/
def FilmEntry.words (x : FilmEntry) : List Word :=
  [x.number] ++ w64 x.stamp ++ x.first.words ++ x.second.words ++ wFlag x.brk

/-- An open film frame. The record table calls it a film frame entry, which has a second field and a break flag
too; while it is open it has neither, and number, stamp and first field are sent (the model's choice, log entry
18). -/
def OpenFilm.words (x : OpenFilm) : List Word := [x.number] ++ w64 x.stamp ++ x.first.words

/-- The detector in GET_FEED_STATUS (R90). -/
def detectorWords (d : Detector) : List Word :=
  w16 d.state.code ++ wList (fun x : RepeatFlag => w16 x.code) d.history ++
  wOpt 1 (fun m : Nat => w16 m) d.lastM ++ wOpt 1 (fun p : Nat => w16 p) d.phase ++ w16 d.candidates ++
  wOpt 1 (fun m : Nat => w16 m) d.mIntra ++ w16 d.passCount ++ w16 d.failCount ++
  wOpt 1 (fun v : Verdict => w16 v.code) d.verdict ++ wOpt 4 w64 d.anchor ++ w16 d.half ++
  wOpt 4 w64 d.lastFilmStamp ++ [d.nextFilm] ++ wFlag d.breakSeen ++ wList FilmEntry.words d.films ++
  wOpt 7 OpenFilm.words d.openFilm ++ w32 d.breaks

/-- GET_FEED_STATUS at its owner (R56, R73, R90). -/
def ownGetFeedStatus (a : Nat) (s : State) : Answer :=
  match idx 8 a with
  | none => .invalid s
  | some f => .ok (receiverWords s.rxs[f] ++ ringWords s f ++ detectorWords s.dets[f]) s

/-- GET_FEED_STATUS (R56). -/
def execGetFeedStatus (dt : Nat) (p : Port) (tag : Byte) (params : List Word) (s : State) : Result :=
  .next (submit p tag params params1 ownGetFeedStatus (s.elapse dt))

end Sys2Proof.Machine
end

