-- ==== Sys2Proof/Machine/Auxiliary.lean ====
section
/-! DEFINITION. The auxiliary lines (file 10, R170–R174). -/

namespace Sys2Proof.Machine

/-! ## Levels -/

/-- R172: some channel of the mask is RUNNING with output enable ON. -/
def tally (s : State) (mask : BitVec 8) : Bool :=
  allChans.any fun c => mask.getLsbD c.val && s.chans[c].state = .running && (bankOf s c).enable

/-- Whether the part drives the line low (R172, R173); no line is driven in STARTING (R175). -/
def auxAsserted (s : State) (x : AuxNo) : Bool :=
  let a := s.aux[x]
  s.isReady &&
    match a.mode with
    | .tallyOutput => tally s a.mask
    | .alertOutput => a.expiry.isSome
    | .disabled | .takeInput => false

/-- The level sensed at the pin: LOW while the part asserts the line, otherwise what is put on it. -/
def sensedLevel (s : State) (x : AuxNo) : Bool := if auxAsserted s x then false else s.aux[x].pin

/-! ## Edges (R171) -/

/-- The level put on the line changes: in TAKE_INPUT a change away from the debounced level starts the timer,
a change back stops it (R171). -/
def auxLevelChange (x : AuxNo) (high : Bool) (s : State) : State :=
  let a := s.aux[x]
  let timer := if s.isReady && a.mode = .takeInput && a.pin ≠ high then
      (if a.debounced = some high then none else some s.now) else a.timer
  s.modAux x fun a => { a with pin := high, timer := timer }

/-- AUX_LEVEL_CHANGE (R171). -/
def execAuxLevelChange (dt : Nat) (x : AuxNo) (high : Bool) (s : State) : Result :=
  .next (auxLevelChange x high (s.elapse dt))

/-- The edge select includes an edge: RISING to HIGH, FALLING to LOW (R171). -/
def AuxEdge.includes : AuxEdge → Bool → Bool
  | .both, _ => true
  | .rising, high => high
  | .falling, high => !high

/-- A debounce timer has run for 27,000 ticks. -/
def debounceDue (s : State) (x : AuxNo) : Bool :=
  s.isReady && s.aux[x].mode = .takeInput && s.aux[x].timer.any (· + Config.debounceTicks ≤ s.now)

/-- The debounced level takes the sensed level, and a qualifying edge takes (R171, R100). -/
def debounceExpiry (x : AuxNo) (s : State) : State :=
  if debounceDue s x then
    let a := s.aux[x]
    let level := a.pin
    let s := s.modAux x fun a => { a with debounced := some level, timer := none }
    if a.edge.includes level then
      let s := s.modAux x fun a => { a with triggers := satAdd Config.max16 a.triggers 1 }
      forEach (maskChans a.mask.toNat) auxTake s
    else s
  else s

/-- DEBOUNCE_EXPIRY (R171). -/
def execDebounceExpiry (dt : Nat) (x : AuxNo) (s : State) : Result := .next (debounceExpiry x (s.elapse dt))

/-! ## Alerts (R173) -/

/-- An alert hold ends. -/
def alertDue (s : State) (x : AuxNo) : Bool := s.isReady && s.aux[x].expiry.any (· ≤ s.now)

/-- House time reaches the alert expiry (R173). -/
def alertExpiry (x : AuxNo) (s : State) : State :=
  if alertDue s x then s.modAux x fun a => { a with expiry := none } else s

/-- ALERT_EXPIRY (R173). -/
def execAlertExpiry (dt : Nat) (x : AuxNo) (s : State) : Result := .next (alertExpiry x (s.elapse dt))

/-! ## Requests (R170, R174) -/

/-- R170: the line takes its new parameters; a change of mode ends the old mode's state. -/
def setLine (a : AuxLine) (mode : AuxMode) (edge : AuxEdge) (mask : BitVec 8) : AuxLine :=
  if a.mode = mode then { a with edge := edge, mask := mask }
  else
    { a with mode := mode, edge := edge, mask := mask, timer := none, expiry := none,
             debounced := if mode = .takeInput then some a.pin else none }

/-- SET_AUX_LINE at its owner (R170). -/
def ownSetAuxLine (p : Port) (a : Nat × Nat × Nat × Nat) (s : State) : Answer :=
  match idx 4 a.1, AuxMode.ofCode a.2.1, AuxEdge.ofCode a.2.2.1 with
  | some x, some mode, some edge =>
    if a.2.2.2 ≤ 255 then
      let l := s.aux[x]
      let mask := BitVec.ofNat 8 a.2.2.2
      let changed := !(l.mode = mode && l.edge = edge && l.mask = mask)
      .ok [] (announceIf changed p ⟨0x70#8, some x.val, none⟩ (s.modAux x fun l => setLine l mode edge mask))
    else .invalid s
  | _, _, _ => .invalid s

/-- SET_AUX_LINE (R170). -/
def execSetAuxLine (dt : Nat) (p : Port) (tag : Byte) (params : List Word) (s : State) : Result :=
  .next (submit p tag params params4 (ownSetAuxLine p) (s.elapse dt))

/-- One line in GET_AUX_STATUS (R174). -/
def auxWords (s : State) (x : AuxNo) : List Word :=
  let a := s.aux[x]
  w16 a.mode.code ++ w16 a.edge.code ++ w16 a.mask.toNat ++ w16 (levelCode (sensedLevel s x)) ++
  wFlag (auxAsserted s x) ++
  wOpt 2 (fun h : Bool => w16 (levelCode h) ++ wFlag a.timer.isSome) a.debounced ++
  wOpt 4 (fun t : Nat => w64 t) a.expiry ++ w16 a.triggers

/-- GET_AUX_STATUS at its owner (R174). -/
def ownGetAuxStatus (_ : Unit) (s : State) : Answer := .ok ((List.finRange 4).flatMap (auxWords s)) s

/-- GET_AUX_STATUS (R174). -/
def execGetAuxStatus (dt : Nat) (p : Port) (tag : Byte) (params : List Word) (s : State) : Result :=
  .next (submit p tag params params0 ownGetAuxStatus (s.elapse dt))

end Sys2Proof.Machine
end

