-- ==== Sys2Proof/Machine/Startup.lean ====
section
/-! DEFINITION. Resets, start-up and the configuration image (file 11, R185–R189; the values after reset of
every chapter). -/

namespace Sys2Proof.Machine

/-! ## Power-on and pin reset (R185) -/

/-- Every block at its reset values, with what a reset does not touch: the queue of commands, the levels that
are put on the pins; the DRAM contents are new undefined ones (R35). -/
def hardReset (cause : Cause) (resetN : Bool) (s : State) : State :=
  { State.reset with
    pending := s.pending
    dev := { State.reset.dev with cause := cause, resetN := resetN }
    aux := s.aux.map fun a => AuxLine.reset a.pin
    freeCount := s.freeCount + 1
    partials := s.partials }

/-- POWER_ON_RESET (R185). -/
def execPowerOnReset (dt : Nat) (s : State) : Result :=
  let s := s.elapse dt
  .next (hardReset .powerOn s.dev.resetN s)

/-- PIN_RESET: RESET_N is asserted (R185). -/
def execPinReset (dt : Nat) (s : State) : Result := .next (hardReset .pin true (s.elapse dt))

/-- RESET_N_RELEASE: the link works from now on (R176), and the start-up that follows the pin reset begins to
count (R185, R192, log entry 22). -/
def execResetNRelease (dt : Nat) (s : State) : Result :=
  let s := s.elapse dt
  .next { s with dev := { s.dev with resetN := false } }

/-! ## Start-up (R185, R186) -/

/-- The initialization of the DRAM is at its end. -/
def dramDue (s : State) : Bool := s.dev.stage = .dramInit && Config.dramInitPeriods ≤ s.dev.clk

/-- After 2,700,000 periods of CLK27 the configuration memory read begins (R185). -/
def dramInitialized (s : State) : State :=
  if dramDue s then { s with dev := { s.dev with stage := .configRead, clk := 0 } } else s

/-- DRAM_INITIALIZED (R185). -/
def execDramInitialized (dt : Nat) (s : State) : Result := .next (dramInitialized (s.elapse dt))

/-- A byte of the image. -/
def imageByte (b : List Byte) (i : Nat) : Nat := (b.getD i 0#8).toNat

/-- A 3-byte field of the image, high byte first (log entry 19). -/
def image3 (b : List Byte) (i : Nat) : Nat :=
  imageByte b i * 65536 + imageByte b (i + 1) * 256 + imageByte b (i + 2)

/-- The judgement of the image, in the order of the table (R186). -/
def judgeImage : ConfigRead → LoadResult
  | .noAck => .failed
  | .bytes b =>
    if imageByte b 0 ≠ 0xA5 then .skipped
    else if imageByte b 1 ≠ 1 then .failed
    else if (b.take 178).foldl (· + ·) 0#8 ≠ 0#8 then .failed
    else if 16 < imageByte b 160 then .failed
    else .loaded

/-- The bytes used: those of a LOADED image (R186). -/
def usedImage (r : ConfigRead) : Option (List Byte) :=
  match judgeImage r, r with
  | .loaded, .bytes b => some b
  | _, _ => none

/-- The fields of a default bank record at a place of the image, by field code (R186). -/
def imageBank (b : List Byte) (i : Nat) : List (Nat × Nat) :=
  let delay := image3 b (i + 7)
  [(0, imageByte b i), (1, imageByte b (i + 1)), (2, imageByte b (i + 2)), (3, imageByte b (i + 3)),
   (4, image3 b (i + 4)), (5, if delay = 0xFFFFFF then 0xFFFFFFFF else delay), (6, imageByte b (i + 10)),
   (7, imageByte b (i + 11)), (8, imageByte b (i + 12)), (9, imageByte b (i + 13)), (10, imageByte b (i + 14)),
   (11, imageByte b (i + 15)), (12, imageByte b (i + 16)), (13, imageByte b (i + 17))]

/-- A channel's default bank record: the image's, or the built-in one where it is out of range or there is no
image (R112). -/
def defaultBank (img : Option (List Byte)) (c : Chan) : Bank :=
  match img with
  | none => Bank.builtIn c
  | some b =>
    (((Bank.builtIn c).setFields (imageBank b (16 + 18 * c.val))).filter Bank.offsetOk).getD (Bank.builtIn c)

/-- An auxiliary line's start-up values (R175). -/
def startLine (img : Option (List Byte)) (x : AuxNo) (pin : Bool) : AuxLine :=
  let i := 4 + 3 * x.val
  match img with
  | none => AuxLine.reset pin
  | some b =>
    match AuxMode.ofCode (imageByte b i), AuxEdge.ofCode (imageByte b (i + 1)) with
    | some mode, some edge =>
      { AuxLine.reset pin with mode := mode, edge := edge, mask := BitVec.ofNat 8 (imageByte b (i + 2)) }
    | _, _ => AuxLine.reset pin

/-- The retired list of the image: entries above 95 or repeated are passed over (R35). -/
def imageRetired : Option (List Byte) → List Nat
  | none => []
  | some b => (((b.drop 161).take (imageByte b 160)).map BitVec.toNat).filter (· < 96)

/-- The slots after start-up: those listed RETIRED, the others FREE (R35). -/
def startSlots (retired : List Nat) : Vector Slot 96 :=
  Vector.ofFn fun n => .cleared (if retired.contains n.val then .retired else .free) false

/-- The free list formed in ascending order (R35, R36). -/
def formFree (slots : Vector Slot 96) : List SlotNo := (List.finRange 96).filter fun n => slots[n].state = .free

/-- An event unit's mode byte; a byte with a bit of 7–2 set gives the reset values (R186, R197). -/
def startUnit (byte : Nat) (u : EventUnit) : EventUnit :=
  if 4 ≤ byte then { u with mode := .onRead, master := true }
  else { u with mode := if byte % 2 = 1 then .byAck else .onRead, master := byte / 2 = 1 }

/-- The event units after start-up (R197). -/
def startUnits (img : Option (List Byte)) (u : PerPort EventUnit) : PerPort EventUnit :=
  match img with
  | none => u
  | some b => ⟨startUnit (imageByte b 2) u.a, startUnit (imageByte b 3) u.b⟩

/-- A line in TAKE_INPUT takes the level it senses as the part becomes READY (R175). -/
def AuxLine.atReady (a : AuxLine) : AuxLine :=
  if a.mode = .takeInput then { a with debounced := some a.pin } else a

/-- The part becomes READY: house time begins to advance from 0 (R1, R185, R187), the frame starts are those
of R15, and RESET_OCCURRED is raised. -/
def becomeReady (s : State) : State :=
  let s := { s with dev := { s.dev with state := .ready, stage := .none, clk := 0, houseTime := 0 } }
  raise .resetOccurred { s with timing := Vector.ofFn (startTiming s), aux := s.aux.map AuxLine.atReady }

/-- Every block takes its start-up values (R185, step 3). -/
def takeImage (r : ConfigRead) (s : State) : State :=
  let img := usedImage r
  let slots := startSlots (imageRetired img)
  { s with
    dev := { s.dev with load := judgeImage r }
    chans := Vector.ofFn fun c => .reset (defaultBank img c)
    aux := Vector.ofFn fun x => startLine img x s.aux[x].pin
    slots := slots, free := formFree slots
    units := startUnits img s.units }

/-- The configuration memory read ends (R185, R186). -/
def configurationReadDone (r : ConfigRead) (s : State) : State :=
  if s.dev.stage = .configRead then becomeReady (takeImage r s) else s

/-- CONFIGURATION_READ_DONE (R185, R186). -/
def execConfigurationReadDone (dt : Nat) (r : ConfigRead) (s : State) : Result :=
  .next (configurationReadDone r (s.elapse dt))

/-! ## Soft reset (R187) -/

/-- The flagged slots in use, ascending (R36). -/
def flaggedSlots (s : State) : List SlotNo :=
  (List.finRange 96).filter fun n =>
    s.slots[n].state.inUse && (s.slots[n].retirePending || s.slots[n].fault)

/-- A slot record after the rebuild (R36). -/
def rebuiltSlot (joins : List SlotNo) (n : SlotNo) (x : Slot) : Slot :=
  if x.state = .retired then x
  else if joins.contains n then .cleared .retired x.fault
  else .cleared .free false

/-- The fault record after the rebuild: RETIRE_LIMIT with the highest slot that found the set full (R36, log
entry 23). -/
def rebuiltFault (excess : List SlotNo) : FaultRec :=
  match excess.getLast? with
  | some n => ⟨.retireLimit, some n, none, some 0⟩
  | none => FaultRec.reset

/-- The store rebuilds itself (R36). -/
def rebuildStore (s : State) : State :=
  let flagged := flaggedSlots s
  let room := Config.retiredMax - retiredCount s
  let slots := Vector.ofFn fun n => rebuiltSlot (flagged.take room) n s.slots[n]
  { s with slots := slots, free := formFree slots
           pool := { Pool.reset with faultRec := rebuiltFault (flagged.drop room) } }

/-- A RUNNING job that is discarded leaves its picture incomplete (R161, log entry 6); the rest of the DRAM is
left as it was (R36). -/
def discardJob (j : Option Job) (s : State) : State :=
  match j with
  | some j => leavePartial j.dest j.outStd s
  | none => s

/-- A channel at soft reset: banks, active bank and revision are kept (R112). The resolved entries of the last
job dispatched (R110), which R112's table does not name, are cleared with the last run's other marks (the model's
choice, log entry 20). -/
def Channel.softReset (c : Channel) : Channel :=
  { Channel.reset c.bankA with bankB := c.bankB, active := c.active, revision := c.revision }

/-- An auxiliary line at soft reset: mode, edge select and mask are kept (R175). The debounced level, which R175
gives a TAKE_INPUT line as the part becomes READY, is absent until then (the model's choice, log entry 20). -/
def AuxLine.softReset (a : AuxLine) : AuxLine :=
  { AuxLine.reset a.pin with mode := a.mode, edge := a.edge, mask := a.mask }

/-- A profile entry at soft reset (R148). -/
def Profile.softReset (x : Profile) : Profile := { x.promote with users := 0 }

/-- Every block resets as its chapter gives for soft reset (R187, step 3). -/
def resetBlocks (s : State) : State :=
  let s := rebuildStore (discardJob s.lanes[(1 : LaneNo)] (discardJob s.lanes[(0 : LaneNo)] s))
  let s := { s with
    units := ⟨s.units.a.clearAll, s.units.b.clearAll⟩
    refs := Vector.ofFn Reference.reset
    rxs := Vector.replicate 8 .reset
    rings := Vector.replicate 8 .reset
    dets := Vector.replicate 8 .reset
    chans := s.chans.map Channel.softReset
    profiles := s.profiles.map Profile.softReset
    queue := []
    lanes := Vector.replicate 2 none
    outputs := Vector.replicate 8 .reset
    aux := s.aux.map AuxLine.softReset }
  { s with timing := Vector.ofFn (startTiming s) }

/-- What a port loses at soft reset (R187, step 4). -/
def PortRec.softReset (r : PortRec) : PortRec :=
  { r with staging := none, peers := [], overflow := false, submitRefused := false, framingError := false }

/-- The other port's request, if one is in progress, ends with ABORTED (R187, step 2). -/
def abortOther (p : Port) (s : State) : Bool × State :=
  match (s.port p).mailbox with
  | .busy (.commit tag _ _) => (true, post p .aborted tag [] s)
  | .busy (.reset tag) => (true, post p .aborted tag [] s)
  | .idle | .done => (false, s)

/-- RESET_DEVICE at its owner (R187). -/
def ownResetDevice (p : Port) (tag : Byte) (_ : Unit) (s : State) : Answer :=
  let (aborted, s) := abortOther p.other s
  let s := resetBlocks s
  let s := { s with
    dev := { s.dev with state := .starting, stage := .softReset p tag aborted, clk := 0, cause := .request,
                        houseTime := 0 }
    ports := ⟨s.ports.a.softReset, s.ports.b.softReset⟩ }
  .stays (.reset tag) s

/-- RESET_DEVICE (R187). -/
def execResetDevice (dt : Nat) (p : Port) (tag : Byte) (params : List Word) (s : State) : Result :=
  .next (submit p tag params params0 (ownResetDevice p tag) (s.elapse dt))

/-- The soft reset is at its end. -/
def softResetDue (s : State) : Bool :=
  match s.dev.stage with
  | .softReset _ _ _ => Config.softResetPeriods ≤ s.dev.clk
  | .none | .dramInit | .configRead => false

/-- After 27,000 periods of CLK27 the soft reset ends (R187). -/
def softResetEnd (s : State) : State :=
  if softResetDue s then
    match s.dev.stage with
    | .softReset p tag aborted =>
      let s := requestDone p (announce p ⟨0x02#8, none, none⟩ (post p .ok tag [] (becomeReady s)))
      if aborted then requestDone p.other s else s
    | .none | .dramInit | .configRead => s
  else s

/-- SOFT_RESET_END (R187). -/
def execSoftResetEnd (dt : Nat) (s : State) : Result := .next (softResetEnd (s.elapse dt))

end Sys2Proof.Machine
end

