-- ==== Sys2Proof/Machine/Store.lean ====
section
/-! DEFINITION. The requests of the frame store (file 02, R31–R34). -/

namespace Sys2Proof.Machine

/-- Results of RETIRE_SLOT and RESTORE_SLOT (note 1). -/
inductive SlotResult where
  | retired | pending | free | cleared
deriving DecidableEq, Repr

/-- Codes of the results (note 1). -/
def SlotResult.word : SlotResult → Word
  | .retired => 0#16 | .pending => 1#16 | .free => 2#16 | .cleared => 3#16

/-- The eight slot states in the order of the record table. -/
def slotStates : List SlotState := [.free, .filling, .complete, .detached, .rendering, .ready, .onAir, .retired]

/-- The retired slots, ascending (R30). -/
def retiredSlots (s : State) : List SlotNo := (List.finRange 96).filter fun n => s.slots[n].state = .retired

/-- The words of the fault record (R29). -/
def FaultRec.words (r : FaultRec) : List Word :=
  w16 r.reason.code ++ wOpt 1 (fun n : SlotNo => w16 n.val) r.slot ++ w16 (readerCode r.reader) ++
  wOpt 4 (fun t : Nat => w64 t) r.time

/-- GET_POOL_STATUS's result (R34). -/
def poolWords (s : State) : List Word :=
  w16 s.free.length ++ wOpt 1 (fun n : SlotNo => w16 n.val) s.free.head? ++ w16 (retiredCount s) ++
  wList (fun n : SlotNo => w16 n.val) (retiredSlots s) ++ slotStates.flatMap (fun st => w16 (stateCount s st)) ++
  w16 (s.slots.toList.countP fun x => x.retirePending) ++ w16 s.pool.correctable ++ w16 s.pool.uncorrectable ++
  w16 s.pool.allocFailures ++ w16 s.pool.transitionErrors ++ s.pool.faultRec.words ++ wFlag s.free.isEmpty

/-- GET_POOL_STATUS at its owner (R34). -/
def ownGetPoolStatus (a : Nat) (s : State) : Answer :=
  match flagOf a with
  | none => .invalid s
  | some clear =>
    .ok (poolWords s)
      (if clear then
        { s with pool := { s.pool with correctable := 0, uncorrectable := 0, allocFailures := 0,
                                       transitionErrors := 0 } }
       else s)

/-- GET_POOL_STATUS (R34). -/
def execGetPoolStatus (dt : Nat) (p : Port) (tag : Byte) (params : List Word) (s : State) : Result :=
  .next (submit p tag params params1 ownGetPoolStatus (s.elapse dt))

/-- GET_SLOT at its owner (R33). -/
def ownGetSlot (a : Nat) (s : State) : Answer :=
  match idx 96 a with
  | none => .invalid s
  | some n => .ok (slotWords n s.slots[n]) s

/-- GET_SLOT (R33). -/
def execGetSlot (dt : Nat) (p : Port) (tag : Byte) (params : List Word) (s : State) : Result :=
  .next (submit p tag params params1 ownGetSlot (s.elapse dt))

/-- The slot a retire or restore request names: at most 95, with the complement 255 − slot (R31). -/
def guardedSlot (slot complement : Nat) : Option SlotNo :=
  if complement = 255 - slot then idx 96 slot else none

/-- A FREE slot leaves the free list for the retired set, the others keeping their order (R19, R31). -/
def retireFree (n : SlotNo) (s : State) : State := enterRetired n { s with free := s.free.filter (· ≠ n) }

/-- RETIRE_SLOT at its owner (R31). -/
def ownRetireSlot (p : Port) (a : Nat × Nat) (s : State) : Answer :=
  match guardedSlot a.1 a.2 with
  | none => .invalid s
  | some n =>
    let x := s.slots[n]
    if x.state = .retired ∨ (x.state.inUse ∧ x.retirePending) then .complete .already [] s
    else if Config.retiredMax ≤ retiredCount s then .refused .limitReached s
    else if x.state = .free then
      .ok [SlotResult.retired.word, BitVec.ofNat 16 SlotState.retired.code]
        (announce p ⟨0x42#8, some n.val, none⟩ (retireFree n s))
    else
      .ok [SlotResult.pending.word, BitVec.ofNat 16 x.state.code]
        (announce p ⟨0x42#8, some n.val, none⟩ (s.modSlot n fun x => { x with retirePending := true }))

/-- RETIRE_SLOT (R31). -/
def execRetireSlot (dt : Nat) (p : Port) (tag : Byte) (params : List Word) (s : State) : Result :=
  .next (submit p tag params params2 (ownRetireSlot p) (s.elapse dt))

/-- RESTORE_SLOT at its owner (R32). -/
def ownRestoreSlot (p : Port) (a : Nat × Nat) (s : State) : Answer :=
  match guardedSlot a.1 a.2 with
  | none => .invalid s
  | some n =>
    let x := s.slots[n]
    if x.state = .retired then
      .ok [SlotResult.free.word] (announce p ⟨0x43#8, some n.val, none⟩ (enterFree n s))
    else if x.state.inUse ∧ (x.retirePending ∨ x.fault) then
      .ok [SlotResult.cleared.word]
        (announce p ⟨0x43#8, some n.val, none⟩
          (s.modSlot n fun x => { x with retirePending := false, fault := false }))
    else .complete .notRetired [] s

/-- RESTORE_SLOT (R32). -/
def execRestoreSlot (dt : Nat) (p : Port) (tag : Byte) (params : List Word) (s : State) : Result :=
  .next (submit p tag params params2 (ownRestoreSlot p) (s.elapse dt))

end Sys2Proof.Machine
end

