-- ==== Sys2Proof/Machine/Clock.lean ====
section
/-! DEFINITION. What the passing of time brings about: the commands whose time has come, in a fixed order
(log entry 2). -/

namespace Sys2Proof.Machine

/-- A command when it is due. -/
def whenDue (due : Bool) (i : Instr) : List Instr := if due then [i] else []

/-- The due commands of the start-up stages (R185, R187). -/
def dueStart (s : State) : List Instr :=
  whenDue (dramDue s) (.dramInitialized 0) ++ whenDue (softResetDue s) (.softResetEnd 0)

/-- The due epochs and windows of a reference (R7–R10). -/
def dueRef (s : State) (n : RefNo) : List Instr :=
  whenDue (syntheticDue s n) (.syntheticEpoch 0 n) ++ whenDue (provisionalDue s n) (.provisionalEpoch 0 n) ++
  whenDue (windowDue s n) (.windowExpiry 0 n)

/-- The due events of a feed (R38, R42). -/
def dueFeed (s : State) (f : Feed) : List Instr :=
  whenDue (lineWindowDue s f) (.lineWindowClose 0 f) ++ whenDue (lossDue s f) (.lossTimerExpiry 0 f)

/-- The due events of an auxiliary line (R171, R173). -/
def dueAux (s : State) (x : AuxNo) : List Instr :=
  whenDue (debounceDue s x) (.debounceExpiry 0 x) ++ whenDue (alertDue s x) (.alertExpiry 0 x)

/-- Every command whose time has come, in the order in which an empty queue takes them (log entry 2). -/
def dueCommands (s : State) : List Instr :=
  dueStart s ++ (List.finRange 2).flatMap (fun l => whenDue (completionDue s l) (.jobCompletion 0 l)) ++
  [Port.a, Port.b].flatMap (fun p => whenDue (validationDue s p) (.validationEnd 0 p)) ++
  (List.finRange 2).flatMap (dueRef s) ++ (List.finRange 8).flatMap (dueFeed s) ++
  (List.finRange 4).flatMap (dueAux s) ++
  (List.finRange 8).flatMap (fun c => whenDue (frameStartDue s c) (.outputFrameStart 0 c))

end Sys2Proof.Machine
end

