-- ==== Sys2Proof/Machine/Dispatch.lean ====
section
/-! DEFINITION. The dispatch of a command to its meaning: one arm per constructor. -/

namespace Sys2Proof.Machine

def exec (i : Instr) (s : State) : Host.Outcome State Fault Refusal :=
  match i with
  | .powerOnReset dt => Sys2Proof.Machine.execPowerOnReset dt s
  | .pinReset dt => Sys2Proof.Machine.execPinReset dt s
  | .dramInitialized dt => Sys2Proof.Machine.execDramInitialized dt s
  | .configurationReadDone dt read => Sys2Proof.Machine.execConfigurationReadDone dt read s
  | .softResetEnd dt => Sys2Proof.Machine.execSoftResetEnd dt s
  | .malformedFrame dt p bytes extraBits => Sys2Proof.Machine.execMalformedFrame dt p bytes extraBits s
  | .fetch dt p offset further => Sys2Proof.Machine.execFetch dt p offset further s
  | .status dt p further => Sys2Proof.Machine.execStatus dt p further s
  | .getDeviceStatus dt p tag code params => Sys2Proof.Machine.execGetDeviceStatus dt p tag code params s
  | .resetDevice dt p tag params => Sys2Proof.Machine.execResetDevice dt p tag params s
  | .getPeerChanges dt p tag params => Sys2Proof.Machine.execGetPeerChanges dt p tag params s
  | .setReference dt p tag params => Sys2Proof.Machine.execSetReference dt p tag params s
  | .getReferenceStatus dt p tag params => Sys2Proof.Machine.execGetReferenceStatus dt p tag params s
  | .setFeed dt p tag params => Sys2Proof.Machine.execSetFeed dt p tag params s
  | .getFeedStatus dt p tag params => Sys2Proof.Machine.execGetFeedStatus dt p tag params s
  | .getLinkCheck dt p tag params => Sys2Proof.Machine.execGetLinkCheck dt p tag params s
  | .setChannel dt p tag params => Sys2Proof.Machine.execSetChannel dt p tag params s
  | .getChannel dt p tag params => Sys2Proof.Machine.execGetChannel dt p tag params s
  | .startChannel dt p tag params => Sys2Proof.Machine.execStartChannel dt p tag params s
  | .stopChannel dt p tag params => Sys2Proof.Machine.execStopChannel dt p tag params s
  | .take dt p tag params => Sys2Proof.Machine.execTake dt p tag params s
  | .getChannelStatus dt p tag params => Sys2Proof.Machine.execGetChannelStatus dt p tag params s
  | .getPoolStatus dt p tag params => Sys2Proof.Machine.execGetPoolStatus dt p tag params s
  | .getSlot dt p tag params => Sys2Proof.Machine.execGetSlot dt p tag params s
  | .retireSlot dt p tag params => Sys2Proof.Machine.execRetireSlot dt p tag params s
  | .restoreSlot dt p tag params => Sys2Proof.Machine.execRestoreSlot dt p tag params s
  | .profileBegin dt p tag params => Sys2Proof.Machine.execProfileBegin dt p tag params s
  | .profileData dt p tag params => Sys2Proof.Machine.execProfileData dt p tag params s
  | .profileCommit dt p tag params => Sys2Proof.Machine.execProfileCommit dt p tag params s
  | .profileAbandon dt p tag params => Sys2Proof.Machine.execProfileAbandon dt p tag params s
  | .getProfile dt p tag params => Sys2Proof.Machine.execGetProfile dt p tag params s
  | .validationEnd dt p => Sys2Proof.Machine.execValidationEnd dt p s
  | .getEvents dt p tag params => Sys2Proof.Machine.execGetEvents dt p tag params s
  | .ackEvents dt p tag params => Sys2Proof.Machine.execAckEvents dt p tag params s
  | .setEventMode dt p tag params => Sys2Proof.Machine.execSetEventMode dt p tag params s
  | .setEventEnables dt p tag params => Sys2Proof.Machine.execSetEventEnables dt p tag params s
  | .setAuxLine dt p tag params => Sys2Proof.Machine.execSetAuxLine dt p tag params s
  | .getAuxStatus dt p tag params => Sys2Proof.Machine.execGetAuxStatus dt p tag params s
  | .refPulse dt n => Sys2Proof.Machine.execRefPulse dt n s
  | .syntheticEpoch dt n => Sys2Proof.Machine.execSyntheticEpoch dt n s
  | .provisionalEpoch dt n => Sys2Proof.Machine.execProvisionalEpoch dt n s
  | .windowExpiry dt n => Sys2Proof.Machine.execWindowExpiry dt n s
  | .outputFrameStart dt c => Sys2Proof.Machine.execOutputFrameStart dt c s
  | .jobCompletion dt l => Sys2Proof.Machine.execJobCompletion dt l s
  | .correctableRead dt r => Sys2Proof.Machine.execCorrectableRead dt r s
  | .uncorrectableRead dt l r => Sys2Proof.Machine.execUncorrectableRead dt l r s
  | .outputReadFault dt c w => Sys2Proof.Machine.execOutputReadFault dt c w s
  | .feedLine dt f line => Sys2Proof.Machine.execFeedLine dt f line s
  | .lineWindowClose dt f => Sys2Proof.Machine.execLineWindowClose dt f s
  | .lossTimerExpiry dt f => Sys2Proof.Machine.execLossTimerExpiry dt f s
  | .auxLevelChange dt x high => Sys2Proof.Machine.execAuxLevelChange dt x high s
  | .debounceExpiry dt x => Sys2Proof.Machine.execDebounceExpiry dt x s
  | .alertExpiry dt x => Sys2Proof.Machine.execAlertExpiry dt x s
  | .resetNRelease dt => Sys2Proof.Machine.execResetNRelease dt s

end Sys2Proof.Machine
end

