-- ==== Sys2Proof/Machine/Step.lean ====
section
/-! DEFINITION. One step of the machine: the command at the front of the queue, or the passing of time. -/

namespace Sys2Proof.Machine

/-- With an empty queue: the first command whose time has come, and if there is none, one period of CLK27
passes (log entry 2). -/
def idleStep (s : State) : Host.Outcome State Fault Refusal :=
  match dueCommands s with
  | i :: _ => exec i s
  | [] => .next (s.elapse 1)

/-- One step: the command at the front of the queue runs on the state with the queue's rest. -/
def step (s : State) : Host.Outcome State Fault Refusal :=
  match s.pending with
  | i :: rest => exec i { s with pending := rest }
  | [] => idleStep s

/-- Put the command that a word spells at the front of the queue; no row has bits, so no word spells one. -/
def State.withFetchWord (s : State) (nbits w : Nat) : State :=
  match decodeTableWord nbits w with
  | some i => { s with pending := i :: s.pending }
  | none => s

end Sys2Proof.Machine
end

