-- ==== Sys2Proof/Safety.lean ====
section
/-! DEFINITION. What statements about the machine speak of: a request that is taken, what a port holds after
an answer, and the invariants that every step keeps. -/

namespace Sys2Proof

/-- A SUBMIT frame: its port, tag, request code and parameter words, and the time before it. -/
structure Request where
  dt     : Nat
  port   : Port
  tag    : Byte
  code   : Byte
  params : List Word

/-- The SUBMIT frame of a command that is a request (the request code table of file 11). -/
def Instr.request : Instr → Option Request
  | .getDeviceStatus dt p tag code ps => some ⟨dt, p, tag, code, ps⟩
  | .resetDevice dt p tag ps => some ⟨dt, p, tag, 0x02#8, ps⟩
  | .getPeerChanges dt p tag ps => some ⟨dt, p, tag, 0x03#8, ps⟩
  | .setReference dt p tag ps => some ⟨dt, p, tag, 0x10#8, ps⟩
  | .getReferenceStatus dt p tag ps => some ⟨dt, p, tag, 0x11#8, ps⟩
  | .setFeed dt p tag ps => some ⟨dt, p, tag, 0x20#8, ps⟩
  | .getFeedStatus dt p tag ps => some ⟨dt, p, tag, 0x21#8, ps⟩
  | .getLinkCheck dt p tag ps => some ⟨dt, p, tag, 0x22#8, ps⟩
  | .setChannel dt p tag ps => some ⟨dt, p, tag, 0x30#8, ps⟩
  | .getChannel dt p tag ps => some ⟨dt, p, tag, 0x31#8, ps⟩
  | .startChannel dt p tag ps => some ⟨dt, p, tag, 0x32#8, ps⟩
  | .stopChannel dt p tag ps => some ⟨dt, p, tag, 0x33#8, ps⟩
  | .take dt p tag ps => some ⟨dt, p, tag, 0x34#8, ps⟩
  | .getChannelStatus dt p tag ps => some ⟨dt, p, tag, 0x35#8, ps⟩
  | .getPoolStatus dt p tag ps => some ⟨dt, p, tag, 0x40#8, ps⟩
  | .getSlot dt p tag ps => some ⟨dt, p, tag, 0x41#8, ps⟩
  | .retireSlot dt p tag ps => some ⟨dt, p, tag, 0x42#8, ps⟩
  | .restoreSlot dt p tag ps => some ⟨dt, p, tag, 0x43#8, ps⟩
  | .profileBegin dt p tag ps => some ⟨dt, p, tag, 0x50#8, ps⟩
  | .profileData dt p tag ps => some ⟨dt, p, tag, 0x51#8, ps⟩
  | .profileCommit dt p tag ps => some ⟨dt, p, tag, 0x52#8, ps⟩
  | .profileAbandon dt p tag ps => some ⟨dt, p, tag, 0x53#8, ps⟩
  | .getProfile dt p tag ps => some ⟨dt, p, tag, 0x54#8, ps⟩
  | .getEvents dt p tag ps => some ⟨dt, p, tag, 0x60#8, ps⟩
  | .ackEvents dt p tag ps => some ⟨dt, p, tag, 0x61#8, ps⟩
  | .setEventMode dt p tag ps => some ⟨dt, p, tag, 0x62#8, ps⟩
  | .setEventEnables dt p tag ps => some ⟨dt, p, tag, 0x63#8, ps⟩
  | .setAuxLine dt p tag ps => some ⟨dt, p, tag, 0x70#8, ps⟩
  | .getAuxStatus dt p tag ps => some ⟨dt, p, tag, 0x71#8, ps⟩
  | .powerOnReset _ | .pinReset _ | .dramInitialized _ | .configurationReadDone _ _ | .softResetEnd _
  | .malformedFrame _ _ _ _ | .fetch _ _ _ _ | .status _ _ _ | .validationEnd _ _ | .refPulse _ _
  | .syntheticEpoch _ _ | .provisionalEpoch _ _ | .windowExpiry _ _ | .outputFrameStart _ _
  | .jobCompletion _ _ | .correctableRead _ _ | .uncorrectableRead _ _ _ | .outputReadFault _ _ _
  | .feedLine _ _ _ | .lineWindowClose _ _ | .lossTimerExpiry _ _ | .auxLevelChange _ _ _
  | .debounceExpiry _ _ | .alertExpiry _ _ | .resetNRelease _ => none

/-- The number of parameter words of a request code, SET_CHANNEL's 0x30 apart (request code table). -/
def paramCount (code : Byte) : Nat :=
  if code = 0x10#8 ∨ code = 0x54#8 ∨ code = 0x63#8 then 3
  else if code = 0x20#8 ∨ code = 0x50#8 ∨ code = 0x70#8 then 4
  else if code = 0x51#8 then 5
  else if code = 0x35#8 ∨ code = 0x42#8 ∨ code = 0x43#8 ∨ code = 0x61#8 ∨ code = 0x62#8 then 2
  else if code = 0x01#8 ∨ code = 0x02#8 ∨ code = 0x03#8 ∨ code = 0x53#8 ∨ code = 0x60#8 ∨ code = 0x71#8 then 0
  else 1

/-- R179: the request passes the port's own checks. -/
def Request.decodes (r : Request) : Bool :=
  requestCodes.contains r.code &&
    (if r.code = 0x30#8 then (Machine.paramsChannel r.params).isSome else r.params.length = paramCount r.code)

end Sys2Proof

namespace Sys2Proof.Machine

/-! ## Requests -/

/-- A request at the port is taken and reaches its owner: READY, RESET_N released, the mailbox not BUSY
(R176, R178, R179). -/
def Taken (s : State) (p : Port) : Prop :=
  s.dev.state = .ready ∧ s.dev.resetN = false ∧
    ((s.port p).mailbox = .idle ∨ (s.port p).mailbox = .done)

/-- A port's record after an answer to a SUBMIT of `k` parameter words (R178): the response replaces the held
one, the mailbox is DONE, submit refused is clear, and `before` and zeros have been returned on DO. -/
def PortRec.answered (r : PortRec) (before : Byte) (status : Status) (tag : Byte) (words : List Word) (k : Nat) :
    PortRec :=
  { r with mailbox := .done, held := some ⟨status, tag, words⟩, submitRefused := false,
           dout := before :: List.replicate (2 * k + 3) 0#8 }

/-- The state after an answer: the port's record, and nothing else. -/
def State.answered (s : State) (p : Port) (status : Status) (tag : Byte) (words : List Word) (k : Nat) : State :=
  s.modPort p fun r => r.answered (statusByte s p) status tag words k

/-- The state in which a taken request reaches its owner: submit refused is clear and the bytes of the frame
have been returned (R178). -/
def State.taking (s : State) (p : Port) (k : Nat) : State :=
  s.modPort p fun r =>
    { r with submitRefused := false, dout := statusByte s p :: List.replicate (2 * k + 3) 0#8 }

/-- A port's record after a SUBMIT of `k` parameter words is answered (R178): `before` is the state whose
status byte was returned. -/
def State.replied (s : State) (before : State) (p : Port) (status : Status) (tag : Byte) (words : List Word)
    (k : Nat) : State :=
  s.modPort p fun r => r.answered (statusByte before p) status tag words k

/-- The state after an owner's answer: the mailbox is DONE and holds the response (R178). -/
def State.done (s : State) (p : Port) (status : Status) (tag : Byte) (words : List Word) : State :=
  s.modPort p fun r => { r with mailbox := .done, held := some ⟨status, tag, words⟩ }

/-! ## Start-up -/

/-- The part while RESET_N is asserted, and after its release until start-up has begun to count (R185, R192): in
STARTING at the start of the first stage, every flag clear, both lanes idle, nothing emitted. -/
structure HeldInReset (s : State) : Prop where
  resetN  : s.dev.resetN = true
  state   : s.dev.state = .starting
  stage   : s.dev.stage = .dramInit
  clk     : s.dev.clk = 0
  flags   : ∀ (p : Port) (g : GroupNo), (s.unit p).flags[g] = 0#16
  lanes   : ∀ l : LaneNo, s.lanes[l] = none
  outputs : ∀ c : Chan, s.outputs[c].emitStd = none

/-! ## Profiles that jobs use -/

/-- An entry that holds a RESAMPLE content (R141). -/
def holdsResample (s : State) (e : EntryNo) : Bool :=
  match s.profiles[e].active with
  | some ⟨.resample _ _, _⟩ => true
  | some ⟨.matrix, _⟩ | none => false

/-- An entry that holds a MATRIX content (R141). -/
def holdsMatrix (s : State) (e : EntryNo) : Bool :=
  match s.profiles[e].active with
  | some ⟨.matrix, _⟩ => true
  | some ⟨.resample _ _, _⟩ | none => false

/-- The matrix entry that AUTO resolves to: 2 between standards of one definition, 3 into HD, 4 into SD (R141). -/
def autoMatrix (inStd outStd : StdId) : EntryNo :=
  if (Config.std inStd).hd = (Config.std outStd).hd then 2 else if (Config.std outStd).hd then 3 else 4

/-! ## Moved frame starts -/

/-- The deadline of a job whose channel's next frame start has moved between two tables of timings (R6). -/
def Job.redeadline (old new : Vector OutTiming 8) (j : Job) : Job :=
  if new[j.chan].next = old[j.chan].next then j else { j with deadline := new[j.chan].next }

/-- From `s` to `t`, each output bound to a reference has its frame timing changed by a rule `f`, no other output
has, and the deadlines of the jobs of the outputs whose next frame start moved have moved with it (R6, R12). -/
def FramesFollow (f : OutTiming → Reference → Bank → OutTiming) (n : RefNo) (s t : State) : Prop :=
  (∀ c : Chan, t.timing[c] =
    if (bankOf s c).ref = n then f s.timing[c] t.refs[n] (bankOf s c) else s.timing[c]) ∧
  (∀ l : LaneNo, t.lanes[l] = s.lanes[l].map (Job.redeadline s.timing t.timing)) ∧
  t.queue.Perm (s.queue.map (Job.redeadline s.timing t.timing))

/-! ## Invariants -/

/-- A reference keeps a legal T_align, an interval within 270 ticks of it (R2, R9, R10) and counts in range. -/
def RefOk (r : Reference) : Prop :=
  Config.tAlignOk r.tAlign = true ∧ r.tAlign ≤ r.interval + 270 ∧ r.interval ≤ r.tAlign + 270 ∧ r.good ≤ 4 ∧
    (r.state = .locking → r.good ≤ 3) ∧ r.oot ≤ 1

/-- A ring keeps its parameters in range (R72) and at most 16 intervals (R60). -/
def RingOk (r : Ring) : Prop := 3 ≤ r.depth ∧ r.depth ≤ 8 ∧ r.threshold ≤ 255 ∧ r.window.length ≤ 16

/-- A detector keeps at most 10 flags (R77), 8 film frames (R88), 2 failing frames (R83), halves 0 and 1. -/
def DetOk (d : Detector) : Prop :=
  d.history.length ≤ 10 ∧ d.films.length ≤ 8 ∧ d.failCount ≤ 2 ∧ d.half ≤ 1

/-- A port keeps at most 8 peer changes (R182), and an open staging buffer names a loadable entry (R143). -/
def PortOk (r : PortRec) : Prop := r.peers.length ≤ 8 ∧ ∀ b, r.staging = some b → 6 ≤ b.entry.val

/-- A built-in entry holds its built-in content and nothing pending (R140); another entry is free. -/
def ProfileOk (e : EntryNo) (x : Profile) : Prop := e.val ≤ 5 → x.active = builtInContent e ∧ x.pending = none

/-- The free list holds each FREE slot once and no other slot (R19). -/
def FreeListOk (s : State) : Prop := s.free.Nodup ∧ ∀ n : SlotNo, n ∈ s.free ↔ s.slots[n].state = .free

/-- The invariant that every step keeps. -/
structure Inv (s : State) : Prop where
  freeList : FreeListOk s
  retired  : retiredCount s ≤ Config.retiredMax
  dram     : s.dram.wf = true
  refs     : ∀ n : RefNo, RefOk s.refs[n]
  rings    : ∀ f : Feed, RingOk s.rings[f]
  dets     : ∀ f : Feed, DetOk s.dets[f]
  profiles : ∀ e : EntryNo, ProfileOk e s.profiles[e]
  ports    : ∀ p : Port, PortOk (s.ports.get p)
  time     : s.dev.houseTime ≤ Config.houseMax

end Sys2Proof.Machine
end

