-- ==== Sys2Proof/Certificates/Slice0/Obligations.lean ====
section
/-! DEFINITION. The statements about the SV-2408. In each, `t` is the state `s` after the command's `dt`
periods of CLK27 have passed. A record update names everything that changes: what it does not name is
unchanged. -/

open Sys2Proof Sys2Proof.Machine

/-! ## The machine -/

/-- A step runs the command at the front of the queue on the state with the queue's rest. -/
def Obligations.StepRunsTheFrontCommand : Prop :=
  ∀ (c : Instr) (s : State), step { s with pending := c :: s.pending } = exec c s

/-- On an empty queue a step takes the first due event, and lets one period of CLK27 pass when none is due
(the model's choice, log entry 2). An event of time that is not among the due ones would change nothing. House time advances by one a tick in READY, stops at its maximum, and is
held in STARTING (R1), where the periods of the stage are counted, but for those while RESET_N is asserted (the
model's reading of R185 and R192, log entry 22). -/
def Obligations.EmptyQueueLetsTimePass : Prop :=
  (∀ s : State, s.pending = [] →
    (∀ i rest, dueCommands s = i :: rest → step s = exec i s) ∧
    (dueCommands s = [] → step s = .next (s.elapse 1))) ∧
  (∀ (s : State) (i : Instr), s.dev.houseTime ≤ 2 ^ 64 - 1 → i ∉ dueCommands s →
    (i = .dramInitialized 0 ∨ i = .softResetEnd 0 ∨ (∃ l : LaneNo, i = .jobCompletion 0 l) ∨
      (∃ p : Port, i = .validationEnd 0 p) ∨
      (∃ n : RefNo, i = .syntheticEpoch 0 n ∨ i = .provisionalEpoch 0 n ∨ i = .windowExpiry 0 n) ∨
      (∃ f : Feed, i = .lineWindowClose 0 f ∨ i = .lossTimerExpiry 0 f) ∨
      (∃ x : AuxNo, i = .debounceExpiry 0 x ∨ i = .alertExpiry 0 x) ∨
      (∃ c : Chan, i = .outputFrameStart 0 c)) →
    exec i s = .next s) ∧
  ∀ (s : State) (dt : Nat),
    (s.dev.state = .ready → s.dev.houseTime + dt ≤ 2 ^ 64 - 1 →
      s.elapse dt = { s with dev := { s.dev with houseTime := s.dev.houseTime + dt } }) ∧
    (s.dev.state = .ready → 2 ^ 64 - 1 < s.dev.houseTime + dt →
      s.elapse dt = { s with dev := { s.dev with houseTime := 2 ^ 64 - 1 } }) ∧
    (s.dev.state = .starting → s.dev.resetN = false →
      s.elapse dt = { s with dev := { s.dev with clk := s.dev.clk + dt } }) ∧
    (s.dev.state = .starting → s.dev.resetN = true → s.elapse dt = s)

/-- Every command is answered with a next state. -/
def Obligations.EveryCommandAnswersNext : Prop :=
  ∀ (i : Instr) (s : State), ∃ t : State, exec i s = .next t

/-- Every step keeps the invariant `Inv`: the free list, the retired set, the DRAM's form, the references' and
rings' ranges, the detectors' bounds, the built-in profiles, the ports' lists and house time. -/
def Obligations.EveryStepKeepsTheInvariant : Prop :=
  ∀ s t : State, Inv s → step s = .next t → Inv t

/-- The invariant holds after reset. -/
def Obligations.ResetHasTheInvariant : Prop := Inv State.reset

/-! ## Resets and start-up -/

/-- Power-on reset and pin reset put every block at its reset values and begin start-up; the pins keep their
levels and the queue its commands. The model's choices in it: the DRAM lists nothing and its samples take new
free values (log entry 6); the banks, the auxiliary lines, the fault record and the resolved entries before the
image is judged (log entry 20); the levels of the pins (log entry 21); a power-on reset leaves RESET_N as it is,
and start-up counts from its release (log entry 22). What each name of a reset value holds is spelled out (R17, R58,
R75, R91, R112, R169, R175), and so are the built-in contents of the profile table (R140). -/
def Obligations.HardResetGivesResetValues : Prop :=
  ((∀ (st : SlotState) (fault : Bool), Slot.cleared st fault = {
      state := st, kind := none, owner := none, std := none, seq := none, raw := none, stamp1 := none, stamp2 := none
      tag1 := none, tag2 := none, breakBefore := false, damaged := false, fault := fault, retirePending := false
      pins := 0 }) ∧
    Receiver.reset = {
      state := .noSignal, detected := none, lastLocked := none, layout := none, run := ⟨none, 0, 0, []⟩, pRef := none
      lastRaw := none, seq := 0#32, capture := .none, lineErrors := 0, linkErrors := 0, erroredFrames := 0, margin := 0
      lowestMargin := 0, sig1 := none, sig2 := none, lossFrom := none, measure := none, lastClosed := none
      prevActive := false, frameErrored := false, nextPos := 0, posReceived := false, missed := false } ∧
    Ring.reset = {
      depth := 7, cadenceEnable := true, threshold := 4, members := [], window := [], prevRaw := none
      prevSmooth := none, lastError := none, pendingBreak := true, lastHorizon := none, admitted := 0, skips := 0
      overruns := 0, steps := 0 } ∧
    Detector.reset = {
      state := .video, history := [], buf1 := none, buf2 := none, lastM := none, phase := none, candidates := 0
      mIntra := none, followsSkip := false, passCount := 0, failCount := 0, verdict := none, anchor := none, half := 0
      cycleBegun := false, nextFilm := 0#16, lastFilmStamp := none, breakSeen := false, lastSlot := none
      openFilm := none, films := [], breaks := 0 } ∧
    (∀ c : Chan, Bank.builtIn c = {
      feed := c, outStd := 7, ref := 1, expected := none, offset := 0, delay := none, mode := .blend
      ditherPeriod := .off, ditherPhase := 0, lossHold := 25, vProf := none, hProf := none, mProf := none
      enable := false }) ∧
    (∀ b : Bank, Channel.reset b = {
      bankA := b, bankB := b, active := .a, revision := 0#16, takePending := false, lastTake := .none
      state := .stopped, dlyEff := none, frame := 0#32, listKind := none, outcome := none, readback := none
      counters := ⟨0, 0, 0, 0, 0⟩, resolved := none }) ∧
    Output.reset = {
      display := .black, onAir := none, ready := none, hold := none, lateRun := false, emitStd := none
      emitFailed := [] } ∧
    (∀ pin : Bool, AuxLine.reset pin = {
      mode := .disabled, edge := .falling, mask := 0#8, debounced := none, timer := none, expiry := none, triggers := 0
      pin := pin })) ∧
  ((∀ (r d : Int → Int) (row : Int → List Int), (∀ n, r n = (n + 1024) / 2048) →
      (∀ h, d h = 256 - (r (-h ^ 3 + 128 * h ^ 2 - 4096 * h) + r (3 * h ^ 3 - 320 * h ^ 2 + 524288) +
        r (-3 * h ^ 3 + 256 * h ^ 2 + 4096 * h) + r (h ^ 3 - 64 * h ^ 2))) →
      (∀ h, row h = [r (-h ^ 3 + 128 * h ^ 2 - 4096 * h),
        r (3 * h ^ 3 - 320 * h ^ 2 + 524288) + (if h < 32 then d h else 0),
        r (-3 * h ^ 3 + 256 * h ^ 2 + 4096 * h) + (if h < 32 then 0 else d h), r (h ^ 3 - 64 * h ^ 2)]) →
      ∀ e : EntryNo, e.val ≤ 1 →
        builtInContent e = some ⟨.resample 4 64, (List.range 64).flatMap fun h => row (h : Int)⟩) ∧
    builtInContent 2 = some ⟨.matrix, [1024, 0, 0, 0, 1024, 0, 0, 0, 1024]⟩ ∧
    builtInContent 3 = some ⟨.matrix, [1024, -118, -213, 0, 1043, 117, 0, 77, 1050]⟩ ∧
    builtInContent 4 = some ⟨.matrix, [1024, 102, 196, 0, 1014, -114, 0, -75, 1007]⟩ ∧
    builtInContent 5 = some ⟨.resample 2 64, (List.range 64).flatMap fun h => [256 - 4 * (h : Int), 4 * (h : Int)]⟩ ∧
    ∀ e : EntryNo, 6 ≤ e.val → builtInContent e = none) ∧
  (∀ (s : State) (dt : Nat) (i : Instr) (cause : Cause) (resetN : Bool),
    (i = .powerOnReset dt ∧ cause = .powerOn ∧ resetN = s.dev.resetN) ∨
      (i = .pinReset dt ∧ cause = .pin ∧ resetN = true) →
    ∃ t : State, exec i s = .next t ∧
      t.pending = s.pending ∧
      t.dev.houseTime = 0 ∧ t.dev.state = .starting ∧ t.dev.stage = .dramInit ∧ t.dev.clk = 0 ∧
      t.dev.cause = cause ∧ t.dev.resetN = resetN ∧
      (∀ p : Port,
        (t.port p).mailbox = .idle ∧ (t.port p).held = none ∧ (t.port p).submitRefused = false ∧
        (t.port p).framingError = false ∧ (t.port p).peers = [] ∧ (t.port p).overflow = false ∧
        (t.port p).staging = none) ∧
      (∀ p : Port, (t.unit p).mode = .onRead ∧ (t.unit p).master = true ∧
        ∀ g : GroupNo, (t.unit p).flags[g] = 0#16 ∧
          (t.unit p).enables[g] = BitVec.ofNat 16 (2 ^ groupSize g - 1) ∧
          ∀ k : Fin 5, isCondition g k.val = true →
            (t.unit p).edges[g].getLsbD (2 * k.val) = true ∧ (t.unit p).edges[g].getLsbD (2 * k.val + 1) = true) ∧
      (∀ n : RefNo, t.refs[n] =
        { state := .absent, tAlign := if n = 0 then 1080000 else 4504500, epoch := 0, kind := .synthetic,
          interval := if n = 0 then 1080000 else 4504500, lastPulse := none, good := 0, oot := 0 }) ∧
      (∀ n : SlotNo, t.slots[n] = .cleared .free false) ∧ t.free = List.finRange 96 ∧
      t.pool = ⟨0, 0, 0, 0, ⟨.none, none, none, none⟩⟩ ∧
      t.dram = [] ∧ t.freeCount = s.freeCount + 1 ∧ t.partials = s.partials ∧
      (∀ f : Feed, t.rxs[f] = .reset ∧ t.rings[f] = .reset ∧ t.dets[f] = .reset) ∧
      (∀ c : Chan, t.chans[c] = .reset (.builtIn c) ∧ t.outputs[c] = .reset ∧
        t.timing[c] = { last := none, next := 0, grid := .at 0 0, lastPeriod := 0 }) ∧
      (∀ e : EntryNo, t.profiles[e] = ⟨builtInContent e, none, 0⟩) ∧
      t.queue = [] ∧ (∀ l : LaneNo, t.lanes[l] = none) ∧
      (∀ x : AuxNo, t.aux[x] = .reset s.aux[x].pin))

/-- RESET_N_RELEASE releases the pin and changes nothing else; DRAM_INITIALIZED begins the configuration read
after 2,700,000 periods of the first stage (R185), and does nothing when it is not due (log entry 3). PIN_RESET
holds the part in reset, and every command but a power-on reset and the release leaves it held: every flag is
clear and the EVENT lines are released while RESET_N is asserted (R192). That the stage counts from the release is
the model's reading of R185 and R192 (log entry 22). -/
def Obligations.StartUpStages : Prop :=
  (∀ (s : State) (dt : Nat), ∃ t : State, exec (.pinReset dt) s = .next t ∧ HeldInReset t) ∧
  (∀ (s : State) (i : Instr), HeldInReset s → (∀ dt, i ≠ .powerOnReset dt ∧ i ≠ .resetNRelease dt) →
    ∃ t : State, exec i s = .next t ∧ HeldInReset t) ∧
  (∀ (s : State) (p : Port), HeldInReset s → eventLine s p = false) ∧
  ∀ (s t : State) (dt : Nat), t = s.elapse dt →
    exec (.resetNRelease dt) s = .next { t with dev := { t.dev with resetN := false } } ∧
    (t.dev.stage = .dramInit ∧ 2700000 ≤ t.dev.clk →
      exec (.dramInitialized dt) s = .next { t with dev := { t.dev with stage := .configRead, clk := 0 } }) ∧
    (t.dev.stage ≠ .dramInit ∨ t.dev.clk < 2700000 → exec (.dramInitialized dt) s = .next t)

/-- CONFIGURATION_READ_DONE judges the image in the order of R186, gives the blocks their start-up values, and
makes the part READY with RESET_OCCURRED in both units (R185). A LOADED image gives the channels their default
banks (R112), the retired set its list (R35), each event unit its clear mode and master enable, or the reset modes
where a bit of 7 to 2 is set (R186, R197), and each auxiliary line its mode, edge select and mask, or the reset
values where its mode or edge is out of range; a TAKE_INPUT line takes its sensed level (R175). -/
def Obligations.ConfigurationReadMakesThePartReady : Prop :=
  ∀ (s t : State) (dt : Nat) (r : ConfigRead), t = s.elapse dt → t.dev.stage = .configRead →
    ∃ u : State, exec (.configurationReadDone dt r) s = .next u ∧
      u = { t with dev := u.dev, units := u.units, timing := u.timing, slots := u.slots, free := u.free,
                   chans := u.chans, aux := u.aux } ∧
      u.dev = { t.dev with
        state := .ready, stage := .none, clk := 0, houseTime := 0
        load := match r with
          | .noAck => .failed
          | .bytes b =>
            if b.getD 0 0#8 ≠ 0xA5#8 then .skipped
            else if b.getD 1 0#8 ≠ 1#8 then .failed
            else if (b.take 178).foldl (· + ·) 0#8 ≠ 0#8 then .failed
            else if 16 < (b.getD 160 0#8).toNat then .failed
            else .loaded } ∧
      (u.dev.load ≠ .loaded →
        (∀ c : Chan, u.chans[c] = .reset (.builtIn c)) ∧
        (∀ x : AuxNo, u.aux[x] = .reset t.aux[x].pin) ∧
        (∀ n : SlotNo, u.slots[n] = .cleared .free false) ∧
        u.units = ⟨t.units.a.setFlag .resetOccurred, t.units.b.setFlag .resetOccurred⟩) ∧
      (∀ b, u.dev.load = .loaded → r = .bytes b →
        (∀ c : Chan, u.chans[c] = .reset (defaultBank (some b) c)) ∧
        (∀ n : SlotNo, u.slots[n] =
          .cleared (if ∃ k, k < (b.getD 160 0#8).toNat ∧ ∃ x, b[161 + k]? = some x ∧ x.toNat = n.val
            then .retired else .free) false) ∧
        (∀ (p : Port) (x : Byte) (v : EventUnit), x = b.getD (match p with | .a => 2 | .b => 3) 0#8 →
          v = { t.unit p with
            mode := if x.extractLsb' 2 6 = 0#6 ∧ x.getLsbD 0 = true then .byAck else .onRead
            master := x.extractLsb' 2 6 ≠ 0#6 || x.getLsbD 1 } →
          u.unit p = v.setFlag .resetOccurred) ∧
        (∀ (x : AuxNo) (m e : Byte), m = b.getD (4 + 3 * x.val) 0#8 → e = b.getD (4 + 3 * x.val + 1) 0#8 →
          (∀ (mode : AuxMode) (edge : AuxEdge), m.toNat = mode.code → e.toNat = edge.code →
            u.aux[x] = {
              mode := mode, edge := edge, mask := b.getD (4 + 3 * x.val + 2) 0#8
              debounced := if mode = .takeInput then some t.aux[x].pin else none
              timer := none, expiry := none, triggers := 0, pin := t.aux[x].pin }) ∧
          (3 < m.toNat ∨ 2 < e.toNat → u.aux[x] = .reset t.aux[x].pin))) ∧
      (∀ n : SlotNo, n ∈ u.free ↔ u.slots[n].state = .free) ∧ u.free.Pairwise (· < ·) ∧
      (∀ c : Chan, u.timing[c] =
        { last := none, next := (bankOf u c).offset, lastPeriod := 0
          grid := if t.refs[(bankOf u c).ref].tAlign % (bankOf u c).pOut = 0 then .at 0 0 else .free })

/-- A LOADED image gives a channel the bank record whose fields its 18 bytes spell, where they are in
range, and the built-in default where one is not (R112, R186; the byte order of the 3-byte fields is log
entry 19). -/
def Obligations.LoadedImageGivesTheDefaultBank : Prop :=
  ∀ (b : List Byte) (c : Chan) (i d : Nat), i = 16 + 18 * c.val →
    d = imageByte b (i + 7) * 65536 + imageByte b (i + 8) * 256 + imageByte b (i + 9) →
    (∀ x : Bank,
    (imageByte b i = x.feed.val ∧ imageByte b (i + 1) = x.outStd.val ∧ imageByte b (i + 2) = x.ref.val ∧
      imageByte b (i + 3) = x.expected.elim 255 Fin.val ∧
      imageByte b (i + 4) * 65536 + imageByte b (i + 5) * 256 + imageByte b (i + 6) = x.offset ∧
      d = x.delay.getD 0xFFFFFF ∧
      imageByte b (i + 10) = x.mode.code ∧ imageByte b (i + 11) = x.ditherPeriod.code ∧
      imageByte b (i + 12) = x.ditherPhase.val ∧ imageByte b (i + 13) = x.lossHold ∧
      imageByte b (i + 14) = x.vProf.elim 255 Fin.val ∧
      imageByte b (i + 15) = x.hProf.elim 255 Fin.val ∧
      imageByte b (i + 16) = x.mProf.elim 255 Fin.val ∧
      imageByte b (i + 17) = (if x.enable then 1 else 0)) →
    x.lossHold ≤ 250 ∧ x.offset < x.pOut ∧ (∀ d, x.delay = some d → d ≤ 6000000) →
    defaultBank (some b) c = x) ∧
    (8 ≤ imageByte b i ∨ 12 ≤ imageByte b (i + 1) ∨ 2 ≤ imageByte b (i + 2) ∨
      (12 ≤ imageByte b (i + 3) ∧ imageByte b (i + 3) ≠ 255) ∨
      (∃ o : StdId, o.val = imageByte b (i + 1) ∧ Config.pNom o ≤
        imageByte b (i + 4) * 65536 + imageByte b (i + 5) * 256 + imageByte b (i + 6)) ∨
      (6000000 < d ∧ d ≠ 0xFFFFFF) ∨ 3 ≤ imageByte b (i + 10) ∨ 5 ≤ imageByte b (i + 11) ∨
      4 ≤ imageByte b (i + 12) ∨ 250 < imageByte b (i + 13) ∨
      (∃ k, k < 3 ∧ 16 ≤ imageByte b (i + 14 + k) ∧ imageByte b (i + 14 + k) ≠ 255) ∨
      2 ≤ imageByte b (i + 17) →
    defaultBank (some b) c =
      { feed := c, outStd := 7, ref := 1, expected := none, offset := 0, delay := none, mode := .blend,
        ditherPeriod := .off, ditherPhase := 0, lossHold := 25, vProf := none, hProf := none, mProf := none,
        enable := false })


/-- RESET_DEVICE in READY begins a soft reset (R187): the requester is BUSY, the other port's request is
aborted, every block takes its values, and both ports lose their staging, lists and flags. Every sample of the
store is left as it was (R36), but those of a picture that a RUNNING job was writing (log entry 6). The resolved
entries and the debounced levels that a soft reset clears are the model's choice (log entry 20). -/
def Obligations.ResetDeviceBeginsASoftReset : Prop :=
  ∀ (s t : State) (dt : Nat) (p : Port) (tag : Byte), t = s.elapse dt → Taken t p →
    ∃ u : State, exec (.resetDevice dt p tag []) s = .next u ∧
      u.pending = t.pending ∧
      u.dev = { t.dev with
        state := .starting, cause := .request, houseTime := 0, clk := 0
        stage := .softReset p tag (match (t.port p.other).mailbox with | .busy _ => true | _ => false) } ∧
      u.port p = { t.port p with
        mailbox := .busy (.reset tag), submitRefused := false, framingError := false, peers := [],
        overflow := false, staging := none, dout := statusByte t p :: List.replicate 3 0#8 } ∧
      u.port p.other = { t.port p.other with
        submitRefused := false, framingError := false, peers := [], overflow := false, staging := none
        mailbox := (match (t.port p.other).mailbox with | .busy _ => .done | m => m)
        held := (match (t.port p.other).mailbox with
          | .busy (.commit g _ _) => some ⟨.aborted, g, []⟩
          | .busy (.reset g) => some ⟨.aborted, g, []⟩
          | _ => (t.port p.other).held) } ∧
      (∀ q : Port, u.unit q = { t.unit q with flags := Vector.replicate 19 0#16 }) ∧
      (∀ n : RefNo, u.refs[n] = .reset n) ∧
      (∀ f : Feed, u.rxs[f] = .reset ∧ u.rings[f] = .reset ∧ u.dets[f] = .reset) ∧
      (∀ c : Chan, u.outputs[c] = .reset ∧
        u.chans[c] = { Channel.reset t.chans[c].bankA with
          bankB := t.chans[c].bankB, active := t.chans[c].active, revision := t.chans[c].revision } ∧
        u.timing[c].last = none ∧ u.timing[c].next = (bankOf t c).offset) ∧
      (∀ e : EntryNo, u.profiles[e] =
        { active := t.profiles[e].pending.or t.profiles[e].active, pending := none, users := 0 }) ∧
      u.queue = [] ∧ (∀ l : LaneNo, u.lanes[l] = none) ∧
      (∀ x : AuxNo, u.aux[x] = { AuxLine.reset t.aux[x].pin with
        mode := t.aux[x].mode, edge := t.aux[x].edge, mask := t.aux[x].mask }) ∧
      (∀ (n : SlotNo) (line : Nat) (comp : Component) (x : Nat), line < 1080 → x < compRoom comp →
        (∀ (l : LaneNo) (j : Job), t.lanes[l] = some j → j.dest = n →
          (Config.std j.outStd).activeLines ≤ line ∨ componentWidth (Config.std j.outStd).width comp ≤ x) →
        readSample u n line comp x = readSample t n line comp x) ∧
      u.slots = (rebuildStore t).slots ∧ u.free = (rebuildStore t).free ∧ u.pool = (rebuildStore t).pool

/-- The store's rebuild at a soft reset (R36): RETIRED slots stay; the flagged slots in use are retired in
ascending number while the set holds fewer than 16; every other slot is FREE and cleared. The size of the retired set
is the number of RETIRED slots (R30). -/
def Obligations.StoreRebuildsAtSoftReset : Prop :=
  (∀ s : State, retiredCount s = (List.finRange 96).countP fun n => s.slots[n].state = .retired) ∧
  ∀ (s : State) (flagged : List SlotNo), retiredCount s ≤ 16 →
    flagged = (List.finRange 96).filter (fun n =>
      s.slots[n].state.inUse && (s.slots[n].retirePending || s.slots[n].fault)) →
    (∀ n : SlotNo, s.slots[n].state = .retired → (rebuildStore s).slots[n] = s.slots[n]) ∧
    (∀ n : SlotNo, n ∈ flagged.take (16 - retiredCount s) →
      (rebuildStore s).slots[n] = .cleared .retired s.slots[n].fault) ∧
    (∀ n : SlotNo, s.slots[n].state ≠ .retired → n ∉ flagged.take (16 - retiredCount s) →
      (rebuildStore s).slots[n] = .cleared .free false) ∧
    (rebuildStore s).dram = s.dram ∧ (rebuildStore s).free.Pairwise (· < ·) ∧
    (∀ n : SlotNo, n ∈ (rebuildStore s).free ↔ (rebuildStore s).slots[n].state = .free) ∧
    (rebuildStore s).pool.correctable = 0 ∧ (rebuildStore s).pool.uncorrectable = 0 ∧
    (rebuildStore s).pool.allocFailures = 0 ∧ (rebuildStore s).pool.transitionErrors = 0 ∧
    (rebuildStore s).pool.faultRec.slot = (flagged.drop (16 - retiredCount s)).getLast? ∧
    ((rebuildStore s).pool.faultRec.reason = .retireLimit ↔ 16 - retiredCount s < flagged.length)

/-- SOFT_RESET_END after 27,000 periods (R187): READY, the requester's OK, the entry on the other port's list,
and the flags in both units; nothing when it is not due (log entry 3). -/
def Obligations.SoftResetEnds : Prop :=
  ∀ (s t : State) (dt : Nat), t = s.elapse dt →
    (∀ (p : Port) (tag : Byte) (aborted : Bool), t.dev.stage = .softReset p tag aborted →
      (27000 ≤ t.dev.clk →
        ∃ u : State, exec (.softResetEnd dt) s = .next u ∧
          u = { t with dev := u.dev, ports := u.ports, units := u.units, timing := u.timing, aux := u.aux } ∧
          u.dev = { t.dev with state := .ready, stage := .none, clk := 0, houseTime := 0 } ∧
          u.port p = { t.port p with mailbox := .done, held := some ⟨.ok, tag, []⟩ } ∧
          ((t.port p.other).peers.length < 8 →
            u.port p.other = { t.port p.other with
              peers := (t.port p.other).peers ++ [⟨0x02#8, none, none⟩] }) ∧
          u.unit p = ((t.unit p).setFlag .resetOccurred).setFlag .requestDone ∧
          u.unit p.other =
            (let v := ((t.unit p.other).setFlag .resetOccurred).setFlag .peerChange
             if aborted then v.setFlag .requestDone else v) ∧
          (∀ c : Chan, u.timing[c] =
            { last := none, next := (bankOf t c).offset, lastPeriod := 0
              grid := if bankCompatible t (bankOf t c) then .at 0 0 else .free }) ∧
          (∀ x : AuxNo, u.aux[x] = { t.aux[x] with
            debounced := if t.aux[x].mode = .takeInput then some t.aux[x].pin else t.aux[x].debounced })) ∧
      (t.dev.clk < 27000 → exec (.softResetEnd dt) s = .next t)) ∧
    ((∀ p tag aborted, t.dev.stage ≠ .softReset p tag aborted) → exec (.softResetEnd dt) s = .next t)

/-! ## Control ports -/

/-- A malformed frame (R177) sets framing error seen, and a malformed SUBMIT also submit refused; its first
returned byte is the status byte, and what it returns after that is log entry 5. A FETCH returns the status byte,
zeros while its kind's payload is sent, then the held response from the offset, at most 24 words of it, and zeros
after; a STATUS frame returns the status byte, a zero, the device state and the held tag, and clears framing error
seen (R176, R177, R180). Nothing else changes. While RESET_N is asserted the port takes no frame (R176). The status
codes are those of R181. -/
def Obligations.FramesOnTheLink : Prop :=
  ([Status.ok, .invalid, .refused, .stale, .notReady, .aborted, .already, .notRetired, .committed, .committedPending,
      .empty, .checksumError, .unrecognised, .validationFailed, .noResponse].map Status.code =
    [0x00#8, 0x01#8, 0x02#8, 0x03#8, 0x04#8, 0x05#8, 0x06#8, 0x07#8, 0x08#8, 0x09#8, 0x0A#8, 0x0B#8, 0x0C#8, 0x0D#8,
      0x0E#8]) ∧
  (∀ (s t : State) (dt : Nat) (p : Port) (bytes : List Byte) (bits : Fin 8), t = s.elapse dt →
     WellFormed (.malformedFrame dt p bytes bits) = true →
     (t.dev.resetN = false →
       ∃ d : List Byte, exec (.malformedFrame dt p bytes bits) s =
           .next (t.modPort p fun r => { r with
             framingError := true
             submitRefused := r.submitRefused || bytes.head? = some 0x01#8
             dout := d }) ∧
         (bytes ≠ [] → d.head? = some (statusByte t p)) ∧ d.length ≤ bytes.length) ∧
     (t.dev.resetN = true → exec (.malformedFrame dt p bytes bits) s = .next t)) ∧
  ((∀ (s t : State) (dt : Nat) (p : Port) (off : Option Word) (k : Nat) (echo : Nat) (words : List Word),
      t = s.elapse dt → t.dev.resetN = false → echo = (if off.isSome then 3 else 1) →
      words = (match (t.port p).held with
        | none => [0x0E00#16, 0#16]
        | some r => [r.status.code ++ r.tag, BitVec.ofNat 16 r.words.length] ++
            (r.words.drop (off.elim 0 BitVec.toNat)).take 24) →
      exec (.fetch dt p off k) s = .next (t.modPort p fun r => { r with
        dout := statusByte t p :: ((List.replicate echo 0#8 ++
          words.flatMap fun w => [w.extractLsb' 8 8, w.extractLsb' 0 8]) ++ List.replicate k 0#8).take (echo + k) })) ∧
   (∀ (s t : State) (dt : Nat) (p : Port) (k : Nat), t = s.elapse dt → t.dev.resetN = false →
      exec (.status dt p k) s = .next (t.modPort p fun r => { r with
        framingError := false
        dout := statusByte t p :: ([0#8, (match t.dev.state with | .starting => 0#8 | .ready => 1#8),
          (match r.held with | none => 0#8 | some h => h.tag)] ++ List.replicate k 0#8).take (k + 1) })) ∧
   (∀ (s t : State) (dt : Nat) (p : Port) (off : Option Word) (k : Nat), t = s.elapse dt → t.dev.resetN = true →
      exec (.fetch dt p off k) s = .next t ∧ exec (.status dt p k) s = .next t))

/-- A SUBMIT at a BUSY mailbox is refused: submit refused is set, and nothing else changes (R178). While
RESET_N is asserted a port takes no frame (R176). -/
def Obligations.BusyMailboxRefusesEveryRequest : Prop :=
  ∀ (i : Instr) (q : Request) (s t : State), i.request = some q → t = s.elapse q.dt →
    (∀ r : InProgress, t.dev.resetN = false → (t.port q.port).mailbox = .busy r →
      exec i s = .next (t.modPort q.port fun x => { x with
        submitRefused := true
        dout := statusByte t q.port :: List.replicate (2 * q.params.length + 3) 0#8 })) ∧
    (t.dev.resetN = true → exec i s = .next t)

/-- In STARTING every taken request is answered NOT_READY with its own tag and does nothing; in READY one that
fails the port's checks is answered INVALID and reaches no owner (R179). -/
def Obligations.PortsAnswerWithoutAnOwner : Prop :=
  (∀ (i : Instr) (q : Request) (s t : State), i.request = some q → t = s.elapse q.dt →
     t.dev.resetN = false → t.dev.state = .starting →
     (t.port q.port).mailbox = .idle ∨ (t.port q.port).mailbox = .done →
     exec i s = .next (t.answered q.port .notReady q.tag [] q.params.length)) ∧
  (∀ (i : Instr) (q : Request) (s t : State), i.request = some q → t = s.elapse q.dt → Taken t q.port →
     q.decodes = false →
     exec i s = .next (t.answered q.port .invalid q.tag [] q.params.length))

/-- GET_PEER_CHANGES returns the port's list and indicator and empties both (R183). An append keeps the newest
eight, marks an overflow, and raises PEER_CHANGE in that port's unit only (R182). The words of an entry (its code,
its target or absent, its revision or absent) are the model's deduction (log entry 18). A change is announced to the
port other than the requester's (R179, R182). -/
def Obligations.PeerChangeLists : Prop :=
  ((∀ (s : State) (p : Port) (e : PeerEntry), announce p e s = peerAppend p.other e s) ∧
    Port.a.other = .b ∧ Port.b.other = .a) ∧
  (∀ (s t : State) (dt : Nat) (p : Port) (tag : Byte), t = s.elapse dt → Taken t p →
     exec (.getPeerChanges dt p tag []) s = .next (t.modPort p fun r =>
       { r.answered (statusByte t p) .ok tag
           (wList (fun e : PeerEntry => w16 e.code.toNat ++ wOpt 1 (fun n : Nat => w16 n) e.target ++
             wOpt 1 (fun v : BitVec 16 => [v]) e.revision) r.peers ++ wFlag r.overflow) 0 with
         peers := [], overflow := false })) ∧
  (∀ (s : State) (p : Port) (e : PeerEntry), (s.port p).peers.length ≤ 8 →
     (peerAppend p e s).port p = (if (s.port p).peers.length = 8
       then { s.port p with peers := (s.port p).peers.tail ++ [e], overflow := true }
       else { s.port p with peers := (s.port p).peers ++ [e] }) ∧
     (peerAppend p e s).unit p = (s.unit p).setFlag .peerChange ∧
     (peerAppend p e s).port p.other = s.port p.other ∧ (peerAppend p e s).unit p.other = s.unit p.other)

/-! ## Event units -/

/-- GET_EVENTS reports the group of lowest number with an enabled flag set, and clears what it reports in
CLEAR_ON_READ, POOL_EMPTY only while the free list holds a slot (R191, R193). The conditions word has a bit set while
its condition holds, and no other bit: POOL_EMPTY (bit 1 of DEVICE) while the free list is empty, REF_LOCK (bit 0 of
REFr) in LOCKED, HOLDING (bit 3 of CHc), FEED_LOCK (bit 0 of FEEDf) in LOCKED and CADENCE (bit 2) in a locked state. -/
def Obligations.GetEventsReportsTheFirstGroup : Prop :=
  (∀ s : State, conditionsWord s 0 = (if s.free = [] then 2#16 else 0#16) ∧
    (∀ (n : RefNo) (g : GroupNo), g.val = 1 + n.val →
      conditionsWord s g = if s.refs[n].state = .locked then 1#16 else 0#16) ∧
    (∀ (c : Chan) (g : GroupNo), g.val = 3 + c.val →
      conditionsWord s g = if s.chans[c].state = .holding then 8#16 else 0#16) ∧
    (∀ (f : Feed) (g : GroupNo), g.val = 11 + f.val →
      conditionsWord s g = (if s.rxs[f].state = .locked then 1#16 else 0#16) |||
        (if s.dets[f].state = .locked32 ∨ s.dets[f].state = .locked22 then 4#16 else 0#16))) ∧
  (∀ (s t : State) (dt : Nat) (p : Port) (tag : Byte), t = s.elapse dt → Taken t p →
    (∀ g : GroupNo, (t.unit p).flags[g] &&& (t.unit p).enables[g] ≠ 0#16 →
      (∀ h : GroupNo, h < g → (t.unit p).flags[h] &&& (t.unit p).enables[h] = 0#16) →
      ∃ left : Word, exec (.getEvents dt p tag []) s =
        .next ((t.setUnit p { t.unit p with flags := (t.unit p).flags.set g left }).replied t p .ok tag
          [BitVec.ofNat 16 g.val, (t.unit p).flags[g], (t.unit p).enables[g], conditionsWord t g,
           BitVec.ofNat 16 ((List.finRange 19).countP fun h =>
             (t.unit p).flags[h] &&& (t.unit p).enables[h] ≠ 0#16)] 0) ∧
        ((t.unit p).mode = .byAck → left = (t.unit p).flags[g]) ∧
        ((t.unit p).mode = .onRead → left =
          (if g = 0 ∧ t.free = [] then (t.unit p).flags[g] &&& 2#16 else 0#16))) ∧
    ((∀ g : GroupNo, (t.unit p).flags[g] &&& (t.unit p).enables[g] = 0#16) →
      exec (.getEvents dt p tag []) s = .next (t.answered p .ok tag [255#16, 0#16, 0#16, 0#16, 0#16] 0)))

/-- ACK_EVENTS clears the named flags of the named group in its own port's unit, POOL_EMPTY only while the free
list holds a slot, and answers the flags that stay; other parameters are INVALID (R191, R194). -/
def Obligations.AckEventsClearsNamedFlags : Prop :=
  ∀ (s t : State) (dt : Nat) (p : Port) (tag : Byte) (w named : Word), t = s.elapse dt → Taken t p →
    (∀ (g : GroupNo) (left : Word), w = BitVec.ofNat 16 g.val → named.toNat < 2 ^ groupSize g →
      left = (t.unit p).flags[g] &&& ~~~(if g = 0 ∧ t.free = [] then named &&& ~~~2#16 else named) →
      exec (.ackEvents dt p tag [w, named]) s =
        .next ((t.setUnit p { t.unit p with flags := (t.unit p).flags.set g left }).replied t p .ok tag [left] 2)) ∧
    ((∀ g : GroupNo, w = BitVec.ofNat 16 g.val → 2 ^ groupSize g ≤ named.toNat) →
      exec (.ackEvents dt p tag [w, named]) s = .next (t.answered p .invalid tag [] 2))

/-- SET_EVENT_MODE sets the clear mode and the master enable of its own port's unit (R195); SET_EVENT_ENABLES sets
the enables and edge selects of one group of it together (R196); other values are INVALID and change nothing. -/
def Obligations.SetEventModeAndEnables : Prop :=
  (∀ (s t : State) (dt : Nat) (p : Port) (tag : Byte) (m e : Word), t = s.elapse dt → Taken t p →
     (m.toNat ≤ 1 ∧ e.toNat ≤ 1 → exec (.setEventMode dt p tag [m, e]) s =
       .next ((t.setUnit p { t.unit p with
         mode := if m = 0#16 then .onRead else .byAck, master := decide (e = 1#16) }).replied t p .ok tag [] 2)) ∧
     (¬ (m.toNat ≤ 1 ∧ e.toNat ≤ 1) →
       exec (.setEventMode dt p tag [m, e]) s = .next (t.answered p .invalid tag [] 2))) ∧
  (∀ (s t : State) (dt : Nat) (p : Port) (tag : Byte) (w en ed : Word), t = s.elapse dt → Taken t p →
     (∀ g : GroupNo, w = BitVec.ofNat 16 g.val →
       (∀ i : Fin 16, groupSize g ≤ i.val → en.getLsbD i.val = false) ∧
       (∀ i : Fin 16, 2 * groupSize g ≤ i.val → ed.getLsbD i.val = false) ∧
       (∀ i : Fin 8, i.val < groupSize g →
         (ed.getLsbD (2 * i.val) || ed.getLsbD (2 * i.val + 1)) = isCondition g i.val) →
       exec (.setEventEnables dt p tag [w, en, ed]) s =
         .next ((t.setUnit p { t.unit p with
           enables := (t.unit p).enables.set g en, edges := (t.unit p).edges.set g ed }).replied t p .ok tag [] 3)) ∧
     ((∀ g : GroupNo, w = BitVec.ofNat 16 g.val →
       ¬ ((∀ i : Fin 16, groupSize g ≤ i.val → en.getLsbD i.val = false) ∧
         (∀ i : Fin 16, 2 * groupSize g ≤ i.val → ed.getLsbD i.val = false) ∧
         (∀ i : Fin 8, i.val < groupSize g →
           (ed.getLsbD (2 * i.val) || ed.getLsbD (2 * i.val + 1)) = isCondition g i.val))) →
       exec (.setEventEnables dt p tag [w, en, ed]) s = .next (t.answered p .invalid tag [] 3)))

/-- The EVENT line: RESET_N released, the master enable on, and an enabled flag set (R192); the status byte shows it
with the mailbox state, submit refused and framing error seen (R176). A condition source sets its flag in a unit at
a change that the unit's edge select includes, and at no other change; any other source sets its flag in both units, or
in one port's unit (R190). Each source has its group and position, and the condition sources are those that the table
of groups marks. -/
def Obligations.EventLineAndConditions : Prop :=
  ((∀ src : Source, (src.group.val, src.pos) = (match src with
      | .resetOccurred => (0, 0) | .poolEmpty => (0, 1) | .slotFault => (0, 2) | .peerChange => (0, 3)
      | .requestDone => (0, 4) | .refLock n => (1 + n.val, 0) | .refRetimed n => (1 + n.val, 1)
      | .channelState c => (3 + c.val, 0) | .outputLate c => (3 + c.val, 1) | .takeDone c => (3 + c.val, 2)
      | .holding c => (3 + c.val, 3) | .feedLock f => (11 + f.val, 0) | .standardChange f => (11 + f.val, 1)
      | .cadence f => (11 + f.val, 2) | .stampStep f => (11 + f.val, 3) | .ringOverrun f => (11 + f.val, 4))) ∧
    (List.finRange 19).map groupSize = [5, 2, 2] ++ List.replicate 8 4 ++ List.replicate 8 5 ∧
    (∀ (g : GroupNo) (i : Nat), isCondition g i = true ↔
      (1 ≤ g.val ∧ g.val ≤ 2 ∧ i = 0) ∨ (3 ≤ g.val ∧ g.val ≤ 10 ∧ i = 3) ∨ (11 ≤ g.val ∧ (i = 0 ∨ i = 2))) ∧
    (∀ (u : EventUnit) (src : Source), u.setFlag src =
      { u with flags := u.flags.set src.group (u.flags[src.group] ||| (1#16 <<< src.pos)) }) ∧
    (∀ (s : State) (src : Source),
      raise src s = { s with units := ⟨s.units.a.setFlag src, s.units.b.setFlag src⟩ } ∧
      raiseAt .a src s = { s with units := ⟨s.units.a.setFlag src, s.units.b⟩ } ∧
      raiseAt .b src s = { s with units := ⟨s.units.a, s.units.b.setFlag src⟩ })) ∧
  (∀ (s : State) (p : Port),
     (eventLine s p = true ↔
       s.dev.resetN = false ∧ (s.unit p).master = true ∧
         ∃ g : GroupNo, (s.unit p).flags[g] &&& (s.unit p).enables[g] ≠ 0#16) ∧
     (statusByte s p).extractLsb' 6 2 =
       (match (s.port p).mailbox with | .idle => 0#2 | .busy _ => 1#2 | .done => 2#2) ∧
     (statusByte s p).getLsbD 5 = eventLine s p ∧ (statusByte s p).getLsbD 4 = (s.port p).submitRefused ∧
     (statusByte s p).getLsbD 3 = (s.port p).framingError ∧ (statusByte s p).extractLsb' 0 3 = 0#3) ∧
  (∀ (s : State) (p : Port) (src : Source) (before after : Bool), src.pos < 5 →
     (condition src before after s).unit p =
       (if before ≠ after ∧ (s.unit p).edges[src.group].getLsbD (2 * src.pos + (if after then 0 else 1)) = true
        then { s.unit p with flags :=
          (s.unit p).flags.set src.group ((s.unit p).flags[src.group] ||| (1#16 <<< src.pos)) }
        else s.unit p) ∧
     condition src before after s = { s with units := (condition src before after s).units })

/-! ## Reference timebase and output frame starts -/

/-- SET_REFERENCE (R4): INVALID, REFUSED(REF_INCOMPATIBLE), OK for the T_align already held, or accepted: the
record changes, bound outputs keep, lose or rebuild their sequence, and the other port is told. -/
def Obligations.SetReferenceChangesTheAlignment : Prop :=
  ∀ (s t : State) (dt : Nat) (p : Port) (tag : Byte) (w hi lo : Word) (a : Nat), t = s.elapse dt → Taken t p →
    a = hi.toNat * 65536 + lo.toNat →
    (2 ≤ w.toNat ∨ ¬ (a = 1080000 ∨ a = 4504500 ∨ a = 4500000) →
      exec (.setReference dt p tag [w, hi, lo]) s = .next (t.answered p .invalid tag [] 3)) ∧
    (∀ n : RefNo, n.val = w.toNat → (a = 1080000 ∨ a = 4504500 ∨ a = 4500000) →
      ((∃ c : Chan, t.chans[c].state ≠ .stopped ∧ (bankOf t c).ref = n ∧ a % (bankOf t c).pOut ≠ 0) →
        exec (.setReference dt p tag [w, hi, lo]) s = .next (t.answered p .refused tag [1#16] 3)) ∧
      ((∀ c : Chan, t.chans[c].state ≠ .stopped → (bankOf t c).ref = n → a % (bankOf t c).pOut = 0) →
        t.refs[n].tAlign = a →
        exec (.setReference dt p tag [w, hi, lo]) s = .next (t.answered p .ok tag [] 3)) ∧
      (∀ r : Reference,
        (∀ c : Chan, t.chans[c].state ≠ .stopped → (bankOf t c).ref = n → a % (bankOf t c).pOut = 0) →
        t.refs[n].tAlign ≠ a →
        r = { t.refs[n] with tAlign := a, interval := a, state := .absent, kind := .synthetic, lastPulse := none,
                             good := 0, oot := 0 } →
        ∃ v : Vector OutTiming 8, exec (.setReference dt p tag [w, hi, lo]) s =
          .next ((announce p ⟨0x10#8, some n.val, none⟩ { condition (.refLock n) (t.refs[n].state = .locked) false
            (t.modRef n fun _ => r) with timing := v }).replied t p .ok tag [] 3) ∧
          ∀ c : Chan, v[c] =
            (if (bankOf t c).ref ≠ n then t.timing[c]
             else if a % (bankOf t c).pOut ≠ 0 then { t.timing[c] with grid := .free }
             else if t.refs[n].tAlign % (bankOf t c).pOut = 0 then t.timing[c]
             else t.timing[c].place r (bankOf t c) (firstAt r (bankOf t c)
               (match t.timing[c].last with
                | some l => max t.dev.houseTime (l + (max t.timing[c].lastPeriod (bankOf t c).pOut + 1) / 2)
                | none => t.dev.houseTime)))))

/-- The first frame start at or after a bound: no frame start of the sequence E + m·I + o + j·P that is at or
after the bound lies before it (R5, R12, R13). The three rules by which an output's next frame start follows its
reference, and the rebuild: an epoch that moves (R6), a period that begins (R5, R10), a retime (R12), a change of
binding (R13). The last two are spaced by the greatest period since the last frame start (R5). How a frame start
keeps its place in the sequence, and what becomes of one left of an ended period, is log entry 15. -/
def Obligations.FirstFrameStartIsLeast : Prop :=
  (∀ (t : OutTiming) (r : Reference) (b : Bank) (time : Nat → Nat → Nat),
    (∀ m j, time m j = r.epoch + m * r.interval + b.offset + j * b.pOut) →
    (∀ m j, gridTime r b m j = time m j ∧ t.place r b (m, j) = { t with next := time m j, grid := .at m j }) ∧
    framesPerPeriod r b = r.tAlign / b.pOut ∧ b.pOut = Config.pNom b.outStd ∧
    (∀ m j, t.grid = .at m j → t.recompute r b = { t with next := time m j }) ∧
    (∀ m j, t.grid = .at (m + 1) j → t.enterPeriod r b = { t with next := time m j, grid := .at m j }) ∧
    (∀ j, t.grid = .at 0 j → t.enterPeriod r b = { t with grid := .past }) ∧
    (t.grid = .free ∨ t.grid = .past → t.recompute r b = t ∧ t.enterPeriod r b = t) ∧
    (t.grid = .free → t.retimed r b = t) ∧
    (t.grid ≠ .free → t.last = none → t.retimed r b = { t with next := time 0 0, grid := .at 0 0 }) ∧
    (∀ l m j, t.grid ≠ .free → t.last = some l → (m, j) = firstAt r b (l + (max t.lastPeriod b.pOut + 1) / 2) →
      t.retimed r b = { t with next := time m j, grid := .at m j })) ∧
  (∀ (s : State) (c : Chan) (pOld bound m j : Nat) (b : Bank) (r : Reference), b = bankOf s c → r = s.refs[b.ref] →
    bound = (match s.timing[c].last with
      | some l => max s.dev.houseTime (l + (max s.timing[c].lastPeriod (max pOld b.pOut) + 1) / 2)
      | none => s.dev.houseTime) →
    (m, j) = firstAt r b bound →
    rebuild c pOld s = { s with timing := s.timing.set c (if r.tAlign % b.pOut = 0
      then { s.timing[c] with next := r.epoch + m * r.interval + b.offset + j * b.pOut, grid := .at m j }
      else { s.timing[c] with grid := .free }) }) ∧
  ∀ (r : Reference) (b : Bank) (bound m j : Nat), RefOk r → r.tAlign % b.pOut = 0 → b.offset < b.pOut →
    (m, j) = firstAt r b bound →
    j < framesPerPeriod r b ∧ bound ≤ gridTime r b m j ∧
    ∀ m' j', j' < framesPerPeriod r b → bound ≤ gridTime r b m' j' → gridTime r b m j ≤ gridTime r b m' j'

/-- A pulse in ABSENT or HOLDOVER moves the reference to LOCKING (R7, R9); in LOCKING it counts or clears the good
intervals (R8); in LOCKED, outside its window, it is counted, and the second in a row moves the reference to
LOCKING (R10). In STARTING no pulse is stamped. -/
def Obligations.PulsesThatAreCounted : Prop :=
  ((∀ (s t : State) (dt : Nat) (n : RefNo), t = s.elapse dt →
      (t.dev.state = .ready → t.refs[n].state = .absent ∨ t.refs[n].state = .holdover →
        exec (.refPulse dt n) s =
          .next (t.modRef n fun r => { r with state := .locking, lastPulse := some t.dev.houseTime, good := 0 })) ∧
      (t.dev.state = .starting → exec (.refPulse dt n) s = .next t)) ∧
   (∀ (s t : State) (dt l : Nat) (n : RefNo), t = s.elapse dt → t.dev.state = .ready →
      t.refs[n].state = .locking → t.refs[n].lastPulse = some l →
      (absDiff (t.dev.houseTime - l) t.refs[n].tAlign ≤ 270 → t.refs[n].good ≠ 3 →
        exec (.refPulse dt n) s =
          .next (t.modRef n fun r => { r with lastPulse := some t.dev.houseTime, good := r.good + 1 })) ∧
      (270 < absDiff (t.dev.houseTime - l) t.refs[n].tAlign →
        exec (.refPulse dt n) s =
          .next (t.modRef n fun r => { r with lastPulse := some t.dev.houseTime, good := 0 })))) ∧
  (∀ (s t : State) (dt : Nat) (n : RefNo) (x : Nat), t = s.elapse dt → t.dev.state = .ready →
     t.refs[n].state = .locked →
     x = (if t.refs[n].kind = .provisional then t.refs[n].epoch else t.refs[n].epoch + t.refs[n].interval) →
     270 < absDiff t.dev.houseTime x →
     (t.refs[n].oot = 0 → exec (.refPulse dt n) s = .next (t.modRef n fun r => { r with oot := 1 })) ∧
     (t.refs[n].oot = 1 → exec (.refPulse dt n) s =
       .next (condition (.refLock n) true false (t.modRef n fun r => { r with
         state := .locking, lastPulse := some t.dev.houseTime, good := 0, oot := 0 }))))

/-- The fourth good interval locks the reference and adopts the pulse: late, early, or by a retime (R8, R11,
R12). -/
def Obligations.FourthGoodIntervalAdopts : Prop :=
  ∀ (s t : State) (dt l : Nat) (n : RefNo), t = s.elapse dt → t.dev.state = .ready →
    t.refs[n].state = .locking → t.refs[n].lastPulse = some l → t.refs[n].good = 3 →
    absDiff (t.dev.houseTime - l) t.refs[n].tAlign ≤ 270 →
    ∃ u : State, exec (.refPulse dt n) s = .next u ∧
      u = { t with refs := u.refs, timing := u.timing, queue := u.queue, lanes := u.lanes, units := u.units } ∧
      u.refs = t.refs.set n { t.refs[n] with
        state := .locked, kind := .pulse, epoch := t.dev.houseTime, interval := t.dev.houseTime - l,
        lastPulse := some t.dev.houseTime, good := 4 } ∧
      (t.dev.houseTime ≤ t.refs[n].epoch + 270 →
        FramesFollow OutTiming.recompute n t u ∧ u.units = (condition (.refLock n) false true t).units) ∧
      (t.refs[n].epoch + 270 < t.dev.houseTime → t.refs[n].epoch + t.refs[n].interval ≤ t.dev.houseTime + 270 →
        FramesFollow OutTiming.enterPeriod n t u ∧ u.units = (condition (.refLock n) false true t).units) ∧
      (t.refs[n].epoch + 270 < t.dev.houseTime → t.dev.houseTime + 270 < t.refs[n].epoch + t.refs[n].interval →
        FramesFollow OutTiming.retimed n t u ∧
          u.units = (raise (.refRetimed n) (condition (.refLock n) false true t)).units)

/-- A pulse in LOCKED inside its window (R10): early or at X it begins the next alignment period; at X or after
with the epoch PROVISIONAL it moves the epoch. -/
def Obligations.PulseInWindowSetsTheEpoch : Prop :=
  ∀ (s t : State) (dt : Nat) (n : RefNo) (x : Nat), t = s.elapse dt → t.dev.state = .ready →
    t.refs[n].state = .locked →
    (t.refs[n].kind ≠ .provisional → x = t.refs[n].epoch + t.refs[n].interval → x ≤ t.dev.houseTime + 270 →
      t.dev.houseTime ≤ x →
      ∃ u : State, exec (.refPulse dt n) s = .next u ∧
        u = { t with refs := u.refs, timing := u.timing, queue := u.queue, lanes := u.lanes } ∧
        u.refs = t.refs.set n { t.refs[n] with
          kind := .pulse, epoch := t.dev.houseTime, lastPulse := some t.dev.houseTime, oot := 0
          interval := (clampInt ((t.dev.houseTime : Int) - t.refs[n].epoch)
            ((t.refs[n].tAlign : Int) - 270) ((t.refs[n].tAlign : Int) + 270)).toNat } ∧
        FramesFollow OutTiming.enterPeriod n t u) ∧
    (t.refs[n].kind = .provisional → x = t.refs[n].epoch → x ≤ t.dev.houseTime → t.dev.houseTime ≤ x + 270 →
      ∃ u : State, exec (.refPulse dt n) s = .next u ∧
        u = { t with refs := u.refs, timing := u.timing, queue := u.queue, lanes := u.lanes } ∧
        u.refs = t.refs.set n { t.refs[n] with
          kind := .pulse, epoch := t.dev.houseTime, lastPulse := some t.dev.houseTime, oot := 0
          interval := (clampInt ((t.dev.houseTime : Int) - ((x : Int) - t.refs[n].interval))
            ((t.refs[n].tAlign : Int) - 270) ((t.refs[n].tAlign : Int) + 270)).toNat } ∧
        FramesFollow OutTiming.recompute n t u)

/-- Epochs without a pulse (R7–R10): synthetic outside LOCKED, provisional in LOCKED; each begins a new
alignment period at E + I. A command that is not due changes nothing (log entry 3). -/
def Obligations.EpochsWithoutAPulse : Prop :=
  ∀ (s t : State) (dt : Nat) (n : RefNo) (i : Instr) (kind : EpochKind) (ok : Prop), t = s.elapse dt →
    (i = .syntheticEpoch dt n ∧ kind = .synthetic ∧ (ok ↔ t.refs[n].state ≠ .locked)) ∨
      (i = .provisionalEpoch dt n ∧ kind = .provisional ∧
        (ok ↔ t.refs[n].state = .locked ∧ t.refs[n].kind ≠ .provisional)) →
    (t.dev.state = .ready ∧ ok ∧ t.refs[n].epoch + t.refs[n].interval ≤ t.dev.houseTime →
      ∃ u : State, exec i s = .next u ∧
        u = { t with refs := u.refs, timing := u.timing, queue := u.queue, lanes := u.lanes } ∧
        u.refs = t.refs.set n { t.refs[n] with epoch := t.refs[n].epoch + t.refs[n].interval, kind := kind } ∧
        FramesFollow OutTiming.enterPeriod n t u) ∧
    (¬ (t.dev.state = .ready ∧ ok ∧ t.refs[n].epoch + t.refs[n].interval ≤ t.dev.houseTime) →
      exec i s = .next t)

/-- The window expires 270 ticks after a provisional epoch (R10): HOLDOVER, the epoch stays with kind
SYNTHETIC, REF_LOCK becomes false. A command that is not due changes nothing (log entry 3). -/
def Obligations.WindowExpiryGoesToHoldover : Prop :=
  ∀ (s t : State) (dt : Nat) (n : RefNo), t = s.elapse dt →
    (t.dev.state = .ready ∧ t.refs[n].state = .locked ∧ t.refs[n].kind = .provisional ∧
        t.refs[n].epoch + 270 ≤ t.dev.houseTime →
      exec (.windowExpiry dt n) s = .next (condition (.refLock n) true false
        (t.modRef n fun r => { r with state := .holdover, kind := .synthetic, oot := 0 }))) ∧
    (¬ (t.dev.state = .ready ∧ t.refs[n].state = .locked ∧ t.refs[n].kind = .provisional ∧
        t.refs[n].epoch + 270 ≤ t.dev.houseTime) →
      exec (.windowExpiry dt n) s = .next t)

/-! ## Output frame starts, presentation, dispatch -/

/-- OUTPUT_FRAME_START (R106, R5): when due, the next frame start is scheduled, the output frame counter
advances unless the channel is STOPPED, the frame begins to be emitted, and presentation, a pending take and the
dispatch follow in that order. A command that is not due changes nothing (log entry 3). The model's choices in
it: the place in the sequence, and the scheduled time of a start commanded late (log entry 15); the next frame
start is scheduled before the steps (log entry 17); the standard of the frame is set before the take (log entry
26). -/
def Obligations.OutputFrameStartTakesFourSteps : Prop :=
  ∀ (s t : State) (dt : Nat) (c : Chan) (b : Bank) (r : Reference), t = s.elapse dt → b = bankOf t c →
    r = t.refs[b.ref] →
    (t.dev.state = .ready ∧ t.timing[c].next ≤ t.dev.houseTime →
      ∃ a u : State,
        exec (.outputFrameStart dt c) s = .next (match (pendingTake c (present c a)).chans[c].state with
          | .priming | .running => dispatch c (pendingTake c (present c a))
          | .stopped | .waitFeed | .holding => pendingTake c (present c a)) ∧
        a = { t with timing := a.timing, chans := a.chans, outputs := a.outputs } ∧
        a.timing = t.timing.set c (match t.timing[c].grid with
          | .free => { last := some t.timing[c].next, next := t.timing[c].next + b.pOut, grid := .free
                       lastPeriod := b.pOut }
          | .past => { last := some t.timing[c].next, next := r.epoch + b.offset, grid := .at 0 0
                       lastPeriod := b.pOut }
          | .at m j =>
            if j + 1 < r.tAlign / b.pOut
            then { last := some t.timing[c].next
                   next := r.epoch + m * r.interval + b.offset + (j + 1) * b.pOut, grid := .at m (j + 1)
                   lastPeriod := b.pOut }
            else { last := some t.timing[c].next
                   next := r.epoch + (m + 1) * r.interval + b.offset, grid := .at (m + 1) 0
                   lastPeriod := b.pOut }) ∧
        a.chans = t.chans.set c (if t.chans[c].state = .stopped then t.chans[c]
          else { t.chans[c] with frame := t.chans[c].frame + 1 }) ∧
        a.outputs = t.outputs.set c { t.outputs[c] with
          emitStd := if b.enable then some b.outStd else none, emitFailed := [] } ∧
        u = present c a ∧
        (u.chans[c].takePending = false → pendingTake c u = u) ∧
        (u.chans[c].takePending = true → pendingTake c u = applyTake c true u)) ∧
    (¬ (t.dev.state = .ready ∧ t.timing[c].next ≤ t.dev.houseTime) → exec (.outputFrameStart dt c) s = .next t)

/-- Presentation (R164, R166): a READY slot of the frame goes on air and the previous ON_AIR slot is released;
otherwise a job that is outstanding is abandoned (R157, R165) and the ON_AIR slot is shown again, or black; while
HOLDING the countdown decreases, and at 0 the READY slot is released, the job abandoned, the ON_AIR slot released
and the output black. -/
def Obligations.PresentationFollowsTheTable : Prop :=
  (∀ (s a : State) (c : Chan) (hold : Option Nat), a = abandonAtDeadline c s → s.outputs[c].ready = none →
    (s.chans[c].state = .holding ∧ (∃ n, s.outputs[c].hold = some (n + 1) ∧ hold = some n)) ∨
      (s.chans[c].state ≠ .holding ∧ hold = s.outputs[c].hold) →
    (∀ h : Held, a.outputs[c].onAir = some h → present c s = { a with
      outputs := a.outputs.set c { a.outputs[c] with display := .repeat, hold := hold }
      chans := a.chans.set c { a.chans[c] with counters := { a.chans[c].counters with
        repeats := satAdd 65535 a.chans[c].counters.repeats 1 } } }) ∧
    (a.outputs[c].onAir = none → present c s = { a with
      outputs := a.outputs.set c { a.outputs[c] with display := .black, hold := hold } })) ∧
  (∀ (s b a : State) (c : Chan), s.chans[c].state = .holding → s.outputs[c].hold = some 0 →
    (∀ r : Held, s.outputs[c].ready = some r → s.slots[r.slot].state = .ready) →
    b = (match s.outputs[c].ready with
      | some r => release r.slot { s with outputs := s.outputs.set c { s.outputs[c] with ready := none } }
      | none => s) →
    a = abandonAtDeadline c b → (∀ h, a.outputs[c].onAir = some h → a.slots[h.slot].state = .onAir) →
    present c s = { (match a.outputs[c].onAir with | some h => release h.slot a | none => a) with
      outputs := a.outputs.set c { a.outputs[c] with display := .black, onAir := none } }) ∧
  (∀ (s : State) (c : Chan) (v : State), abandonJob c s = (false, v) → abandonAtDeadline c s = v) ∧
  ∀ (s : State) (c : Chan) (o : Output) (hold : Option Nat), o = s.outputs[c] →
    (∀ j ∈ s.queue, j.chan ≠ c) → (∀ (l : LaneNo) (j : Job), s.lanes[l] = some j → j.chan ≠ c) →
    (s.chans[c].state = .holding ∧ (∃ n, o.hold = some (n + 1) ∧ hold = some n) ∨
      s.chans[c].state ≠ .holding ∧ hold = o.hold →
      (∀ r : Held, o.ready = some r → r.frame = s.chans[c].frame → s.slots[r.slot].state = .ready →
        (∀ a, o.onAir = some a → a.slot ≠ r.slot ∧ s.slots[a.slot].state = .onAir) →
        present c s =
          { (match o.onAir with
              | some a => release a.slot (s.modSlot r.slot fun x => { x with state := .onAir })
              | none => s.modSlot r.slot fun x => { x with state := .onAir }) with
            outputs := s.outputs.set c { o with
              onAir := some r, ready := none, display := .live, lateRun := false, hold := hold }
            chans := s.chans.set c { s.chans[c] with counters := { s.chans[c].counters with
              presented := satAdd 65535 s.chans[c].counters.presented 1 } } }) ∧
      (∀ a : Held, o.ready = none → o.onAir = some a →
        present c s = { s with
          outputs := s.outputs.set c { o with display := .repeat, hold := hold }
          chans := s.chans.set c { s.chans[c] with counters := { s.chans[c].counters with
            repeats := satAdd 65535 s.chans[c].counters.repeats 1 } } }) ∧
      (o.ready = none → o.onAir = none →
        present c s = { s with outputs := s.outputs.set c { o with display := .black, hold := hold } })) ∧
    (s.chans[c].state = .holding → o.hold = some 0 → o.ready = none →
      (∀ a, o.onAir = some a → s.slots[a.slot].state = .onAir) →
      present c s = { (match o.onAir with | some a => release a.slot s | none => s) with
        outputs := s.outputs.set c { o with display := .black, onAir := none } })

/-- A job met by its deadline (R157, R165, R173): it leaves the engine, the late counter increases, OUTPUT_LATE
is raised unless the late run is set, the alert lines that serve the channel restart their hold, and an idle lane
starts the next job. -/
def Obligations.LateJobIsAbandonedAndReported : Prop :=
  ∀ (s : State) (c : Chan) (v : State), abandonJob c s = (true, v) →
    ∃ a : State, abandonAtDeadline c s = startLanes a ∧
      a = { v with chans := a.chans, outputs := a.outputs, units := a.units, aux := a.aux } ∧
      a.chans = v.chans.set c { v.chans[c] with counters := { v.chans[c].counters with
        late := satAdd 65535 v.chans[c].counters.late 1 } } ∧
      a.outputs = v.outputs.set c { v.outputs[c] with lateRun := true } ∧
      a.units = (if v.outputs[c].lateRun then v.units
        else ⟨v.units.a.setFlag (.outputLate c), v.units.b.setFlag (.outputLate c)⟩) ∧
      ∀ x : AuxNo, a.aux[x] = (if v.aux[x].mode = .alertOutput ∧ v.aux[x].mask.getLsbD c.val = true
        then { v.aux[x] with expiry := some (v.dev.houseTime + 5400000) } else v.aux[x])

/-- What an abandonment takes back (R157, R159). A RUNNING job leaves its lane, and each entry it captured loses one
user, its pending content being promoted where none is left (R142); a QUEUED job leaves the queue and the others
stay. The destination is released from RENDERING, by its flags (R25), and the pins are dropped in ascending order
of slot: one fewer on a COMPLETE slot; a DETACHED slot whose last pin it was is released (R23). The picture a
RUNNING job was writing is left incomplete: each sample of its area takes a free value, and no other sample
changes (the model's choice, log entry 6). A request to the store that its table does not give is counted
(log entry 25). -/
def Obligations.AbandonmentTakesBackTheJob : Prop :=
  (∀ (s : State) (c : Chan) (l : LaneNo) (j : Job), s.lanes[l] = some j → j.chan = c →
    (∀ (k : LaneNo) (i : Job), k < l → s.lanes[k] = some i → i.chan ≠ c) →
    ∃ a : State, a = { s with lanes := s.lanes.set l none, profiles := a.profiles, dram := a.dram
                              partials := s.partials + 1 } ∧
      abandonJob c s = (true, j.slots.foldl (fun u n => unpin n u)
        (if s.slots[j.dest].state = .rendering then release j.dest a else transitionError a)) ∧
      (∀ e : EntryNo, a.profiles[e] =
        if e = j.resolved.v ∨ e = j.resolved.h ∨ e = j.resolved.m then
          (if s.profiles[e].users ≤ 1 then
            { active := s.profiles[e].pending.or s.profiles[e].active, pending := none, users := 0 }
           else { s.profiles[e] with users := s.profiles[e].users - 1 })
        else s.profiles[e]) ∧
      (∀ (n : SlotNo) (line : Nat) (comp : Component) (x : Nat), line < 1080 → x < compRoom comp →
        readSample a n line comp x =
          if n = j.dest ∧ line < (Config.std j.outStd).activeLines ∧
              x < componentWidth (Config.std j.outStd).width comp
          then Config.freePartial s.partials (sampleAddr n line comp x) else readSample s n line comp x)) ∧
  (∀ (s a : State) (c : Chan) (j : Job) (pre post : List Job),
    (∀ (l : LaneNo) (k : Job), s.lanes[l] = some k → k.chan ≠ c) → s.queue = pre ++ j :: post → j.chan = c →
    (∀ k ∈ pre ++ post, k.chan ≠ c) → a = { s with queue := pre ++ post } →
    abandonJob c s = (true, j.slots.foldl (fun u n => unpin n u)
      (if s.slots[j.dest].state = .rendering then release j.dest a else transitionError a))) ∧
  (∀ (s : State) (c : Chan), (∀ (l : LaneNo) (k : Job), s.lanes[l] = some k → k.chan ≠ c) →
    (∀ k ∈ s.queue, k.chan ≠ c) → abandonJob c s = (false, s)) ∧
  (∀ (s : State) (n : SlotNo) (a : State), a = s.modSlot n (fun x => { x with pins := x.pins - 1 }) →
    (s.slots[n].state = .complete → unpin n s = a) ∧
    (s.slots[n].state = .detached → 1 < s.slots[n].pins → unpin n s = a) ∧
    (s.slots[n].state = .detached → s.slots[n].pins ≤ 1 → unpin n s = release n a) ∧
    (s.slots[n].state ≠ .complete → s.slots[n].state ≠ .detached → unpin n s =
      { s with pool := { s.pool with transitionErrors := satAdd 65535 s.pool.transitionErrors 1 } })) ∧
  ∀ (s v : State) (c : Chan) (j : Job), abandonJob c s = (true, v) →
    ((∃ l : LaneNo, s.lanes[l] = some j) ∨ (j ∈ s.queue ∧ ∀ (l : LaneNo) (k : Job), s.lanes[l] = some k → k.chan ≠ c)) →
    j.chan = c → (∀ (l : LaneNo) (k : Job), s.lanes[l] = some k → k.chan = c → k = j) →
    (∀ (l l' : LaneNo) (k k' : Job), s.lanes[l] = some k → s.lanes[l'] = some k' → k.chan = c → k'.chan = c → l = l') →
    (∀ k ∈ s.queue, k.chan = c → k = j) →
    s.slots[j.dest].state = .rendering → s.slots[j.dest].fault = false → s.slots[j.dest].retirePending = false →
    j.slots.Nodup → (∀ n ∈ j.slots, s.slots[n].state = .complete) →
    v.slots[j.dest] = .cleared .free false ∧ v.free = s.free ++ [j.dest] ∧
    (∀ n ∈ j.slots, v.slots[n] = { s.slots[n] with pins := s.slots[n].pins - 1 }) ∧
    (∀ n : SlotNo, n ≠ j.dest → n ∉ j.slots → v.slots[n] = s.slots[n]) ∧
    v.queue = (if ∃ l : LaneNo, s.lanes[l] = some j then s.queue else s.queue.filter fun k => k.chan ≠ c) ∧
    (∀ l : LaneNo, v.lanes[l] = if s.lanes[l] = some j then none else s.lanes[l])

/-- A dispatch (R107): NO_PICTURE on an empty picture list; NO_SLOT when the store refuses a destination; and
otherwise the job is handed over with the head of the free list as its destination, the frame k + 1, the
next frame start as its deadline, its profile fields resolved by R141, and one pin on each source, and a PRIMING
channel enters RUNNING. The prune of the feed's ring ends each of them. The queue is in order of deadline, then of
channel number (R149). The slot set of the passes is the slots that their pictures read, each once and in ascending
order (R129), so that each source takes one pin (R23). -/
def Obligations.DispatchHasThreeOutcomes : Prop :=
  (∀ (s : State) (c : Chan) (b : Bank) (kind : ListKind) (list : List Picture) (i : StdId)
       (passes : List PassRec) (rec : State), b = bankOf s c → s.rxs[b.feed].detected = some i →
     kind = listKindOf (some i) b.mode s.dets[b.feed].state → list = pictureList s b.feed kind →
     passes = passRecords list b (s.chans[c].listKind.any (· ≠ kind)) (s.chans[c].frame + 1) s.timing[c].next
       (s.chans[c].dlyEff.getD 0) →
     rec = { s with chans := s.chans.set c { s.chans[c] with
       listKind := some kind
       readback := some ⟨kind, passes.map fun r => ⟨r.sel, r.pics.map Picture.stamp, r.q, r.b⟩⟩
       counters := { s.chans[c].counters with
         srcEarly := satAdd 65535 s.chans[c].counters.srcEarly (passes.countP fun r => r.sel = .early)
         srcLate := satAdd 65535 s.chans[c].counters.srcLate (passes.countP fun r => r.sel = .late) } } } →
     (list = [] → dispatch c s = prune b.feed (rec.modChan c fun ch => { ch with outcome := some .noPicture })) ∧
     (list ≠ [] → s.free = [] → dispatch c s = prune b.feed (raise .poolEmpty
       { rec.modChan c (fun ch => { ch with outcome := some .noSlot }) with
         pool := { s.pool with allocFailures := satAdd 65535 s.pool.allocFailures 1 } })) ∧
     (∀ n rest, list ≠ [] → s.free = n :: rest →
       ∃ j : Job, j.chan = c ∧ j.frame = s.chans[c].frame + 1 ∧ j.outStd = b.outStd ∧ j.srcStd = i ∧
         j.deadline = s.timing[c].next ∧ j.passes = passes ∧ j.slots = slotSet passes ∧ j.dest = n ∧
         j.fields = (b.vProf, b.hProf, b.mProf) ∧ j.captured = none ∧
         j.resolved = {
           v := b.vProf.elim 0 fun e => if holdsResample s e then e else 0
           h := b.hProf.elim 1 fun e => if holdsResample s e then e else 1
           m := b.mProf.elim (autoMatrix i b.outStd) fun e => if holdsMatrix s e then e else autoMatrix i b.outStd } ∧
         dispatch c s = prune b.feed (queueJob c j { rec with
           free := rest, slots := s.slots.set n { Slot.cleared .rendering false with
             kind := some .output, owner := some c, std := some b.outStd, seq := some (s.chans[c].frame + 1) } }))) ∧
  (∀ (s a u : State) (c : Chan) (j : Job), j.slots.Nodup → (∀ n ∈ j.slots, s.slots[n].state = .complete) →
    a = { s with
      slots := Vector.ofFn fun n =>
        if n ∈ j.slots then { s.slots[n] with pins := s.slots[n].pins + 1 } else s.slots[n]
      chans := s.chans.set c { s.chans[c] with resolved := some j.resolved }
      queue := insertJob j s.queue } →
    u = (startLanes a).modChan c (fun ch => { ch with outcome := some .job }) →
    queueJob c j s = (if s.chans[c].state = .priming
      then raise (.channelState c) (u.modChan c fun ch => { ch with state := .running }) else u)) ∧
  (∀ (j : Job) (q : List Job) (after : Job → Job → Prop),
    (∀ x y, after x y ↔ y.deadline < x.deadline ∨ (x.deadline = y.deadline ∧ y.chan < x.chan)) →
    q.Pairwise (fun x y => ¬ after x y) →
    (insertJob j q).Pairwise (fun x y => ¬ after x y) ∧ (insertJob j q).Perm (j :: q)) ∧
  (∀ passes : List PassRec,
    (∀ n : SlotNo, n ∈ slotSet passes ↔ ∃ r ∈ passes, ∃ p ∈ r.pics, ∃ x ∈ p.reads, x.slot = n) ∧
    (slotSet passes).Nodup ∧ (slotSet passes).Pairwise (· < ·))

/-- The selection of a pass (R120 to R124, R126) from a list whose stamps strictly increase; the kind of the list
(R114) and the list itself, of the COMPLETE members of the ring or the film frames (R115 to R117); the pass
records of a dispatch, with the target time of each pass (R119, R129). -/
def Obligations.SelectionFollowsTheBracket : Prop :=
  (∀ (i : StdId) (mode : TempMode) (det : DetState), listKindOf (some i) mode det =
    if (Config.std i).interlaced = false then .frames
    else if mode = .filmAware ∧ (det = .locked32 ∨ det = .locked22) then .film else .fields) ∧
  (∀ (s : State) (f : Feed) (members : List SlotNo) (stamp1 stamp2 : SlotNo → Int) (read : FieldRef → Read),
    members = s.rings[f].members.filter (fun n => s.slots[n].state = .complete) →
    (∀ n, stamp1 n = s.slots[n].stamp1.getD 0) → (∀ n, stamp2 n = s.slots[n].stamp2.getD (stamp1 n)) →
    (∀ x, read x = ⟨x.slot, if x.field2 then .field2 else .field1⟩) →
    pictureList s f .frames = members.map (fun n => ⟨stamp1 n, s.slots[n].breakBefore, .frames, [⟨n, .frame⟩]⟩) ∧
    pictureList s f .fields = members.flatMap (fun n =>
      [⟨stamp1 n, s.slots[n].breakBefore, .fields, [⟨n, .field1⟩]⟩, ⟨stamp2 n, false, .fields, [⟨n, .field2⟩]⟩]) ∧
    pictureList s f .film = s.dets[f].films.map (fun x => ⟨x.stamp, x.brk, .film,
      if x.first.field2 then [read x.second, read x.first] else [read x.first, read x.second]⟩)) ∧
  (∀ (l : List Picture) (b : Bank) (modeChange : Bool) (frame : BitVec 32) (start dly : Nat)
      (target : Nat → Int) (dither : Nat → Nat) (record : Nat → Option PassRec),
    (∀ f, target f = (start : Int) + ((f * (Config.pNom b.outStd / 2) : Nat) : Int) - (dly : Int)) →
    (∀ f, dither f = ditherValue b.ditherPeriod b.ditherPhase frame (Config.std b.outStd).interlaced f) →
    (∀ f, record f = (selectPass l (modeChange || b.mode = .nearest) b.ditherPeriod.n (dither f) (target f)).map
      fun x => ⟨f, x.sel, x.q, dither f, target f, x.pics⟩) →
    passRecords l b modeChange frame start dly =
      if (Config.std b.outStd).interlaced then (record 0).toList ++ (record 1).toList else (record 0).toList) ∧
  ∀ (l : List Picture) (forceNearest : Bool) (n b : Nat) (t : Int),
    l.Pairwise (fun x y => x.stamp < y.stamp) →
    (l = [] → selectPass l forceNearest n b t = none) ∧
    (∀ p rest, l = p :: rest → t < p.stamp → selectPass l forceNearest n b t = some ⟨.early, none, [p]⟩) ∧
    (∀ p init, l = init ++ [p] → p.stamp ≤ t → selectPass l forceNearest n b t = some ⟨.late, none, [p]⟩) ∧
    (∀ pre x y post q, l = pre ++ x :: y :: post → x.stamp ≤ t → t < y.stamp →
      q = weight n b (t - x.stamp) (y.stamp - x.stamp) →
      selectPass l forceNearest n b t = some
        (if y.brk = true ∨ forceNearest = true then
          ⟨.nearest, none, if 2 * (t - x.stamp) < y.stamp - x.stamp then [x] else [y]⟩
         else if q = 0 then ⟨.single, some 0, [x]⟩
         else if q = 32 then ⟨.single, some 32, [y]⟩
         else ⟨.blend, some q, [x, y]⟩))

/-- The weight (R128) is the floor that the rule gives, and lies in 0..32; a target on the older stamp gives 0; the
blend of two picture values lies between them (R131). The dither value is the bit reversal of the frame's or
pass's place in the dither period (R127); those of N consecutive frames of a progressive output are the N values
0..N − 1, each once. The arithmetic of a sample: the position of an output line or sample on the source's grid and
on a field's own (R134, R135, R138), the taps about it and their coefficients by the phase (R137), the rounded and
clamped sum, the blend (R131) and the colour matrix (R139). -/
def Obligations.WeightBlendAndDither : Prop :=
  ((∀ (y lIn lOut : Nat) (pos : Int) (parity : Nat),
     pos64 y lIn lOut = ((64 * (2 * y + 1) * lIn : Nat) : Int) / ((2 * lOut : Nat) : Int) - 32 ∧
     fieldPos pos parity = (pos - 64 * (parity : Int)) / 2) ∧
   (∀ (n phases last : Nat) (coeffs cs : List Int) (pos : Int) (sample : Nat → Option Int),
     cs = (coeffs.drop ((pos % 64).toNat * phases / 64 * n)).take n →
     resampleAt ⟨.resample n phases, coeffs⟩ pos last sample = tapValue cs ((List.range cs.length).map fun k =>
       sample (clampInt (pos / 64 - ((cs.length / 2 : Nat) : Int) + 1 + (k : Int)) 0 (last : Int)).toNat)) ∧
   (∀ cs vs : List Int, cs.length = vs.length → tapValue cs (vs.map some) =
     some (clampInt (((List.zipWith (· * ·) cs vs).sum + 128) / 256) 4 1019)) ∧
   (∀ (q : Nat) (a c : Int), blendValue q a c = ((32 - (q : Int)) * a + (q : Int) * c + 16) / 32) ∧
   (∀ (m : Content) (r : Nat) (k : Nat → Int) (y cb cr : Int), (∀ i, k i = m.coeffs.getD (3 * r + i) 0) →
     matrixRow m r y cb cr = clampInt ((k 0 * (y - 64) + k 1 * (cb - 512) + k 2 * (cr - 512) + 512) / 1024 +
       (if r = 0 then 64 else 512)) 4 1019)) ∧
  (∀ (d : DitherPeriod) (phase : Fin 4) (frame : BitVec 32) (interlaced : Bool) (pass bits place : Nat),
     bits = (match d with | .off => 0 | .d4 => 2 | .d8 => 3 | .d16 => 4 | .d32 => 5) →
     place = ((if interlaced then 2 * frame.toNat + pass else frame.toNat) + phase.val * 2 ^ bits / 4) % 2 ^ bits →
     d.n = 2 ^ bits ∧ ditherValue d phase frame interlaced pass < 2 ^ bits ∧
     ∀ k, k < bits → (ditherValue d phase frame interlaced pass).testBit k = place.testBit (bits - 1 - k)) ∧
  ((∀ (n b : Nat) (off delta : Int), 0 ≤ off → off < delta → b < n →
     (weight n b off delta : Int) = (64 * n * off + (2 * b + 1) * delta) / (2 * n * delta) ∧
     weight n b off delta ≤ 32 ∧ (off = 0 → weight n b off delta = 0)) ∧
   (∀ (q : Nat) (a c : Int), q ≤ 32 → a ≤ c → a ≤ blendValue q a c ∧ blendValue q a c ≤ c) ∧
   (∀ (q : Nat) (a c : Int), q ≤ 32 → c ≤ a → c ≤ blendValue q a c ∧ blendValue q a c ≤ a)) ∧
  (∀ (d : DitherPeriod) (phase : Fin 4) (k : BitVec 32) (v : Nat), k.toNat + d.n < 2 ^ 32 → v < d.n →
     ∃ i, i < d.n ∧ ditherValue d phase (k + BitVec.ofNat 32 i) false 0 = v ∧
       ∀ i', i' < d.n → ditherValue d phase (k + BitVec.ofNat 32 i') false 0 = v → i' = i)

/-! ## Render engine -/

/-- An idle lane starts the head of the queue (R150 to R152): it captures the active content of each resolved entry,
or of the AUTO entry where the resolved one no longer fits its stage (R142, R151), each distinct entry counting
the job once; it completes after 8,100 ticks and the work of its passes. Nothing else changes but the channel's
resolved entries (R110). A lane that is not idle, or an empty queue, starts nothing; where both lanes may start a job,
lane 0 takes the head and lane 1 the next (R150). -/
def Obligations.JobStartSetsItsCompletion : Prop :=
  (∀ s : State, startLanes s = startLane 1 (startLane 0 s)) ∧
  (∀ (s : State) (l : LaneNo), s.lanes[l] ≠ none ∨ s.queue = [] → startLane l s = s) ∧
  (∀ (s : State) (l : LaneNo) (j : Job) (rest : List Job), s.lanes[l] = none → s.queue = j :: rest →
    ∃ j' : Job, (startLane l s).lanes = s.lanes.set l (some j') ∧ (startLane l s).queue = rest ∧
      j'.start = some s.dev.houseTime ∧
      j'.completion = some (s.dev.houseTime + 8100 + (j.passes.map fun p =>
        (if (Config.std j.outStd).interlaced then (Config.std j.outStd).activeLines / 2
          else (Config.std j.outStd).activeLines) *
        (if (Config.std j.outStd).width = 1920 then 36 else if (Config.std j.outStd).width = 1280 then 24 else 14) *
        p.pics.length).sum) ∧
      j'.chan = j.chan ∧ j'.frame = j.frame ∧ j'.deadline = j.deadline ∧ j'.passes = j.passes ∧
      j'.slots = j.slots ∧ j'.dest = j.dest ∧ j'.captured.isSome = true ∧
      j'.resolved = {
        v := if holdsResample s j.resolved.v then j.resolved.v else 0
        h := if holdsResample s j.resolved.h then j.resolved.h else 1
        m := if holdsMatrix s j.resolved.m then j.resolved.m else autoMatrix j.srcStd j.outStd } ∧
      (∀ v h m : Content, s.profiles[j'.resolved.v].active = some v → s.profiles[j'.resolved.h].active = some h →
        s.profiles[j'.resolved.m].active = some m → j'.captured = some ⟨v, h, m⟩) ∧
      j' = { j with
        resolved := j'.resolved, captured := j'.captured, start := j'.start, completion := j'.completion } ∧
      (startLane l s).chans = s.chans.set j.chan { s.chans[j.chan] with resolved := some j'.resolved } ∧
      startLane l s = { s with
        queue := rest, lanes := (startLane l s).lanes, profiles := (startLane l s).profiles
        chans := (startLane l s).chans } ∧
      (∀ e : EntryNo, (startLane l s).profiles[e] =
        if e = j'.resolved.v ∨ e = j'.resolved.h ∨ e = j'.resolved.m
        then { s.profiles[e] with users := s.profiles[e].users + 1 } else s.profiles[e]) ∧
      (startLane l s).slots = s.slots ∧ (startLane l s).outputs = s.outputs ∧ (startLane l s).free = s.free)

/-- JOB_COMPLETION (R156): the destination becomes READY and the output's READY slot, the pins and uses are
dropped, the lane is idle and starts the head of the queue. Its picture stands in the destination's picture area,
every pass on the lines of its parity, and no other sample changes (R16, R133, R153): each sample is the matrixed
(R139), blended (R131), horizontally and vertically resampled (R138, R134 to R137) value of the source samples, a
failed sample being taken from the other picture of the pair, and an output sample that a failed one reaches from
the ON_AIR picture or black (R154, R155). That the picture is formed at the completion is log entry 7, and that a
tap of coefficient 0 does not reach its sample log entry 29. Not due, the command changes nothing (log entry 3). -/
def Obligations.JobCompletionFillsTheReadySlot : Prop :=
  ((∀ (s : State) (j : Job) (p : PassRec) (k l : Nat) (c : Component) (x : Nat) (own : Nat → Option Int),
     (∀ i, own i = match p.pics[i]? with
       | some q =>
         if ⟨p.pass, i, ⟨l, c, x / 8⟩⟩ ∈ j.failed then none
         else some ((readSample s (q.place l).1 (q.place l).2 c x).toNat : Int)
       | none => none) →
     sourceSample s j p k l c x = (own k).or (own (1 - k))) ∧
   (∀ (q : Picture) (a b : Read) (l : Nat),
     (q.kind = .frames → q.reads = [a] → q.place l = (a.slot, l)) ∧
     (q.kind = .fields → q.reads = [a] → q.place l = (a.slot, 2 * l + (if a.role = .field2 then 1 else 0))) ∧
     (q.kind = .film → q.reads = [a, b] → q.place l = if l % 2 = 0 then (a.slot, l) else (b.slot, l))) ∧
   (∀ (s : State) (j : Job) (v : Content) (p : PassRec) (k y : Nat) (c : Component) (x : Nat) (q : Picture)
       (lIn : Nat) (pos : Int), p.pics[k]? = some q → lIn = (Config.std j.srcStd).activeLines →
     pos = pos64 y lIn (Config.std j.outStd).activeLines →
     (∀ a, q.kind = .fields → q.reads = [a] → verticalValue s j v p k y c x =
       resampleAt v (fieldPos pos (if a.role = .field2 then 1 else 0)) (lIn / 2 - 1)
         fun l => sourceSample s j p k l c x) ∧
     (q.kind ≠ .fields → verticalValue s j v p k y c x =
       resampleAt v pos (lIn - 1) fun l => sourceSample s j p k l c x)) ∧
   (∀ (s : State) (j : Job) (cap : Captured) (p : PassRec) (k y : Nat) (c : Component) (x : Nat) (width : StdId → Nat),
     (∀ i, width i = match c with | .y => (Config.std i).width | .cb | .cr => (Config.std i).width / 2) →
     resampled s j cap p k y c x = resampleAt cap.h (pos64 x (width j.srcStd) (width j.outStd)) (width j.srcStd - 1)
       fun i => verticalValue s j cap.v p k y c i) ∧
   (∀ (s : State) (j : Job) (cap : Captured) (p : PassRec) (y : Nat) (c : Component) (x : Nat),
     (p.pics.length ≠ 2 → blended s j cap p y c x = resampled s j cap p 0 y c x) ∧
     (p.pics.length = 2 → (∀ a b : Int, resampled s j cap p 0 y c x = some a → resampled s j cap p 1 y c x = some b →
       blended s j cap p y c x = some (clampInt (blendValue (p.q.getD 0) a b) 4 1019)) ∧
       (resampled s j cap p 0 y c x = none ∨ resampled s j cap p 1 y c x = none →
         blended s j cap p y c x = none))) ∧
   (∀ (s : State) (j : Job) (cap : Captured) (p : PassRec) (y : Nat) (c : Component) (x : Nat)
       (yv cb cr : Option Int),
     yv = blended s j cap p y .y (if c = .y then x else 2 * x) →
     cb = blended s j cap p y .cb (if c = .y then x / 2 else x) →
     cr = blended s j cap p y .cr (if c = .y then x / 2 else x) →
     (∀ a b d : Int, yv = some a → cb = some b → cr = some d → outputSample s j cap p y c x =
       BitVec.ofInt 10 (matrixRow cap.m (match c with | .y => 0 | .cb => 1 | .cr => 2) a b d)) ∧
     (yv = none ∨ cb = none ∨ cr = none → outputSample s j cap p y c x =
       match s.outputs[j.chan].onAir with
       | some a =>
         if ⟨y, c, x / 8⟩ ∈ j.onAirFailed then (if c = .y then 64#10 else 512#10) else readSample s a.slot y c x
       | none => if c = .y then 64#10 else 512#10)) ∧
   (∀ (cs : List Int) (vs : List (Option Int)), cs.length = vs.length →
     (tapValue cs vs = none ↔ ∃ (i : Nat) (k : Int), cs[i]? = some k ∧ k ≠ 0 ∧ vs[i]? = some none))) ∧
  ∀ (s t : State) (dt : Nat) (l : LaneNo), t = s.elapse dt →
    (∀ (j : Job) (at_ : Nat), t.dev.state = .ready → t.lanes[l] = some j → j.completion = some at_ →
      at_ ≤ t.dev.houseTime → t.slots[j.dest].state = .rendering → j.dest ∉ j.slots → j.slots.Nodup →
      (∀ n ∈ j.slots, t.slots[n].state = .complete) →
      ∃ a : State, exec (.jobCompletion dt l) s = .next (startLanes a) ∧
        a = { t with slots := a.slots, outputs := a.outputs, profiles := a.profiles, lanes := a.lanes,
                     dram := a.dram } ∧
        a.lanes = t.lanes.set l none ∧
        a.outputs = t.outputs.set j.chan { t.outputs[j.chan] with ready := some ⟨j.dest, j.frame⟩ } ∧
        a.slots[j.dest] = { t.slots[j.dest] with state := .ready } ∧
        (∀ n ∈ j.slots, a.slots[n] = { t.slots[n] with pins := t.slots[n].pins - 1 }) ∧
        (∀ n : SlotNo, n ≠ j.dest → n ∉ j.slots → a.slots[n] = t.slots[n]) ∧
        (∀ (n : SlotNo) (line : Nat) (comp : Component) (x : Nat), n ≠ j.dest → line < 1080 → x < compRoom comp →
          readSample a n line comp x = readSample t n line comp x) ∧
        (∀ (cap : Captured) (lines width : Nat) (line : Nat) (comp : Component) (x : Nat), j.captured = some cap →
          j.passes.map PassRec.pass = (if (Config.std j.outStd).interlaced then [0, 1] else [0]) →
          lines = (Config.std j.outStd).activeLines →
          width = (match comp with | .y => (Config.std j.outStd).width | .cb | .cr => (Config.std j.outStd).width / 2) →
          line < 1080 → x < compRoom comp →
          (lines ≤ line ∨ width ≤ x → readSample a j.dest line comp x = readSample t j.dest line comp x) ∧
          (∀ p ∈ j.passes, line < lines → x < width → (Config.std j.outStd).interlaced = false ∨ line % 2 = p.pass →
            readSample a j.dest line comp x = outputSample t j cap p line comp x)) ∧
        (∀ e : EntryNo, e ≠ j.resolved.v → e ≠ j.resolved.h → e ≠ j.resolved.m → a.profiles[e] = t.profiles[e]) ∧
        (∀ e : EntryNo, e = j.resolved.v ∨ e = j.resolved.h ∨ e = j.resolved.m →
          a.profiles[e].users = t.profiles[e].users - 1 ∧
          (t.profiles[e].users ≤ 1 → a.profiles[e].pending = none ∧
            a.profiles[e].active = t.profiles[e].pending.or t.profiles[e].active) ∧
          (1 < t.profiles[e].users → a.profiles[e].pending = t.profiles[e].pending ∧
            a.profiles[e].active = t.profiles[e].active))) ∧
    ((¬ ∃ (j : Job) (at_ : Nat), t.dev.state = .ready ∧ t.lanes[l] = some j ∧ j.completion = some at_ ∧
        at_ ≤ t.dev.houseTime) → exec (.jobCompletion dt l) s = .next t)

/-- Read errors (R26 to R29): a correctable one is counted; an uncorrectable one of a lane's source or of an
emitted picture sets the slot's fault flag, is counted, fills the fault record and raises SLOT_FAULT, and its
code word is marked for the reader. A reader that reads nothing meets no error (log entry 3). What OUTc emits (R163,
R28): nothing while it is not emitting; else, within the active lines and width of the standard it emits in, the ON_AIR
picture, its even lines in field 1 and its odd ones in field 2 of an interlaced frame, with a marked code word at
black level; and black throughout in BLACK. That the frame in progress is kept as a standard and its failed code
words, and goes black in mid-frame, is log entry 26. Chroma has half the luma width, and a field half the lines (R16). -/
def Obligations.ReadErrorsAreRecorded : Prop :=
  ((∀ w : Nat, componentWidth w .y = w ∧ componentWidth w .cb = w / 2 ∧ componentWidth w .cr = w / 2) ∧
    ∀ (q : Picture) (lines : Nat), q.lineCount lines = if q.kind = .fields then lines / 2 else lines) ∧
  (∀ (s : State) (c : Chan) (o : Output) (field2 : Bool) (line x : Nat) (comp : Component), o = s.outputs[c] →
    (o.emitStd = none → emittedSample s c field2 line comp x = none) ∧
    (∀ (std : StdId) (y : Nat) (black : Sample), o.emitStd = some std →
      y = (if (Config.std std).interlaced then (if field2 then 2 * line + 1 else 2 * line) else line) →
      black = (if comp = .y then 64#10 else 512#10) →
      ((Config.std std).interlaced = false ∧ field2 = true ∨ (Config.std std).activeLines ≤ y ∨
          componentWidth (Config.std std).width comp ≤ x →
        emittedSample s c field2 line comp x = none) ∧
      ((Config.std std).interlaced = true ∨ field2 = false → y < (Config.std std).activeLines →
          x < componentWidth (Config.std std).width comp →
        emittedSample s c field2 line comp x = some (match o.onAir with
          | some a => if o.display = .black ∨ ⟨y, comp, x / 8⟩ ∈ o.emitFailed then black
              else readSample s a.slot y comp x
          | none => black)))) ∧
  (∀ (s t : State) (dt : Nat), t = s.elapse dt →
    (∀ (r : Reader), (match r with
        | .lane l => (t.lanes[l]).isSome = true
        | .output c => t.outputs[c].emitStd ≠ none ∧ t.outputs[c].display ≠ .black ∧ t.outputs[c].onAir ≠ none) →
      exec (.correctableRead dt r) s = .next { t with pool := { t.pool with
        correctable := satAdd 65535 t.pool.correctable 1 } }) ∧
    (∀ (l : LaneNo) (pass pic : Fin 2) (w : CodeWord) (j : Job) (pr : PassRec) (p : Picture),
      t.lanes[l] = some j → j.passes.find? (fun x => x.pass = pass.val) = some pr → pr.pics[pic.val]? = some p →
      w.line < p.lineCount (Config.std j.srcStd).activeLines →
      w.word * 8 < componentWidth (Config.std j.srcStd).width w.comp →
      exec (.uncorrectableRead dt l (.source pass pic w)) s =
        .next (raise .slotFault { t with
          slots := t.slots.set (p.place w.line).1 { t.slots[(p.place w.line).1] with fault := true }
          lanes := t.lanes.set l (some { j with failed := j.failed ++ [⟨pass.val, pic.val, w⟩] })
          pool := { t.pool with
            uncorrectable := satAdd 65535 t.pool.uncorrectable 1
            faultRec := ⟨.uncorrectable, some (p.place w.line).1, some (.lane l), some t.dev.houseTime⟩ } })) ∧
    (∀ (c : Chan) (w : CodeWord) (std : StdId) (a : Held),
      t.outputs[c].emitStd = some std → t.outputs[c].display ≠ .black → t.outputs[c].onAir = some a →
      w.line < (Config.std std).activeLines → w.word * 8 < componentWidth (Config.std std).width w.comp →
      exec (.outputReadFault dt c w) s =
        .next (raise .slotFault { t with
          slots := t.slots.set a.slot { t.slots[a.slot] with fault := true }
          outputs := t.outputs.set c { t.outputs[c] with emitFailed := t.outputs[c].emitFailed ++ [w] }
          pool := { t.pool with
            uncorrectable := satAdd 65535 t.pool.uncorrectable 1
            faultRec := ⟨.uncorrectable, some a.slot, some (.output c), some t.dev.houseTime⟩ } })) ∧
    (∀ (l : LaneNo) (w : CodeWord) (j : Job) (a : Held), t.lanes[l] = some j → j.failed ≠ [] →
      t.outputs[j.chan].onAir = some a → w.line < (Config.std j.outStd).activeLines →
      w.word * 8 < componentWidth (Config.std j.outStd).width w.comp →
      exec (.uncorrectableRead dt l (.onAir w)) s =
        .next (raise .slotFault { t with
          slots := t.slots.set a.slot { t.slots[a.slot] with fault := true }
          lanes := t.lanes.set l (some { j with onAirFailed := j.onAirFailed ++ [w] })
          pool := { t.pool with
            uncorrectable := satAdd 65535 t.pool.uncorrectable 1
            faultRec := ⟨.uncorrectable, some a.slot, some (.lane l), some t.dev.houseTime⟩ } })) ∧
    (∀ (l : LaneNo) (r : LaneRead), t.lanes[l] = none →
      exec (.correctableRead dt (.lane l)) s = .next t ∧ exec (.uncorrectableRead dt l r) s = .next t) ∧
    (∀ (c : Chan) (w : CodeWord), t.outputs[c].emitStd = none ∨ t.outputs[c].display = .black ∨ t.outputs[c].onAir = none →
      exec (.correctableRead dt (.output c)) s = .next t ∧ exec (.outputReadFault dt c w) s = .next t))

/-! ## Frame store -/

/-- Release (R25): by the flags of a slot in use and the size of the retired set. -/
def Obligations.ReleaseGoesByTheFlags : Prop :=
  ∀ (s : State) (n : SlotNo) (x : Slot), x = s.slots[n] → x.state.inUse = true →
    (x.retirePending = false → x.fault = false →
      release n s = { s with slots := s.slots.set n (.cleared .free false), free := s.free ++ [n] }) ∧
    ((x.retirePending = true ∨ x.fault = true) → retiredCount s < 16 →
      release n s = { s with slots := s.slots.set n (.cleared .retired x.fault) }) ∧
    ((x.retirePending = true ∨ x.fault = true) → retiredCount s = 16 →
      release n s = raise .slotFault { s with
        slots := s.slots.set n (.cleared .free false), free := s.free ++ [n]
        pool := { s.pool with faultRec := ⟨.retireLimit, some n, none, some s.dev.houseTime⟩ } })

/-- RETIRE_SLOT (R31) and RESTORE_SLOT (R32), by the slot's state. -/
def Obligations.RetireAndRestoreSlots : Prop :=
  (∀ (s t : State) (dt : Nat) (p : Port) (tag : Byte) (w k : Word), t = s.elapse dt → Taken t p →
     (95 < w.toNat ∨ k.toNat ≠ 255 - w.toNat →
       exec (.retireSlot dt p tag [w, k]) s = .next (t.answered p .invalid tag [] 2)) ∧
     (∀ (n : SlotNo) (x : Slot), n.val = w.toNat → k.toNat = 255 - w.toNat → x = t.slots[n] →
       (x.state = .retired ∨ (x.state ≠ .free ∧ x.retirePending = true) →
         exec (.retireSlot dt p tag [w, k]) s = .next (t.answered p .already tag [] 2)) ∧
       (x.state ≠ .retired → ¬ (x.state ≠ .free ∧ x.retirePending = true) → 16 ≤ retiredCount t →
         exec (.retireSlot dt p tag [w, k]) s = .next (t.answered p .refused tag [4#16] 2)) ∧
       (x.state = .free → retiredCount t < 16 →
         exec (.retireSlot dt p tag [w, k]) s = .next ((announce p ⟨0x42#8, some n.val, none⟩ { t with
           slots := t.slots.set n (.cleared .retired x.fault)
           free := t.free.filter (· ≠ n) }).replied t p .ok tag [0#16, 7#16] 2)) ∧
       (x.state ≠ .free → x.state ≠ .retired → x.retirePending = false → retiredCount t < 16 →
         exec (.retireSlot dt p tag [w, k]) s = .next ((announce p ⟨0x42#8, some n.val, none⟩
           (t.modSlot n fun x => { x with retirePending := true })).replied t p .ok tag
             [1#16, BitVec.ofNat 16 x.state.code] 2)))) ∧
  (∀ (s t : State) (dt : Nat) (p : Port) (tag : Byte) (w k : Word), t = s.elapse dt → Taken t p →
     (95 < w.toNat ∨ k.toNat ≠ 255 - w.toNat →
       exec (.restoreSlot dt p tag [w, k]) s = .next (t.answered p .invalid tag [] 2)) ∧
     (∀ (n : SlotNo) (x : Slot), n.val = w.toNat → k.toNat = 255 - w.toNat → x = t.slots[n] →
       (x.state = .retired →
         exec (.restoreSlot dt p tag [w, k]) s = .next ((announce p ⟨0x43#8, some n.val, none⟩ { t with
           slots := t.slots.set n (.cleared .free false)
           free := t.free ++ [n] }).replied t p .ok tag [2#16] 2)) ∧
       (x.state ≠ .retired → x.state ≠ .free → (x.retirePending = true ∨ x.fault = true) →
         exec (.restoreSlot dt p tag [w, k]) s = .next ((announce p ⟨0x43#8, some n.val, none⟩
           (t.modSlot n fun x => { x with retirePending := false, fault := false })).replied t p .ok tag
             [3#16] 2)) ∧
       (x.state = .free ∨ (x.state ≠ .retired ∧ x.retirePending = false ∧ x.fault = false) →
         exec (.restoreSlot dt p tag [w, k]) s = .next (t.answered p .notRetired tag [] 2))))

/-! ## Feed receivers -/

/-- Lines where the receiver is not locked (R37 to R40, R51, R52, R58): in STARTING nothing follows them; a line
that is not valid only restarts the loss timer by its valid codes (log entry 8), and makes the measured frame that
holds it, or the flywheel's frame, irregular, counting among its total lines (log entry 10); a valid line moves
NO_SIGNAL to ACQUIRING; in ACQUIRING it joins the measured frame, or, at a frame start, closes it, judges the run,
and begins the next one. When a frame that holds an error is counted is log entry 11; that a layout identical to the
run's has its width too is log entry 32. What a line in error counts, and what every frame start does, are R51 and
R52. -/
def Obligations.LinesOutOfLock : Prop :=
  (∀ (r : Receiver) (l : FeedLineData) (now : Nat),
    r.countError = { r with
      linkErrors := satAdd (2 ^ 32 - 1) r.linkErrors 1, lineErrors := satAdd 1125 r.lineErrors 1
      frameErrored := true } ∧
    r.countLine l = (if l.crcError then r.countError else r) ∧
    r.atFrameStart now l = { r with
      lastRaw := some now, lineErrors := 0, margin := l.margin.val, lowestMargin := min r.lowestMargin l.margin.val
      sig1 := none, sig2 := none, frameErrored := false
      erroredFrames := if r.frameErrored then satAdd 65535 r.erroredFrames 1 else r.erroredFrames }) ∧
  (∀ (s t : State) (dt : Nat) (f : Feed) (l : FeedLineData) (r : Receiver), t = s.elapse dt → r = t.rxs[f] →
    (t.dev.state = .starting → exec (.feedLine dt f l) s = .next t) ∧
    (t.dev.state = .ready → (∀ c, ¬ (l.startCode = some c ∧ l.endCode = some c)) →
      exec (.feedLine dt f l) s = .next (t.modRx f fun r => { r with
        measure := r.measure.map fun m => { m with unread := m.unread + 1, irregular := true }
        missed := r.missed || decide (r.state = .locked ∨ r.state = .unknown)
        lossFrom := if r.state = .noSignal then none
          else if l.endCode.isSome then some (t.dev.houseTime + l.span)
          else if l.startCode.isSome then some t.dev.houseTime else r.lossFrom })) ∧
    (∀ c : LineCode, t.dev.state = .ready → l.startCode = some c → l.endCode = some c →
      (r.state = .noSignal →
        exec (.feedLine dt f l) s = .next ((reportToChannels f
          ((t.modRx f fun r => { r with state := .acquiring }).modDet f fun d => { d with openFilm := none })).modRx f
            fun r => { r with prevActive := !c.blank, lossFrom := some (t.dev.houseTime + l.span) })) ∧
      (r.state = .acquiring → ¬ (c.blank = true ∧ c.field2 = false ∧ r.prevActive = true) →
        exec (.feedLine dt f l) s = .next (t.modRx f fun _ => { (if l.crcError then r.countError else r) with
          measure := r.measure.map fun m => { m with
            lines := m.lines ++ [c]
            width := if c.blank then m.width else m.width.or (some l.luma.length)
            irregular := m.irregular || (!c.blank && m.width.any (· ≠ l.luma.length)) }
          prevActive := !c.blank
          lossFrom := some (t.dev.houseTime + l.span) })) ∧
      (∀ (q : Receiver) (p : Nat), r.state = .acquiring → c.blank = true → c.field2 = false → r.prevActive = true →
        p = t.dev.houseTime - (r.measure.map Measure.start).getD 0 →
        q = { r with
          run := match r.measure with
            | none => r.run
            | some m =>
              if m.irregular then .empty
              else if r.run.layout = some ⟨m.lines, m.width.getD 0⟩ ∧ absDiff p r.run.pRun * 1000000 ≤ 200 * r.run.pRun
              then { r.run with count := r.run.count + 1, periods := r.run.periods ++ [p] }
              else { layout := some ⟨m.lines, m.width.getD 0⟩, pRun := p, count := 1, periods := [p] }
          pRef := if r.measure.isSome then some p else r.pRef
          lastClosed := match r.measure with
            | none => r.lastClosed
            | some m => some {
              total := m.lines.length + m.unread, active := m.lines.countP fun x => !x.blank
              width := if m.irregular then none else some (m.width.getD 0)
              interlaced := m.lines.any LineCode.field2 }
          measure := some { start := t.dev.houseTime, lines := [c], unread := 0, width := none, irregular := false }
          lastRaw := some t.dev.houseTime, sig1 := none, sig2 := none
          margin := l.margin.val, lowestMargin := min r.lowestMargin l.margin.val
          erroredFrames := if r.frameErrored then satAdd 65535 r.erroredFrames 1 else r.erroredFrames
          lineErrors := if l.crcError then 1 else 0
          linkErrors := if l.crcError then satAdd (2 ^ 32 - 1) r.linkErrors 1 else r.linkErrors
          frameErrored := l.crcError } →
        exec (.feedLine dt f l) s = .next ((if q.run.count = 3 then identifyRun f t.dev.houseTime (t.modRx f fun _ => q)
          else t.modRx f fun _ => q).modRx f
            fun r => { r with prevActive := false, lossFrom := some (t.dev.houseTime + l.span) }))))

/-- A run of three (R41, R45, R46, R47): a catalogue entry of its structure and periods locks the receiver to it,
with STANDARD_CHANGE where the last lock was to another, the report, and the first capture; no such entry makes
the receiver UNKNOWN. The catalogue is that of 00_scope and R41; a structure and periods that match no entry of it
are identified as none. -/
def Obligations.RunOfThreeIsIdentified : Prop :=
  ((List.finRange 12).map Config.std = [
      ⟨625, 576, 720, true, 1080000, false⟩, ⟨525, 486, 720, true, 900900, false⟩,
      ⟨1125, 1080, 1920, true, 1080000, true⟩, ⟨1125, 1080, 1920, true, 900900, true⟩,
      ⟨1125, 1080, 1920, false, 1080000, true⟩, ⟨1125, 1080, 1920, false, 900900, true⟩,
      ⟨1125, 1080, 1920, false, 540000, true⟩, ⟨1125, 1080, 1920, false, 450450, true⟩,
      ⟨750, 720, 1280, false, 540000, true⟩, ⟨750, 720, 1280, false, 450450, true⟩,
      ⟨1125, 1080, 1920, false, 1126125, true⟩, ⟨1125, 1080, 1920, false, 1125000, true⟩] ∧
    (∀ i : StdId, Config.pNom i = (Config.std i).period) ∧
    (∀ (l : Layout) (regular : Bool), l.structure_ regular = {
      total := l.lines.length, active := l.lines.countP fun c => !c.blank
      width := if regular then some l.width else none, interlaced := l.lines.any LineCode.field2 }) ∧
    (∀ (x : Structure) (periods : List Nat), identify x periods = none ↔ ∀ i : StdId,
      ¬ (x.total = (Config.std i).totalLines ∧ x.active = (Config.std i).activeLines ∧
        x.width = some (Config.std i).width ∧ x.interlaced = (Config.std i).interlaced ∧
        ∀ p ∈ periods, absDiff p (Config.pNom i) * 1000000 ≤ 200 * Config.pNom i))) ∧
  (∀ (s : State) (f : Feed) (now : Nat) (r : Receiver) (lay : Layout) (ok : StdId → Prop), r = s.rxs[f] →
    r.run.layout = some lay → r.state = .acquiring →
    (∀ i : StdId, ok i ↔ lay.lines.length = (Config.std i).totalLines ∧
      lay.lines.countP (fun c => !c.blank) = (Config.std i).activeLines ∧ lay.width = (Config.std i).width ∧
      lay.lines.any LineCode.field2 = (Config.std i).interlaced ∧
      ∀ p ∈ r.run.periods, absDiff p (Config.pNom i) * 1000000 ≤ 200 * Config.pNom i) →
    (∀ (i : StdId) (u : State), ok i → (∀ j, ok j → j = i) →
      u = condition (.feedLock f) false true
        (if r.lastLocked.any (· ≠ i)
          then raise (.standardChange f) (s.modRx f fun r => { r with
            detected := some i, layout := some lay, lastLocked := some i, state := .locked
            nextPos := 1, posReceived := true, missed := false, measure := none })
          else s.modRx f fun r => { r with
            detected := some i, layout := some lay, lastLocked := some i, state := .locked
            nextPos := 1, posReceived := true, missed := false, measure := none }) →
      identifyRun f now s = openCapture f now (reportToChannels f (detectorRestart f (relock f u)))) ∧
    ((∀ i, ¬ ok i) →
      identifyRun f now s = reportToChannels f ((s.modRx f fun r => { r with
        layout := some lay, state := .unknown
        nextPos := 1, posReceived := true, missed := false, measure := none }).modDet f
          fun d => { d with openFilm := none }))) ∧
  ∀ (s : State) (f : Feed) (now : Nat) (i : StdId) (a : CapSlot × State), s.rxs[f].detected = some i →
    a = admitCapture f i s.rxs[f].seq now s →
    openCapture f now s = a.2.modRx f fun r => { r with seq := s.rxs[f].seq + 1, capture := a.1 }

/-- Lines in LOCKED and UNKNOWN before the frame start (R42, R48, R51): a line in the window of the next position
with the layout's indicators and width is received and, where active, written; one with others, or one in no
window, is a structural change. A mid-frame line that makes the change is counted after it; one that is a frame
start (R39) closes the frame and is taken as the first frame start in ACQUIRING. The model's choices in it: the loss
timer runs from the line's last code (log entry 8); which line is the line before (log entry 10); the CRC error of
the line that makes the change is counted after it (log entry 11). A line repeated in the window of the position
before is log entry 9 and is left out here. -/
def Obligations.LinesOnTheFlywheel : Prop :=
  (∀ (s : State) (f : Feed) (now : Nat) (c : LineCode) (l : FeedLineData) (r : Receiver) (a : Nat) (lay : Layout),
    r = s.rxs[f] → r.lastRaw = some a → r.layout = some lay →
    (¬ (c.blank = true ∧ c.field2 = false ∧ r.prevActive = true) →
      changeLine f now c l s = (structuralChangeRx f s).modRx f fun r => if l.crcError then r.countError else r) ∧
    (c.blank = true → c.field2 = false → r.prevActive = true →
      changeLine f now c l s = (structuralChangeRx f (s.modRx f fun r => { r with
        pRef := some (now - a)
        lastClosed := some {
          total := min r.nextPos lay.lines.length
          active := (lay.lines.take r.nextPos).countP fun x => !x.blank
          width := if r.missed then none else some lay.width
          interlaced := (lay.lines.take r.nextPos).any LineCode.field2 } })).modRx f fun r => { r with
            lastRaw := some now, sig1 := none, sig2 := none
            margin := l.margin.val, lowestMargin := min r.lowestMargin l.margin.val
            erroredFrames := if r.frameErrored then satAdd 65535 r.erroredFrames 1 else r.erroredFrames
            lineErrors := if l.crcError then 1 else 0
            linkErrors := if l.crcError then satAdd (2 ^ 32 - 1) r.linkErrors 1 else r.linkErrors
            frameErrored := l.crcError
            measure := some { start := now, lines := [c], unread := 0, width := none, irregular := false } })) ∧
  ∀ (s t : State) (dt : Nat) (f : Feed) (l : FeedLineData) (r : Receiver) (c : LineCode) (a p : Nat) (lay : Layout),
    t = s.elapse dt → r = t.rxs[f] → t.dev.state = .ready → r.state = .locked ∨ r.state = .unknown →
    l.startCode = some c → l.endCode = some c →
    r.lastRaw = some a → r.pRef = some p → r.layout = some lay →
    (∀ u : State, r.nextPos < lay.lines.length →
      absDiff t.dev.houseTime (a + r.nextPos * p / lay.lines.length) ≤ 54 →
      lay.lines[r.nextPos]? = some c → c.blank = true ∨ l.luma.length = lay.width →
      u = t.modRx f (fun r => { (if l.crcError then r.countError else r) with
        nextPos := r.nextPos + 1, posReceived := true }) →
      exec (.feedLine dt f l) s = .next ((if c.blank then u
        else activeLine f r.nextPos (l.luma.map clampSample) (l.cb.map clampSample) (l.cr.map clampSample) u).modRx f
          fun r => { r with prevActive := !c.blank, lossFrom := some (t.dev.houseTime + l.span) })) ∧
    ((absDiff t.dev.houseTime (a + r.nextPos * p / lay.lines.length) ≤ 54 ∧
        (lay.lines[r.nextPos % lay.lines.length]? ≠ some c ∨ (c.blank = false ∧ l.luma.length ≠ lay.width))) ∨
      (∀ k : Nat, k ≤ r.nextPos → 54 < absDiff t.dev.houseTime (a + k * p / lay.lines.length)) →
      exec (.feedLine dt f l) s = .next ((changeLine f t.dev.houseTime c l t).modRx f
        fun r => { r with prevActive := !c.blank, lossFrom := some (t.dev.houseTime + l.span) }))

/-- What an active line writes (R37, R48, R49): its samples, clamped to 4..1019, stand in the slot's line for its
position, no other sample of the store changes, and the last active position ends the capture. The end of a
capture (R49): a slot with more than 64 line errors is marked damaged, FILLING becomes COMPLETE, the ring is
pruned, and the two signatures of an interlaced frame are handed over field 1 first (R54, R76), a break slot moving
the anchor of LOCKED_32 (R86); a skipped one is reported as two absent fields (R55, R76; of a progressive feed as
well, log entry 13). A field's signature is formed at its last active line (R54). That field 1's is formed once,
though its last line be repeated, is log entry 9; that a frame with one signature is not handed over, log entry 31. -/
def Obligations.ActiveLinesAreWritten : Prop :=
  (∀ (s : State) (f : Feed),
    (s.rxs[f].capture = .none → endCapture f s = s) ∧
    (s.rxs[f].capture = .skipped → endCapture f s =
      (takeField f true none (takeField f false none s)).modRx f fun r => { r with capture := .none }) ∧
    (∀ (n : SlotNo) (a : State), s.rxs[f].capture = .slot n → s.slots[n].state = .filling →
      a = prune f { s with slots := s.slots.set n { s.slots[n] with
        state := .complete, damaged := s.slots[n].damaged || decide (64 < s.rxs[f].lineErrors) } } →
      (∀ x y, s.rxs[f].sig1 = some x → s.rxs[f].sig2 = some y →
        endCapture f s = (handover f n x y a).modRx f fun r => { r with capture := .none }) ∧
      (s.rxs[f].sig1 = none ∨ s.rxs[f].sig2 = none →
        endCapture f s = a.modRx f fun r => { r with capture := .none }))) ∧
  (∀ (s : State) (f : Feed) (n : SlotNo) (a b : Signature) (x : Slot) (seq : BitVec 32) (t1 t2 : Int) (d : Detector)
      (field : Bool → Signature → Int → FieldIn), x = s.slots[n] → x.seq = some seq → x.stamp1 = some t1 →
    x.stamp2 = some t2 → d = s.dets[f] → (∀ f2 sig t, field f2 sig t = ⟨sig, x.damaged, ⟨n, f2⟩, t⟩) →
    handover f n a b s = takeField f true (some (field true b t2)) (takeField f false (some (field false a t1))
      (s.modDet f fun _ => { d with
        lastSlot := some (seq, t1), breakSeen := d.breakSeen || x.breakBefore
        anchor := match d.lastSlot, d.anchor with
          | some (seq0, stamp0), some anchor =>
            if d.state = .locked32 ∧ x.breakBefore = true
            then some (anchor + (t1 - (stamp0 + ((seq - seq0).toNat : Int) * pEst s f))) else d.anchor
          | _, _ => d.anchor }))) ∧
  (∀ (s : State) (f : Feed) (k : Nat) (lines : List LineCode) (n : SlotNo) (i : StdId),
    (s.rxs[f].capture = .slot n → s.rxs[f].detected = some i → (Config.std i).interlaced = true →
      ((∀ c ∈ lines.drop (k + 1), c.blank = true) → formSignatures f k lines s =
        s.modRx f fun r => { r with sig2 := some (signature s n i true) }) ∧
      ((∃ c ∈ lines.drop (k + 1), c.blank = false) →
        (∀ c ∈ lines.drop (k + 1), c.blank = true ∨ c.field2 = true) → s.rxs[f].sig1 = none →
        formSignatures f k lines s = s.modRx f fun r => { r with sig1 := some (signature s n i false) }) ∧
      ((∃ c ∈ lines.drop (k + 1), c.blank = false) →
        (∃ c ∈ lines.drop (k + 1), c.blank = false ∧ c.field2 = false) ∨ s.rxs[f].sig1 ≠ none →
        formSignatures f k lines s = s)) ∧
    ((∀ n, s.rxs[f].capture ≠ .slot n) ∨ s.rxs[f].detected = none ∨
        (s.rxs[f].detected = some i ∧ (Config.std i).interlaced = false) → formSignatures f k lines s = s)) ∧
  (∀ (s : State) (n : SlotNo) (i : StdId) (field2 : Bool) (r c : Nat) (p x0 x1 y0 y1 : Nat), r < 36 → c < 64 →
    p = (if field2 then 1 else 0) → x0 = c * (Config.std i).width / 64 → x1 = (c + 1) * (Config.std i).width / 64 →
    y0 = r * ((Config.std i).activeLines / 2) / 36 → y1 = (r + 1) * ((Config.std i).activeLines / 2) / 36 →
    (signature s n i field2)[r * 64 + c]? = some (((List.range' y0 (y1 - y0)).map fun y =>
      ((List.range' x0 (x1 - x0)).map fun x => (readSample s n (2 * y + p) .y x).toNat).sum).sum /
        ((x1 - x0) * (y1 - y0)))) ∧
  (∀ (s : State) (f : Feed) (k : Nat) (y cb cr : List Sample) (lay : Layout), s.rxs[f].layout = some lay →
    (∀ (n : SlotNo) (u : State), s.rxs[f].capture = .slot n →
      u = formSignatures f k lay.lines (writeLine n (slotLine lay.lines k) y cb cr s) →
        u = { s with dram := u.dram, rxs := u.rxs } ∧ u.dram = (writeLine n (slotLine lay.lines k) y cb cr s).dram ∧
        activeLine f k y cb cr s =
          (if (lay.lines.drop (k + 1)).all LineCode.blank then endCapture f u else u)) ∧
    (s.rxs[f].capture = .none → activeLine f k y cb cr s = s)) ∧
  (∀ (s : State) (n m : SlotNo) (line line' : Nat) (y cb cr : List Sample) (comp : Component) (x : Nat),
    line < 1080 → line' < 1080 → x < compRoom comp →
    (m ≠ n ∨ line' ≠ line →
      readSample (writeLine n line y cb cr s) m line' comp x = readSample s m line' comp x) ∧
    (∀ v, (match comp with | .y => y | .cb => cb | .cr => cr)[x]? = some v →
      readSample (writeLine n line y cb cr s) n line comp x = v)) ∧
  (compRoom .y = 1920 ∧ compRoom .cb = 960 ∧ compRoom .cr = 960) ∧
  (∀ v : Sample, clampSample v = if v.toNat < 4 then 4#10 else if 1019 < v.toNat then 1019#10 else v) ∧
  (∀ (lines : List LineCode) (k : Nat) (c : LineCode), lines[k]? = some c →
    slotLine lines k = (if lines.any LineCode.field2
      then 2 * (lines.take k).countP (fun x => !x.blank && x.field2 = c.field2) + (if c.field2 then 1 else 0)
      else (lines.take k).countP (fun x => !x.blank && x.field2 = c.field2)))

/-- The flywheel's frame start at position N_tot (R43, R44), its windows that close with no line (R42, R48, R51), a
structural change (R42, R50), and the loss timer (R38). Commands that are not due change nothing (log entry 3). The
model's choices in it: the loss timer runs from the line's last code (log entry 8); no line counts as the line
before after a loss (log entry 10); the line that makes a
structural change counts its CRC error after it, and a frame in progress that holds an error is counted when it is
closed (log entry 11); the last closed frame is forgotten at a loss (log entry 20). -/
def Obligations.FlywheelFrameStartsWindowsAndLoss : Prop :=
  (∀ (s t : State) (dt : Nat) (f : Feed) (l : FeedLineData) (r : Receiver) (c : LineCode) (a p : Nat) (lay : Layout),
    t = s.elapse dt → r = t.rxs[f] → t.dev.state = .ready → r.state = .locked ∨ r.state = .unknown →
    l.startCode = some c → l.endCode = some c →
    r.lastRaw = some a → r.pRef = some p → r.layout = some lay → lay.lines ≠ [] → r.nextPos = lay.lines.length →
    absDiff t.dev.houseTime (a + p) ≤ 54 → lay.lines.head? = some c →
    c.blank = true ∨ l.luma.length = lay.width →
    exec (.feedLine dt f l) s = .next ((flywheelFrameStart f t.dev.houseTime c l t).modRx f
      fun r => { r with prevActive := !c.blank, lossFrom := some (t.dev.houseTime + l.span) })) ∧
  (∀ (s : State) (f : Feed) (now : Nat) (c : LineCode) (l : FeedLineData) (r : Receiver) (lay : Layout) (a : Nat)
      (q : Receiver) (keeps : Prop),
    r = s.rxs[f] → r.layout = some lay → r.lastRaw = some a → r.nextPos = lay.lines.length →
    (keeps ↔ (r.state = .locked ∧ ∃ i, r.detected = some i ∧
        absDiff (now - a) (Config.pNom i) * 1000000 ≤ 200 * Config.pNom i) ∨
      (r.state = .unknown ∧ absDiff (now - a) r.run.pRun * 1000000 ≤ 200 * r.run.pRun ∧
        identify (lay.structure_ !r.missed) [now - a] = none)) →
    q = { r with
      pRef := some (now - a), lastClosed := some (lay.structure_ !r.missed), lastRaw := some now
      sig1 := none, sig2 := none, margin := l.margin.val, lowestMargin := min r.lowestMargin l.margin.val
      erroredFrames := if r.frameErrored then satAdd 65535 r.erroredFrames 1 else r.erroredFrames
      lineErrors := if l.crcError then 1 else 0
      linkErrors := if l.crcError then satAdd (2 ^ 32 - 1) r.linkErrors 1 else r.linkErrors
      frameErrored := l.crcError, nextPos := 1, posReceived := true, missed := false, measure := none } →
    (keeps → flywheelFrameStart f now c l s =
      (if r.state = .locked then openCapture f now (s.modRx f fun _ => q) else s.modRx f fun _ => q)) ∧
    (¬ keeps → ∃ u : State, u = structuralChangeRx f (s.modRx f fun r => { r with
        pRef := some (now - a), lastClosed := some (lay.structure_ !r.missed) }) ∧
      flywheelFrameStart f now c l s = u.modRx f fun r => { ((r.atFrameStart now l).countLine l) with
        measure := some { start := now, lines := [c], unread := 0, width := none, irregular := false } })) ∧
  (∀ (s : State) (f : Feed), ∃ a : State, a = abandonCapture f s ∧
    (∀ (n : SlotNo) (b : State), s.rxs[f].capture = .slot n →
      b = (s.modRx f fun r => { r with capture := .none, sig1 := none, sig2 := none }).modRing f (fun r =>
        { r with members := r.members.filter (· ≠ n) }) →
      a = (if s.slots[n].state = .filling then release n b else transitionError b).modDet f fun d => { d with
        films := d.films.filter fun x => x.first.slot ≠ n ∧ x.second.slot ≠ n
        openFilm := d.openFilm.filter fun o => o.first.slot ≠ n }) ∧
    ((∀ n, s.rxs[f].capture ≠ .slot n) →
      a = s.modRx f fun r => { r with capture := .none, sig1 := none, sig2 := none }) ∧
    structuralChangeRx f s = reportToChannels f ((condition (.feedLock f) (s.rxs[f].state = .locked) false
      (a.modRx f fun r => { r with
        erroredFrames := if r.frameErrored then satAdd 65535 r.erroredFrames 1 else r.erroredFrames
        frameErrored := false, layout := none, run := .empty, detected := none, measure := none
        state := .acquiring })).modDet f fun d => { d with openFilm := none }) ∧
    (∀ (t : State) (dt from_ : Nat), s = t.elapse dt → s.dev.state = .ready → s.rxs[f].state ≠ .noSignal →
      s.rxs[f].lossFrom = some from_ → from_ + 27000 ≤ s.dev.houseTime →
      exec (.lossTimerExpiry dt f) t = .next (reportToChannels f ((condition (.feedLock f)
        (s.rxs[f].state = .locked) false (a.modRx f fun r => { r with
          erroredFrames := if r.frameErrored then satAdd 65535 r.erroredFrames 1 else r.erroredFrames
          frameErrored := false, run := .empty, layout := none, lastRaw := none, detected := none, margin := 0
          lowestMargin := 0, lossFrom := none, measure := none, lastClosed := none, prevActive := false
          state := .noSignal })).modDet f fun d => { d with openFilm := none }))) ∧
    (∀ (t : State) (dt : Nat), s = t.elapse dt →
      (s.dev.state = .starting ∨ s.rxs[f].state = .noSignal ∨
        (∀ x, s.rxs[f].lossFrom = some x → s.dev.houseTime < x + 27000)) →
      exec (.lossTimerExpiry dt f) t = .next s)) ∧
  (∀ (s t : State) (dt : Nat) (f : Feed) (r : Receiver) (a p : Nat) (lay : Layout), t = s.elapse dt →
    r = t.rxs[f] → r.lastRaw = some a → r.pRef = some p → r.layout = some lay →
    (t.dev.state = .ready → r.state = .locked ∨ r.state = .unknown →
      a + r.nextPos * p / lay.lines.length + 54 ≤ t.dev.houseTime →
      (lay.lines.length ≤ r.nextPos → exec (.lineWindowClose dt f) s = .next (structuralChangeRx f t)) ∧
      (∀ (u : State) (c : LineCode), lay.lines[r.nextPos]? = some c →
        u = t.modRx f (fun r => { r.countError with
          nextPos := r.nextPos + 1, posReceived := false, missed := true }) →
        exec (.lineWindowClose dt f) s = .next (if c.blank then u
          else activeLine f r.nextPos (List.replicate lay.width 64#10) (List.replicate (lay.width / 2) 512#10)
            (List.replicate (lay.width / 2) 512#10) u))) ∧
    (t.dev.state = .starting ∨ (r.state ≠ .locked ∧ r.state ≠ .unknown) ∨
        t.dev.houseTime < a + r.nextPos * p / lay.lines.length + 54 →
      exec (.lineWindowClose dt f) s = .next t))

/-! ## Feed rings -/

/-- The smoother and the guard (R60, R62, R63, R64), the estimated period (R60) and the rate deviation (R61). -/
def Obligations.StampsAreSmoothed : Prop :=
  (∀ (pNom raw : Nat) (r : Ring), r.prevSmooth = none →
    smoothRing pNom raw r = ({ r with prevRaw := some raw, prevSmooth := some (raw : Int) }, false)) ∧
  (∀ (pNom raw a : Nat) (r : Ring) (sp est e : Int), r.prevSmooth = some sp → r.prevRaw = some a →
    r.window.length ≤ 16 →
    est = (if 4 ≤ r.window.length then r.window.sum / (r.window.length : Int) else (pNom : Int)) →
    e = (raw : Int) - (sp + est) →
    (e.natAbs ≤ pNom / 8 → smoothRing pNom raw r = ({ r with
      prevRaw := some raw, prevSmooth := some (sp + est + e / 8), lastError := some e
      window := (if r.window.length = 16 then r.window.tail else r.window) ++ [(raw : Int) - a] }, false)) ∧
    (pNom / 8 < e.natAbs → smoothRing pNom raw r = ({ r with
      prevRaw := some raw, prevSmooth := some (raw : Int), lastError := some e, window := [], pendingBreak := true
      steps := satAdd (2 ^ 32 - 1) r.steps 1 }, true))) ∧
  (∀ (r : Ring) (l t : Int), r.prevSmooth = some t → guardRing none r = r ∧
    (l < t → guardRing (some l) r = r) ∧
    (t ≤ l → guardRing (some l) r = { r with prevSmooth := some (l + 1), pendingBreak := true })) ∧
  (∀ (s : State) (f : Feed) (i : StdId), s.rxs[f].detected = some i →
    pEst s f = (if 4 ≤ s.rings[f].window.length
      then s.rings[f].window.sum / (s.rings[f].window.length : Int) else (Config.pNom i : Int)) ∧
    (s.rings[f].window.length < 4 → rateDeviation s f = 0) ∧
    (4 ≤ s.rings[f].window.length → rateDeviation s f = clampInt
      ((s.rings[f].window.sum / (s.rings[f].window.length : Int) - (Config.pNom i : Int)) * 1000000 /
        (Config.pNom i : Int)) (-9999) 9999))

/-- A frame start at a ring (R59, R66, R67): the smoothed stamp and STAMP_STEP; a full ring loses its oldest member
and counts an overrun; the head of the free list becomes the newest member in FILLING, or the capture is
skipped. -/
def Obligations.FrameStartAdmitsOrSkips : Prop :=
  ∀ (s t u : State) (f : Feed) (i : StdId) (seq : BitVec 32) (raw : Nat) (x : Ring × Bool) (latest : Option Int),
    x = smoothRing (Config.pNom i) raw s.rings[f] →
    latest = (match s.rings[f].members.getLast? with
      | none => none
      | some n => s.slots[n].stamp2.or s.slots[n].stamp1) →
    t = (if x.2 then raise (.stampStep f) (s.modRing f fun _ => guardRing latest x.1)
      else s.modRing f fun _ => guardRing latest x.1) →
    u = (if t.rings[f].members.length < t.rings[f].depth then t
      else raise (.ringOverrun f) (((t.rings[f].members.take 1).foldl (fun s n => removeMember f n s) t).modRing f
        fun r => { r with overruns := satAdd (2 ^ 32 - 1) r.overruns 1 })) →
    (u.free = [] → admitCapture f i seq raw s = (.skipped, (raise .poolEmpty { u with pool := { u.pool with
      allocFailures := satAdd 65535 u.pool.allocFailures 1 } }).modRing f
        fun r => { r with skips := satAdd (2 ^ 32 - 1) r.skips 1 })) ∧
    (∀ n rest stamp, u.free = n :: rest → u.rings[f].prevSmooth = some stamp →
      admitCapture f i seq raw s = (.slot n, { u with
        free := rest
        slots := u.slots.set n { Slot.cleared .filling false with
          kind := some .input, owner := some f, std := some i, seq := some seq, raw := some raw
          stamp1 := some stamp
          stamp2 := if (Config.std i).interlaced then some (stamp +
            (if 4 ≤ u.rings[f].window.length then u.rings[f].window.sum / (u.rings[f].window.length : Int)
              else (Config.pNom i : Int)) / 2) else none
          breakBefore := u.rings[f].pendingBreak }
        rings := u.rings.set f { u.rings[f] with
          members := u.rings[f].members ++ [n], pendingBreak := false
          admitted := satAdd (2 ^ 32 - 1) u.rings[f].admitted 1 } }))

/-- A COMPLETE slot that leaves a ring detaches while it is pinned and is released otherwise (R65), with the film
frames that name it (R88); a prune with a horizon removes members while the second successor began at or before
it (R69), and one without keeps at most two COMPLETE members (R70). -/
def Obligations.RemovalAndPruning : Prop :=
  (∀ (s r : State) (f : Feed) (n : SlotNo), s.slots[n].state = .complete →
    r = s.modRing f (fun x => { x with members := x.members.filter (· ≠ n) }) →
    removeMember f n s = (if s.slots[n].pins = 0 then release n r
      else r.modSlot n fun x => { x with state := .detached }).modDet f fun d => { d with
        films := d.films.filter fun x => x.first.slot ≠ n ∧ x.second.slot ≠ n
        openFilm := d.openFilm.filter fun o => o.first.slot ≠ n }) ∧
  (∀ (s : State) (f : Feed) (draws : Chan → Prop) (term : Chan → Int) (remove : Nat → State),
    (∀ c, draws c ↔ (bankOf s c).feed = f ∧ (s.chans[c].state = .priming ∨ s.chans[c].state = .running)) →
    (∀ c, term c = (s.timing[c].next : Int) - ((s.chans[c].dlyEff.getD 0 : Nat) : Int)) →
    (∀ k, remove k = (s.rings[f].members.take k).foldl (fun s n => removeMember f n s) s) →
    (∀ h : Int, (∃ c, draws c ∧ term c = h) → (∀ c, draws c → h ≤ term c) →
      ∃ k : Nat, prune f s = (remove k).modRing f (fun r => { r with lastHorizon := some (h, s.dev.houseTime) }) ∧
        (k = 0 ∨ k + 2 ≤ s.rings[f].members.length) ∧
        (∀ (i : Nat) (n : SlotNo), i < k → s.rings[f].members[i + 2]? = some n → s.slots[n].stamp1.getD 0 ≤ h) ∧
        (∀ n : SlotNo, s.rings[f].members[k + 2]? = some n → h < s.slots[n].stamp1.getD 0)) ∧
    ((∀ c, ¬ draws c) → prune f s =
      (remove ((s.rings[f].members.countP fun n => s.slots[n].state = .complete) - 2)).modRing f
        fun r => { r with lastHorizon := none }))

/-- SET_FEED (R72, R89): INVALID, REFUSED(FEED_IN_USE), or accepted: the ring takes the three values and loses its
oldest members down to the depth, the detector leaves its state where the enable goes off, and a change is
announced. -/
def Obligations.SetFeedChangesTheRing : Prop :=
  ∀ (s t u : State) (dt : Nat) (p : Port) (tag : Byte) (w d e th : Word), t = s.elapse dt → Taken t p →
    u = t.taking p 4 →
    (8 ≤ w.toNat ∨ d.toNat < 3 ∨ 8 < d.toNat ∨ 2 ≤ e.toNat ∨ 255 < th.toNat →
      exec (.setFeed dt p tag [w, d, e, th]) s = .next (t.answered p .invalid tag [] 4)) ∧
    (∀ (f : Feed) (r : Ring), f.val = w.toNat → 3 ≤ d.toNat → d.toNat ≤ 8 → e.toNat ≤ 1 → th.toNat ≤ 255 →
      r = t.rings[f] →
      ((∃ c : Chan, (bankOf t c).feed = f ∧ (t.chans[c].state = .priming ∨ t.chans[c].state = .running)) →
        exec (.setFeed dt p tag [w, d, e, th]) s = .next (t.answered p .refused tag [2#16] 4)) ∧
      (∀ a : State, (∀ c : Chan, (bankOf t c).feed = f →
          t.chans[c].state ≠ .priming ∧ t.chans[c].state ≠ .running) →
        a = (r.members.take (r.members.length - d.toNat)).foldl (fun s n => removeMember f n s)
          (u.modRing f fun r => { r with
            depth := d.toNat, cadenceEnable := decide (e = 1#16), threshold := th.toNat }) →
        (r.depth = d.toNat → r.cadenceEnable = decide (e = 1#16) → r.threshold = th.toNat →
          exec (.setFeed dt p tag [w, d, e, th]) s = .next (a.done p .ok tag [])) ∧
        (¬ (r.depth = d.toNat ∧ r.cadenceEnable = decide (e = 1#16) ∧ r.threshold = th.toNat) →
          exec (.setFeed dt p tag [w, d, e, th]) s = .next ((announce p ⟨0x20#8, some f.val, none⟩
            (if r.cadenceEnable = true ∧ e = 0#16 then
              (if a.dets[f].state.isLocked then exitLocked f a
               else a.modDet f fun d => if d.state = .video then d
                 else { d with state := .video, phase := none, candidates := 0, passCount := 0 })
             else a)).done p .ok tag []))))

/-! ## Cadence detectors -/

/-- A detector takes a field (R77): its flag enters the history, which keeps 10, last m takes the difference where
it is formed, and the field replaces the reference buffer of its parity. The flag of an absent or damaged field,
or of one with no sound reference, is UNKNOWN. -/
def Obligations.RepeatFlagsAreFormed : Prop :=
  ∀ (d d' : Detector) (threshold : Nat) (field2 : Bool) (x : Option FieldIn) (ref : Option RefBuffer)
      (flag : RepeatFlag), d.history.length ≤ 10 →
    ref = (if field2 then d.buf2 else d.buf1) →
    d' = { d with
      history := (if d.history.length = 10 then d.history.tail else d.history) ++ [flag]
      buf1 := if field2 then d.buf1 else x.map fun y => ⟨y.sig, y.damaged⟩
      buf2 := if field2 then x.map fun y => ⟨y.sig, y.damaged⟩ else d.buf2 } →
    (x = none ∨ ref = none ∨ (∃ y, x = some y ∧ y.damaged = true) ∨ (∃ b, ref = some b ∧ b.damaged = true) →
      flag = .unknown → d.takeFlag threshold field2 x = d') ∧
    (∀ (y : FieldIn) (b : RefBuffer) (m : Nat), x = some y → ref = some b → y.damaged = false → b.damaged = false →
      m = (List.zipWith (fun a b => absDiff a b) y.sig b.sig).sum / 2304 →
      flag = (if m ≤ threshold then .set else .clear) →
      d.takeFlag threshold field2 x = { d' with lastM := some m })

/-- The 3:2 pattern (R79, R80, R81): two SET flags five fields apart in ten with no UNKNOWN start a candidate; five
fields without a contradiction lock it; a contradiction ends it; in LOCKED_32 a CLEAR flag at phase 2 is a
break, and every other field advances the phase and is grouped. -/
def Obligations.ThreeTwoPattern : Prop :=
  (∀ (h : List RepeatFlag) (p : Nat), candidatePhase h = some p ↔
    ∃ i : Nat, i < 5 ∧ p = (6 - i) % 5 ∧ h = (List.range 10).map fun k =>
      if k = i ∨ k = i + 5 then RepeatFlag.set else .clear) ∧
  (∀ (s : State) (f : Feed) (x : Option FieldIn) (d : Detector) (flag : RepeatFlag) (p : Nat), d = s.dets[f] →
    d.history.getLast? = some flag →
    (d.state = .video → candidatePhase d.history = none → rule32 f x s = s) ∧
    (d.state = .video → candidatePhase d.history = some p →
      rule32 f x s = s.modDet f fun d => { d with state := .candidate32, phase := some p, candidates := 0 }) ∧
    (d.state = .candidate32 → d.phase = some p →
      (flag = .unknown ∨ (flag = .set ∧ (p + 1) % 5 ≠ 2) ∨ (flag = .clear ∧ (p + 1) % 5 = 2) →
        rule32 f x s = s.modDet f fun d => { d with state := .video, phase := none, candidates := 0 }) ∧
      ((flag = .set ∧ (p + 1) % 5 = 2) ∨ (flag = .clear ∧ (p + 1) % 5 ≠ 2) → d.candidates ≠ 4 →
        rule32 f x s = s.modDet f fun d => { d with phase := some ((p + 1) % 5), candidates := d.candidates + 1 }) ∧
      ((flag = .set ∧ (p + 1) % 5 = 2) ∨ (flag = .clear ∧ (p + 1) % 5 ≠ 2) → d.candidates = 4 →
        rule32 f x s = enterLocked f .locked32
          (s.modDet f fun d => { d with phase := some ((p + 1) % 5), candidates := 5 }))) ∧
    (d.state = .locked32 → d.phase = some p →
      ((p + 1) % 5 = 2 → flag = .clear →
        rule32 f x s = exitLocked f (s.modDet f fun d => { d with
          phase := some ((p + 1) % 5), breaks := satAdd (2 ^ 32 - 1) d.breaks 1 })) ∧
      (¬ ((p + 1) % 5 = 2 ∧ flag = .clear) →
        rule32 f x s = filmField32 f ((p + 1) % 5) x (s.modDet f fun d => { d with phase := some ((p + 1) % 5) }))))

/-- The 2:2 pattern (R79, R82, R83): m_intra at a field 2, and at the next field 1 the verdict on the frame, UNKNOWN
where the frame follows a skip, applied while the enable is on; entry into and exit from a locked state (R84), and a
report of LOCKED (R78). That a frame after a skip is UNKNOWN though its own fields are present, and that no verdict
is formed at the first field 1 after a report of LOCKED, is log entry 13. -/
def Obligations.TwoTwoPatternAndLocks : Prop :=
  (∀ (s : State) (f : Feed) (i : StdId) (x : Option FieldIn) (d d' : Detector) (threshold : Nat) (v : Verdict),
    s.rxs[f].detected = some i → i = 0 ∨ i = 2 → d = s.dets[f] → threshold = s.rings[f].threshold →
    (∀ m : Option Nat, d' = d.takeFlag threshold true x →
      m = (match d.buf1, x with
        | some b, some y => some ((List.zipWith (fun a b => absDiff a b) y.sig b.sig).sum / 2304)
        | _, _ => none) →
      takeField f true x s = (if s.rings[f].cadenceEnable
        then film22 f true x (s.modDet f fun _ => { d' with mIntra := m })
        else s.modDet f fun _ => { d' with mIntra := m })) ∧
    (d' = d.takeFlag threshold false x → d.history = [] →
      takeField f false x s = (if s.rings[f].cadenceEnable then film22 f false x (s.modDet f fun _ => d')
        else s.modDet f fun _ => d')) ∧
    (∀ u : State, d' = d.takeFlag threshold false x → d.history ≠ [] →
      v = (if d.followsSkip then .unknown else judge threshold d.buf1 d.buf2 d.mIntra x) →
      u = s.modDet f (fun _ => { d' with verdict := some v, followsSkip := d.buf2.isNone }) →
      takeField f false x s = (if s.rings[f].cadenceEnable then film22 f false x (applyVerdict f v u) else u))) ∧
  (∀ (threshold : Nat) (b1 b2 : Option RefBuffer) (mi : Option Nat) (x : Option FieldIn),
    (b1 = none ∨ b2 = none ∨ mi = none ∨ x = none ∨ (∃ b, b1 = some b ∧ b.damaged = true) ∨
        (∃ b, b2 = some b ∧ b.damaged = true) ∨ (∃ y, x = some y ∧ y.damaged = true) →
      judge threshold b1 b2 mi x = .unknown) ∧
    (∀ (r1 r2 : RefBuffer) (y : FieldIn) (i c : Nat), b1 = some r1 → b2 = some r2 → mi = some i → x = some y →
      r1.damaged = false → r2.damaged = false → y.damaged = false →
      c = (List.zipWith (fun a b => absDiff a b) y.sig r2.sig).sum / 2304 →
      judge threshold b1 b2 mi x =
        (if c ≤ threshold then .static else if 2 * i < c then .pass else .fail))) ∧
  (∀ (s : State) (f : Feed) (d : Detector) (v : Verdict), d = s.dets[f] →
    (d.state = .video → applyVerdict f .pass s =
      s.modDet f fun d => { d with state := .candidate22, passCount := 1 }) ∧
    (d.state = .video → v ≠ .pass → applyVerdict f v s = s.modDet f fun d => { d with passCount := 0 }) ∧
    (d.state = .candidate22 → d.passCount ≠ 7 → applyVerdict f .pass s =
      s.modDet f fun d => { d with passCount := d.passCount + 1 }) ∧
    (d.state = .candidate22 → d.passCount = 7 → applyVerdict f .pass s =
      enterLocked f .locked22 (s.modDet f fun d => { d with passCount := 8 })) ∧
    (d.state = .candidate22 → v ≠ .pass → applyVerdict f v s =
      s.modDet f fun d => { d with state := .video, passCount := 0 }) ∧
    (d.state = .locked22 → d.failCount = 2 → applyVerdict f .fail s =
      exitLocked f (s.modDet f fun d => { d with breaks := satAdd (2 ^ 32 - 1) d.breaks 1 })) ∧
    (d.state = .locked22 → d.failCount ≠ 2 → applyVerdict f .fail s =
      s.modDet f fun d => { d with failCount := d.failCount + 1 }) ∧
    (d.state = .locked22 → applyVerdict f .pass s = s.modDet f fun d => { d with failCount := 0 }) ∧
    (d.state = .locked22 → v = .static ∨ v = .unknown → applyVerdict f v s = s)) ∧
  (∀ (s : State) (f : Feed) (st : DetState), enterLocked f st s = condition (.cadence f) false true
    { s with
      rings := s.rings.set f { s.rings[f] with pendingBreak := true }
      dets := s.dets.set f { s.dets[f] with
        state := st, breakSeen := true, nextFilm := 0, anchor := none, lastFilmStamp := none, cycleBegun := false
        failCount := 0 } }) ∧
  (∀ (s : State) (f : Feed), exitLocked f s = condition (.cadence f) true false { s with
    rings := s.rings.set f { s.rings[f] with pendingBreak := true }
    dets := s.dets.set f { s.dets[f] with
      state := .video, openFilm := none, films := [], breakSeen := false, phase := none, anchor := none
      lastFilmStamp := none, failCount := 0 } }) ∧
  (∀ (s : State) (f : Feed), detectorRestart f s = condition (.cadence f) s.dets[f].state.isLocked false { s with
    dets := s.dets.set f { s.dets[f] with
      state := .video, history := [], buf1 := none, buf2 := none, lastM := none, phase := none, candidates := 0
      mIntra := none, followsSkip := false, passCount := 0, failCount := 0, verdict := none, anchor := none
      nextFilm := 0, lastFilmStamp := none, breakSeen := false, lastSlot := none, openFilm := none, films := [] } })

/-- Film frames (R85, R86, R87): a present field at phases 0 and 3 opens the film frame of the next number with the
stamp of its position in the cycle, one at phases 1 and 4 completes it, one at phase 2 is DROPPED; under 2:2 each
frame is a film frame. The stamps increase, and the list keeps 8. -/
def Obligations.FilmFramesAreFormed : Prop :=
  (∀ (d : Detector) (est : Int) (x : FieldIn),
    d.beginHalf est (some x) = { d with
      half := if d.cycleBegun then 1 - d.half else 0, cycleBegun := true
      anchor := if d.cycleBegun = true ∧ d.half = 0 then d.anchor else some x.stamp }) ∧
  (∀ (d : Detector) (est : Int) (j : Nat) (x : Option FieldIn) (t a : Int), d.anchor = some a →
    t = (match d.lastFilmStamp with
      | some l => max (a + (j : Int) * 5 * est / 4) (l + 1)
      | none => a + (j : Int) * 5 * est / 4) →
    d.openPosition est j x = { d with
      nextFilm := d.nextFilm + 1, lastFilmStamp := some t
      openFilm := x.map fun y => ⟨d.nextFilm, t, y.ref⟩ }) ∧
  (∀ (d : Detector) (o : OpenFilm) (r : FieldRef), d.openFilm = some o → d.films.length ≤ 8 →
    d.completeFilm r = { d with
      films := (if d.films.length = 8 then d.films.tail else d.films) ++ [⟨o.number, o.stamp, o.first, r, d.breakSeen⟩]
      breakSeen := false, openFilm := none }) ∧
  (∀ (s : State) (f : Feed) (y : FieldIn) (d : Detector), d = s.dets[f] →
    filmField32 f 0 (some y) s = tagField y ⟨d.nextFilm, .first⟩ (s.modDet f fun d =>
      (d.beginHalf (pEst s f) (some y)).openPosition (pEst s f)
        (2 * (d.beginHalf (pEst s f) (some y)).half) (some y)) ∧
    (d.cycleBegun = true →
      filmField32 f 1 (some y) s = tagField y ⟨d.nextFilm - 1, .second⟩ (s.modDet f fun d => d.completeFilm y.ref) ∧
      filmField32 f 2 (some y) s = tagField y ⟨d.nextFilm - 1, .dropped⟩ s ∧
      filmField32 f 3 (some y) s = tagField y ⟨d.nextFilm, .first⟩ (s.modDet f fun d =>
        d.openPosition (pEst s f) (2 * d.half + 1) (some y)) ∧
      filmField32 f 4 (some y) s = tagField y ⟨d.nextFilm - 1, .second⟩ (s.modDet f fun d => d.completeFilm y.ref))) ∧
  (∀ (s : State) (f : Feed) (y : FieldIn) (d : Detector) (t : Int), d = s.dets[f] → d.state = .locked22 →
    t = (match d.lastFilmStamp with
      | some l => max y.stamp (l + 1)
      | none => y.stamp) →
    film22 f false (some y) s = tagField y ⟨d.nextFilm, .first⟩ (s.modDet f fun d => { d with
      openFilm := some ⟨d.nextFilm, t, y.ref⟩, nextFilm := d.nextFilm + 1, lastFilmStamp := some t }) ∧
    film22 f true (some y) s =
      tagField y ⟨d.nextFilm - 1, .second⟩ (s.modDet f fun d => d.completeFilm y.ref) ∧
    ∀ b : Bool, film22 f b none s = s) ∧
  (∀ (s : State) (y : FieldIn) (g : FilmTag), s.slots[y.ref.slot].state.inUse = true →
    tagField y g s = s.modSlot y.ref.slot fun x =>
      if y.ref.field2 then { x with tag2 := some g } else { x with tag1 := some g })

/-! ## Channels -/

/-- SET_CHANNEL (R94, R95): INVALID, STALE with the revision, or the named fields written together into the next
bank, the revision increased and the other port told. A field code takes the values of its field's range and no
other. The words spell the channel, the expected revision and the field items as note 2 of file 11 gives them; a code
above 13, a 32-bit item with a low byte other than 0 or without its two words, and a wrong count of words do not decode. -/
def Obligations.SetChannelWritesTheNextBank : Prop :=
  (∀ (chan lo : Byte) (rev : Word) (items : List (Byte × BitVec 32)) (words : List Word),
    (∀ x ∈ items, x.1.toNat ≤ 13 ∧ (x.1 ≠ 4#8 → x.1 ≠ 5#8 → x.2.toNat < 256)) →
    words = items.flatMap (fun x => if x.1 = 4#8 ∨ x.1 = 5#8
      then [x.1 ++ 0#8, x.2.extractLsb' 16 16, x.2.extractLsb' 0 16] else [x.1 ++ x.2.extractLsb' 0 8]) →
    (1 ≤ words.length → words.length ≤ 7 → paramsChannel ((chan ++ 0#8) :: words) =
      some ⟨chan.toNat, none, items.map fun x => (x.1.toNat, x.2.toNat)⟩) ∧
    (words.length ≤ 6 → paramsChannel ((chan ++ 1#8) :: rev :: words) =
      some ⟨chan.toNat, some rev, items.map fun x => (x.1.toNat, x.2.toNat)⟩) ∧
    (∀ (code low : Byte) (rest : List Word), 13 < code.toNat ∨
        ((code = 4#8 ∨ code = 5#8) ∧ (low ≠ 0#8 ∨ rest.length < 2)) →
      paramsChannel ((chan ++ 0#8) :: (words ++ (code ++ low) :: rest)) = none ∧
      paramsChannel ((chan ++ 1#8) :: rev :: (words ++ (code ++ low) :: rest)) = none) ∧
    (∀ rest : List Word, lo ≠ 0#8 ∧ lo ≠ 1#8 ∨ rest = [] ∨ 7 < rest.length →
      paramsChannel ((chan ++ lo) :: rest) = none)) ∧
  (∀ (s t : State) (dt : Nat) (p : Port) (tag : Byte) (params : List Word) (e : ChannelEdit), t = s.elapse dt →
    Taken t p → paramsChannel params = some e →
    (8 ≤ e.chan ∨ e.items = [] ∨ ¬ (e.items.map Prod.fst).Nodup →
      exec (.setChannel dt p tag params) s = .next (t.answered p .invalid tag [] params.length)) ∧
    (∀ (c : Chan) (ch : Channel) (next : Bank), c.val = e.chan → ch = t.chans[c] →
      next = (match ch.active with | .a => ch.bankB | .b => ch.bankA) → e.items ≠ [] →
      (e.items.map Prod.fst).Nodup →
      ((next.setFields e.items = none ∨ ∃ b, next.setFields e.items = some b ∧ b.pOut ≤ b.offset) →
        exec (.setChannel dt p tag params) s = .next (t.answered p .invalid tag [] params.length)) ∧
      (∀ b : Bank, next.setFields e.items = some b → b.offset < b.pOut →
        ((∃ r, e.expected = some r ∧ r ≠ ch.revision) →
          exec (.setChannel dt p tag params) s =
            .next (t.answered p .stale tag [ch.revision] params.length)) ∧
        ((∀ r, e.expected = some r → r = ch.revision) →
          exec (.setChannel dt p tag params) s = .next ((announce p ⟨0x30#8, some c.val, some (ch.revision + 1)⟩
            { t with chans := t.chans.set c { ch with
              bankA := match ch.active with | .a => ch.bankA | .b => b
              bankB := match ch.active with | .a => b | .b => ch.bankB
              revision := ch.revision + 1 } }).replied t p .ok tag [ch.revision + 1] params.length))))) ∧
  (∀ b x : Bank, x.lossHold ≤ 250 → (∀ d, x.delay = some d → d ≤ 6000000) →
    b.setFields [(0, x.feed.val), (1, x.outStd.val), (2, x.ref.val), (3, x.expected.elim 255 Fin.val), (4, x.offset),
      (5, x.delay.getD 0xFFFFFFFF), (6, x.mode.code), (7, x.ditherPeriod.code), (8, x.ditherPhase.val),
      (9, x.lossHold), (10, x.vProf.elim 255 Fin.val), (11, x.hProf.elim 255 Fin.val),
      (12, x.mProf.elim 255 Fin.val), (13, if x.enable then 1 else 0)] = some x) ∧
  (∀ (b : Bank) (v : Nat),
    (b.setField 0 v = none ↔ 8 ≤ v) ∧ (b.setField 1 v = none ↔ 12 ≤ v) ∧ (b.setField 2 v = none ↔ 2 ≤ v) ∧
    (b.setField 3 v = none ↔ 12 ≤ v ∧ v ≠ 255) ∧ b.setField 4 v ≠ none ∧
    (b.setField 5 v = none ↔ 6000000 < v ∧ v ≠ 0xFFFFFFFF) ∧ (b.setField 6 v = none ↔ 3 ≤ v) ∧
    (b.setField 7 v = none ↔ 5 ≤ v) ∧ (b.setField 8 v = none ↔ 4 ≤ v) ∧ (b.setField 9 v = none ↔ 250 < v) ∧
    (∀ k, k < 3 → (b.setField (10 + k) v = none ↔ 16 ≤ v ∧ v ≠ 255)) ∧ (b.setField 13 v = none ↔ 2 ≤ v))

/-- TAKE (R97, R98, R99, R104): INVALID for a mask of 0 or above 255; otherwise the channels of the mask in ascending order,
each applied, rejected or left pending, and told to the other port; an applied take swaps the banks, and a rejected
one changes neither banks nor revision. The result words of the channels are 0 APPLIED, 1 REJECTED and 2 PENDING
(R181). The active bank governs (R92); Dly_eff is computed where the feed is LOCKED and accepted (R105). The model's
choices in it: a live take computes Dly_eff in every state and a structural take on a STOPPED channel does not (log
entry 16, where R104 and R105 differ), and what a take does to the frame in progress (log entry 26). -/
def Obligations.TakeSwapsTheBanks : Prop :=
  (TakeWord.applied.word = 0#16 ∧ TakeWord.rejected.word = 1#16 ∧ TakeWord.pending.word = 2#16) ∧
  ((∀ (s : State) (c : Chan),
      bankOf s c = match s.chans[c].active with | .a => s.chans[c].bankA | .b => s.chans[c].bankB) ∧
    ∀ (s : State) (b : Bank), bankCompatible s b = true ↔ s.refs[b.ref].tAlign % b.pOut = 0) ∧
  (∀ (s t : State) (dt : Nat) (p : Port) (tag : Byte) (w : Word), t = s.elapse dt → Taken t p →
    (w = 0#16 ∨ 255 < w.toNat → exec (.take dt p tag [w]) s = .next (t.answered p .invalid tag [] 1)) ∧
    (w ≠ 0#16 → w.toNat ≤ 255 → ∃ (ws : List Word) (u : State),
      (ws, u) = takeAll p ((List.finRange 8).filter fun c => w.getLsbD c.val) (t.taking p 1) ∧
      exec (.take dt p tag [w]) s = .next (u.done p .ok tag ws))) ∧
  (∀ (p : Port) (s u v : State) (c : Chan) (rest : List Chan) (w : TakeWord) (ws : List Word), takeOn c s = (w, u) →
    takeAll p rest (announce p ⟨0x34#8, some c.val, some u.chans[c].revision⟩ u) = (ws, v) →
    takeAll p [] s = ([], s) ∧ takeAll p (c :: rest) s = (w.word :: ws, v)) ∧
  (∀ (s : State) (c : Chan) (ch : Channel) (old new : Bank) (fs : Bool), ch = s.chans[c] → old = bankOf s c →
    new = (match ch.active with | .a => ch.bankB | .b => ch.bankA) →
    (ch.state ≠ .stopped ∨ ch.takePending = true →
      takeOn c s = (.pending, s.modChan c fun ch => { ch with takePending := true })) ∧
    (ch.state = .stopped → ch.takePending = false → s.refs[new.ref].tAlign % new.pOut = 0 →
      takeOn c s = (.applied, applyTake c false s)) ∧
    (ch.state = .stopped → ch.takePending = false → s.refs[new.ref].tAlign % new.pOut ≠ 0 →
      takeOn c s = (.rejected, applyTake c false s)) ∧
    (s.refs[new.ref].tAlign % new.pOut ≠ 0 → applyTake c fs s = raise (.takeDone c) (s.modChan c fun ch =>
      { ch with takePending := false, lastTake := .rejected s.dev.houseTime })) ∧
    (∀ a b : State, s.refs[new.ref].tAlign % new.pOut = 0 →
      a = { s with chans := s.chans.set c { ch with
        active := (match ch.active with | .a => .b | .b => .a), revision := ch.revision + 1, takePending := false
        lastTake := .applied s.dev.houseTime } } →
      b = (if old.ref ≠ new.ref ∨ old.outStd ≠ new.outStd ∨ old.offset ≠ new.offset then rebuild c old.pOut a
        else a).modOutput c (fun o => { o with
          emitStd := if new.enable = false then none
            else if old.enable = false ∧ fs = true then some old.outStd else o.emitStd }) →
      applyTake c fs s = raise (.takeDone c)
        (if old.feed ≠ new.feed ∨ old.outStd ≠ new.outStd ∨ old.ref ≠ new.ref ∨ old.expected ≠ new.expected
         then (if ch.state = .stopped then b else reprime c old new b)
         else computeDelay c b))) ∧
  (∀ (s v : State) (c : Chan) (old new b : Bank) (r : Receiver) (ok : Prop), b = bankOf s c → r = s.rxs[b.feed] →
    (ok ↔ r.state = .locked ∧ ∃ i, r.detected = some i ∧ (b.expected = none ∨ b.expected = some i)) →
    v = (if old.outStd = new.outStd then s else (releaseOnAir c s).modOutput c fun o => { o with display := .black }) →
    (ok → reprime c old new s = enterPriming c v) ∧
    (¬ ok → s.chans[c].state = .priming ∨ s.chans[c].state = .running → reprime c old new s = enterHolding c v) ∧
    (¬ ok → s.chans[c].state = .waitFeed ∨ s.chans[c].state = .holding → reprime c old new s = v) ∧
    (∀ i : StdId, ok → r.detected = some i → computeDelay c s = s.modChan c fun ch => { ch with
      dlyEff := some (effectiveDelay b (Config.pNom i) s.rings[b.feed].depth) }) ∧
    (¬ ok → computeDelay c s = s))

/-- START_CHANNEL (R102): INVALID, REFUSED(NOT_STOPPED), REFUSED(REF_INCOMPATIBLE), or started: the counters and
the last run's marks are cleared, the channel enters PRIMING or WAIT_FEED, and the other port is told. STOP_CHANNEL
(R103): INVALID, ALREADY, or STOPPED with its job abandoned and its slots released. The abandonment by a stop takes
the job back and lets the idle lanes start the next jobs; unlike one at the deadline it is neither counted nor
reported, and where the channel has no job it changes nothing (R159). A release of the READY or the ON_AIR slot takes it
from the output and gives it back to the store (R25, R168). -/
def Obligations.StartAndStopChannel : Prop :=
  (∀ (s : State) (c : Chan),
    (s.outputs[c].onAir = none → releaseOnAir c s = s) ∧ (s.outputs[c].ready = none → releaseReady c s = s) ∧
    (∀ a : Held, s.outputs[c].onAir = some a → s.slots[a.slot].state = .onAir →
      releaseOnAir c s = release a.slot (s.modOutput c fun o => { o with onAir := none })) ∧
    (∀ a : Held, s.outputs[c].ready = some a → s.slots[a.slot].state = .ready →
      releaseReady c s = release a.slot (s.modOutput c fun o => { o with ready := none }))) ∧
  (∀ (c : Chan) (s v : State),
    (abandonJob c s = (true, v) → abandonAtStop c s = startLanes v) ∧
    (abandonJob c s = (false, v) → v = s ∧ abandonAtStop c s = s)) ∧
  (∀ (s t : State) (dt : Nat) (p : Port) (tag : Byte) (w : Word), t = s.elapse dt → Taken t p →
    (8 ≤ w.toNat → exec (.startChannel dt p tag [w]) s = .next (t.answered p .invalid tag [] 1) ∧
      exec (.stopChannel dt p tag [w]) s = .next (t.answered p .invalid tag [] 1)) ∧
    (∀ (c : Chan) (ch : Channel) (b : Bank) (r : Receiver) (ok : Prop), c.val = w.toNat → ch = t.chans[c] →
      b = bankOf t c → r = t.rxs[b.feed] →
      (ok ↔ r.state = .locked ∧ ∃ i, r.detected = some i ∧ (b.expected = none ∨ b.expected = some i)) →
      (ch.state ≠ .stopped →
        exec (.startChannel dt p tag [w]) s = .next (t.answered p .refused tag [3#16] 1)) ∧
      (ch.state = .stopped → t.refs[b.ref].tAlign % b.pOut ≠ 0 →
        exec (.startChannel dt p tag [w]) s = .next (t.answered p .refused tag [1#16] 1)) ∧
      (∀ a : State, ch.state = .stopped → t.refs[b.ref].tAlign % b.pOut = 0 →
        a = { t.taking p 1 with
          chans := t.chans.set c { ch with
            counters := ⟨0, 0, 0, 0, 0⟩, frame := 0, listKind := none, outcome := none, readback := none }
          outputs := t.outputs.set c { t.outputs[c] with lateRun := false } } →
        (ok → exec (.startChannel dt p tag [w]) s = .next ((announce p ⟨0x32#8, some c.val, some ch.revision⟩
          (enterPriming c a)).done p .ok tag [2#16])) ∧
        (¬ ok → exec (.startChannel dt p tag [w]) s = .next ((announce p ⟨0x32#8, some c.val, some ch.revision⟩
          (raise (.channelState c) (a.modChan c fun ch => { ch with state := .waitFeed, dlyEff := none }))).done
            p .ok tag [1#16]))) ∧
      (ch.state = .stopped →
        exec (.stopChannel dt p tag [w]) s = .next (t.answered p .already tag [] 1)) ∧
      (∀ a : State, ch.state ≠ .stopped →
        a = abandonAtStop c (condition (.holding c) (ch.state = .holding) false (raise (.channelState c)
          ((t.taking p 1).modChan c fun ch => { ch with state := .stopped }))) →
        ∃ u : State, u = releaseOnAir c (releaseReady c a) ∧
          exec (.stopChannel dt p tag [w]) s = .next ((announce p ⟨0x33#8, some c.val, some ch.revision⟩
            (u.modOutput c fun o => { o with display := .black, hold := none })).done p .ok tag []))))

/-- A change of a receiver's state reaches FEED_LOCK, its ring and detector, and then followFeed on every channel
whose active bank names the feed, in ascending order (R45, R57, R71, R78; the order is log entry 17). What a channel
does on the report (R101, R111, R166, R173): with loss hold frames 0 the entry into HOLDING releases the ON_AIR slot
and shows black at once. The effective delay it computes (R105). -/
def Obligations.ChannelsFollowTheirFeeds : Prop :=
  (∀ (s a : State) (f : Feed) (st : RxState),
    a = condition (.feedLock f) (s.rxs[f].state = .locked) (st = .locked)
      (s.modRx f fun r => { r with state := st }) →
    (st = .locked → enterRxState f st s = reportToChannels f (detectorRestart f (relock f a))) ∧
    (st ≠ .locked → enterRxState f st s = reportToChannels f (a.modDet f fun d => { d with openFilm := none })) ∧
    reportToChannels f s = ((List.finRange 8).filter fun c => (bankOf s c).feed = f).foldl
      (fun u c => followFeed c u) s ∧
    relock f s = ((s.rings[f].members.foldl (fun u n => removeMember f n u) s).modRing f fun r => { r with
      window := [], prevRaw := none, prevSmooth := none, lastError := none, pendingBreak := true })) ∧
  (∀ (s u : State) (c : Chan) (ch : Channel), ch = s.chans[c] → ch.state ≠ .holding → (bankOf s c).lossHold = 0 →
    u = condition (.holding c) false true (raise (.channelState c) s) →
    (∀ a, s.outputs[c].onAir = some a → s.slots[a.slot].state = .onAir) →
    enterHolding c s = { (match s.outputs[c].onAir with | some a => release a.slot u | none => u) with
      chans := s.chans.set c { ch with state := .holding }
      outputs := s.outputs.set c { s.outputs[c] with hold := some 0, display := .black, onAir := none }
      aux := s.aux.map fun a => if a.mode = .alertOutput ∧ a.mask.getLsbD c.val = true
        then { a with expiry := some (s.dev.houseTime + 5400000) } else a }) ∧
  (∀ (s : State) (c : Chan) (ch : Channel) (b : Bank) (r : Receiver) (ok : Prop), ch = s.chans[c] →
    b = bankOf s c → r = s.rxs[b.feed] →
    (ok ↔ r.state = .locked ∧ ∃ i, r.detected = some i ∧ (b.expected = none ∨ b.expected = some i)) →
    (ch.state = .stopped → followFeed c s = s) ∧
    (ok → ch.state = .waitFeed ∨ ch.state = .holding → followFeed c s = enterPriming c s) ∧
    (¬ ok → ch.state = .waitFeed ∨ ch.state = .holding → followFeed c s = s) ∧
    (ok → ch.state = .priming ∨ ch.state = .running → followFeed c s = s) ∧
    (¬ ok → ch.state = .priming ∨ ch.state = .running → followFeed c s = enterHolding c s) ∧
    (∀ i d, r.state = .locked → r.detected = some i → (b.expected = none ∨ b.expected = some i) →
      d = effectiveDelay b (Config.pNom i) s.rings[b.feed].depth →
      enterPriming c s = condition (.holding c) (ch.state = .holding) false (raise (.channelState c) { s with
        outputs := s.outputs.set c { s.outputs[c] with hold := none }
        chans := s.chans.set c { ch with state := .priming, listKind := none, dlyEff := some d } })) ∧
    (ch.state ≠ .holding → b.lossHold ≠ 0 →
      ∃ u : State, u = condition (.holding c) false true (raise (.channelState c) s) ∧
        enterHolding c s = { u with
          chans := s.chans.set c { ch with state := .holding }
          outputs := s.outputs.set c { s.outputs[c] with hold := some b.lossHold }
          aux := s.aux.map fun a => if a.mode = .alertOutput ∧ a.mask.getLsbD c.val = true
            then { a with expiry := some (s.dev.houseTime + 5400000) } else a })) ∧
  (∀ (b : Bank) (pIn depth : Nat),
    (b.delay = none → effectiveDelay b pIn depth =
      (if b.mode = .filmAware then 3 * pIn else 2 * pIn) + b.pOut + 27000) ∧
    (∀ x : Nat, b.delay = some x →
      ((depth - 1) * pIn < pIn + b.pOut → effectiveDelay b pIn depth = pIn + b.pOut) ∧
      (pIn + b.pOut ≤ (depth - 1) * pIn →
        effectiveDelay b pIn depth = min (max x (pIn + b.pOut)) ((depth - 1) * pIn))))

/-! ## Profile table -/

/-- PROFILE_BEGIN, PROFILE_DATA and PROFILE_ABANDON (R143, R144): each by its checks; what is accepted changes the
requesting port's staging buffer and nothing else. -/
def Obligations.ProfileStaging : Prop :=
  ∀ (s t : State) (dt : Nat) (p : Port) (tag : Byte), t = s.elapse dt → Taken t p →
    (∀ (w k n h : Word) (ok : Prop),
      (ok ↔ (k = 0#16 ∧ (n = 2#16 ∨ n = 4#16 ∨ n = 6#16 ∨ n = 8#16) ∧ (h = 16#16 ∨ h = 32#16 ∨ h = 64#16)) ∨
        (k = 1#16 ∧ n = 0#16 ∧ h = 0#16)) →
      (15 < w.toNat ∨ ¬ ok →
        exec (.profileBegin dt p tag [w, k, n, h]) s = .next (t.answered p .invalid tag [] 4)) ∧
      (w.toNat ≤ 5 → ok →
        exec (.profileBegin dt p tag [w, k, n, h]) s = .next (t.answered p .refused tag [5#16] 4)) ∧
      (∀ (e : EntryNo) (shape : Shape) (size : Nat), e.val = w.toNat → 5 < e.val → ok →
        shape = (if k = 0#16 then .resample n.toNat h.toNat else .matrix) →
        size = (if k = 0#16 then n.toNat * h.toNat else 9) →
        exec (.profileBegin dt p tag [w, k, n, h]) s = .next ((t.modPort p fun r =>
          { r with staging := some ⟨e, shape, List.replicate size none⟩ }).replied t p .ok tag [] 4))) ∧
    (∀ (o a b c d : Word),
      ((t.port p).staging = none →
        exec (.profileData dt p tag [o, a, b, c, d]) s = .next (t.answered p .refused tag [6#16] 5)) ∧
      (∀ g : Staging, (t.port p).staging = some g → g.shape.size ≤ o.toNat + 3 →
        exec (.profileData dt p tag [o, a, b, c, d]) s = .next (t.answered p .invalid tag [] 5)) ∧
      (∀ g : Staging, (t.port p).staging = some g → o.toNat + 3 < g.shape.size → g.words.length = g.shape.size →
        ∃ ws : List (Option Word),
          exec (.profileData dt p tag [o, a, b, c, d]) s = .next ((t.modPort p fun r =>
            { r with staging := some { g with words := ws } }).replied t p .ok tag [] 5) ∧
          ws.length = g.shape.size ∧
          (∀ k : Fin 4, ws[o.toNat + k.val]? = some ([a, b, c, d][k.val]?)) ∧
          ∀ i : Nat, i < o.toNat ∨ o.toNat + 4 ≤ i → ws[i]? = g.words[i]?)) ∧
    ((t.port p).staging = none → exec (.profileAbandon dt p tag []) s = .next (t.answered p .already tag [] 0)) ∧
    ((t.port p).staging ≠ none → exec (.profileAbandon dt p tag []) s =
      .next ((t.modPort p fun r => { r with staging := none }).replied t p .ok tag [] 0))

/-- PROFILE_COMMIT starts a validation of 2,700 + 27 · S ticks (R145), at whose end the first failing check decides:
EMPTY, CHECKSUM_ERROR, UNRECOGNISED, VALIDATION_FAILED with the lowest failing position, or the content is installed
(R146), announced, and REQUEST_DONE raised (R188); the staging is closed in every case. Not due, VALIDATION_END
changes nothing (log entry 3). -/
def Obligations.CommitValidatesAndInstalls : Prop :=
  (∀ (s t : State) (dt : Nat) (p : Port) (tag : Byte) (w : Word), t = s.elapse dt → Taken t p →
    ((t.port p).staging = none →
      exec (.profileCommit dt p tag [w]) s = .next (t.answered p .refused tag [6#16] 1)) ∧
    (∀ g : Staging, (t.port p).staging = some g →
      exec (.profileCommit dt p tag [w]) s = .next ((t.taking p 1).modPort p fun r =>
        { r with mailbox := .busy (.commit tag w (t.dev.houseTime + (2700 + 27 * g.shape.size))) }))) ∧
  (∀ (s t : State) (dt ends : Nat) (p : Port) (tag : Byte) (sum : Word) (g : Staging) (words : List Word)
      (c : List Int) (fails : Nat → Prop), t = s.elapse dt → t.dev.state = .ready →
    (t.port p).mailbox = .busy (.commit tag sum ends) → (t.port p).staging = some g →
    words = g.words.filterMap id → c = words.map BitVec.toInt →
    (∀ i, fails i ↔ i < g.shape.size ∧ (match g.shape with
      | .resample n _ => ¬ (-512 ≤ c.getD i 0 ∧ c.getD i 0 ≤ 511) ∨
          (i % n = n - 1 ∧ ((c.drop (i + 1 - n)).take n).sum ≠ 256)
      | .matrix => ¬ (-8192 ≤ c.getD i 0 ∧ c.getD i 0 ≤ 8191))) →
    (t.dev.houseTime < ends → exec (.validationEnd dt p) s = .next t) ∧
    (ends ≤ t.dev.houseTime → ∃ (status : Status) (out : List Word) (a : State),
      exec (.validationEnd dt p) s = .next (raiseAt p .requestDone (a.modPort p fun r =>
        { r with staging := none, mailbox := .done, held := some ⟨status, tag, out⟩ })) ∧
      (words = [] → status = .empty ∧ out = [] ∧ a = t) ∧
      (words ≠ [] → words.foldl (· + ·) sum ≠ 0#16 → status = .checksumError ∧ out = [] ∧ a = t) ∧
      (words ≠ [] → words.foldl (· + ·) sum = 0#16 → words.length ≠ g.shape.size →
        status = .unrecognised ∧ out = [] ∧ a = t) ∧
      (∀ i, words ≠ [] → words.foldl (· + ·) sum = 0#16 → words.length = g.shape.size → fails i →
        (∀ j, j < i → ¬ fails j) → status = .validationFailed ∧ out = [BitVec.ofNat 16 i] ∧ a = t) ∧
      (∀ x : Profile, x = t.profiles[g.entry] → words ≠ [] → words.foldl (· + ·) sum = 0#16 →
        words.length = g.shape.size → (∀ i, ¬ fails i) →
        out = [] ∧
        (x.active = none ∨ x.users = 0 → status = .committed ∧
          a = announce p ⟨0x52#8, some g.entry.val, none⟩ { t with profiles := (t.profiles.set g.entry
            { x with active := some ⟨g.shape, c⟩, pending := none }) }) ∧
        (x.active ≠ none → x.users ≠ 0 → status = .committedPending ∧
          a = announce p ⟨0x52#8, some g.entry.val, none⟩ { t with profiles := (t.profiles.set g.entry
            { x with pending := some ⟨g.shape, c⟩ }) })))) ∧
  (∀ (s t : State) (dt : Nat) (p : Port), t = s.elapse dt →
    (t.dev.state = .starting ∨ ∀ tag sum ends, (t.port p).mailbox ≠ .busy (.commit tag sum ends)) →
    exec (.validationEnd dt p) s = .next t)

/-! ## Auxiliary lines -/

/-- SET_AUX_LINE (R170): INVALID, or the three values with what a change of mode brings; a change is announced. A level
change starts or stops the debounce timer of a TAKE_INPUT line; 27,000 ticks later the level is taken, and an edge
that the select includes counts and takes on each channel of the mask (R171, R100); a line is asserted by R172 and
R173, and an alert hold ends at its expiry. What is not due changes nothing (log entry 3). -/
def Obligations.AuxiliaryLines : Prop :=
  (∀ (s t : State) (dt : Nat) (p : Port) (tag : Byte) (w m e k : Word), t = s.elapse dt → Taken t p →
     (3 < w.toNat ∨ 3 < m.toNat ∨ 2 < e.toNat ∨ 255 < k.toNat →
       exec (.setAuxLine dt p tag [w, m, e, k]) s = .next (t.answered p .invalid tag [] 4)) ∧
     (∀ (x : AuxNo) (a b : AuxLine) (mode : AuxMode) (edge : AuxEdge), x.val = w.toNat → a = t.aux[x] →
       m = BitVec.ofNat 16 mode.code → e = BitVec.ofNat 16 edge.code → k.toNat ≤ 255 →
       b = (if a.mode = mode then { a with edge := edge, mask := k.setWidth 8 }
         else { mode := mode, edge := edge, mask := k.setWidth 8, timer := none, expiry := none
                debounced := if mode = .takeInput then some a.pin else none
                triggers := a.triggers, pin := a.pin }) →
       ((a.mode = mode ∧ a.edge = edge ∧ a.mask = k.setWidth 8) →
         exec (.setAuxLine dt p tag [w, m, e, k]) s = .next (t.answered p .ok tag [] 4)) ∧
       (¬ (a.mode = mode ∧ a.edge = edge ∧ a.mask = k.setWidth 8) →
         exec (.setAuxLine dt p tag [w, m, e, k]) s = .next ((announce p ⟨0x70#8, some x.val, none⟩
           { t with aux := t.aux.set x b }).replied t p .ok tag [] 4)))) ∧
  (∀ (s t : State) (dt : Nat) (x : AuxNo) (a : AuxLine), t = s.elapse dt → a = t.aux[x] →
     (∀ high : Bool, exec (.auxLevelChange dt x high) s = .next (t.modAux x fun a => { a with
       pin := high
       timer := if t.dev.state = .ready ∧ a.mode = .takeInput ∧ a.pin ≠ high
         then (if a.debounced = some high then none else some t.dev.houseTime) else a.timer })) ∧
     (∀ (from_ : Nat) (qualifies : Bool) (u : State), t.dev.state = .ready → a.mode = .takeInput →
       a.timer = some from_ → from_ + 27000 ≤ t.dev.houseTime →
       qualifies = (match a.edge, a.pin with
         | .both, _ => true | .rising, high => high | .falling, high => !high) →
       u = (t.modAux x fun a => { a with
         debounced := some a.pin, timer := none
         triggers := if qualifies then satAdd 65535 a.triggers 1 else a.triggers }) →
       (qualifies = false → exec (.debounceExpiry dt x) s = .next u) ∧
       (qualifies = true → exec (.debounceExpiry dt x) s =
         .next (((List.finRange 8).filter fun c => a.mask.getLsbD c.val).foldl (fun s c =>
           let v := (takeOn c s).2
           let entry : PeerEntry := ⟨0x34#8, some c.val, some v.chans[c].revision⟩
           peerAppend .b entry (peerAppend .a entry v)) u))) ∧
     (t.dev.state = .starting ∨ a.mode ≠ .takeInput ∨
         (∀ from_, a.timer = some from_ → t.dev.houseTime < from_ + 27000) →
       exec (.debounceExpiry dt x) s = .next t) ∧
     (∀ e : Nat, t.dev.state = .ready → a.expiry = some e → e ≤ t.dev.houseTime →
       exec (.alertExpiry dt x) s = .next (t.modAux x fun a => { a with expiry := none })) ∧
     (t.dev.state = .starting ∨ (∀ e, a.expiry = some e → t.dev.houseTime < e) →
       exec (.alertExpiry dt x) s = .next t) ∧
     auxAsserted t x = (match t.dev.state, a.mode with
       | .starting, _ => false
       | .ready, .tallyOutput => decide (∃ c : Chan, a.mask.getLsbD c.val = true ∧ t.chans[c].state = .running ∧
           (bankOf t c).enable = true)
       | .ready, .alertOutput => a.expiry.isSome
       | .ready, .disabled => false
       | .ready, .takeInput => false))

/-! ## Requests that read -/

/-- The requests that read: the answer is OK with the record's words, in the order of the owner's rule (R14, R33, R34,
R56, R73, R90, R96, R110, R147, R169, R174, R184), spelled out record by record (the layouts of composite records
are log entry 18; among them the scan of a measured structure and the shorter form of an open film frame), and nothing
changes but what R34, R53 and R110 clear, whose answer shows the values before the clearing. An enumerated value is
coded by its position in its record table, a selection case as listed (note 1 of file 11). A request that names no such
record, or a flag other than 0 and 1, is INVALID. -/
def Obligations.ReadRequests : Prop :=
  ([DevState.starting, .ready].map DevState.code = [0, 1] ∧
   [Cause.powerOn, .pin, .request].map Cause.code = [0, 1, 2] ∧
   [LoadResult.loaded, .skipped, .failed].map LoadResult.code = [0, 1, 2] ∧
   [RefState.absent, .locking, .locked, .holdover].map RefState.code = [0, 1, 2, 3] ∧
   [EpochKind.synthetic, .provisional, .pulse].map EpochKind.code = [0, 1, 2] ∧
   [SlotState.free, .filling, .complete, .detached, .rendering, .ready, .onAir, .retired].map SlotState.code =
     [0, 1, 2, 3, 4, 5, 6, 7] ∧
   [SlotKind.input, .output].map SlotKind.code = [0, 1] ∧
   [TagRole.first, .second, .dropped].map TagRole.code = [0, 1, 2] ∧
   [FaultReason.none, .uncorrectable, .retireLimit].map FaultReason.code = [0, 1, 2] ∧
   [RxState.noSignal, .acquiring, .locked, .unknown].map RxState.code = [0, 1, 2, 3] ∧
   [DetState.video, .candidate32, .locked32, .candidate22, .locked22].map DetState.code = [0, 1, 2, 3, 4] ∧
   [RepeatFlag.set, .clear, .unknown].map RepeatFlag.code = [0, 1, 2] ∧
   [Verdict.pass, .fail, .static, .unknown].map Verdict.code = [0, 1, 2, 3] ∧
   [TempMode.blend, .nearest, .filmAware].map TempMode.code = [0, 1, 2] ∧
   [DitherPeriod.off, .d4, .d8, .d16, .d32].map DitherPeriod.code = [0, 1, 2, 3, 4] ∧
   [BankId.a, .b].map BankId.code = [0, 1] ∧
   [ChanState.stopped, .waitFeed, .priming, .running, .holding].map ChanState.code = [0, 1, 2, 3, 4] ∧
   [ListKind.frames, .fields, .film].map ListKind.code = [0, 1, 2] ∧
   [DispatchOutcome.job, .noPicture, .noSlot].map DispatchOutcome.code = [0, 1, 2] ∧
   [SelCase.blend, .nearest, .single, .early, .late].map SelCase.code = [0, 1, 2, 3, 4] ∧
   [Display.black, .live, .repeat].map Display.code = [0, 1, 2] ∧
   [AuxMode.disabled, .takeInput, .tallyOutput, .alertOutput].map AuxMode.code = [0, 1, 2, 3] ∧
   [AuxEdge.rising, .falling, .both].map AuxEdge.code = [0, 1, 2]) ∧
  ((∀ b : Bank, b.words = w16 b.feed.val ++ w16 b.outStd.val ++ w16 b.ref.val ++ w16 (b.expected.elim 255 Fin.val : Nat) ++
      w32 b.offset ++ w32 (b.delay.getD 0xFFFFFFFF : Nat) ++ w16 b.mode.code ++ w16 b.ditherPeriod.code ++
      w16 b.ditherPhase.val ++ w16 b.lossHold ++ w16 (b.vProf.elim 255 Fin.val : Nat) ++ w16 (b.hProf.elim 255 Fin.val : Nat) ++
      w16 (b.mProf.elim 255 Fin.val : Nat) ++ w16 (if b.enable then 1 else 0)) ∧
   (∀ s : State, poolWords s =
      w16 s.free.length ++ wOpt 1 (fun n : SlotNo => w16 n.val) s.free.head? ++ w16 (retiredCount s) ++
      wList (fun n : SlotNo => w16 n.val) ((List.finRange 96).filter fun n => s.slots[n].state = .retired) ++
      ([SlotState.free, .filling, .complete, .detached, .rendering, .ready, .onAir, .retired].flatMap fun st =>
        w16 ((List.finRange 96).countP fun n => s.slots[n].state = st)) ++
      w16 ((List.finRange 96).countP fun n => s.slots[n].retirePending) ++
      w16 s.pool.correctable ++ w16 s.pool.uncorrectable ++ w16 s.pool.allocFailures ++ w16 s.pool.transitionErrors ++
      w16 s.pool.faultRec.reason.code ++ wOpt 1 (fun n : SlotNo => w16 n.val) s.pool.faultRec.slot ++
      w16 (match s.pool.faultRec.reader with
        | some (.lane l) => l.val | some (.output c) => 2 + c.val | none => 10) ++
      wOpt 4 (fun t : Nat => w64 t) s.pool.faultRec.time ++ w16 (if s.free = [] then 1 else 0)) ∧
   (∀ (n : SlotNo) (x : Slot) (tag : Option FilmTag → List Word),
      (∀ g, tag g = wOpt 2 (fun g : FilmTag => [g.number] ++ w16 g.role.code) g) →
      slotWords n x = w16 n.val ++ w16 x.state.code ++ wOpt 1 (fun k : SlotKind => w16 k.code) x.kind ++
        wOpt 1 (fun o : Fin 8 => w16 o.val) x.owner ++ wOpt 1 (fun i : StdId => w16 i.val) x.std ++
        wOpt 2 (fun q : BitVec 32 => w32 q.toNat) x.seq ++ wOpt 4 (fun t : Nat => w64 t) x.raw ++
        wList (fun t : Int => w64 t) (x.stamp1.toList ++ x.stamp2.toList) ++ tag x.tag1 ++ tag x.tag2 ++
        w16 (if x.breakBefore then 1 else 0) ++ w16 (if x.damaged then 1 else 0) ++ w16 (if x.fault then 1 else 0) ++
        w16 (if x.retirePending then 1 else 0) ++ w16 x.pins) ∧
   (∀ (s : State) (p : Port) (x : Profile) (pending : Bool) (off : Nat) (shape : Shape → List Word),
      (∀ n h, shape (.resample n h) = w16 0 ++ w16 n ++ w16 h) → shape .matrix = w16 1 ++ w16 0 ++ w16 0 →
      profileWords s p x pending off =
        w16 (match x.active, x.pending with | none, _ => 0 | some _, none => 1 | some _, some _ => 2) ++
        wOpt 3 (fun c : Content => shape c.shape) x.active ++ w16 x.users ++
        wOpt 3 (fun c : Content => shape c.shape) x.pending ++
        wList (fun v : Int => w16 v)
          (match (if pending then x.pending else x.active) with | some c => (c.coeffs.drop off).take 16 | none => []) ++
        wOpt 6 (fun b : Staging => w16 b.entry.val ++ shape b.shape ++
          w16 (match b.shape with | .resample n h => n * h | .matrix => 9) ++ w16 (b.words.filterMap id).length)
          (s.port p).staging) ∧
   (∀ (s : State) (x : AuxNo) (a : AuxLine) (level : Bool → List Word), a = s.aux[x] →
      (∀ h, level h = w16 (if h then 0 else 1)) →
      auxWords s x = w16 a.mode.code ++ w16 a.edge.code ++ w16 a.mask.toNat ++
        level (if auxAsserted s x then false else a.pin) ++ w16 (if auxAsserted s x then 1 else 0) ++
        wOpt 2 (fun h : Bool => level h ++ w16 (if a.timer.isSome then 1 else 0)) a.debounced ++
        wOpt 4 (fun t : Nat => w64 t) a.expiry ++ w16 a.triggers) ∧
   (∀ (s : State) (c : Chan) (ch : Channel) (o : Output) (held : Option Held → List Word), ch = s.chans[c] →
      o = s.outputs[c] → (∀ h, held h = wOpt 3 (fun h : Held => w16 h.slot.val ++ w32 h.frame.toNat) h) →
      channelWords s c = w16 ch.state.code ++ w16 (match ch.active with | .a => 0 | .b => 1) ++ [ch.revision] ++
        w16 (if ch.takePending then 1 else 0) ++
        (match ch.lastTake with
          | .none => w16 0 ++ wOpt 4 (fun t : Nat => w64 t) none
          | .applied t => w16 1 ++ wOpt 4 (fun t : Nat => w64 t) (some t)
          | .rejected t => w16 2 ++ wOpt 4 (fun t : Nat => w64 t) (some t)) ++
        wOpt 2 (fun d : Nat => w32 d) ch.dlyEff ++ w32 ch.frame.toNat ++
        wOpt 1 (fun x : DispatchOutcome => w16 x.code) ch.outcome ++
        wOpt 1 (fun x : ListKind => w16 x.code) ch.listKind ++
        wOpt 2 (fun x : SelReadback => w16 x.kind.code ++ wList (fun y : PassReadback => w16 y.sel.code ++
          wList (fun t : Int => w64 t) y.stamps ++ wOpt 1 (fun q : Nat => w16 q) y.q ++ w16 y.b) x.passes)
          ch.readback ++
        w16 ch.counters.presented ++ w16 ch.counters.late ++ w16 ch.counters.repeats ++ w16 ch.counters.srcEarly ++
        w16 ch.counters.srcLate ++
        wOpt 3 (fun r : Resolved => w16 r.v.val ++ w16 r.h.val ++ w16 r.m.val) ch.resolved ++
        w16 (if (bankOf s c).enable then 1 + o.display.code else 0) ++ w16 o.display.code ++
        held o.onAir ++ held o.ready ++ wOpt 1 (fun n : Nat => w16 n) o.hold ++
        w16 (if o.lateRun then 1 else 0))) ∧
  ((∀ (r : Receiver) (structure_ : Option Structure),
      structure_ = (match r.state with
        | .noSignal => none
        | .acquiring => r.lastClosed
        | .locked | .unknown => r.layout.map fun l => {
          total := l.lines.length, active := l.lines.countP fun c => !c.blank, width := some l.width
          interlaced := l.lines.any LineCode.field2 }) →
      receiverWords r = w16 r.state.code ++ wOpt 1 (fun i : StdId => w16 i.val) r.detected ++
        wOpt 1 (fun i : StdId => w16 i.val) r.lastLocked ++
        wOpt 5 (fun x : Structure => w16 x.total ++ w16 x.active ++ wOpt 1 (fun w : Nat => w16 w) x.width ++
          w16 (if x.interlaced then 1 else 0)) structure_ ++
        wOpt 2 (fun p : Nat => w32 p) r.pRef ++ wOpt 4 (fun t : Nat => w64 t) r.lastRaw ++ w16 r.run.count ++
        w32 r.seq.toNat ++
        (match r.capture with
          | .slot n => w16 0 ++ w16 n.val | .skipped => w16 1 ++ w16 0 | .none => w16 2 ++ w16 0) ++
        w16 r.lineErrors ++ w16 r.margin) ∧
   (∀ (s : State) (f : Feed) (r : Ring), r = s.rings[f] →
      ringWords s f = w16 r.depth ++ w16 (if r.cadenceEnable then 1 else 0) ++ w16 r.threshold ++
        wList (fun n : SlotNo => w16 n.val ++ w16 s.slots[n].state.code ++ w32 (s.slots[n].seq.getD 0).toNat ++
          wList (fun t : Int => w64 t) (s.slots[n].stamp1.toList ++ s.slots[n].stamp2.toList) ++
          w16 (if s.slots[n].breakBefore then 1 else 0) ++ w16 s.slots[n].pins) r.members ++
        w16 r.window.length ++ w32 (pEst s f) ++ w16 (rateDeviation s f) ++
        wOpt 4 (fun t : Int => w64 t) r.prevSmooth ++ wOpt 2 (fun e : Int => w32 e) r.lastError ++
        w16 (if r.pendingBreak then 1 else 0) ++
        wOpt 8 (fun h : Int × Nat => w64 h.1 ++ w64 h.2) r.lastHorizon ++
        w32 r.admitted ++ w32 r.skips ++ w32 r.overruns ++ w32 r.steps) ∧
   (∀ (d : Detector) (field : FieldRef → List Word),
      (∀ x, field x = w16 x.slot.val ++ w16 (if x.field2 then 2 else 1)) →
      detectorWords d = w16 d.state.code ++ wList (fun x : RepeatFlag => w16 x.code) d.history ++
        wOpt 1 (fun m : Nat => w16 m) d.lastM ++ wOpt 1 (fun p : Nat => w16 p) d.phase ++ w16 d.candidates ++
        wOpt 1 (fun m : Nat => w16 m) d.mIntra ++ w16 d.passCount ++ w16 d.failCount ++
        wOpt 1 (fun v : Verdict => w16 v.code) d.verdict ++ wOpt 4 (fun t : Int => w64 t) d.anchor ++ w16 d.half ++
        wOpt 4 (fun t : Int => w64 t) d.lastFilmStamp ++ [d.nextFilm] ++ w16 (if d.breakSeen then 1 else 0) ++
        wList (fun x : FilmEntry => [x.number] ++ w64 x.stamp ++ field x.first ++ field x.second ++
          w16 (if x.brk then 1 else 0)) d.films ++
        wOpt 7 (fun x : OpenFilm => [x.number] ++ w64 x.stamp ++ field x.first) d.openFilm ++ w32 d.breaks) ∧
   (∀ (v : Int) (k : Nat) (words : List Word), words.length = k →
      w16 v = [BitVec.ofInt 16 v] ∧
      w32 v = [BitVec.ofInt 16 (v / 65536), BitVec.ofInt 16 v] ∧
      w64 v = [BitVec.ofInt 16 (v / 281474976710656), BitVec.ofInt 16 (v / 4294967296),
        BitVec.ofInt 16 (v / 65536), BitVec.ofInt 16 v] ∧
      wOpt k (fun _ : Unit => words) (some ()) = 1#16 :: words ∧
      wOpt k (fun _ : Unit => words) none = 0#16 :: List.replicate k 0#16 ∧
      wList (fun _ : Unit => words) [(), ()] = 2#16 :: (words ++ words))) ∧
  ((∀ (s t : State) (dt : Nat) (p : Port) (tag : Byte), t = s.elapse dt → Taken t p →
      exec (.getDeviceStatus dt p tag 0x01#8 []) s = .next (t.answered p .ok tag
        (w16 t.dev.state.code ++ w16 t.dev.cause.code ++ w16 t.dev.load.code ++ w16 t.free.length ++
          w16 (retiredCount t) ++ w16 t.pool.correctable ++ w16 t.pool.uncorrectable ++ w64 t.dev.houseTime) 0) ∧
      (∀ n : RefNo, exec (.getReferenceStatus dt p tag [BitVec.ofNat 16 n.val]) s = .next (t.answered p .ok tag
        (w16 t.refs[n].state.code ++ w32 t.refs[n].tAlign ++ w64 t.refs[n].epoch ++ w16 t.refs[n].kind.code ++
          w64 (t.refs[n].epoch + t.refs[n].interval) ++ w32 t.refs[n].interval ++ w16 t.refs[n].good ++
          w16 t.refs[n].oot ++ wOpt 4 (fun x : Nat => w64 x) t.refs[n].lastPulse ++ w64 t.dev.houseTime) 1)) ∧
      (∀ f : Feed, exec (.getFeedStatus dt p tag [BitVec.ofNat 16 f.val]) s = .next (t.answered p .ok tag
        (receiverWords t.rxs[f] ++ ringWords t f ++ detectorWords t.dets[f]) 1)) ∧
      (∀ c : Chan, exec (.getChannel dt p tag [BitVec.ofNat 16 c.val]) s = .next (t.answered p .ok tag
        (t.chans[c].bankA.words ++ t.chans[c].bankB.words ++ w16 t.chans[c].active.code ++
          [t.chans[c].revision] ++ wFlag t.chans[c].takePending) 1)) ∧
      (∀ n : SlotNo, exec (.getSlot dt p tag [BitVec.ofNat 16 n.val]) s =
        .next (t.answered p .ok tag (slotWords n t.slots[n]) 1)) ∧
      (∀ (e : EntryNo) (pending : Bool) (off : Word), off.toNat ≤ 511 →
        exec (.getProfile dt p tag [BitVec.ofNat 16 e.val, (if pending then 1#16 else 0#16), off]) s =
          .next (t.answered p .ok tag (profileWords t p t.profiles[e] pending off.toNat) 3)) ∧
      exec (.getAuxStatus dt p tag []) s =
        .next (t.answered p .ok tag ((List.finRange 4).flatMap (auxWords t)) 0)) ∧
   (∀ (s t : State) (dt : Nat) (p : Port) (tag : Byte) (w v : Word), t = s.elapse dt → Taken t p →
      (2 ≤ w.toNat → exec (.getReferenceStatus dt p tag [w]) s = .next (t.answered p .invalid tag [] 1)) ∧
      (8 ≤ w.toNat → exec (.getFeedStatus dt p tag [w]) s = .next (t.answered p .invalid tag [] 1) ∧
        exec (.getLinkCheck dt p tag [w]) s = .next (t.answered p .invalid tag [] 1) ∧
        exec (.getChannel dt p tag [w]) s = .next (t.answered p .invalid tag [] 1)) ∧
      (96 ≤ w.toNat → exec (.getSlot dt p tag [w]) s = .next (t.answered p .invalid tag [] 1)) ∧
      (2 ≤ w.toNat → exec (.getPoolStatus dt p tag [w]) s = .next (t.answered p .invalid tag [] 1)) ∧
      (8 ≤ w.toNat ∨ 2 ≤ v.toNat →
        exec (.getChannelStatus dt p tag [w, v]) s = .next (t.answered p .invalid tag [] 2)) ∧
      (∀ off : Word, 16 ≤ w.toNat ∨ 2 ≤ v.toNat ∨ 511 < off.toNat →
        exec (.getProfile dt p tag [w, v, off]) s = .next (t.answered p .invalid tag [] 3)))) ∧
  (∀ (s t : State) (dt : Nat) (p : Port) (tag : Byte), t = s.elapse dt → Taken t p →
     exec (.getPoolStatus dt p tag [0#16]) s = .next (t.answered p .ok tag (poolWords t) 1) ∧
     exec (.getPoolStatus dt p tag [1#16]) s = .next (({ t with pool := { t.pool with
       correctable := 0, uncorrectable := 0, allocFailures := 0, transitionErrors := 0 } }).replied t p .ok tag
         (poolWords t) 1) ∧
     (∀ f : Feed, exec (.getLinkCheck dt p tag [BitVec.ofNat 16 f.val]) s = .next
       ((t.modRx f fun r => { r with linkErrors := 0, erroredFrames := 0, lowestMargin := r.margin }).replied t p
         .ok tag (w16 t.rxs[f].state.code ++ w32 t.rxs[f].linkErrors ++ w16 t.rxs[f].erroredFrames ++
           w16 t.rxs[f].margin ++ w16 t.rxs[f].lowestMargin) 1)) ∧
     (∀ c : Chan, exec (.getChannelStatus dt p tag [BitVec.ofNat 16 c.val, 0#16]) s =
         .next (t.answered p .ok tag (channelWords t c) 2) ∧
       exec (.getChannelStatus dt p tag [BitVec.ofNat 16 c.val, 1#16]) s =
         .next ((t.modChan c fun ch => { ch with counters := ⟨0, 0, 0, 0, 0⟩ }).replied t p .ok tag
           (channelWords t c) 2)))
end

