-- ==== Sys2Proof/Laws/State.lean ====
section
/-! SUPPORT. Lemmas of the state: one per field per update, and reading a record after a change of one. -/

namespace Sys2Proof.Machine

/-! ## Reading after a change -/

@[simp] theorem PerPort.get_set_same {α : Type} (x : PerPort α) (p : Port) (v : α) : (x.set p v).get p = v := by
  cases p <;> rfl

theorem PerPort.get_set_other {α : Type} (x : PerPort α) (p q : Port) (v : α) (h : q ≠ p) :
    (x.set p v).get q = x.get q := by
  cases p <;> cases q <;> first | rfl | exact absurd rfl h

@[simp] theorem Port.other_ne (p : Port) : p.other ≠ p := by cases p <;> decide

theorem modifyAt_same {α : Type} {n : Nat} (v : Vector α n) (i : Fin n) (f : α → α) :
    (modifyAt v i f)[i] = f v[i] := by
  simp [modifyAt]

theorem modifyAt_other {α : Type} {n : Nat} (v : Vector α n) (i j : Fin n) (f : α → α) (h : j ≠ i) :
    (modifyAt v i f)[j] = v[j] := by
  have h' : i.val ≠ j.val := fun e => h (Fin.ext e.symm)
  simp [modifyAt, h']

theorem modifyAt_get {α : Type} {n : Nat} (v : Vector α n) (i j : Fin n) (f : α → α) :
    (modifyAt v i f)[j] = if j = i then f v[i] else v[j] := by
  by_cases h : j = i
  · subst h; rw [if_pos rfl]; exact modifyAt_same v j f
  · rw [if_neg h]; exact modifyAt_other v i j f h

/-- The same in the form that simp gives an index. -/
@[simp] theorem modifyAt_val {α : Type} {n : Nat} (v : Vector α n) (i : Fin n) (f : α → α) :
    (modifyAt v i f)[i.val] = f v[i.val] := modifyAt_same v i f

/-! ## Fields after an update -/

@[simp] theorem State.modPort_pending (s : State) (p : Port) (f : PortRec → PortRec) : (s.modPort p f).pending = s.pending := rfl
@[simp] theorem State.modPort_dev (s : State) (p : Port) (f : PortRec → PortRec) : (s.modPort p f).dev = s.dev := rfl
@[simp] theorem State.modPort_ports (s : State) (p : Port) (f : PortRec → PortRec) : (s.modPort p f).ports = s.ports.set p (f (s.ports.get p)) := rfl
@[simp] theorem State.modPort_units (s : State) (p : Port) (f : PortRec → PortRec) : (s.modPort p f).units = s.units := rfl
@[simp] theorem State.modPort_refs (s : State) (p : Port) (f : PortRec → PortRec) : (s.modPort p f).refs = s.refs := rfl
@[simp] theorem State.modPort_timing (s : State) (p : Port) (f : PortRec → PortRec) : (s.modPort p f).timing = s.timing := rfl
@[simp] theorem State.modPort_slots (s : State) (p : Port) (f : PortRec → PortRec) : (s.modPort p f).slots = s.slots := rfl
@[simp] theorem State.modPort_free (s : State) (p : Port) (f : PortRec → PortRec) : (s.modPort p f).free = s.free := rfl
@[simp] theorem State.modPort_pool (s : State) (p : Port) (f : PortRec → PortRec) : (s.modPort p f).pool = s.pool := rfl
@[simp] theorem State.modPort_dram (s : State) (p : Port) (f : PortRec → PortRec) : (s.modPort p f).dram = s.dram := rfl
@[simp] theorem State.modPort_rxs (s : State) (p : Port) (f : PortRec → PortRec) : (s.modPort p f).rxs = s.rxs := rfl
@[simp] theorem State.modPort_rings (s : State) (p : Port) (f : PortRec → PortRec) : (s.modPort p f).rings = s.rings := rfl
@[simp] theorem State.modPort_dets (s : State) (p : Port) (f : PortRec → PortRec) : (s.modPort p f).dets = s.dets := rfl
@[simp] theorem State.modPort_chans (s : State) (p : Port) (f : PortRec → PortRec) : (s.modPort p f).chans = s.chans := rfl
@[simp] theorem State.modPort_profiles (s : State) (p : Port) (f : PortRec → PortRec) : (s.modPort p f).profiles = s.profiles := rfl
@[simp] theorem State.modPort_queue (s : State) (p : Port) (f : PortRec → PortRec) : (s.modPort p f).queue = s.queue := rfl
@[simp] theorem State.modPort_lanes (s : State) (p : Port) (f : PortRec → PortRec) : (s.modPort p f).lanes = s.lanes := rfl
@[simp] theorem State.modPort_outputs (s : State) (p : Port) (f : PortRec → PortRec) : (s.modPort p f).outputs = s.outputs := rfl
@[simp] theorem State.modPort_aux (s : State) (p : Port) (f : PortRec → PortRec) : (s.modPort p f).aux = s.aux := rfl
@[simp] theorem State.modPort_freeCount (s : State) (p : Port) (f : PortRec → PortRec) : (s.modPort p f).freeCount = s.freeCount := rfl
@[simp] theorem State.modPort_partials (s : State) (p : Port) (f : PortRec → PortRec) : (s.modPort p f).partials = s.partials := rfl

@[simp] theorem State.setUnit_pending (s : State) (p : Port) (u : EventUnit) : (s.setUnit p u).pending = s.pending := rfl
@[simp] theorem State.setUnit_dev (s : State) (p : Port) (u : EventUnit) : (s.setUnit p u).dev = s.dev := rfl
@[simp] theorem State.setUnit_ports (s : State) (p : Port) (u : EventUnit) : (s.setUnit p u).ports = s.ports := rfl
@[simp] theorem State.setUnit_units (s : State) (p : Port) (u : EventUnit) : (s.setUnit p u).units = s.units.set p u := rfl
@[simp] theorem State.setUnit_refs (s : State) (p : Port) (u : EventUnit) : (s.setUnit p u).refs = s.refs := rfl
@[simp] theorem State.setUnit_timing (s : State) (p : Port) (u : EventUnit) : (s.setUnit p u).timing = s.timing := rfl
@[simp] theorem State.setUnit_slots (s : State) (p : Port) (u : EventUnit) : (s.setUnit p u).slots = s.slots := rfl
@[simp] theorem State.setUnit_free (s : State) (p : Port) (u : EventUnit) : (s.setUnit p u).free = s.free := rfl
@[simp] theorem State.setUnit_pool (s : State) (p : Port) (u : EventUnit) : (s.setUnit p u).pool = s.pool := rfl
@[simp] theorem State.setUnit_dram (s : State) (p : Port) (u : EventUnit) : (s.setUnit p u).dram = s.dram := rfl
@[simp] theorem State.setUnit_rxs (s : State) (p : Port) (u : EventUnit) : (s.setUnit p u).rxs = s.rxs := rfl
@[simp] theorem State.setUnit_rings (s : State) (p : Port) (u : EventUnit) : (s.setUnit p u).rings = s.rings := rfl
@[simp] theorem State.setUnit_dets (s : State) (p : Port) (u : EventUnit) : (s.setUnit p u).dets = s.dets := rfl
@[simp] theorem State.setUnit_chans (s : State) (p : Port) (u : EventUnit) : (s.setUnit p u).chans = s.chans := rfl
@[simp] theorem State.setUnit_profiles (s : State) (p : Port) (u : EventUnit) : (s.setUnit p u).profiles = s.profiles := rfl
@[simp] theorem State.setUnit_queue (s : State) (p : Port) (u : EventUnit) : (s.setUnit p u).queue = s.queue := rfl
@[simp] theorem State.setUnit_lanes (s : State) (p : Port) (u : EventUnit) : (s.setUnit p u).lanes = s.lanes := rfl
@[simp] theorem State.setUnit_outputs (s : State) (p : Port) (u : EventUnit) : (s.setUnit p u).outputs = s.outputs := rfl
@[simp] theorem State.setUnit_aux (s : State) (p : Port) (u : EventUnit) : (s.setUnit p u).aux = s.aux := rfl
@[simp] theorem State.setUnit_freeCount (s : State) (p : Port) (u : EventUnit) : (s.setUnit p u).freeCount = s.freeCount := rfl
@[simp] theorem State.setUnit_partials (s : State) (p : Port) (u : EventUnit) : (s.setUnit p u).partials = s.partials := rfl

@[simp] theorem State.modRef_pending (s : State) (n : RefNo) (f : Reference → Reference) : (s.modRef n f).pending = s.pending := rfl
@[simp] theorem State.modRef_dev (s : State) (n : RefNo) (f : Reference → Reference) : (s.modRef n f).dev = s.dev := rfl
@[simp] theorem State.modRef_ports (s : State) (n : RefNo) (f : Reference → Reference) : (s.modRef n f).ports = s.ports := rfl
@[simp] theorem State.modRef_units (s : State) (n : RefNo) (f : Reference → Reference) : (s.modRef n f).units = s.units := rfl
@[simp] theorem State.modRef_refs (s : State) (n : RefNo) (f : Reference → Reference) : (s.modRef n f).refs = modifyAt s.refs n f := rfl
@[simp] theorem State.modRef_timing (s : State) (n : RefNo) (f : Reference → Reference) : (s.modRef n f).timing = s.timing := rfl
@[simp] theorem State.modRef_slots (s : State) (n : RefNo) (f : Reference → Reference) : (s.modRef n f).slots = s.slots := rfl
@[simp] theorem State.modRef_free (s : State) (n : RefNo) (f : Reference → Reference) : (s.modRef n f).free = s.free := rfl
@[simp] theorem State.modRef_pool (s : State) (n : RefNo) (f : Reference → Reference) : (s.modRef n f).pool = s.pool := rfl
@[simp] theorem State.modRef_dram (s : State) (n : RefNo) (f : Reference → Reference) : (s.modRef n f).dram = s.dram := rfl
@[simp] theorem State.modRef_rxs (s : State) (n : RefNo) (f : Reference → Reference) : (s.modRef n f).rxs = s.rxs := rfl
@[simp] theorem State.modRef_rings (s : State) (n : RefNo) (f : Reference → Reference) : (s.modRef n f).rings = s.rings := rfl
@[simp] theorem State.modRef_dets (s : State) (n : RefNo) (f : Reference → Reference) : (s.modRef n f).dets = s.dets := rfl
@[simp] theorem State.modRef_chans (s : State) (n : RefNo) (f : Reference → Reference) : (s.modRef n f).chans = s.chans := rfl
@[simp] theorem State.modRef_profiles (s : State) (n : RefNo) (f : Reference → Reference) : (s.modRef n f).profiles = s.profiles := rfl
@[simp] theorem State.modRef_queue (s : State) (n : RefNo) (f : Reference → Reference) : (s.modRef n f).queue = s.queue := rfl
@[simp] theorem State.modRef_lanes (s : State) (n : RefNo) (f : Reference → Reference) : (s.modRef n f).lanes = s.lanes := rfl
@[simp] theorem State.modRef_outputs (s : State) (n : RefNo) (f : Reference → Reference) : (s.modRef n f).outputs = s.outputs := rfl
@[simp] theorem State.modRef_aux (s : State) (n : RefNo) (f : Reference → Reference) : (s.modRef n f).aux = s.aux := rfl
@[simp] theorem State.modRef_freeCount (s : State) (n : RefNo) (f : Reference → Reference) : (s.modRef n f).freeCount = s.freeCount := rfl
@[simp] theorem State.modRef_partials (s : State) (n : RefNo) (f : Reference → Reference) : (s.modRef n f).partials = s.partials := rfl

@[simp] theorem State.modTiming_pending (s : State) (c : Chan) (f : OutTiming → OutTiming) : (s.modTiming c f).pending = s.pending := rfl
@[simp] theorem State.modTiming_dev (s : State) (c : Chan) (f : OutTiming → OutTiming) : (s.modTiming c f).dev = s.dev := rfl
@[simp] theorem State.modTiming_ports (s : State) (c : Chan) (f : OutTiming → OutTiming) : (s.modTiming c f).ports = s.ports := rfl
@[simp] theorem State.modTiming_units (s : State) (c : Chan) (f : OutTiming → OutTiming) : (s.modTiming c f).units = s.units := rfl
@[simp] theorem State.modTiming_refs (s : State) (c : Chan) (f : OutTiming → OutTiming) : (s.modTiming c f).refs = s.refs := rfl
@[simp] theorem State.modTiming_timing (s : State) (c : Chan) (f : OutTiming → OutTiming) : (s.modTiming c f).timing = modifyAt s.timing c f := rfl
@[simp] theorem State.modTiming_slots (s : State) (c : Chan) (f : OutTiming → OutTiming) : (s.modTiming c f).slots = s.slots := rfl
@[simp] theorem State.modTiming_free (s : State) (c : Chan) (f : OutTiming → OutTiming) : (s.modTiming c f).free = s.free := rfl
@[simp] theorem State.modTiming_pool (s : State) (c : Chan) (f : OutTiming → OutTiming) : (s.modTiming c f).pool = s.pool := rfl
@[simp] theorem State.modTiming_dram (s : State) (c : Chan) (f : OutTiming → OutTiming) : (s.modTiming c f).dram = s.dram := rfl
@[simp] theorem State.modTiming_rxs (s : State) (c : Chan) (f : OutTiming → OutTiming) : (s.modTiming c f).rxs = s.rxs := rfl
@[simp] theorem State.modTiming_rings (s : State) (c : Chan) (f : OutTiming → OutTiming) : (s.modTiming c f).rings = s.rings := rfl
@[simp] theorem State.modTiming_dets (s : State) (c : Chan) (f : OutTiming → OutTiming) : (s.modTiming c f).dets = s.dets := rfl
@[simp] theorem State.modTiming_chans (s : State) (c : Chan) (f : OutTiming → OutTiming) : (s.modTiming c f).chans = s.chans := rfl
@[simp] theorem State.modTiming_profiles (s : State) (c : Chan) (f : OutTiming → OutTiming) : (s.modTiming c f).profiles = s.profiles := rfl
@[simp] theorem State.modTiming_queue (s : State) (c : Chan) (f : OutTiming → OutTiming) : (s.modTiming c f).queue = s.queue := rfl
@[simp] theorem State.modTiming_lanes (s : State) (c : Chan) (f : OutTiming → OutTiming) : (s.modTiming c f).lanes = s.lanes := rfl
@[simp] theorem State.modTiming_outputs (s : State) (c : Chan) (f : OutTiming → OutTiming) : (s.modTiming c f).outputs = s.outputs := rfl
@[simp] theorem State.modTiming_aux (s : State) (c : Chan) (f : OutTiming → OutTiming) : (s.modTiming c f).aux = s.aux := rfl
@[simp] theorem State.modTiming_freeCount (s : State) (c : Chan) (f : OutTiming → OutTiming) : (s.modTiming c f).freeCount = s.freeCount := rfl
@[simp] theorem State.modTiming_partials (s : State) (c : Chan) (f : OutTiming → OutTiming) : (s.modTiming c f).partials = s.partials := rfl

@[simp] theorem State.modSlot_pending (s : State) (n : SlotNo) (f : Slot → Slot) : (s.modSlot n f).pending = s.pending := rfl
@[simp] theorem State.modSlot_dev (s : State) (n : SlotNo) (f : Slot → Slot) : (s.modSlot n f).dev = s.dev := rfl
@[simp] theorem State.modSlot_ports (s : State) (n : SlotNo) (f : Slot → Slot) : (s.modSlot n f).ports = s.ports := rfl
@[simp] theorem State.modSlot_units (s : State) (n : SlotNo) (f : Slot → Slot) : (s.modSlot n f).units = s.units := rfl
@[simp] theorem State.modSlot_refs (s : State) (n : SlotNo) (f : Slot → Slot) : (s.modSlot n f).refs = s.refs := rfl
@[simp] theorem State.modSlot_timing (s : State) (n : SlotNo) (f : Slot → Slot) : (s.modSlot n f).timing = s.timing := rfl
@[simp] theorem State.modSlot_slots (s : State) (n : SlotNo) (f : Slot → Slot) : (s.modSlot n f).slots = modifyAt s.slots n f := rfl
@[simp] theorem State.modSlot_free (s : State) (n : SlotNo) (f : Slot → Slot) : (s.modSlot n f).free = s.free := rfl
@[simp] theorem State.modSlot_pool (s : State) (n : SlotNo) (f : Slot → Slot) : (s.modSlot n f).pool = s.pool := rfl
@[simp] theorem State.modSlot_dram (s : State) (n : SlotNo) (f : Slot → Slot) : (s.modSlot n f).dram = s.dram := rfl
@[simp] theorem State.modSlot_rxs (s : State) (n : SlotNo) (f : Slot → Slot) : (s.modSlot n f).rxs = s.rxs := rfl
@[simp] theorem State.modSlot_rings (s : State) (n : SlotNo) (f : Slot → Slot) : (s.modSlot n f).rings = s.rings := rfl
@[simp] theorem State.modSlot_dets (s : State) (n : SlotNo) (f : Slot → Slot) : (s.modSlot n f).dets = s.dets := rfl
@[simp] theorem State.modSlot_chans (s : State) (n : SlotNo) (f : Slot → Slot) : (s.modSlot n f).chans = s.chans := rfl
@[simp] theorem State.modSlot_profiles (s : State) (n : SlotNo) (f : Slot → Slot) : (s.modSlot n f).profiles = s.profiles := rfl
@[simp] theorem State.modSlot_queue (s : State) (n : SlotNo) (f : Slot → Slot) : (s.modSlot n f).queue = s.queue := rfl
@[simp] theorem State.modSlot_lanes (s : State) (n : SlotNo) (f : Slot → Slot) : (s.modSlot n f).lanes = s.lanes := rfl
@[simp] theorem State.modSlot_outputs (s : State) (n : SlotNo) (f : Slot → Slot) : (s.modSlot n f).outputs = s.outputs := rfl
@[simp] theorem State.modSlot_aux (s : State) (n : SlotNo) (f : Slot → Slot) : (s.modSlot n f).aux = s.aux := rfl
@[simp] theorem State.modSlot_freeCount (s : State) (n : SlotNo) (f : Slot → Slot) : (s.modSlot n f).freeCount = s.freeCount := rfl
@[simp] theorem State.modSlot_partials (s : State) (n : SlotNo) (f : Slot → Slot) : (s.modSlot n f).partials = s.partials := rfl

@[simp] theorem State.modRx_pending (s : State) (x : Feed) (f : Receiver → Receiver) : (s.modRx x f).pending = s.pending := rfl
@[simp] theorem State.modRx_dev (s : State) (x : Feed) (f : Receiver → Receiver) : (s.modRx x f).dev = s.dev := rfl
@[simp] theorem State.modRx_ports (s : State) (x : Feed) (f : Receiver → Receiver) : (s.modRx x f).ports = s.ports := rfl
@[simp] theorem State.modRx_units (s : State) (x : Feed) (f : Receiver → Receiver) : (s.modRx x f).units = s.units := rfl
@[simp] theorem State.modRx_refs (s : State) (x : Feed) (f : Receiver → Receiver) : (s.modRx x f).refs = s.refs := rfl
@[simp] theorem State.modRx_timing (s : State) (x : Feed) (f : Receiver → Receiver) : (s.modRx x f).timing = s.timing := rfl
@[simp] theorem State.modRx_slots (s : State) (x : Feed) (f : Receiver → Receiver) : (s.modRx x f).slots = s.slots := rfl
@[simp] theorem State.modRx_free (s : State) (x : Feed) (f : Receiver → Receiver) : (s.modRx x f).free = s.free := rfl
@[simp] theorem State.modRx_pool (s : State) (x : Feed) (f : Receiver → Receiver) : (s.modRx x f).pool = s.pool := rfl
@[simp] theorem State.modRx_dram (s : State) (x : Feed) (f : Receiver → Receiver) : (s.modRx x f).dram = s.dram := rfl
@[simp] theorem State.modRx_rxs (s : State) (x : Feed) (f : Receiver → Receiver) : (s.modRx x f).rxs = modifyAt s.rxs x f := rfl
@[simp] theorem State.modRx_rings (s : State) (x : Feed) (f : Receiver → Receiver) : (s.modRx x f).rings = s.rings := rfl
@[simp] theorem State.modRx_dets (s : State) (x : Feed) (f : Receiver → Receiver) : (s.modRx x f).dets = s.dets := rfl
@[simp] theorem State.modRx_chans (s : State) (x : Feed) (f : Receiver → Receiver) : (s.modRx x f).chans = s.chans := rfl
@[simp] theorem State.modRx_profiles (s : State) (x : Feed) (f : Receiver → Receiver) : (s.modRx x f).profiles = s.profiles := rfl
@[simp] theorem State.modRx_queue (s : State) (x : Feed) (f : Receiver → Receiver) : (s.modRx x f).queue = s.queue := rfl
@[simp] theorem State.modRx_lanes (s : State) (x : Feed) (f : Receiver → Receiver) : (s.modRx x f).lanes = s.lanes := rfl
@[simp] theorem State.modRx_outputs (s : State) (x : Feed) (f : Receiver → Receiver) : (s.modRx x f).outputs = s.outputs := rfl
@[simp] theorem State.modRx_aux (s : State) (x : Feed) (f : Receiver → Receiver) : (s.modRx x f).aux = s.aux := rfl
@[simp] theorem State.modRx_freeCount (s : State) (x : Feed) (f : Receiver → Receiver) : (s.modRx x f).freeCount = s.freeCount := rfl
@[simp] theorem State.modRx_partials (s : State) (x : Feed) (f : Receiver → Receiver) : (s.modRx x f).partials = s.partials := rfl

@[simp] theorem State.modRing_pending (s : State) (x : Feed) (f : Ring → Ring) : (s.modRing x f).pending = s.pending := rfl
@[simp] theorem State.modRing_dev (s : State) (x : Feed) (f : Ring → Ring) : (s.modRing x f).dev = s.dev := rfl
@[simp] theorem State.modRing_ports (s : State) (x : Feed) (f : Ring → Ring) : (s.modRing x f).ports = s.ports := rfl
@[simp] theorem State.modRing_units (s : State) (x : Feed) (f : Ring → Ring) : (s.modRing x f).units = s.units := rfl
@[simp] theorem State.modRing_refs (s : State) (x : Feed) (f : Ring → Ring) : (s.modRing x f).refs = s.refs := rfl
@[simp] theorem State.modRing_timing (s : State) (x : Feed) (f : Ring → Ring) : (s.modRing x f).timing = s.timing := rfl
@[simp] theorem State.modRing_slots (s : State) (x : Feed) (f : Ring → Ring) : (s.modRing x f).slots = s.slots := rfl
@[simp] theorem State.modRing_free (s : State) (x : Feed) (f : Ring → Ring) : (s.modRing x f).free = s.free := rfl
@[simp] theorem State.modRing_pool (s : State) (x : Feed) (f : Ring → Ring) : (s.modRing x f).pool = s.pool := rfl
@[simp] theorem State.modRing_dram (s : State) (x : Feed) (f : Ring → Ring) : (s.modRing x f).dram = s.dram := rfl
@[simp] theorem State.modRing_rxs (s : State) (x : Feed) (f : Ring → Ring) : (s.modRing x f).rxs = s.rxs := rfl
@[simp] theorem State.modRing_rings (s : State) (x : Feed) (f : Ring → Ring) : (s.modRing x f).rings = modifyAt s.rings x f := rfl
@[simp] theorem State.modRing_dets (s : State) (x : Feed) (f : Ring → Ring) : (s.modRing x f).dets = s.dets := rfl
@[simp] theorem State.modRing_chans (s : State) (x : Feed) (f : Ring → Ring) : (s.modRing x f).chans = s.chans := rfl
@[simp] theorem State.modRing_profiles (s : State) (x : Feed) (f : Ring → Ring) : (s.modRing x f).profiles = s.profiles := rfl
@[simp] theorem State.modRing_queue (s : State) (x : Feed) (f : Ring → Ring) : (s.modRing x f).queue = s.queue := rfl
@[simp] theorem State.modRing_lanes (s : State) (x : Feed) (f : Ring → Ring) : (s.modRing x f).lanes = s.lanes := rfl
@[simp] theorem State.modRing_outputs (s : State) (x : Feed) (f : Ring → Ring) : (s.modRing x f).outputs = s.outputs := rfl
@[simp] theorem State.modRing_aux (s : State) (x : Feed) (f : Ring → Ring) : (s.modRing x f).aux = s.aux := rfl
@[simp] theorem State.modRing_freeCount (s : State) (x : Feed) (f : Ring → Ring) : (s.modRing x f).freeCount = s.freeCount := rfl
@[simp] theorem State.modRing_partials (s : State) (x : Feed) (f : Ring → Ring) : (s.modRing x f).partials = s.partials := rfl

@[simp] theorem State.modDet_pending (s : State) (x : Feed) (f : Detector → Detector) : (s.modDet x f).pending = s.pending := rfl
@[simp] theorem State.modDet_dev (s : State) (x : Feed) (f : Detector → Detector) : (s.modDet x f).dev = s.dev := rfl
@[simp] theorem State.modDet_ports (s : State) (x : Feed) (f : Detector → Detector) : (s.modDet x f).ports = s.ports := rfl
@[simp] theorem State.modDet_units (s : State) (x : Feed) (f : Detector → Detector) : (s.modDet x f).units = s.units := rfl
@[simp] theorem State.modDet_refs (s : State) (x : Feed) (f : Detector → Detector) : (s.modDet x f).refs = s.refs := rfl
@[simp] theorem State.modDet_timing (s : State) (x : Feed) (f : Detector → Detector) : (s.modDet x f).timing = s.timing := rfl
@[simp] theorem State.modDet_slots (s : State) (x : Feed) (f : Detector → Detector) : (s.modDet x f).slots = s.slots := rfl
@[simp] theorem State.modDet_free (s : State) (x : Feed) (f : Detector → Detector) : (s.modDet x f).free = s.free := rfl
@[simp] theorem State.modDet_pool (s : State) (x : Feed) (f : Detector → Detector) : (s.modDet x f).pool = s.pool := rfl
@[simp] theorem State.modDet_dram (s : State) (x : Feed) (f : Detector → Detector) : (s.modDet x f).dram = s.dram := rfl
@[simp] theorem State.modDet_rxs (s : State) (x : Feed) (f : Detector → Detector) : (s.modDet x f).rxs = s.rxs := rfl
@[simp] theorem State.modDet_rings (s : State) (x : Feed) (f : Detector → Detector) : (s.modDet x f).rings = s.rings := rfl
@[simp] theorem State.modDet_dets (s : State) (x : Feed) (f : Detector → Detector) : (s.modDet x f).dets = modifyAt s.dets x f := rfl
@[simp] theorem State.modDet_chans (s : State) (x : Feed) (f : Detector → Detector) : (s.modDet x f).chans = s.chans := rfl
@[simp] theorem State.modDet_profiles (s : State) (x : Feed) (f : Detector → Detector) : (s.modDet x f).profiles = s.profiles := rfl
@[simp] theorem State.modDet_queue (s : State) (x : Feed) (f : Detector → Detector) : (s.modDet x f).queue = s.queue := rfl
@[simp] theorem State.modDet_lanes (s : State) (x : Feed) (f : Detector → Detector) : (s.modDet x f).lanes = s.lanes := rfl
@[simp] theorem State.modDet_outputs (s : State) (x : Feed) (f : Detector → Detector) : (s.modDet x f).outputs = s.outputs := rfl
@[simp] theorem State.modDet_aux (s : State) (x : Feed) (f : Detector → Detector) : (s.modDet x f).aux = s.aux := rfl
@[simp] theorem State.modDet_freeCount (s : State) (x : Feed) (f : Detector → Detector) : (s.modDet x f).freeCount = s.freeCount := rfl
@[simp] theorem State.modDet_partials (s : State) (x : Feed) (f : Detector → Detector) : (s.modDet x f).partials = s.partials := rfl

@[simp] theorem State.modChan_pending (s : State) (c : Chan) (f : Channel → Channel) : (s.modChan c f).pending = s.pending := rfl
@[simp] theorem State.modChan_dev (s : State) (c : Chan) (f : Channel → Channel) : (s.modChan c f).dev = s.dev := rfl
@[simp] theorem State.modChan_ports (s : State) (c : Chan) (f : Channel → Channel) : (s.modChan c f).ports = s.ports := rfl
@[simp] theorem State.modChan_units (s : State) (c : Chan) (f : Channel → Channel) : (s.modChan c f).units = s.units := rfl
@[simp] theorem State.modChan_refs (s : State) (c : Chan) (f : Channel → Channel) : (s.modChan c f).refs = s.refs := rfl
@[simp] theorem State.modChan_timing (s : State) (c : Chan) (f : Channel → Channel) : (s.modChan c f).timing = s.timing := rfl
@[simp] theorem State.modChan_slots (s : State) (c : Chan) (f : Channel → Channel) : (s.modChan c f).slots = s.slots := rfl
@[simp] theorem State.modChan_free (s : State) (c : Chan) (f : Channel → Channel) : (s.modChan c f).free = s.free := rfl
@[simp] theorem State.modChan_pool (s : State) (c : Chan) (f : Channel → Channel) : (s.modChan c f).pool = s.pool := rfl
@[simp] theorem State.modChan_dram (s : State) (c : Chan) (f : Channel → Channel) : (s.modChan c f).dram = s.dram := rfl
@[simp] theorem State.modChan_rxs (s : State) (c : Chan) (f : Channel → Channel) : (s.modChan c f).rxs = s.rxs := rfl
@[simp] theorem State.modChan_rings (s : State) (c : Chan) (f : Channel → Channel) : (s.modChan c f).rings = s.rings := rfl
@[simp] theorem State.modChan_dets (s : State) (c : Chan) (f : Channel → Channel) : (s.modChan c f).dets = s.dets := rfl
@[simp] theorem State.modChan_chans (s : State) (c : Chan) (f : Channel → Channel) : (s.modChan c f).chans = modifyAt s.chans c f := rfl
@[simp] theorem State.modChan_profiles (s : State) (c : Chan) (f : Channel → Channel) : (s.modChan c f).profiles = s.profiles := rfl
@[simp] theorem State.modChan_queue (s : State) (c : Chan) (f : Channel → Channel) : (s.modChan c f).queue = s.queue := rfl
@[simp] theorem State.modChan_lanes (s : State) (c : Chan) (f : Channel → Channel) : (s.modChan c f).lanes = s.lanes := rfl
@[simp] theorem State.modChan_outputs (s : State) (c : Chan) (f : Channel → Channel) : (s.modChan c f).outputs = s.outputs := rfl
@[simp] theorem State.modChan_aux (s : State) (c : Chan) (f : Channel → Channel) : (s.modChan c f).aux = s.aux := rfl
@[simp] theorem State.modChan_freeCount (s : State) (c : Chan) (f : Channel → Channel) : (s.modChan c f).freeCount = s.freeCount := rfl
@[simp] theorem State.modChan_partials (s : State) (c : Chan) (f : Channel → Channel) : (s.modChan c f).partials = s.partials := rfl

@[simp] theorem State.modProfile_pending (s : State) (e : EntryNo) (f : Profile → Profile) : (s.modProfile e f).pending = s.pending := rfl
@[simp] theorem State.modProfile_dev (s : State) (e : EntryNo) (f : Profile → Profile) : (s.modProfile e f).dev = s.dev := rfl
@[simp] theorem State.modProfile_ports (s : State) (e : EntryNo) (f : Profile → Profile) : (s.modProfile e f).ports = s.ports := rfl
@[simp] theorem State.modProfile_units (s : State) (e : EntryNo) (f : Profile → Profile) : (s.modProfile e f).units = s.units := rfl
@[simp] theorem State.modProfile_refs (s : State) (e : EntryNo) (f : Profile → Profile) : (s.modProfile e f).refs = s.refs := rfl
@[simp] theorem State.modProfile_timing (s : State) (e : EntryNo) (f : Profile → Profile) : (s.modProfile e f).timing = s.timing := rfl
@[simp] theorem State.modProfile_slots (s : State) (e : EntryNo) (f : Profile → Profile) : (s.modProfile e f).slots = s.slots := rfl
@[simp] theorem State.modProfile_free (s : State) (e : EntryNo) (f : Profile → Profile) : (s.modProfile e f).free = s.free := rfl
@[simp] theorem State.modProfile_pool (s : State) (e : EntryNo) (f : Profile → Profile) : (s.modProfile e f).pool = s.pool := rfl
@[simp] theorem State.modProfile_dram (s : State) (e : EntryNo) (f : Profile → Profile) : (s.modProfile e f).dram = s.dram := rfl
@[simp] theorem State.modProfile_rxs (s : State) (e : EntryNo) (f : Profile → Profile) : (s.modProfile e f).rxs = s.rxs := rfl
@[simp] theorem State.modProfile_rings (s : State) (e : EntryNo) (f : Profile → Profile) : (s.modProfile e f).rings = s.rings := rfl
@[simp] theorem State.modProfile_dets (s : State) (e : EntryNo) (f : Profile → Profile) : (s.modProfile e f).dets = s.dets := rfl
@[simp] theorem State.modProfile_chans (s : State) (e : EntryNo) (f : Profile → Profile) : (s.modProfile e f).chans = s.chans := rfl
@[simp] theorem State.modProfile_profiles (s : State) (e : EntryNo) (f : Profile → Profile) : (s.modProfile e f).profiles = modifyAt s.profiles e f := rfl
@[simp] theorem State.modProfile_queue (s : State) (e : EntryNo) (f : Profile → Profile) : (s.modProfile e f).queue = s.queue := rfl
@[simp] theorem State.modProfile_lanes (s : State) (e : EntryNo) (f : Profile → Profile) : (s.modProfile e f).lanes = s.lanes := rfl
@[simp] theorem State.modProfile_outputs (s : State) (e : EntryNo) (f : Profile → Profile) : (s.modProfile e f).outputs = s.outputs := rfl
@[simp] theorem State.modProfile_aux (s : State) (e : EntryNo) (f : Profile → Profile) : (s.modProfile e f).aux = s.aux := rfl
@[simp] theorem State.modProfile_freeCount (s : State) (e : EntryNo) (f : Profile → Profile) : (s.modProfile e f).freeCount = s.freeCount := rfl
@[simp] theorem State.modProfile_partials (s : State) (e : EntryNo) (f : Profile → Profile) : (s.modProfile e f).partials = s.partials := rfl

@[simp] theorem State.modOutput_pending (s : State) (c : Chan) (f : Output → Output) : (s.modOutput c f).pending = s.pending := rfl
@[simp] theorem State.modOutput_dev (s : State) (c : Chan) (f : Output → Output) : (s.modOutput c f).dev = s.dev := rfl
@[simp] theorem State.modOutput_ports (s : State) (c : Chan) (f : Output → Output) : (s.modOutput c f).ports = s.ports := rfl
@[simp] theorem State.modOutput_units (s : State) (c : Chan) (f : Output → Output) : (s.modOutput c f).units = s.units := rfl
@[simp] theorem State.modOutput_refs (s : State) (c : Chan) (f : Output → Output) : (s.modOutput c f).refs = s.refs := rfl
@[simp] theorem State.modOutput_timing (s : State) (c : Chan) (f : Output → Output) : (s.modOutput c f).timing = s.timing := rfl
@[simp] theorem State.modOutput_slots (s : State) (c : Chan) (f : Output → Output) : (s.modOutput c f).slots = s.slots := rfl
@[simp] theorem State.modOutput_free (s : State) (c : Chan) (f : Output → Output) : (s.modOutput c f).free = s.free := rfl
@[simp] theorem State.modOutput_pool (s : State) (c : Chan) (f : Output → Output) : (s.modOutput c f).pool = s.pool := rfl
@[simp] theorem State.modOutput_dram (s : State) (c : Chan) (f : Output → Output) : (s.modOutput c f).dram = s.dram := rfl
@[simp] theorem State.modOutput_rxs (s : State) (c : Chan) (f : Output → Output) : (s.modOutput c f).rxs = s.rxs := rfl
@[simp] theorem State.modOutput_rings (s : State) (c : Chan) (f : Output → Output) : (s.modOutput c f).rings = s.rings := rfl
@[simp] theorem State.modOutput_dets (s : State) (c : Chan) (f : Output → Output) : (s.modOutput c f).dets = s.dets := rfl
@[simp] theorem State.modOutput_chans (s : State) (c : Chan) (f : Output → Output) : (s.modOutput c f).chans = s.chans := rfl
@[simp] theorem State.modOutput_profiles (s : State) (c : Chan) (f : Output → Output) : (s.modOutput c f).profiles = s.profiles := rfl
@[simp] theorem State.modOutput_queue (s : State) (c : Chan) (f : Output → Output) : (s.modOutput c f).queue = s.queue := rfl
@[simp] theorem State.modOutput_lanes (s : State) (c : Chan) (f : Output → Output) : (s.modOutput c f).lanes = s.lanes := rfl
@[simp] theorem State.modOutput_outputs (s : State) (c : Chan) (f : Output → Output) : (s.modOutput c f).outputs = modifyAt s.outputs c f := rfl
@[simp] theorem State.modOutput_aux (s : State) (c : Chan) (f : Output → Output) : (s.modOutput c f).aux = s.aux := rfl
@[simp] theorem State.modOutput_freeCount (s : State) (c : Chan) (f : Output → Output) : (s.modOutput c f).freeCount = s.freeCount := rfl
@[simp] theorem State.modOutput_partials (s : State) (c : Chan) (f : Output → Output) : (s.modOutput c f).partials = s.partials := rfl

@[simp] theorem State.modAux_pending (s : State) (x : AuxNo) (f : AuxLine → AuxLine) : (s.modAux x f).pending = s.pending := rfl
@[simp] theorem State.modAux_dev (s : State) (x : AuxNo) (f : AuxLine → AuxLine) : (s.modAux x f).dev = s.dev := rfl
@[simp] theorem State.modAux_ports (s : State) (x : AuxNo) (f : AuxLine → AuxLine) : (s.modAux x f).ports = s.ports := rfl
@[simp] theorem State.modAux_units (s : State) (x : AuxNo) (f : AuxLine → AuxLine) : (s.modAux x f).units = s.units := rfl
@[simp] theorem State.modAux_refs (s : State) (x : AuxNo) (f : AuxLine → AuxLine) : (s.modAux x f).refs = s.refs := rfl
@[simp] theorem State.modAux_timing (s : State) (x : AuxNo) (f : AuxLine → AuxLine) : (s.modAux x f).timing = s.timing := rfl
@[simp] theorem State.modAux_slots (s : State) (x : AuxNo) (f : AuxLine → AuxLine) : (s.modAux x f).slots = s.slots := rfl
@[simp] theorem State.modAux_free (s : State) (x : AuxNo) (f : AuxLine → AuxLine) : (s.modAux x f).free = s.free := rfl
@[simp] theorem State.modAux_pool (s : State) (x : AuxNo) (f : AuxLine → AuxLine) : (s.modAux x f).pool = s.pool := rfl
@[simp] theorem State.modAux_dram (s : State) (x : AuxNo) (f : AuxLine → AuxLine) : (s.modAux x f).dram = s.dram := rfl
@[simp] theorem State.modAux_rxs (s : State) (x : AuxNo) (f : AuxLine → AuxLine) : (s.modAux x f).rxs = s.rxs := rfl
@[simp] theorem State.modAux_rings (s : State) (x : AuxNo) (f : AuxLine → AuxLine) : (s.modAux x f).rings = s.rings := rfl
@[simp] theorem State.modAux_dets (s : State) (x : AuxNo) (f : AuxLine → AuxLine) : (s.modAux x f).dets = s.dets := rfl
@[simp] theorem State.modAux_chans (s : State) (x : AuxNo) (f : AuxLine → AuxLine) : (s.modAux x f).chans = s.chans := rfl
@[simp] theorem State.modAux_profiles (s : State) (x : AuxNo) (f : AuxLine → AuxLine) : (s.modAux x f).profiles = s.profiles := rfl
@[simp] theorem State.modAux_queue (s : State) (x : AuxNo) (f : AuxLine → AuxLine) : (s.modAux x f).queue = s.queue := rfl
@[simp] theorem State.modAux_lanes (s : State) (x : AuxNo) (f : AuxLine → AuxLine) : (s.modAux x f).lanes = s.lanes := rfl
@[simp] theorem State.modAux_outputs (s : State) (x : AuxNo) (f : AuxLine → AuxLine) : (s.modAux x f).outputs = s.outputs := rfl
@[simp] theorem State.modAux_aux (s : State) (x : AuxNo) (f : AuxLine → AuxLine) : (s.modAux x f).aux = modifyAt s.aux x f := rfl
@[simp] theorem State.modAux_freeCount (s : State) (x : AuxNo) (f : AuxLine → AuxLine) : (s.modAux x f).freeCount = s.freeCount := rfl
@[simp] theorem State.modAux_partials (s : State) (x : AuxNo) (f : AuxLine → AuxLine) : (s.modAux x f).partials = s.partials := rfl

@[simp] theorem State.elapse_pending (s : State) (dt : Nat) : (s.elapse dt).pending = s.pending := by
  unfold State.elapse; split <;> first | rfl | (split <;> rfl)
@[simp] theorem State.elapse_ports (s : State) (dt : Nat) : (s.elapse dt).ports = s.ports := by
  unfold State.elapse; split <;> first | rfl | (split <;> rfl)
@[simp] theorem State.elapse_units (s : State) (dt : Nat) : (s.elapse dt).units = s.units := by
  unfold State.elapse; split <;> first | rfl | (split <;> rfl)
@[simp] theorem State.elapse_refs (s : State) (dt : Nat) : (s.elapse dt).refs = s.refs := by
  unfold State.elapse; split <;> first | rfl | (split <;> rfl)
@[simp] theorem State.elapse_timing (s : State) (dt : Nat) : (s.elapse dt).timing = s.timing := by
  unfold State.elapse; split <;> first | rfl | (split <;> rfl)
@[simp] theorem State.elapse_slots (s : State) (dt : Nat) : (s.elapse dt).slots = s.slots := by
  unfold State.elapse; split <;> first | rfl | (split <;> rfl)
@[simp] theorem State.elapse_free (s : State) (dt : Nat) : (s.elapse dt).free = s.free := by
  unfold State.elapse; split <;> first | rfl | (split <;> rfl)
@[simp] theorem State.elapse_pool (s : State) (dt : Nat) : (s.elapse dt).pool = s.pool := by
  unfold State.elapse; split <;> first | rfl | (split <;> rfl)
@[simp] theorem State.elapse_dram (s : State) (dt : Nat) : (s.elapse dt).dram = s.dram := by
  unfold State.elapse; split <;> first | rfl | (split <;> rfl)
@[simp] theorem State.elapse_rxs (s : State) (dt : Nat) : (s.elapse dt).rxs = s.rxs := by
  unfold State.elapse; split <;> first | rfl | (split <;> rfl)
@[simp] theorem State.elapse_rings (s : State) (dt : Nat) : (s.elapse dt).rings = s.rings := by
  unfold State.elapse; split <;> first | rfl | (split <;> rfl)
@[simp] theorem State.elapse_dets (s : State) (dt : Nat) : (s.elapse dt).dets = s.dets := by
  unfold State.elapse; split <;> first | rfl | (split <;> rfl)
@[simp] theorem State.elapse_chans (s : State) (dt : Nat) : (s.elapse dt).chans = s.chans := by
  unfold State.elapse; split <;> first | rfl | (split <;> rfl)
@[simp] theorem State.elapse_profiles (s : State) (dt : Nat) : (s.elapse dt).profiles = s.profiles := by
  unfold State.elapse; split <;> first | rfl | (split <;> rfl)
@[simp] theorem State.elapse_queue (s : State) (dt : Nat) : (s.elapse dt).queue = s.queue := by
  unfold State.elapse; split <;> first | rfl | (split <;> rfl)
@[simp] theorem State.elapse_lanes (s : State) (dt : Nat) : (s.elapse dt).lanes = s.lanes := by
  unfold State.elapse; split <;> first | rfl | (split <;> rfl)
@[simp] theorem State.elapse_outputs (s : State) (dt : Nat) : (s.elapse dt).outputs = s.outputs := by
  unfold State.elapse; split <;> first | rfl | (split <;> rfl)
@[simp] theorem State.elapse_aux (s : State) (dt : Nat) : (s.elapse dt).aux = s.aux := by
  unfold State.elapse; split <;> first | rfl | (split <;> rfl)
@[simp] theorem State.elapse_freeCount (s : State) (dt : Nat) : (s.elapse dt).freeCount = s.freeCount := by
  unfold State.elapse; split <;> first | rfl | (split <;> rfl)
@[simp] theorem State.elapse_partials (s : State) (dt : Nat) : (s.elapse dt).partials = s.partials := by
  unfold State.elapse; split <;> first | rfl | (split <;> rfl)

theorem State.elapse_ready (s : State) (dt : Nat) (h : s.dev.state = .ready) :
    s.elapse dt = { s with dev := { s.dev with houseTime := satAdd Config.houseMax s.dev.houseTime dt } } := by
  unfold State.elapse; rw [h]

theorem State.elapse_starting (s : State) (dt : Nat) (h : s.dev.state = .starting) (hr : s.dev.resetN = false) :
    s.elapse dt = { s with dev := { s.dev with clk := s.dev.clk + dt } } := by
  unfold State.elapse; rw [h]; simp [hr]

theorem State.elapse_held (s : State) (dt : Nat) (h : s.dev.state = .starting) (hr : s.dev.resetN = true) :
    s.elapse dt = s := by
  unfold State.elapse; rw [h]; simp [hr]

/-- Passing time changes the device record and nothing else. -/
theorem State.elapse_eq (s : State) (dt : Nat) : s.elapse dt = { s with dev := (s.elapse dt).dev } := by
  unfold State.elapse; split <;> first | rfl | (split <;> rfl)

@[simp] theorem State.elapse_devState (s : State) (dt : Nat) : (s.elapse dt).dev.state = s.dev.state := by
  unfold State.elapse; cases h : s.dev.state <;> simp [h]; split <;> simp [h]

@[simp] theorem State.elapse_resetN (s : State) (dt : Nat) : (s.elapse dt).dev.resetN = s.dev.resetN := by
  unfold State.elapse; split <;> first | rfl | (split <;> rfl)

@[simp] theorem State.elapse_stage (s : State) (dt : Nat) : (s.elapse dt).dev.stage = s.dev.stage := by
  unfold State.elapse; split <;> first | rfl | (split <;> rfl)

@[simp] theorem State.elapse_isReady (s : State) (dt : Nat) : (s.elapse dt).isReady = s.isReady := by
  simp [State.isReady]

@[simp] theorem State.elapse_zero_ready (s : State) (h : s.dev.state = .ready)
    (hm : s.dev.houseTime ≤ Config.houseMax) : s.elapse 0 = s := by
  rw [State.elapse_ready s 0 h]; simp [satAdd, hm]

@[simp] theorem raise_pending (src : Source) (s : State) : (raise src s).pending = s.pending := rfl
@[simp] theorem raiseAt_pending (p : Port) (src : Source) (s : State) : (raiseAt p src s).pending = s.pending := rfl
@[simp] theorem condition_pending (src : Source) (a b : Bool) (s : State) : (condition src a b s).pending = s.pending := by
  unfold condition; split <;> rfl
@[simp] theorem raise_dev (src : Source) (s : State) : (raise src s).dev = s.dev := rfl
@[simp] theorem raiseAt_dev (p : Port) (src : Source) (s : State) : (raiseAt p src s).dev = s.dev := rfl
@[simp] theorem condition_dev (src : Source) (a b : Bool) (s : State) : (condition src a b s).dev = s.dev := by
  unfold condition; split <;> rfl
@[simp] theorem raise_ports (src : Source) (s : State) : (raise src s).ports = s.ports := rfl
@[simp] theorem raiseAt_ports (p : Port) (src : Source) (s : State) : (raiseAt p src s).ports = s.ports := rfl
@[simp] theorem condition_ports (src : Source) (a b : Bool) (s : State) : (condition src a b s).ports = s.ports := by
  unfold condition; split <;> rfl
@[simp] theorem raise_refs (src : Source) (s : State) : (raise src s).refs = s.refs := rfl
@[simp] theorem raiseAt_refs (p : Port) (src : Source) (s : State) : (raiseAt p src s).refs = s.refs := rfl
@[simp] theorem condition_refs (src : Source) (a b : Bool) (s : State) : (condition src a b s).refs = s.refs := by
  unfold condition; split <;> rfl
@[simp] theorem raise_timing (src : Source) (s : State) : (raise src s).timing = s.timing := rfl
@[simp] theorem raiseAt_timing (p : Port) (src : Source) (s : State) : (raiseAt p src s).timing = s.timing := rfl
@[simp] theorem condition_timing (src : Source) (a b : Bool) (s : State) : (condition src a b s).timing = s.timing := by
  unfold condition; split <;> rfl
@[simp] theorem raise_slots (src : Source) (s : State) : (raise src s).slots = s.slots := rfl
@[simp] theorem raiseAt_slots (p : Port) (src : Source) (s : State) : (raiseAt p src s).slots = s.slots := rfl
@[simp] theorem condition_slots (src : Source) (a b : Bool) (s : State) : (condition src a b s).slots = s.slots := by
  unfold condition; split <;> rfl
@[simp] theorem raise_free (src : Source) (s : State) : (raise src s).free = s.free := rfl
@[simp] theorem raiseAt_free (p : Port) (src : Source) (s : State) : (raiseAt p src s).free = s.free := rfl
@[simp] theorem condition_free (src : Source) (a b : Bool) (s : State) : (condition src a b s).free = s.free := by
  unfold condition; split <;> rfl
@[simp] theorem raise_pool (src : Source) (s : State) : (raise src s).pool = s.pool := rfl
@[simp] theorem raiseAt_pool (p : Port) (src : Source) (s : State) : (raiseAt p src s).pool = s.pool := rfl
@[simp] theorem condition_pool (src : Source) (a b : Bool) (s : State) : (condition src a b s).pool = s.pool := by
  unfold condition; split <;> rfl
@[simp] theorem raise_dram (src : Source) (s : State) : (raise src s).dram = s.dram := rfl
@[simp] theorem raiseAt_dram (p : Port) (src : Source) (s : State) : (raiseAt p src s).dram = s.dram := rfl
@[simp] theorem condition_dram (src : Source) (a b : Bool) (s : State) : (condition src a b s).dram = s.dram := by
  unfold condition; split <;> rfl
@[simp] theorem raise_rxs (src : Source) (s : State) : (raise src s).rxs = s.rxs := rfl
@[simp] theorem raiseAt_rxs (p : Port) (src : Source) (s : State) : (raiseAt p src s).rxs = s.rxs := rfl
@[simp] theorem condition_rxs (src : Source) (a b : Bool) (s : State) : (condition src a b s).rxs = s.rxs := by
  unfold condition; split <;> rfl
@[simp] theorem raise_rings (src : Source) (s : State) : (raise src s).rings = s.rings := rfl
@[simp] theorem raiseAt_rings (p : Port) (src : Source) (s : State) : (raiseAt p src s).rings = s.rings := rfl
@[simp] theorem condition_rings (src : Source) (a b : Bool) (s : State) : (condition src a b s).rings = s.rings := by
  unfold condition; split <;> rfl
@[simp] theorem raise_dets (src : Source) (s : State) : (raise src s).dets = s.dets := rfl
@[simp] theorem raiseAt_dets (p : Port) (src : Source) (s : State) : (raiseAt p src s).dets = s.dets := rfl
@[simp] theorem condition_dets (src : Source) (a b : Bool) (s : State) : (condition src a b s).dets = s.dets := by
  unfold condition; split <;> rfl
@[simp] theorem raise_chans (src : Source) (s : State) : (raise src s).chans = s.chans := rfl
@[simp] theorem raiseAt_chans (p : Port) (src : Source) (s : State) : (raiseAt p src s).chans = s.chans := rfl
@[simp] theorem condition_chans (src : Source) (a b : Bool) (s : State) : (condition src a b s).chans = s.chans := by
  unfold condition; split <;> rfl
@[simp] theorem raise_profiles (src : Source) (s : State) : (raise src s).profiles = s.profiles := rfl
@[simp] theorem raiseAt_profiles (p : Port) (src : Source) (s : State) : (raiseAt p src s).profiles = s.profiles := rfl
@[simp] theorem condition_profiles (src : Source) (a b : Bool) (s : State) : (condition src a b s).profiles = s.profiles := by
  unfold condition; split <;> rfl
@[simp] theorem raise_queue (src : Source) (s : State) : (raise src s).queue = s.queue := rfl
@[simp] theorem raiseAt_queue (p : Port) (src : Source) (s : State) : (raiseAt p src s).queue = s.queue := rfl
@[simp] theorem condition_queue (src : Source) (a b : Bool) (s : State) : (condition src a b s).queue = s.queue := by
  unfold condition; split <;> rfl
@[simp] theorem raise_lanes (src : Source) (s : State) : (raise src s).lanes = s.lanes := rfl
@[simp] theorem raiseAt_lanes (p : Port) (src : Source) (s : State) : (raiseAt p src s).lanes = s.lanes := rfl
@[simp] theorem condition_lanes (src : Source) (a b : Bool) (s : State) : (condition src a b s).lanes = s.lanes := by
  unfold condition; split <;> rfl
@[simp] theorem raise_outputs (src : Source) (s : State) : (raise src s).outputs = s.outputs := rfl
@[simp] theorem raiseAt_outputs (p : Port) (src : Source) (s : State) : (raiseAt p src s).outputs = s.outputs := rfl
@[simp] theorem condition_outputs (src : Source) (a b : Bool) (s : State) : (condition src a b s).outputs = s.outputs := by
  unfold condition; split <;> rfl
@[simp] theorem raise_aux (src : Source) (s : State) : (raise src s).aux = s.aux := rfl
@[simp] theorem raiseAt_aux (p : Port) (src : Source) (s : State) : (raiseAt p src s).aux = s.aux := rfl
@[simp] theorem condition_aux (src : Source) (a b : Bool) (s : State) : (condition src a b s).aux = s.aux := by
  unfold condition; split <;> rfl
@[simp] theorem raise_freeCount (src : Source) (s : State) : (raise src s).freeCount = s.freeCount := rfl
@[simp] theorem raise_partials (src : Source) (s : State) : (raise src s).partials = s.partials := rfl
@[simp] theorem raiseAt_freeCount (p : Port) (src : Source) (s : State) : (raiseAt p src s).freeCount = s.freeCount := rfl
@[simp] theorem raiseAt_partials (p : Port) (src : Source) (s : State) : (raiseAt p src s).partials = s.partials := rfl
@[simp] theorem condition_freeCount (src : Source) (a b : Bool) (s : State) : (condition src a b s).freeCount = s.freeCount := by
  unfold condition; split <;> rfl
@[simp] theorem condition_partials (src : Source) (a b : Bool) (s : State) : (condition src a b s).partials = s.partials := by
  unfold condition; split <;> rfl

end Sys2Proof.Machine
end

