-- ==== Sys2Proof/Laws/Store.lean ====
section
/-! SUPPORT. The DRAM keeps its canonical form, the frame store's operations keep the free list exact and the
retired set within its limit, and what a place of the store reads as after a write. -/

namespace Sys2Proof.Machine

/-! ## The DRAM -/

/-- The canonical form as a pairwise order. -/
theorem Dram.wf_iff (m : Dram) : m.wf = true ↔ m.Pairwise fun a b => a.1 < b.1 := by
  induction m with
  | nil => simp [Dram.wf]
  | cons x rest ih =>
    cases rest with
    | nil => simp [Dram.wf]
    | cons y rest =>
      rw [Dram.wf, Bool.and_eq_true, ih]
      constructor
      · rintro ⟨h, hp⟩
        refine List.pairwise_cons.mpr ⟨?_, hp⟩
        intro z hz
        have hxy : x.1 < y.1 := by simpa using h
        rcases List.mem_cons.mp hz with rfl | hz
        · exact hxy
        · exact lt_trans hxy ((List.pairwise_cons.mp hp).1 z hz)
      · intro hp
        have h1 := List.pairwise_cons.mp hp
        exact ⟨by simpa using h1.1 y (by simp), h1.2⟩

/-- Consecutive addresses rise, from the first on and below the end. -/
theorem addressed_pairwise (a : Nat) (vs : List Sample) :
    (addressed a vs).Pairwise (fun x y => x.1 < y.1) ∧ ∀ x ∈ addressed a vs, a ≤ x.1 ∧ x.1 < a + vs.length := by
  induction vs generalizing a with
  | nil => simp [addressed]
  | cons v vs ih =>
    obtain ⟨hp, hb⟩ := ih (a + 1)
    refine ⟨List.pairwise_cons.mpr ⟨fun x hx => ?_, hp⟩, ?_⟩
    · have := (hb x hx).1; omega
    · intro x hx
      rcases List.mem_cons.mp hx with rfl | hx
      · simp
      · have := hb x hx
        simp only [List.length_cons]; omega

/-- Writing keeps the canonical form. -/
theorem Dram.wf_write (m : Dram) (a : Nat) (vs : List Sample) (h : m.wf = true) : (m.write a vs).wf = true := by
  rw [Dram.wf_iff] at h ⊢
  obtain ⟨hp, hb⟩ := addressed_pairwise a vs
  unfold Dram.write
  rw [List.pairwise_append, List.pairwise_append]
  refine ⟨⟨h.filter _, hp, ?_⟩, h.filter _, ?_⟩
  · intro x hx y hy
    have := (List.mem_filter.mp hx).2
    have := hb y hy
    simp at *; omega
  · intro x hx y hy
    have hy' := (List.mem_filter.mp hy).2
    rcases List.mem_append.mp hx with hx | hx
    · have := (List.mem_filter.mp hx).2
      simp at *; omega
    · have := hb x hx
      simp at *; omega

/-! ## Updates that the invariant does not see -/

/-- The invariant depends on the store, the records it names and house time only. -/
theorem Inv.of_eq {s t : State} (h : Inv s) (h1 : t.slots = s.slots) (h2 : t.free = s.free) (h3 : t.dram = s.dram)
    (h4 : t.refs = s.refs) (h5 : t.rings = s.rings) (h6 : t.dets = s.dets) (h7 : t.profiles = s.profiles)
    (h8 : t.ports = s.ports) (h9 : t.dev.houseTime = s.dev.houseTime) : Inv t := by
  obtain ⟨⟨a, b⟩, c, d, e, f, g, i, j, k⟩ := h
  refine ⟨⟨by rw [h2]; exact a, by rw [h1, h2]; exact b⟩, ?_, by rw [h3]; exact d, by rw [h4]; exact e,
    by rw [h5]; exact f, by rw [h6]; exact g, by rw [h7]; exact i, by rw [h8]; exact j, by rw [h9]; exact k⟩
  unfold retiredCount stateCount; rw [h1]; exact c

theorem Inv.raise {s : State} (h : Inv s) (src : Source) : Inv (raise src s) :=
  h.of_eq rfl rfl rfl rfl rfl rfl rfl rfl rfl

theorem Inv.raiseAt {s : State} (h : Inv s) (p : Port) (src : Source) : Inv (raiseAt p src s) :=
  h.of_eq rfl rfl rfl rfl rfl rfl rfl rfl rfl

theorem Inv.condition {s : State} (h : Inv s) (src : Source) (a b : Bool) : Inv (condition src a b s) := by
  unfold Machine.condition; split
  · exact h
  · exact h.of_eq rfl rfl rfl rfl rfl rfl rfl rfl rfl

theorem Inv.setUnit {s : State} (h : Inv s) (p : Port) (u : EventUnit) : Inv (s.setUnit p u) :=
  h.of_eq rfl rfl rfl rfl rfl rfl rfl rfl rfl

theorem Inv.modTiming {s : State} (h : Inv s) (c : Chan) (f : OutTiming → OutTiming) : Inv (s.modTiming c f) :=
  h.of_eq rfl rfl rfl rfl rfl rfl rfl rfl rfl

theorem Inv.modRx {s : State} (h : Inv s) (f : Feed) (g : Receiver → Receiver) : Inv (s.modRx f g) :=
  h.of_eq rfl rfl rfl rfl rfl rfl rfl rfl rfl

theorem Inv.modChan {s : State} (h : Inv s) (c : Chan) (f : Channel → Channel) : Inv (s.modChan c f) :=
  h.of_eq rfl rfl rfl rfl rfl rfl rfl rfl rfl

theorem Inv.modOutput {s : State} (h : Inv s) (c : Chan) (f : Output → Output) : Inv (s.modOutput c f) :=
  h.of_eq rfl rfl rfl rfl rfl rfl rfl rfl rfl

theorem Inv.modAux {s : State} (h : Inv s) (x : AuxNo) (f : AuxLine → AuxLine) : Inv (s.modAux x f) :=
  h.of_eq rfl rfl rfl rfl rfl rfl rfl rfl rfl

theorem Inv.elapse {s : State} (h : Inv s) (dt : Nat) : Inv (s.elapse dt) := by
  unfold State.elapse
  cases s.dev.state with
  | starting => dsimp only; split <;> exact h.of_eq rfl rfl rfl rfl rfl rfl rfl rfl rfl
  | ready =>
    refine ⟨h.freeList, h.retired, h.dram, h.refs, h.rings, h.dets, h.profiles, h.ports, ?_⟩
    simp only [satAdd]; split
    · assumption
    · exact le_refl _

theorem Inv.forEach {α : Type} (l : List α) (f : α → State → State) (hf : ∀ x s, Inv s → Inv (f x s)) {s : State}
    (h : Inv s) : Inv (forEach l f s) := by
  induction l generalizing s with
  | nil => exact h
  | cons x l ih => exact ih (hf x s h)

/-! ## Records that the invariant speaks of -/

theorem Inv.modPort {s : State} (h : Inv s) (p : Port) (f : PortRec → PortRec) (hf : ∀ r, PortOk r → PortOk (f r)) :
    Inv (s.modPort p f) := by
  refine ⟨h.freeList, h.retired, h.dram, h.refs, h.rings, h.dets, h.profiles, ?_, h.time⟩
  intro q
  by_cases e : q = p
  · subst e; simpa using hf _ (h.ports q)
  · simpa [PerPort.get_set_other _ _ _ _ e] using h.ports q

theorem Inv.modRef {s : State} (h : Inv s) (n : RefNo) (f : Reference → Reference)
    (hf : RefOk s.refs[n] → RefOk (f s.refs[n])) : Inv (s.modRef n f) := by
  refine ⟨h.freeList, h.retired, h.dram, ?_, h.rings, h.dets, h.profiles, h.ports, h.time⟩
  intro m
  show RefOk (modifyAt s.refs n f)[m]
  rw [modifyAt_get]; split
  · exact hf (h.refs n)
  · exact h.refs m

theorem Inv.modRing {s : State} (h : Inv s) (n : Feed) (f : Ring → Ring)
    (hf : RingOk s.rings[n] → RingOk (f s.rings[n])) : Inv (s.modRing n f) := by
  refine ⟨h.freeList, h.retired, h.dram, h.refs, ?_, h.dets, h.profiles, h.ports, h.time⟩
  intro m
  show RingOk (modifyAt s.rings n f)[m]
  rw [modifyAt_get]; split
  · exact hf (h.rings n)
  · exact h.rings m

theorem Inv.modDet {s : State} (h : Inv s) (n : Feed) (f : Detector → Detector)
    (hf : DetOk s.dets[n] → DetOk (f s.dets[n])) : Inv (s.modDet n f) := by
  refine ⟨h.freeList, h.retired, h.dram, h.refs, h.rings, ?_, h.profiles, h.ports, h.time⟩
  intro m
  show DetOk (modifyAt s.dets n f)[m]
  rw [modifyAt_get]; split
  · exact hf (h.dets n)
  · exact h.dets m

theorem Inv.modProfile {s : State} (h : Inv s) (e : EntryNo) (f : Profile → Profile)
    (hf : ProfileOk e s.profiles[e] → ProfileOk e (f s.profiles[e])) : Inv (s.modProfile e f) := by
  refine ⟨h.freeList, h.retired, h.dram, h.refs, h.rings, h.dets, ?_, h.ports, h.time⟩
  intro m
  show ProfileOk m (modifyAt s.profiles e f)[m]
  rw [modifyAt_get]; split
  · next e' => subst e'; exact hf (h.profiles m)
  · exact h.profiles m

/-! ## Slots -/

/-- The number of slots in a state after one record is replaced. -/
theorem countState_set (v : Vector Slot 96) (n : SlotNo) (x : Slot) (st : SlotState) :
    (v.set n x).toList.countP (fun y => y.state = st) + (if v[n].state = st then 1 else 0) =
      v.toList.countP (fun y => y.state = st) + (if x.state = st then 1 else 0) := by
  have hlen : n.val < v.toList.length := by simp
  have hget : v.toList[n.val] = v[n] := by simp
  have key := List.countP_set (p := fun y : Slot => decide (y.state = st)) (l := v.toList) (i := n.val) (a := x) hlen
  have hset : (v.set n x).toList = v.toList.set n.val x := by
    simp [Vector.toList_set]
  rw [hset, key]
  simp only [hget, decide_eq_true_eq]
  have hpos : v[n].state = st → 0 < v.toList.countP (fun y => decide (y.state = st)) := fun h1 =>
    List.countP_pos_iff.mpr ⟨v[n], by rw [← hget]; exact List.getElem_mem hlen, by simpa using h1⟩
  split
  · next h1 => have := hpos h1; omega
  · omega

/-- Replacing a slot record that is not FREE by one that is neither FREE nor newly RETIRED. -/
theorem Inv.setSlot {s : State} (h : Inv s) (n : SlotNo) (x : Slot) (hfree : x.state = .free ↔ s.slots[n].state = .free)
    (hret : x.state = .retired → s.slots[n].state = .retired) : Inv { s with slots := s.slots.set n x } := by
  refine ⟨⟨h.freeList.1, fun m => ?_⟩, ?_, h.dram, h.refs, h.rings, h.dets, h.profiles, h.ports, h.time⟩
  · show m ∈ s.free ↔ (s.slots.set n x)[m].state = .free
    rw [h.freeList.2 m]
    by_cases e : m = n
    · subst e
      have : (s.slots.set m x)[m] = x := by simp
      rw [this]; exact hfree.symm
    · have h' : n.val ≠ m.val := fun k => e (Fin.ext k.symm)
      have : (s.slots.set n x)[m] = s.slots[m] := by simp [h']
      rw [this]
  · have hc := countState_set s.slots n x .retired
    have hr := h.retired
    unfold retiredCount stateCount at hr ⊢
    show (s.slots.set n x).toList.countP (fun y => y.state = .retired) ≤ Config.retiredMax
    by_cases h1 : x.state = .retired
    · rw [if_pos h1, if_pos (hret h1)] at hc; omega
    · rw [if_neg h1] at hc; omega

theorem Inv.modSlot {s : State} (h : Inv s) (n : SlotNo) (f : Slot → Slot)
    (hf : (f s.slots[n]).state = s.slots[n].state) : Inv (s.modSlot n f) :=
  h.setSlot n _ (by rw [hf]) (by rw [hf]; exact id)

theorem Inv.transitionError {s : State} (h : Inv s) : Inv (transitionError s) :=
  h.of_eq rfl rfl rfl rfl rfl rfl rfl rfl rfl

theorem Inv.slotFault {s : State} (h : Inv s) (r : FaultReason) (n : SlotNo) (x : Option Reader) :
    Inv (slotFault r n x s) := h.of_eq rfl rfl rfl rfl rfl rfl rfl rfl rfl

theorem Inv.allocationFailure {s : State} (h : Inv s) : Inv (allocationFailure s) :=
  h.of_eq rfl rfl rfl rfl rfl rfl rfl rfl rfl

/-- A slot that is not FREE enters FREE: it joins the free list once. -/
theorem Inv.enterFree {s : State} (h : Inv s) (n : SlotNo) (hn : s.slots[n].state ≠ .free) : Inv (enterFree n s) := by
  have hnot : n ∉ s.free := fun hm => hn ((h.freeList.2 n).mp hm)
  refine ⟨⟨?_, fun m => ?_⟩, ?_, h.dram, h.refs, h.rings, h.dets, h.profiles, h.ports, h.time⟩
  · show (s.free ++ [n]).Nodup
    rw [List.nodup_append]
    exact ⟨h.freeList.1, by simp, fun a ha b hb => by
      simp only [List.mem_singleton] at hb; subst hb; exact fun e => hnot (e ▸ ha)⟩
  · show m ∈ s.free ++ [n] ↔ (s.slots.set n (.cleared .free false))[m].state = .free
    rw [List.mem_append, List.mem_singleton, h.freeList.2 m]
    by_cases e : m = n
    · subst e; simp [Slot.cleared]
    · have h' : n.val ≠ m.val := fun k => e (Fin.ext k.symm)
      have : (s.slots.set n (.cleared .free false))[m] = s.slots[m] := by simp [h']
      rw [this]; simp [e]
  · have hc := countState_set s.slots n (.cleared .free false) .retired
    have hr := h.retired
    unfold retiredCount stateCount at hr ⊢
    show (s.slots.set n (.cleared .free false)).toList.countP (fun y => y.state = .retired) ≤ Config.retiredMax
    rw [if_neg (show ¬ (Slot.cleared .free false).state = .retired by decide)] at hc
    omega

/-- A slot that is not on the free list enters RETIRED while the set has room. -/
theorem Inv.enterRetired {s : State} (h : Inv s) (n : SlotNo) (hn : s.slots[n].state ≠ .free)
    (hr : retiredCount s < Config.retiredMax) : Inv (enterRetired n s) := by
  refine ⟨⟨h.freeList.1, fun m => ?_⟩, ?_, h.dram, h.refs, h.rings, h.dets, h.profiles, h.ports, h.time⟩
  · show m ∈ s.free ↔ (s.slots.set n (.cleared .retired s.slots[n].fault))[m].state = .free
    rw [h.freeList.2 m]
    by_cases e : m = n
    · subst e; simp only [Slot.cleared]; simp; simpa using hn
    · have h' : n.val ≠ m.val := fun k => e (Fin.ext k.symm)
      have : (s.slots.set n (.cleared .retired s.slots[n].fault))[m] = s.slots[m] := by simp [h']
      rw [this]
  · have hc := countState_set s.slots n (.cleared .retired s.slots[n].fault) .retired
    unfold retiredCount stateCount at hr ⊢
    show (s.slots.set n (.cleared .retired s.slots[n].fault)).toList.countP (fun y => y.state = .retired) ≤
      Config.retiredMax
    rw [if_pos (show (Slot.cleared .retired s.slots[n].fault).state = .retired from rfl)] at hc
    omega

theorem SlotState.inUse_ne_free {st : SlotState} (h : st.inUse = true) : st ≠ .free := by
  rintro rfl; simp [SlotState.inUse] at h

theorem Inv.release {s : State} (h : Inv s) (n : SlotNo) : Inv (release n s) := by
  unfold Machine.release
  simp only
  split
  · next hu =>
    have hn := SlotState.inUse_ne_free hu
    split
    · split
      · next hr => exact h.enterRetired n hn hr
      · exact (h.enterFree n hn).slotFault _ _ _
    · exact h.enterFree n hn
  · exact h.transitionError

theorem Inv.releaseFrom {s : State} (h : Inv s) (st : SlotState) (n : SlotNo) : Inv (releaseFrom st n s) := by
  unfold Machine.releaseFrom; split
  · exact h.release n
  · exact h.transitionError

/-- A transition between states of use. -/
theorem Inv.moveSlot {s : State} (h : Inv s) (a b : SlotState) (n : SlotNo) (ha : a.inUse = true) (hb : b.inUse = true) :
    Inv (moveSlot a b n s) := by
  unfold Machine.moveSlot; split
  · next e =>
    refine h.setSlot n _ ?_ ?_
    · show b = .free ↔ s.slots[n].state = .free
      rw [e]; exact ⟨fun k => absurd k (SlotState.inUse_ne_free hb), fun k => absurd k (SlotState.inUse_ne_free ha)⟩
    · intro k
      have : b = .retired := k
      subst this; simp [SlotState.inUse] at hb
  · exact h.transitionError

theorem Inv.detachOrRelease {s : State} (h : Inv s) (n : SlotNo) : Inv (detachOrRelease n s) := by
  unfold Machine.detachOrRelease; split
  · next e =>
    split
    · exact h.release n
    · refine h.setSlot n _ ⟨fun k => ?_, fun k => ?_⟩ (fun k => ?_)
      · cases k
      · rw [e] at k; cases k
      · cases k
  · exact h.transitionError

theorem Inv.pin {s : State} (h : Inv s) (n : SlotNo) : Inv (pin n s) := by
  unfold Machine.pin; split
  · exact h.modSlot n _ rfl
  · exact h.transitionError

theorem Inv.unpin {s : State} (h : Inv s) (n : SlotNo) : Inv (unpin n s) := by
  unfold Machine.unpin
  simp only
  split
  · exact h.modSlot n _ rfl
  · split
    · split
      · exact (h.modSlot n (fun x => { x with pins := x.pins - 1 }) rfl).release n
      · exact h.modSlot n _ rfl
    · exact h.transitionError

/-- An allocation takes the head of the free list for a record in a state of use. -/
theorem Inv.allocate {s : State} (h : Inv s) (x : Slot) (hx : x.state.inUse = true) : Inv (allocate x s).2 := by
  unfold Machine.allocate
  split
  · exact h.allocationFailure
  · next n rest e =>
    have hnd := h.freeList.1
    rw [e] at hnd
    obtain ⟨hn, hnd⟩ := List.nodup_cons.mp hnd
    refine ⟨⟨hnd, fun m => ?_⟩, ?_, h.dram, h.refs, h.rings, h.dets, h.profiles, h.ports, h.time⟩
    · show m ∈ rest ↔ (s.slots.set n x)[m].state = .free
      have hm := h.freeList.2 m
      rw [e, List.mem_cons] at hm
      by_cases k : m = n
      · subst k
        have : (s.slots.set m x)[m] = x := by simp
        rw [this]
        exact ⟨fun a => absurd a hn, fun a => absurd a (SlotState.inUse_ne_free hx)⟩
      · have h' : n.val ≠ m.val := fun j => k (Fin.ext j.symm)
        have : (s.slots.set n x)[m] = s.slots[m] := by simp [h']
        rw [this, ← hm]; simp [k]
    · have hc := countState_set s.slots n x .retired
      have hr := h.retired
      unfold retiredCount stateCount at hr ⊢
      show (s.slots.set n x).toList.countP (fun y => y.state = .retired) ≤ Config.retiredMax
      rw [if_neg (show ¬ x.state = .retired by
        intro k; rw [k] at hx; simp [SlotState.inUse] at hx)] at hc
      omega

/-! ## Picture data -/

theorem Inv.dramOf {s : State} (h : Inv s) (m : Dram) (hm : m.wf = true) (k : Nat) :
    Inv { s with dram := m, partials := k } :=
  ⟨h.freeList, h.retired, hm, h.refs, h.rings, h.dets, h.profiles, h.ports, h.time⟩

theorem Inv.writeComponent {s : State} (h : Inv s) (n : SlotNo) (line : Nat) (c : Component) (vs : List Sample) :
    Inv (writeComponent n line c vs s) := by
  unfold Machine.writeComponent; split
  · exact h.dramOf _ (Dram.wf_write _ _ _ h.dram) s.partials
  · exact h

theorem Inv.writeLine {s : State} (h : Inv s) (n : SlotNo) (line : Nat) (a b c : List Sample) :
    Inv (writeLine n line a b c s) := ((h.writeComponent n line .y a).writeComponent n line .cb b).writeComponent n line .cr c

theorem Inv.leavePartial {s : State} (h : Inv s) (n : SlotNo) (i : StdId) : Inv (leavePartial n i s) := by
  unfold Machine.leavePartial
  dsimp only
  have h1 := Inv.forEach (List.range (Config.std i).activeLines)
    (partialLine s.partials n (Config.std i).width) (fun y s h => h.writeLine n y _ _ _) h
  exact h1.of_eq rfl rfl rfl rfl rfl rfl rfl rfl rfl

/-! ## What a write to the DRAM changes -/

theorem writeComponent_eq (n : SlotNo) (line : Nat) (c : Component) (vs : List Sample) (s : State) :
    ∃ m, writeComponent n line c vs s = { s with dram := m } := by
  unfold writeComponent; split
  · exact ⟨_, rfl⟩
  · exact ⟨s.dram, rfl⟩

/-- A line that is written changes the DRAM and nothing else. -/
theorem writeLine_eq (n : SlotNo) (line : Nat) (y cb cr : List Sample) (s : State) :
    ∃ m, writeLine n line y cb cr s = { s with dram := m } := by
  obtain ⟨m1, e1⟩ := writeComponent_eq n line .y y s
  obtain ⟨m2, e2⟩ := writeComponent_eq n line .cb cb { s with dram := m1 }
  obtain ⟨m3, e3⟩ := writeComponent_eq n line .cr cr { s with dram := m2 }
  exact ⟨m3, by rw [writeLine, e1, e2, e3]⟩

/-- A picture left incomplete changes the DRAM, and is counted. -/
theorem leavePartial_eq (n : SlotNo) (i : StdId) (s : State) :
    ∃ m, leavePartial n i s = { s with dram := m, partials := s.partials + 1 } := by
  have key : ∀ (l : List Nat) (t : State), ∃ m,
      forEach l (partialLine s.partials n (Config.std i).width) t = { t with dram := m } := by
    intro l
    induction l with
    | nil => exact fun t => ⟨t.dram, rfl⟩
    | cons y rest ih =>
      intro t
      obtain ⟨m1, e1⟩ := writeLine_eq n y (partialSamples s.partials n y .y (Config.std i).width)
        (partialSamples s.partials n y .cb ((Config.std i).width / 2))
        (partialSamples s.partials n y .cr ((Config.std i).width / 2)) t
      obtain ⟨m2, e2⟩ := ih { t with dram := m1 }
      refine ⟨m2, ?_⟩
      rw [← e1] at e2
      exact e2.trans (by rw [e1])
  obtain ⟨m, e⟩ := key (List.range (Config.std i).activeLines) s
  exact ⟨m, by unfold leavePartial; dsimp only; rw [e]⟩

/-- The store at reset. -/
theorem Inv.reset : Inv State.reset where
  freeList := ⟨by decide +kernel, by decide +kernel⟩
  retired := by decide +kernel
  dram := rfl
  refs := by
    intro n
    refine ⟨?_, ?_, ?_, ?_, ?_, ?_⟩ <;> revert n <;> decide +kernel
  rings := by
    intro n
    refine ⟨?_, ?_, ?_, ?_⟩ <;> revert n <;> decide +kernel
  dets := by
    intro n
    refine ⟨?_, ?_, ?_, ?_⟩ <;> revert n <;> decide +kernel
  profiles := by
    intro e _
    refine ⟨?_, ?_⟩ <;> revert e <;> decide +kernel
  ports := by
    intro p
    cases p <;> exact ⟨by decide, by intro b hb; cases hb⟩
  time := by decide

/-! ## What a place of the store reads as -/

theorem Dram.lookup_append (m k : Dram) (a : Nat) : Dram.lookup (m ++ k) a = (m.lookup a).or (k.lookup a) := by
  induction m with
  | nil => rfl
  | cons e rest ih =>
    obtain ⟨b, v⟩ := e
    simp only [List.cons_append, Dram.lookup]
    split
    · rfl
    · exact ih

theorem Dram.lookup_filter (m : Dram) (p : Nat → Bool) (a : Nat) :
    Dram.lookup (m.filter fun e => p e.1) a = if p a then m.lookup a else none := by
  induction m with
  | nil => simp [Dram.lookup]
  | cons e rest ih =>
    obtain ⟨b, v⟩ := e
    rw [List.filter_cons]
    by_cases hb : b = a
    · subst hb
      by_cases hp : p b = true
      · simp [hp, Dram.lookup]
      · simp only [hp]; simp only [Bool.false_eq_true, if_false, ih, hp]
    · by_cases hp : p b = true
      · simp only [hp, if_true, Dram.lookup, if_neg hb, ih]
      · simp only [hp, Bool.false_eq_true, if_false, Dram.lookup, if_neg hb, ih]

theorem lookup_addressed (a b : Nat) (vs : List Sample) :
    Dram.lookup (addressed a vs) b = if a ≤ b then vs[b - a]? else none := by
  induction vs generalizing a with
  | nil => simp [addressed, Dram.lookup]
  | cons v rest ih =>
    simp only [addressed, Dram.lookup, ih]
    by_cases h : a = b
    · subst h; simp
    · by_cases h1 : a ≤ b
      · have h2 : a + 1 ≤ b := by omega
        have h3 : b - a = (b - (a + 1)) + 1 := by omega
        simp [h, h1, h2, h3]
      · have h2 : ¬ a + 1 ≤ b := by omega
        simp [h, h1, h2]

/-- What an address holds after a write. -/
theorem Dram.lookup_write (m : Dram) (a b : Nat) (vs : List Sample) :
    (m.write a vs).lookup b = if a ≤ b ∧ b < a + vs.length then vs[b - a]? else m.lookup b := by
  unfold Dram.write
  rw [Dram.lookup_append, Dram.lookup_append, Dram.lookup_filter m (· < a), Dram.lookup_filter m (a + vs.length ≤ ·),
    lookup_addressed]
  by_cases h1 : b < a
  · have h2 : ¬ a ≤ b := by omega
    have h3 : ¬ a + vs.length ≤ b := by omega
    simp [h1, h2, h3]
  · have h2 : a ≤ b := by omega
    by_cases h3 : b < a + vs.length
    · have h4 : ¬ a + vs.length ≤ b := by omega
      simp [h1, h2, h3, h4]
    · have h4 : a + vs.length ≤ b := by omega
      have h5 : vs[b - a]? = none := List.getElem?_eq_none (by omega)
      simp [h1, h2, h3, h4, h5]

/-- Two places of the store share an address only when they are one place. -/
theorem sampleAddr_inj {n n' : SlotNo} {line line' : Nat} {c c' : Component} {x x' : Nat}
    (hl : line < 1080) (hl' : line' < 1080) (hx : x < compRoom c) (hx' : x' < compRoom c')
    (h : sampleAddr n line c x = sampleAddr n' line' c' x') : n = n' ∧ line = line' ∧ c = c' ∧ x = x' := by
  unfold sampleAddr slotSpan lineSpan at h
  have h1 : compBase c + x < 3840 := by cases c <;> simp [compBase, compRoom] at * <;> omega
  have h1' : compBase c' + x' < 3840 := by cases c' <;> simp [compBase, compRoom] at * <;> omega
  have hn : n.val = n'.val := by omega
  have hline : line = line' := by omega
  have hc : compBase c + x = compBase c' + x' := by omega
  refine ⟨Fin.ext hn, hline, ?_⟩
  cases c <;> cases c' <;> simp [compBase, compRoom] at * <;> omega

/-- What a place reads as after one component of a line is written: the new samples on that line, as many as
are given, and what it read as before everywhere else. -/
theorem readSample_writeComponent (n m : SlotNo) (line line' : Nat) (c c' : Component) (vs : List Sample) (x : Nat)
    (s : State) (hl : line < 1080) (hl' : line' < 1080) (hx : x < compRoom c') :
    readSample (writeComponent n line c vs s) m line' c' x =
      if m = n ∧ line' = line ∧ c' = c then (vs[x]?).getD (readSample s m line' c' x)
      else readSample s m line' c' x := by
  unfold writeComponent readSample
  rw [if_pos hl]
  dsimp only
  rw [Dram.lookup_write]
  by_cases h : m = n ∧ line' = line ∧ c' = c
  · rw [if_pos h]
    obtain ⟨rfl, rfl, rfl⟩ := h
    have e : sampleAddr m line' c' x = sampleAddr m line' c' 0 + x := by simp [sampleAddr]
    rw [e]
    have hk : (vs.take (compRoom c'))[sampleAddr m line' c' 0 + x - sampleAddr m line' c' 0]? = vs[x]? := by
      rw [Nat.add_sub_cancel_left, List.getElem?_take, if_pos hx]
    rw [hk, List.length_take]
    by_cases hv : x < vs.length
    · rw [if_pos ⟨Nat.le_add_right _ _, by omega⟩, List.getElem?_eq_getElem hv]; rfl
    · rw [if_neg (by omega), List.getElem?_eq_none (by omega : vs.length ≤ x)]; rfl
  · rw [if_neg h, if_neg]
    rintro ⟨h1, h2⟩
    have hk : sampleAddr m line' c' x - sampleAddr n line c 0 < compRoom c := by
      simp only [List.length_take] at h2; omega
    have e : sampleAddr m line' c' x = sampleAddr n line c (sampleAddr m line' c' x - sampleAddr n line c 0) := by
      have : sampleAddr n line c (sampleAddr m line' c' x - sampleAddr n line c 0) =
        sampleAddr n line c 0 + (sampleAddr m line' c' x - sampleAddr n line c 0) := by simp [sampleAddr]
      omega
    obtain ⟨a, b, d, _⟩ := sampleAddr_inj hl' hl hx hk e
    exact h ⟨a, b, d⟩

/-- A line that is written: the places of that line that are given a sample read as it, and no other place
changes. -/
theorem readSample_writeLine (n m : SlotNo) (line line' : Nat) (v : Component → List Sample) (c : Component)
    (x : Nat) (s : State) (hl : line < 1080) (hl' : line' < 1080) (hx : x < compRoom c) :
    readSample (writeLine n line (v .y) (v .cb) (v .cr) s) m line' c x =
      if m = n ∧ line' = line then ((v c)[x]?).getD (readSample s m line' c x) else readSample s m line' c x := by
  unfold writeLine
  rw [readSample_writeComponent n m line line' .cr c _ x _ hl hl' hx,
    readSample_writeComponent n m line line' .cb c _ x _ hl hl' hx,
    readSample_writeComponent n m line line' .y c _ x _ hl hl' hx]
  by_cases h : m = n ∧ line' = line
  · obtain ⟨rfl, rfl⟩ := h
    cases c <;> simp
  · have h' : ∀ p : Prop, ¬ (m = n ∧ line' = line ∧ p) := fun p k => h ⟨k.1, k.2.1⟩
    rw [if_neg (h' _), if_neg (h' _), if_neg (h' _), if_neg h]

/-- Lines written one after another, each once: a place of one of them reads as its new sample, where it is
given one, and no other place changes. -/
theorem readSample_writeLines (n m : SlotNo) (v : Nat → Component → List Sample) (lines : List Nat) (line : Nat)
    (c : Component) (x : Nat) (s : State) (hd : lines.Nodup) (hl : ∀ y ∈ lines, y < 1080) (hline : line < 1080)
    (hx : x < compRoom c) :
    readSample (forEach lines (fun y => writeLine n y (v y .y) (v y .cb) (v y .cr)) s) m line c x =
      if m = n ∧ line ∈ lines then ((v line c)[x]?).getD (readSample s m line c x) else readSample s m line c x := by
  induction lines generalizing s with
  | nil => simp [forEach]
  | cons y rest ih =>
    have e : forEach (y :: rest) (fun y => writeLine n y (v y .y) (v y .cb) (v y .cr)) s =
      forEach rest (fun y => writeLine n y (v y .y) (v y .cb) (v y .cr))
        (writeLine n y (v y .y) (v y .cb) (v y .cr) s) := rfl
    rw [e, ih _ (List.nodup_cons.1 hd).2 fun z hz => hl z (List.mem_cons_of_mem _ hz),
      readSample_writeLine n m y line (v y) c x s (hl y List.mem_cons_self) hline hx]
    by_cases hm : m = n
    · by_cases h1 : line = y
      · subst h1
        rw [if_neg (fun k => (List.nodup_cons.1 hd).1 k.2), if_pos ⟨hm, rfl⟩, if_pos ⟨hm, List.mem_cons_self⟩]
      · have hy : ¬ (m = n ∧ line = y) := fun k => h1 k.2
        simp only [if_neg hy]
        by_cases h2 : line ∈ rest
        · rw [if_pos ⟨hm, h2⟩, if_pos ⟨hm, List.mem_cons_of_mem _ h2⟩]
        · rw [if_neg (fun k => h2 k.2), if_neg (fun k => (List.mem_cons.1 k.2).elim h1 h2)]
    · rw [if_neg (fun k => hm k.1), if_neg (fun k => hm k.1), if_neg (fun k => hm k.1)]

/-- No standard has more active lines than a slot. -/
theorem activeLines_le (i : StdId) : (Config.std i).activeLines ≤ 1080 := by revert i; decide

/-- What a place reads as after a picture is left incomplete: a free value in its area, and what it read as
before everywhere else. -/
theorem readSample_leavePartial (n m : SlotNo) (i : StdId) (line : Nat) (c : Component) (x : Nat) (s : State)
    (hl : line < 1080) (hx : x < compRoom c) :
    readSample (leavePartial n i s) m line c x =
      if m = n ∧ line < (Config.std i).activeLines ∧ x < componentWidth (Config.std i).width c
      then Config.freePartial s.partials (sampleAddr m line c x) else readSample s m line c x := by
  have h := readSample_writeLines n m
    (fun y c => partialSamples s.partials n y c (componentWidth (Config.std i).width c))
    (List.range (Config.std i).activeLines) line c x s List.nodup_range
    (fun y hy => lt_of_lt_of_le (List.mem_range.1 hy) (activeLines_le i)) hl hx
  refine (Eq.trans rfl h).trans ?_
  by_cases hm : m = n ∧ line < (Config.std i).activeLines
  · rw [if_pos ⟨hm.1, List.mem_range.2 hm.2⟩]
    unfold partialSamples
    rw [List.getElem?_map]
    by_cases h2 : x < componentWidth (Config.std i).width c
    · rw [if_pos ⟨hm.1, hm.2, h2⟩, List.getElem?_eq_getElem (by simpa using h2), List.getElem_range, hm.1]; rfl
    · rw [if_neg (fun k => h2 k.2.2), List.getElem?_eq_none (by simpa using h2)]; rfl
  · rw [if_neg (fun k => hm ⟨k.1, List.mem_range.1 k.2⟩), if_neg (fun k => hm ⟨k.1, k.2.1⟩)]

end Sys2Proof.Machine
end

