-- ==== Sys2Proof/Laws/Ports.lean ====
section
/-! SUPPORT. What a SUBMIT does, case by case, and that the ports and event units keep the invariant. -/

namespace Sys2Proof.Machine

/-! ## The cases of a SUBMIT (R178, R179) -/

theorem submit_resetN {α : Type} (p : Port) (tag : Byte) (params : List Word) (d : List Word → Option α)
    (o : α → State → Answer) (s : State) (h : s.dev.resetN = true) : submit p tag params d o s = s := by
  simp [submit, h]

/-- A port's record is changed twice. -/
theorem State.modPort_modPort (s : State) (p : Port) (f g : PortRec → PortRec) :
    (s.modPort p f).modPort p g = s.modPort p fun r => g (f r) := by
  cases p <;> rfl

theorem State.port_modPort (s : State) (p : Port) (f : PortRec → PortRec) :
    (s.modPort p f).port p = f (s.port p) := by cases p <;> rfl

/-- A SUBMIT at a BUSY mailbox is refused: the request, the response and everything else stand. -/
theorem submit_busy {α : Type} (p : Port) (tag : Byte) (params : List Word) (d : List Word → Option α)
    (o : α → State → Answer) (s : State) (r : InProgress) (h : s.dev.resetN = false)
    (hb : (s.port p).mailbox = .busy r) :
    submit p tag params d o s = s.modPort p fun x =>
      { x with submitRefused := true, dout := statusByte s p :: List.replicate (2 * params.length + 3) 0#8 } := by
  have hm : ((submitReply p params.length s).port p).mailbox = .busy r := by
    simp [submitReply, State.port_modPort, hb]
  simp only [submit, h, Bool.false_eq_true, if_false, hm]
  rw [submitReply, State.modPort_modPort]

/-- The state in which a taken request reaches its owner: submit refused is clear and the bytes are out. -/
theorem submit_taken {α : Type} (p : Port) (tag : Byte) (params : List Word) (d : List Word → Option α)
    (o : α → State → Answer) (s : State) (h : s.dev.resetN = false)
    (hm : (s.port p).mailbox = .idle ∨ (s.port p).mailbox = .done) :
    submit p tag params d o s =
      if s.isReady then
        match d params with
        | none => post p .invalid tag [] (s.taking p params.length)
        | some a => finish p tag (o a (s.taking p params.length))
      else post p .notReady tag [] (s.taking p params.length) := by
  have hm' : ((submitReply p params.length s).port p).mailbox = (s.port p).mailbox := by
    simp [submitReply, State.port_modPort]
  have ht : (submitReply p params.length s).modPort p (fun r => { r with submitRefused := false }) =
      s.taking p params.length := by
    rw [submitReply, State.modPort_modPort]; rfl
  simp only [submit, h, Bool.false_eq_true, if_false, hm']
  rcases hm with e | e <;> simp only [e, ht] <;> rfl

/-- A posted response leaves the port answered. -/
theorem post_taking (p : Port) (st : Status) (tag : Byte) (words : List Word) (s : State) (k : Nat) :
    post p st tag words (s.taking p k) = s.answered p st tag words k := by
  rw [post, State.taking, State.modPort_modPort]; rfl

/-- NOT_READY in STARTING. -/
theorem submit_notReady {α : Type} (p : Port) (tag : Byte) (params : List Word) (d : List Word → Option α)
    (o : α → State → Answer) (s : State) (h : s.dev.resetN = false)
    (hm : (s.port p).mailbox = .idle ∨ (s.port p).mailbox = .done) (hs : s.dev.state = .starting) :
    submit p tag params d o s = s.answered p .notReady tag [] params.length := by
  rw [submit_taken p tag params d o s h hm, if_neg (by simp [State.isReady, hs]), post_taking]

/-- INVALID where the request does not decode. -/
theorem submit_invalid {α : Type} (p : Port) (tag : Byte) (params : List Word) (d : List Word → Option α)
    (o : α → State → Answer) (s : State) (h : Taken s p) (hd : d params = none) :
    submit p tag params d o s = s.answered p .invalid tag [] params.length := by
  rw [submit_taken p tag params d o s h.2.1 h.2.2, if_pos (by simp [State.isReady, h.1]), hd]
  exact post_taking p .invalid tag [] s params.length

/-- Its owner's answer otherwise. -/
theorem submit_owner {α : Type} (p : Port) (tag : Byte) (params : List Word) (d : List Word → Option α)
    (o : α → State → Answer) (s : State) (h : Taken s p) (a : α) (hd : d params = some a) :
    submit p tag params d o s = finish p tag (o a (s.taking p params.length)) := by
  rw [submit_taken p tag params d o s h.2.1 h.2.2, if_pos (by simp [State.isReady, h.1]), hd]

/-- An owner that changes nothing: the answer and nothing else. -/
theorem submit_reads {α : Type} (p : Port) (tag : Byte) (params : List Word) (d : List Word → Option α)
    (o : α → State → Answer) (s : State) (h : Taken s p) (a : α) (hd : d params = some a) (st : Status)
    (words : List Word)
    (ho : o a (s.taking p params.length) = .complete st words (s.taking p params.length)) :
    submit p tag params d o s = s.answered p st tag words params.length := by
  rw [submit_owner p tag params d o s h a hd, ho]
  exact post_taking p st tag words s params.length

/-- Passing time leaves whether a request is taken. -/
theorem Taken.elapse {s : State} {p : Port} (h : Taken s p) (dt : Nat) : Taken (s.elapse dt) p := by
  obtain ⟨h1, h2, h3⟩ := h
  have : s.elapse dt = { s with dev := { s.dev with houseTime := satAdd Config.houseMax s.dev.houseTime dt } } := by
    simp [State.elapse, h1]
  rw [this]; exact ⟨h1, h2, h3⟩

/-! ## The invariant -/

/-- The state of an answer keeps the invariant. -/
def Answer.Keeps : Answer → Prop
  | .complete _ _ s => Inv s
  | .stays _ s => Inv s

theorem Inv.post {s : State} (h : Inv s) (p : Port) (st : Status) (tag : Byte) (words : List Word) :
    Inv (post p st tag words s) := h.modPort p _ fun _ hr => hr

theorem Inv.finish {a : Answer} (h : a.Keeps) (p : Port) (tag : Byte) : Inv (finish p tag a) := by
  cases a with
  | complete st w s => exact Inv.post (show Inv s from h) p st tag w
  | stays r s => exact Inv.modPort (show Inv s from h) p (fun x => { x with mailbox := .busy r }) fun _ hr => hr

theorem Inv.submit {α : Type} {s : State} (h : Inv s) (p : Port) (tag : Byte) (params : List Word)
    (d : List Word → Option α) (o : α → State → Answer) (ho : ∀ a s, Inv s → (o a s).Keeps) :
    Inv (submit p tag params d o s) := by
  unfold Machine.submit
  split
  · exact h
  · have h1 : Inv (submitReply p params.length s) := h.modPort p _ fun _ hr => hr
    dsimp only
    split
    · exact h1.modPort p _ fun _ hr => hr
    · have h2 := h1.modPort p (fun r => { r with submitRefused := false }) fun _ hr => hr
      split
      · split
        · exact h2.post p _ _ _
        · exact Inv.finish (ho _ _ h2) p tag
      · exact h2.post p _ _ _
    · have h2 := h1.modPort p (fun r => { r with submitRefused := false }) fun _ hr => hr
      split
      · split
        · exact h2.post p _ _ _
        · exact Inv.finish (ho _ _ h2) p tag
      · exact h2.post p _ _ _

theorem Inv.peerAppend {s : State} (h : Inv s) (p : Port) (e : PeerEntry) : Inv (peerAppend p e s) := by
  refine Inv.raiseAt (h.modPort p _ fun r hr => ?_) p .peerChange
  split
  · next hl => exact ⟨by simpa using hl, hr.2⟩
  · have h8 := hr.1
    exact ⟨by simp only [List.length_append, List.length_drop, List.length_singleton]; omega, hr.2⟩

theorem Inv.announce {s : State} (h : Inv s) (p : Port) (e : PeerEntry) : Inv (announce p e s) :=
  h.peerAppend p.other e

theorem Inv.announceIf {s : State} (h : Inv s) (b : Bool) (p : Port) (e : PeerEntry) : Inv (announceIf b p e s) := by
  unfold Machine.announceIf; split
  · exact h.announce p e
  · exact h

theorem Inv.requestDone {s : State} (h : Inv s) (p : Port) : Inv (requestDone p s) := h.raiseAt p .requestDone

theorem Inv.clearFlags {s : State} (h : Inv s) (p : Port) (g : GroupNo) (w : Word) : Inv (clearFlags p g w s) :=
  h.setUnit p _

theorem Inv.malformedFrame {s : State} (h : Inv s) (p : Port) (bytes : List Byte) : Inv (malformedFrame p bytes s) := by
  unfold Machine.malformedFrame; split
  · exact h
  · exact h.modPort p _ fun _ hr => hr

theorem Inv.fetchFrame {s : State} (h : Inv s) (p : Port) (o : Option Word) (k : Nat) : Inv (fetchFrame p o k s) := by
  unfold Machine.fetchFrame; split
  · exact h
  · exact h.modPort p _ fun _ hr => hr

theorem Inv.statusFrame {s : State} (h : Inv s) (p : Port) (k : Nat) : Inv (statusFrame p k s) := by
  unfold Machine.statusFrame; split
  · exact h
  · exact h.modPort p _ fun _ hr => hr

theorem keeps_deviceStatus (a : Unit) (s : State) (h : Inv s) : (ownDeviceStatus a s).Keeps := h

theorem keeps_peerChanges (p : Port) (a : Unit) (s : State) (h : Inv s) : (ownPeerChanges p a s).Keeps :=
  h.modPort p _ fun _ hr => ⟨by simp, hr.2⟩

theorem keeps_getEvents (p : Port) (a : Unit) (s : State) (h : Inv s) : (ownGetEvents p a s).Keeps := by
  unfold ownGetEvents; dsimp only; split
  · exact h
  · show Inv _
    split
    · exact h.clearFlags p _ _
    · exact h

theorem keeps_ackEvents (p : Port) (a : Nat × Nat) (s : State) (h : Inv s) : (ownAckEvents p a s).Keeps := by
  unfold ownAckEvents; split
  · exact h
  · split
    · exact h.clearFlags p _ _
    · exact h

theorem keeps_setEventMode (p : Port) (a : Nat × Nat) (s : State) (h : Inv s) : (ownSetEventMode p a s).Keeps := by
  unfold ownSetEventMode; split
  · exact h.setUnit p _
  · exact h

theorem keeps_setEventEnables (p : Port) (a : Nat × Nat × Nat) (s : State) (h : Inv s) :
    (ownSetEventEnables p a s).Keeps := by
  unfold ownSetEventEnables; split
  · exact h
  · split
    · exact h.setUnit p _
    · exact h

end Sys2Proof.Machine
end

