-- ==== Sys2Proof/Laws/Feeds.lean ====
section
/-! SUPPORT. The timebase, the cadence detectors, the rings and the profile table keep the invariant. -/

namespace Sys2Proof.Machine

/-! ## Profile table -/

theorem ProfileOk.promote {e : EntryNo} {x : Profile} (h : ProfileOk e x) : ProfileOk e x.promote := by
  intro he
  obtain ⟨h1, h2⟩ := h he
  simp [Profile.promote, h2, h1]

theorem Inv.addUser {s : State} (h : Inv s) (e : EntryNo) : Inv (addUser e s) :=
  h.modProfile e (fun x => { x with users := x.users + 1 }) fun hp => hp

theorem Inv.dropUser {s : State} (h : Inv s) (e : EntryNo) : Inv (dropUser e s) := by
  refine h.modProfile e _ fun hp => ?_
  dsimp only
  split
  · exact ProfileOk.promote (x := { s.profiles[e] with users := s.profiles[e].users - 1 }) hp
  · exact hp

theorem Inv.closeStaging {s : State} (h : Inv s) (p : Port) : Inv (closeStaging p s) :=
  h.modPort p _ fun _ hr => ⟨hr.1, fun b hb => by cases hb⟩

theorem keeps_profileBegin (p : Port) (a : Nat × Nat × Nat × Nat) (s : State) (h : Inv s) :
    (ownProfileBegin p a s).Keeps := by
  unfold ownProfileBegin; split
  · split
    · exact h
    · next e shape _ _ hn =>
      refine h.modPort p _ fun r hr => ⟨hr.1, fun b hb => ?_⟩
      cases hb
      show 6 ≤ e.val
      omega
  · exact h

theorem keeps_profileData (p : Port) (a : Nat × List Word) (s : State) (h : Inv s) : (ownProfileData p a s).Keeps := by
  unfold ownProfileData; split
  · exact h
  · next b hb =>
    split
    · have hp := (h.ports p).2 b hb
      refine h.modPort p _ fun r hr => ⟨hr.1, fun b' hb' => ?_⟩
      cases hb'
      exact hp
    · exact h

theorem keeps_profileAbandon (p : Port) (a : Unit) (s : State) (h : Inv s) : (ownProfileAbandon p a s).Keeps := by
  unfold ownProfileAbandon; split
  · exact h
  · exact h.closeStaging p

theorem keeps_profileCommit (p : Port) (tag : Byte) (a : Nat) (s : State) (h : Inv s) :
    (ownProfileCommit p tag a s).Keeps := by
  unfold ownProfileCommit; split <;> exact h

theorem keeps_getProfile (p : Port) (a : Nat × Nat × Nat) (s : State) (h : Inv s) : (ownGetProfile p a s).Keeps := by
  unfold ownGetProfile; split
  · split <;> exact h
  · exact h

/-- Only a loadable entry is installed. -/
theorem Inv.install {s : State} (h : Inv s) (e : EntryNo) (c : Content) (he : 6 ≤ e.val) : Inv (install e c s).2 := by
  unfold Machine.install; dsimp only; split
  · exact h.modProfile e _ fun _ h5 => by omega
  · exact h.modProfile e _ fun _ h5 => by omega

theorem Inv.endValidation {s : State} (h : Inv s) (p : Port) (tag : Byte) (w : Word) :
    Inv (endValidation p tag w s) := by
  unfold Machine.endValidation; split
  · exact (h.post p _ _ _).requestDone p
  · next b hb =>
    have hp := (h.ports p).2 b hb
    split
    · exact ((h.closeStaging p).post p _ _ _).requestDone p
    · next c _ =>
      exact ((((h.install b.entry c hp).closeStaging p).announce p _).post p _ _ _).requestDone p

theorem Inv.validationEnd {s : State} (h : Inv s) (p : Port) : Inv (validationEnd p s) := by
  unfold Machine.validationEnd; split
  · split
    · exact h.endValidation p _ _
    · exact h
  · exact h

/-! ## Reference timebase -/

theorem Inv.moveDeadline {s : State} (h : Inv s) (c : Chan) (t : Nat) : Inv (moveDeadline c t s) :=
  h.of_eq rfl rfl rfl rfl rfl rfl rfl rfl rfl

theorem Inv.retimeWith {s : State} (h : Inv s) (f : OutTiming → Reference → Bank → OutTiming) (c : Chan) :
    Inv (retimeWith f c s) := by
  unfold Machine.retimeWith; dsimp only; split
  · exact h.modTiming c _
  · exact (h.modTiming c _).moveDeadline c _

theorem Inv.advanceTiming {s : State} (h : Inv s) (c : Chan) : Inv (advanceTiming c s) := h.modTiming c _

theorem Inv.rebuild {s : State} (h : Inv s) (c : Chan) (p : Nat) : Inv (rebuild c p s) := by
  unfold Machine.rebuild; dsimp only; split <;> exact h.modTiming c _

/-- An interval within 270 ticks of T_align (R2). -/
def IntervalOk (r : Reference) (i : Nat) : Prop := r.tAlign ≤ i + 270 ∧ i ≤ r.tAlign + 270

theorem RefOk.interval {r : Reference} (h : RefOk r) : IntervalOk r r.interval := ⟨h.2.1, h.2.2.1⟩

theorem intervalOk_of_near {r : Reference} {i : Nat} (h : near i r.tAlign = true) : IntervalOk r i := by
  have h' : absDiff i r.tAlign ≤ 270 := of_decide_eq_true h
  unfold absDiff at h'
  unfold IntervalOk
  split at h' <;> constructor <;> omega

theorem intervalOk_clamp (r : Reference) (h : RefOk r) (i : Int) : IntervalOk r (r.clampInterval i) := by
  have ht := h.1
  unfold Config.tAlignOk at ht
  simp only [Bool.or_eq_true, decide_eq_true_eq] at ht
  unfold IntervalOk Reference.clampInterval clampInt
  split
  · constructor <;> omega
  · split <;> constructor <;> omega

theorem RefOk.withEpoch {r : Reference} (h : RefOk r) (t : Nat) (k : EpochKind) (i : Nat) (hi : IntervalOk r i) :
    RefOk { r with epoch := t, kind := k, interval := i } := ⟨h.1, hi.1, hi.2, h.2.2.2⟩

theorem Inv.moveEpoch {s : State} (h : Inv s) (n : RefNo) (t : Nat) (k : EpochKind) (i : Nat)
    (hi : IntervalOk s.refs[n] i) : Inv (moveEpoch n t k i s) := by
  unfold Machine.moveEpoch
  exact Inv.forEach _ _ (fun c _ h => h.retimeWith _ c) (h.modRef n _ fun hr => hr.withEpoch t k i hi)

theorem Inv.newPeriod {s : State} (h : Inv s) (n : RefNo) (t : Nat) (k : EpochKind) (i : Nat)
    (hi : IntervalOk s.refs[n] i) : Inv (newPeriod n t k i s) := by
  unfold Machine.newPeriod
  exact Inv.forEach _ _ (fun c _ h => h.retimeWith _ c) (h.modRef n _ fun hr => hr.withEpoch t k i hi)

theorem Inv.retime {s : State} (h : Inv s) (n : RefNo) (t : Nat) (i : Nat)
    (hi : IntervalOk s.refs[n] i) : Inv (retime n t i s) := by
  unfold Machine.retime
  exact Inv.raise (Inv.forEach _ _ (fun c _ h => h.retimeWith _ c)
    (h.modRef n _ fun hr => hr.withEpoch t .pulse i hi)) _

theorem Inv.enterLocking {s : State} (h : Inv s) (n : RefNo) (t : Nat) : Inv (enterLocking n t s) := by
  unfold Machine.enterLocking
  exact Inv.condition (h.modRef n _ fun hr =>
    ⟨hr.1, hr.2.1, hr.2.2.1, by simp, by simp, hr.2.2.2.2.2⟩) _ _ _

theorem State.modRef_tAlign (s : State) (n : RefNo) (f : Reference → Reference)
    (hf : (f s.refs[n]).tAlign = s.refs[n].tAlign) : (s.modRef n f).refs[n].tAlign = s.refs[n].tAlign := by
  show (modifyAt s.refs n f)[n].tAlign = _
  rw [modifyAt_same, hf]

theorem Inv.adopt {s : State} (h : Inv s) (n : RefNo) (t i : Nat) (hi : near i s.refs[n].tAlign = true) :
    Inv (adopt n t i s) := by
  unfold Machine.adopt
  have h1 : Inv (Machine.condition (Source.refLock n) false true
      (s.modRef n fun r => { r with state := .locked, lastPulse := some t, good := 4 })) := by
    apply Inv.condition
    exact h.modRef n (fun r => { r with state := .locked, lastPulse := some t, good := 4 }) fun hr =>
      ⟨hr.1, hr.2.1, hr.2.2.1, by simp, by simp, hr.2.2.2.2.2⟩
  have hk : IntervalOk (Machine.condition (Source.refLock n) false true
      (s.modRef n fun r => { r with state := .locked, lastPulse := some t, good := 4 })).refs[n] i := by
    have hi' := intervalOk_of_near hi
    unfold IntervalOk at hi' ⊢
    rw [condition_refs, State.modRef_tAlign s n _ rfl]
    exact hi'
  dsimp only
  split
  · exact h1.moveEpoch n t _ i hk
  · split
    · exact h1.newPeriod n t _ i hk
    · exact h1.retime n t i hk

theorem Inv.pulseLocking {s : State} (h : Inv s) (n : RefNo) (t : Nat) (hs : s.refs[n].state = .locking) :
    Inv (pulseLocking n t s) := by
  unfold Machine.pulseLocking
  dsimp only
  split
  · next hc =>
    have hc := (Bool.and_eq_true _ _ ▸ hc : _ ∧ _)
    split
    · exact h.adopt n t _ hc.2
    · next h4 =>
      refine h.modRef n _ fun hr => ⟨hr.1, hr.2.1, hr.2.2.1, ?_, fun _ => ?_, hr.2.2.2.2.2⟩
      · have := hr.2.2.2.2.1 hs
        show s.refs[n].good + 1 ≤ 4
        omega
      · have := hr.2.2.2.2.1 hs
        show s.refs[n].good + 1 ≤ 3
        omega
  · exact h.modRef n _ fun hr => ⟨hr.1, hr.2.1, hr.2.2.1, by simp, by simp, hr.2.2.2.2.2⟩

theorem Inv.pulseOutside {s : State} (h : Inv s) (n : RefNo) (t : Nat) : Inv (pulseOutside n t s) := by
  unfold Machine.pulseOutside
  split
  · exact Inv.enterLocking (h.modRef n _ fun hr => ⟨hr.1, hr.2.1, hr.2.2.1, hr.2.2.2.1, hr.2.2.2.2.1, by simp⟩) n t
  · next hc =>
    refine h.modRef n _ fun hr => ⟨hr.1, hr.2.1, hr.2.2.1, hr.2.2.2.1, hr.2.2.2.2.1, ?_⟩
    have := hr.2.2.2.2.2
    show s.refs[n].oot + 1 ≤ 1
    omega

theorem Inv.accept {s : State} (h : Inv s) (n : RefNo) (t : Nat) :
    Inv (s.modRef n fun r => { r with lastPulse := some t, oot := 0 }) :=
  h.modRef n _ fun hr => ⟨hr.1, hr.2.1, hr.2.2.1, hr.2.2.2.1, hr.2.2.2.2.1, by simp⟩

theorem Inv.pulseLocked {s : State} (h : Inv s) (n : RefNo) (t : Nat) : Inv (pulseLocked n t s) := by
  unfold Machine.pulseLocked
  dsimp only
  split
  · split
    · exact Inv.accept (h.moveEpoch n t _ _ (intervalOk_clamp _ (h.refs n) _)) n t
    · exact h.pulseOutside n t
  · split
    · exact Inv.accept (h.newPeriod n t _ _ (intervalOk_clamp _ (h.refs n) _)) n t
    · exact h.pulseOutside n t

theorem Inv.refPulse {s : State} (h : Inv s) (n : RefNo) : Inv (refPulse n s) := by
  unfold Machine.refPulse
  split
  · split
    · exact h.enterLocking n _
    · exact h.enterLocking n _
    · next hs => exact h.pulseLocking n _ hs
    · exact h.pulseLocked n _
  · exact h

theorem Inv.syntheticEpoch {s : State} (h : Inv s) (n : RefNo) : Inv (syntheticEpoch n s) := by
  unfold Machine.syntheticEpoch; dsimp only; split
  · exact h.newPeriod n _ _ _ (h.refs n).interval
  · exact h

theorem Inv.provisionalEpoch {s : State} (h : Inv s) (n : RefNo) : Inv (provisionalEpoch n s) := by
  unfold Machine.provisionalEpoch; dsimp only; split
  · exact h.newPeriod n _ _ _ (h.refs n).interval
  · exact h

theorem Inv.windowExpiry {s : State} (h : Inv s) (n : RefNo) : Inv (windowExpiry n s) := by
  unfold Machine.windowExpiry; split
  · exact Inv.condition (h.modRef n _ fun hr =>
      ⟨hr.1, hr.2.1, hr.2.2.1, hr.2.2.2.1, by simp, by simp⟩) _ _ _
  · exact h

theorem Inv.rebind {s : State} (h : Inv s) (was : Chan → Bool) (c : Chan) : Inv (rebind was c s) := by
  unfold Machine.rebind; split
  · split
    · exact h
    · exact h.rebuild c _
  · exact h.modTiming c _

theorem Inv.setAlign {s : State} (h : Inv s) (n : RefNo) (t : Nat) (ht : Config.tAlignOk t = true) :
    Inv (setAlign n t s) := by
  unfold Machine.setAlign
  refine Inv.forEach _ _ (fun c _ h => h.rebind _ c) (Inv.condition (h.modRef n _ fun hr => ?_) _ _ _)
  exact ⟨ht, by simp, by simp, by simp, by simp, by simp⟩

theorem keeps_setReference (p : Port) (a : Nat × Nat) (s : State) (h : Inv s) : (ownSetReference p a s).Keeps := by
  unfold ownSetReference; split
  · exact h
  · next n _ =>
    split
    · next ht =>
      split
      · exact h
      · split
        · exact h
        · exact (h.setAlign n a.2 ht).announce p _
    · exact h

theorem keeps_getReferenceStatus (a : Nat) (s : State) (h : Inv s) : (ownGetReferenceStatus a s).Keeps := by
  unfold ownGetReferenceStatus; split <;> exact h

/-! ## Cadence detectors -/

theorem appendFlag_length (l : List RepeatFlag) (x : RepeatFlag) : (appendFlag l x).length ≤ 10 := by
  simp only [appendFlag, List.length_drop, List.length_append, List.length_singleton]; omega

theorem appendFilm_length (l : List FilmEntry) (x : FilmEntry) : (appendFilm l x).length ≤ 8 := by
  simp only [appendFilm, List.length_drop, List.length_append, List.length_singleton]; omega

theorem DetOk.takeFlag {d : Detector} (h : DetOk d) (t : Nat) (b : Bool) (x : Option FieldIn) :
    DetOk (d.takeFlag t b x) := ⟨appendFlag_length _ _, h.2⟩

theorem DetOk.completeFilm {d : Detector} (h : DetOk d) (x : FieldRef) : DetOk (d.completeFilm x) := by
  unfold Detector.completeFilm; split
  · exact h
  · exact ⟨h.1, appendFilm_length _ _, h.2.2⟩

theorem DetOk.dropSlot {d : Detector} (h : DetOk d) (n : SlotNo) : DetOk (d.dropSlot n) :=
  ⟨h.1, (List.length_filter_le _ _).trans h.2.1, h.2.2⟩

theorem DetOk.beginHalf {d : Detector} (h : DetOk d) (p : Int) (x : Option FieldIn) : DetOk (d.beginHalf p x) := by
  refine ⟨h.1, h.2.1, h.2.2.1, ?_⟩
  unfold Detector.beginHalf
  have := h.2.2.2
  dsimp only
  split <;> omega

theorem DetOk.openPosition {d : Detector} (h : DetOk d) (p : Int) (j : Nat) (x : Option FieldIn) :
    DetOk (d.openPosition p j x) := h

/-- A detector change whose four bounded fields stay. -/
theorem Inv.modDetSame {s : State} (h : Inv s) (f : Feed) (g : Detector → Detector)
    (h1 : ∀ d, (g d).history = d.history) (h2 : ∀ d, (g d).films = d.films) (h3 : ∀ d, (g d).failCount = d.failCount)
    (h4 : ∀ d, (g d).half = d.half) : Inv (s.modDet f g) :=
  h.modDet f g fun hd => by unfold DetOk at hd ⊢; rw [h1, h2, h3, h4]; exact hd

theorem Inv.enterLocked {s : State} (h : Inv s) (f : Feed) (st : DetState) : Inv (enterLocked f st s) := by
  unfold Machine.enterLocked
  exact Inv.condition (Inv.modDet (h.modRing f (fun r => { r with pendingBreak := true }) fun hr => hr) f _
    fun hd => ⟨hd.1, hd.2.1, by simp, hd.2.2.2⟩) _ _ _

theorem Inv.exitLocked {s : State} (h : Inv s) (f : Feed) : Inv (exitLocked f s) := by
  unfold Machine.exitLocked
  exact Inv.condition (Inv.modDet (h.modRing f (fun r => { r with pendingBreak := true }) fun hr => hr) f _
    fun hd => ⟨hd.1, by simp, by simp, hd.2.2.2⟩) _ _ _

theorem Inv.cadenceBreak {s : State} (h : Inv s) (f : Feed) : Inv (cadenceBreak f s) := by
  unfold Machine.cadenceBreak
  apply Inv.exitLocked
  exact h.modDetSame f _ (fun _ => rfl) (fun _ => rfl) (fun _ => rfl) fun _ => rfl

theorem Inv.tagField {s : State} (h : Inv s) (x : FieldIn) (t : FilmTag) : Inv (tagField x t s) := by
  unfold Machine.tagField; split
  · refine h.modSlot _ _ ?_
    show Slot.state (if _ then _ else _) = _
    split <;> rfl
  · exact h

/-- Replacing a detector by one that is within its bounds. -/
theorem Inv.setDet {s : State} (h : Inv s) (f : Feed) (d : Detector) (hd : DetOk d) : Inv (s.modDet f fun _ => d) :=
  h.modDet f _ fun _ => hd

theorem Inv.filmField32 {s : State} (h : Inv s) (f : Feed) (p : Nat) (x : Option FieldIn) :
    Inv (filmField32 f p x s) := by
  have hd := h.dets f
  have tag : ∀ (r : TagRole) (n : BitVec 16) (t : State), Inv t →
      Inv (match x with | some x => Machine.tagField x ⟨n, r⟩ t | none => t) := by
    intro r n t ht
    split
    · exact ht.tagField _ _
    · exact ht
  unfold Machine.filmField32
  dsimp only
  split
  · exact tag _ _ _ (h.setDet f _ ((hd.beginHalf _ _).openPosition _ _ _))
  · split
    · exact h
    · split
      · exact tag _ _ _ (h.setDet f _ (hd.openPosition _ _ _))
      · split
        · exact tag _ _ _ h
        · refine tag _ _ _ (h.setDet f _ ?_)
          split
          · exact hd.completeFilm _
          · exact hd

theorem Inv.openFilm22 {s : State} (h : Inv s) (f : Feed) (x : FieldIn) : Inv (openFilm22 f x s) := by
  unfold Machine.openFilm22
  apply Inv.tagField
  exact h.modDetSame f _ (fun _ => rfl) (fun _ => rfl) (fun _ => rfl) fun _ => rfl

theorem Inv.completeFilm22 {s : State} (h : Inv s) (f : Feed) (x : FieldIn) : Inv (completeFilm22 f x s) := by
  unfold Machine.completeFilm22
  exact Inv.tagField (h.modDet f _ fun hd => hd.completeFilm _) _ _

theorem Inv.rule32 {s : State} (h : Inv s) (f : Feed) (x : Option FieldIn) : Inv (rule32 f x s) := by
  unfold Machine.rule32
  dsimp only
  split
  · split
    · exact h.modDetSame f _ (fun _ => rfl) (fun _ => rfl) (fun _ => rfl) fun _ => rfl
    · exact h
  · split
    · exact h.modDetSame f _ (fun _ => rfl) (fun _ => rfl) (fun _ => rfl) fun _ => rfl
    · have h1 := h.modDetSame f
        (fun d => { d with phase := some (nextPhase s.dets[f].phase), candidates := d.candidates + 1 })
        (fun _ => rfl) (fun _ => rfl) (fun _ => rfl) fun _ => rfl
      split
      · exact h1.enterLocked f _
      · exact h1
  · have h1 := h.modDetSame f (fun d => { d with phase := some (nextPhase s.dets[f].phase) })
      (fun _ => rfl) (fun _ => rfl) (fun _ => rfl) fun _ => rfl
    split
    · exact h1.cadenceBreak f
    · exact h1.filmField32 f _ x
  · exact h
  · exact h

theorem Inv.applyVerdict {s : State} (h : Inv s) (f : Feed) (v : Verdict) : Inv (applyVerdict f v s) := by
  unfold Machine.applyVerdict
  dsimp only
  split
  · split <;> exact h.modDetSame f _ (fun _ => rfl) (fun _ => rfl) (fun _ => rfl) fun _ => rfl
  · split
    · have h1 := h.modDetSame f (fun d => { d with passCount := d.passCount + 1 })
        (fun _ => rfl) (fun _ => rfl) (fun _ => rfl) fun _ => rfl
      split
      · exact h1.enterLocked f _
      · exact h1
    · exact h.modDetSame f _ (fun _ => rfl) (fun _ => rfl) (fun _ => rfl) fun _ => rfl
  · split
    · split
      · exact h.cadenceBreak f
      · next hc =>
        refine h.modDet f _ fun hd => ⟨hd.1, hd.2.1, ?_, hd.2.2.2⟩
        have := hd.2.2.1
        show s.dets[f].failCount + 1 ≤ 2
        omega
    · exact h.modDet f _ fun hd => ⟨hd.1, hd.2.1, by simp, hd.2.2.2⟩
    · exact h
    · exact h
  · exact h
  · exact h

theorem Inv.film22 {s : State} (h : Inv s) (f : Feed) (b : Bool) (x : Option FieldIn) : Inv (film22 f b x s) := by
  unfold Machine.film22; split
  · split
    · exact h.completeFilm22 f _
    · exact h.openFilm22 f _
  · exact h

theorem Inv.takeField {s : State} (h : Inv s) (f : Feed) (b : Bool) (x : Option FieldIn) :
    Inv (takeField f b x s) := by
  have h1 := h.modDet f (fun d => d.takeFlag s.rings[f].threshold b x) fun hd => hd.takeFlag _ _ _
  unfold Machine.takeField
  dsimp only
  have h2 : ∀ t, Inv t → Inv (if (!s.rings[f].cadenceEnable) = true then t
      else if (s.rxs[f].detected.any Config.is32) = true then Machine.rule32 f x t
      else if (s.rxs[f].detected.any Config.is22) = true then Machine.film22 f b x t else t) := by
    intro t ht
    split
    · exact ht
    · split
      · exact ht.rule32 f x
      · split
        · exact ht.film22 f b x
        · exact ht
  apply h2
  split
  · exact h1.modDetSame f _ (fun _ => rfl) (fun _ => rfl) (fun _ => rfl) fun _ => rfl
  · split
    · have h3 := fun v : Verdict => h1.modDetSame f (fun d => { d with verdict := some v, followsSkip := s.dets[f].buf2.isNone })
        (fun _ => rfl) (fun _ => rfl) (fun _ => rfl) fun _ => rfl
      split
      · exact (h3 _).applyVerdict f _
      · exact h3 _
    · exact h1

theorem DetOk.anchorShift {d : Detector} (h : DetOk d) (e : Int) (q : BitVec 32) (t : Int) (b : Bool) :
    DetOk (anchorShift e q t b d) := by
  unfold Machine.anchorShift; split
  · split <;> exact h
  · exact h

theorem Inv.handover {s : State} (h : Inv s) (f : Feed) (n : SlotNo) (a b : Signature) : Inv (handover f n a b s) := by
  unfold Machine.handover
  dsimp only
  apply Inv.takeField
  apply Inv.takeField
  refine Inv.modDetSame ?_ f _ (fun _ => rfl) (fun _ => rfl) (fun _ => rfl) fun _ => rfl
  exact h.modDet f _ fun hd => hd.anchorShift _ _ _ _

theorem Inv.skipReport {s : State} (h : Inv s) (f : Feed) : Inv (skipReport f s) :=
  (h.takeField f false none).takeField f true none

theorem Inv.detectorRestart {s : State} (h : Inv s) (f : Feed) : Inv (detectorRestart f s) := by
  unfold Machine.detectorRestart
  exact Inv.condition (h.modDet f _ fun hd => ⟨by simp, by simp, by simp, hd.2.2.2⟩) _ _ _

theorem Inv.detectorLoss {s : State} (h : Inv s) (f : Feed) : Inv (detectorLoss f s) :=
  h.modDetSame f _ (fun _ => rfl) (fun _ => rfl) (fun _ => rfl) fun _ => rfl

theorem Inv.cadenceDisable {s : State} (h : Inv s) (f : Feed) : Inv (cadenceDisable f s) := by
  unfold Machine.cadenceDisable; split
  · exact h
  · exact h.modDetSame f _ (fun _ => rfl) (fun _ => rfl) (fun _ => rfl) fun _ => rfl
  · exact h.modDetSame f _ (fun _ => rfl) (fun _ => rfl) (fun _ => rfl) fun _ => rfl
  · exact h.exitLocked f
  · exact h.exitLocked f

/-! ## Rings -/

/-- A ring change whose bounded fields stay. -/
theorem Inv.modRingSame {s : State} (h : Inv s) (f : Feed) (g : Ring → Ring) (h1 : ∀ r, (g r).depth = r.depth)
    (h2 : ∀ r, (g r).threshold = r.threshold) (h3 : ∀ r, (g r).window = r.window) : Inv (s.modRing f g) :=
  h.modRing f g fun hr => by unfold RingOk at hr ⊢; rw [h1, h2, h3]; exact hr

theorem Inv.removeMember {s : State} (h : Inv s) (f : Feed) (n : SlotNo) : Inv (removeMember f n s) := by
  unfold Machine.removeMember
  refine Inv.modDet ?_ f _ fun hd => hd.dropSlot n
  apply Inv.detachOrRelease
  exact h.modRingSame f _ (fun _ => rfl) (fun _ => rfl) fun _ => rfl

theorem Inv.dropFilling {s : State} (h : Inv s) (f : Feed) (n : SlotNo) : Inv (dropFilling f n s) := by
  unfold Machine.dropFilling
  refine Inv.modDet ?_ f _ fun hd => hd.dropSlot n
  apply Inv.releaseFrom
  exact h.modRingSame f _ (fun _ => rfl) (fun _ => rfl) fun _ => rfl

theorem Inv.removeOldest {s : State} (h : Inv s) (f : Feed) (k : Nat) : Inv (removeOldest f k s) :=
  Inv.forEach _ _ (fun n _ h => h.removeMember f n) h

theorem RingOk.smooth {r : Ring} (h : RingOk r) (p raw : Nat) : RingOk (smoothRing p raw r).1 := by
  unfold smoothRing
  split
  · exact h
  · dsimp only
    split
    · refine ⟨h.1, h.2.1, h.2.2.1, ?_⟩
      dsimp only
      split
      · simp only [List.length_drop, List.length_append, List.length_singleton]; omega
      · exact h.2.2.2
    · exact ⟨h.1, h.2.1, h.2.2.1, by simp⟩

theorem RingOk.guard {r : Ring} (h : RingOk r) (l : Option Int) : RingOk (guardRing l r) := by
  unfold guardRing; split
  · split
    · exact h
    · exact h
  · exact h

theorem Inv.smoothFrame {s : State} (h : Inv s) (f : Feed) (i : StdId) (raw : Nat) : Inv (smoothFrame f i raw s) := by
  unfold Machine.smoothFrame
  dsimp only
  have h1 := h.modRing f (fun _ => guardRing (newestStamp s f) (smoothRing (Config.pNom i) raw s.rings[f]).1)
    fun hr => (hr.smooth _ _).guard _
  split
  · exact h1.raise _
  · exact h1

theorem Inv.overrun {s : State} (h : Inv s) (f : Feed) : Inv (overrun f s) := by
  unfold Machine.overrun; split
  · exact h
  · apply Inv.raise
    exact (h.removeOldest f 1).modRingSame f _ (fun _ => rfl) (fun _ => rfl) fun _ => rfl

theorem Inv.allocateEq {s t : State} (h : Inv s) {x : Slot} {o : Option SlotNo} (hx : x.state.inUse = true)
    (e : Machine.allocate x s = (o, t)) : Inv t := by
  have := h.allocate x hx
  rw [e] at this; exact this

theorem Inv.admitCapture {s : State} (h : Inv s) (f : Feed) (i : StdId) (q : BitVec 32) (raw : Nat) :
    Inv (admitCapture f i q raw s).2 := by
  unfold Machine.admitCapture
  have h1 := (h.smoothFrame f i raw).overrun f
  dsimp only
  split
  · next n t e =>
    have ht : Inv t := Inv.allocateEq h1 (by rfl) e
    exact ht.modRingSame f _ (fun _ => rfl) (fun _ => rfl) fun _ => rfl
  · next t e =>
    have ht : Inv t := Inv.allocateEq h1 (by rfl) e
    exact ht.modRingSame f _ (fun _ => rfl) (fun _ => rfl) fun _ => rfl

theorem Inv.prune {s : State} (h : Inv s) (f : Feed) : Inv (prune f s) := by
  unfold Machine.prune; split
  · exact Inv.modRingSame (h.removeOldest f _) f _ (fun _ => rfl) (fun _ => rfl) fun _ => rfl
  · exact Inv.modRingSame (h.removeOldest f _) f _ (fun _ => rfl) (fun _ => rfl) fun _ => rfl

theorem Inv.relock {s : State} (h : Inv s) (f : Feed) : Inv (relock f s) := by
  unfold Machine.relock
  exact (h.removeOldest f _).modRing f _ fun hr => ⟨hr.1, hr.2.1, hr.2.2.1, by simp⟩

theorem Inv.setRing {s : State} (h : Inv s) (f : Feed) (d : Nat) (e : Bool) (t : Nat) (h3 : 3 ≤ d) (h8 : d ≤ 8)
    (ht : t ≤ 255) : Inv (setRing f d e t s) := by
  have h1 := Inv.removeOldest
    (h.modRing f (fun r => { r with depth := d, cadenceEnable := e, threshold := t })
      fun hr => ⟨h3, h8, ht, hr.2.2.2⟩) f (s.rings[f].members.length - d)
  unfold Machine.setRing
  dsimp only
  split
  · exact h1.cadenceDisable f
  · exact h1

theorem keeps_setFeed (p : Port) (a : Nat × Nat × Nat × Nat) (s : State) (h : Inv s) : (ownSetFeed p a s).Keeps := by
  unfold ownSetFeed; split
  · dsimp only; split
    · next hc =>
      split
      · exact h
      · exact (h.setRing _ _ _ _ hc.1 hc.2.1 hc.2.2).announceIf _ p _
    · exact h
  · exact h

end Sys2Proof.Machine
end

