-- ==== Sys2Proof/Laws/Channels.lean ====
section
/-! SUPPORT. The render engine, the outputs, the channels, the auxiliary lines, the receivers and start-up keep
the invariant. -/

namespace Sys2Proof.Machine

/-! ## Render engine -/

theorem Inv.startJob {s : State} (h : Inv s) (l : LaneNo) (j : Job) (rest : List Job) : Inv (startJob l j rest s) := by
  unfold Machine.startJob
  apply Inv.modChan
  refine Inv.forEach _ _ (fun e _ h => h.addUser e) ?_
  exact h.of_eq rfl rfl rfl rfl rfl rfl rfl rfl rfl

/-- A lane that is not idle, or an empty queue, starts nothing (R150). -/
theorem startLane_eq_self {s : State} {l : LaneNo} (h : s.lanes[l] ≠ none ∨ s.queue = []) : startLane l s = s := by
  unfold startLane
  split
  · next _ _ idle q => rcases h with h | h
                       · exact absurd idle h
                       · simp [h] at q
  · rfl

/-- The slot set of a job's passes is the slots that their pictures read (R129). -/
theorem mem_slotSet {passes : List PassRec} {n : SlotNo} :
    n ∈ slotSet passes ↔ ∃ r ∈ passes, ∃ p ∈ r.pics, ∃ x ∈ p.reads, x.slot = n := by simp [slotSet]

/-- A slot set is in ascending order of slot. -/
theorem slotSet_ascending (passes : List PassRec) : (slotSet passes).Pairwise (· < ·) :=
  (List.pairwise_lt_finRange 96).filter _

/-- A slot set names each slot once. -/
theorem slotSet_nodup (passes : List PassRec) : (slotSet passes).Nodup := (List.nodup_finRange 96).filter _

theorem Inv.startLane {s : State} (h : Inv s) (l : LaneNo) : Inv (startLane l s) := by
  unfold Machine.startLane; split
  · exact h.startJob l _ _
  · exact h

theorem Inv.startLanes {s : State} (h : Inv s) : Inv (startLanes s) := (h.startLane 0).startLane 1

theorem Inv.setLanes {s : State} (h : Inv s) (l : Vector (Option Job) 2) : Inv { s with lanes := l } :=
  h.of_eq rfl rfl rfl rfl rfl rfl rfl rfl rfl

theorem Inv.setQueue {s : State} (h : Inv s) (q : List Job) : Inv { s with queue := q } :=
  h.of_eq rfl rfl rfl rfl rfl rfl rfl rfl rfl

theorem Inv.setPool {s : State} (h : Inv s) (p : Pool) : Inv { s with pool := p } :=
  h.of_eq rfl rfl rfl rfl rfl rfl rfl rfl rfl

theorem Inv.setAux {s : State} (h : Inv s) (a : Vector AuxLine 4) : Inv { s with aux := a } :=
  h.of_eq rfl rfl rfl rfl rfl rfl rfl rfl rfl

theorem Inv.handOver {s : State} (h : Inv s) (j : Job) : Inv (handOver j s) := by
  unfold Machine.handOver
  exact Inv.startLanes (h.setQueue _)

theorem Inv.dropPins {s : State} (h : Inv s) (j : Job) : Inv (dropPins j s) :=
  Inv.forEach _ _ (fun n _ h => h.unpin n) h

theorem Inv.dropUses {s : State} (h : Inv s) (j : Job) : Inv (dropUses j s) :=
  Inv.forEach _ _ (fun e _ h => h.dropUser e) h

theorem Inv.writePicture {s : State} (h : Inv s) (j : Job) : Inv (writePicture j s) := by
  unfold Machine.writePicture; split
  · refine Inv.forEach _ _ (fun p t ht => ?_) h
    unfold writePass
    exact Inv.forEach _ _ (fun y _ h => h.writeLine _ _ _ _ _) ht
  · exact h

theorem Inv.completeJob {s : State} (h : Inv s) (l : LaneNo) (j : Job) : Inv (completeJob l j s) := by
  unfold Machine.completeJob
  apply Inv.startLanes
  apply Inv.setLanes
  apply Inv.dropUses
  apply Inv.dropPins
  apply Inv.modOutput
  exact (h.writePicture j).moveSlot _ _ _ rfl rfl

theorem Inv.jobCompletion {s : State} (h : Inv s) (l : LaneNo) : Inv (jobCompletion l s) := by
  unfold Machine.jobCompletion; split
  · split
    · exact h.completeJob l _
    · exact h
  · exact h

theorem Inv.alertOccurrence {s : State} (h : Inv s) (c : Chan) : Inv (alertOccurrence c s) := h.setAux _

theorem Inv.lateFrame {s : State} (h : Inv s) (c : Chan) : Inv (lateFrame c s) := by
  unfold Machine.lateFrame
  apply Inv.alertOccurrence
  split
  · exact h
  · exact Inv.raise (h.modOutput c _) _

theorem Inv.abandonRunning {s : State} (h : Inv s) (l : LaneNo) (j : Job) : Inv (abandonRunning l j s) := by
  unfold Machine.abandonRunning
  apply Inv.dropPins
  apply Inv.releaseFrom
  apply Inv.leavePartial
  apply Inv.dropUses
  exact h.setLanes _

theorem Inv.abandonQueued {s : State} (h : Inv s) (j : Job) : Inv (abandonQueued j s) := by
  unfold Machine.abandonQueued
  apply Inv.dropPins
  apply Inv.releaseFrom
  exact h.setQueue _

theorem Inv.abandonJob {s : State} (h : Inv s) (c : Chan) : Inv (abandonJob c s).2 := by
  unfold Machine.abandonJob; split
  · exact h.abandonRunning _ _
  · split
    · exact h.abandonQueued _
    · exact h

theorem Inv.abandonAtDeadline {s : State} (h : Inv s) (c : Chan) : Inv (abandonAtDeadline c s) := by
  unfold Machine.abandonAtDeadline
  have h1 := h.abandonJob c
  split
  · next t e =>
    rw [e] at h1
    apply Inv.startLanes
    apply Inv.lateFrame
    exact Inv.modChan h1 c _
  · next t e => rw [e] at h1; exact h1

theorem Inv.abandonAtStop {s : State} (h : Inv s) (c : Chan) : Inv (abandonAtStop c s) := by
  unfold Machine.abandonAtStop
  have h1 := h.abandonJob c
  split
  · next t e => rw [e] at h1; exact Inv.startLanes h1
  · next t e => rw [e] at h1; exact h1

theorem Inv.storeFault {s : State} (h : Inv s) (n : SlotNo) (r : Reader) : Inv (storeFault n r s) := by
  unfold Machine.storeFault
  apply Inv.slotFault
  apply Inv.setPool
  exact h.modSlot n _ rfl

theorem Inv.uncorrectableRead {s : State} (h : Inv s) (l : LaneNo) (r : LaneRead) : Inv (uncorrectableRead l r s) := by
  unfold Machine.uncorrectableRead; split
  · exact h
  · split
    · split
      · exact Inv.storeFault (h.setLanes _) _ _
      · exact h
    · split
      · exact Inv.storeFault (h.setLanes _) _ _
      · exact h

theorem Inv.correctableRead {s : State} (h : Inv s) (r : Reader) : Inv (correctableRead r s) := by
  unfold Machine.correctableRead; split
  · exact h.setPool _
  · exact h

/-! ## Programme outputs -/

theorem Inv.releaseOnAir {s : State} (h : Inv s) (c : Chan) : Inv (releaseOnAir c s) := by
  unfold Machine.releaseOnAir; split
  · exact Inv.releaseFrom (h.modOutput c _) _ _
  · exact h

theorem Inv.releaseReady {s : State} (h : Inv s) (c : Chan) : Inv (releaseReady c s) := by
  unfold Machine.releaseReady; split
  · exact Inv.releaseFrom (h.modOutput c _) _ _
  · exact h

theorem Inv.goBlack {s : State} (h : Inv s) (c : Chan) : Inv (goBlack c s) := h.modOutput c _

theorem Inv.showNew {s : State} (h : Inv s) (c : Chan) (r : Held) : Inv (showNew c r s) := by
  unfold Machine.showNew
  apply Inv.modChan
  have h1 : Inv ((Machine.moveSlot .ready .onAir r.slot s).modOutput c fun o =>
      { o with onAir := some r, ready := none, display := .live, lateRun := false }) :=
    Inv.modOutput (h.moveSlot _ _ _ rfl rfl) c _
  split
  · exact h1.releaseFrom _ _
  · exact h1

theorem Inv.showOld {s : State} (h : Inv s) (c : Chan) : Inv (showOld c s) := by
  have h1 := h.abandonAtDeadline c
  unfold Machine.showOld
  dsimp only
  split
  · exact Inv.modChan (h1.modOutput c _) c _
  · exact h1.goBlack c

theorem Inv.showFrame {s : State} (h : Inv s) (c : Chan) : Inv (showFrame c s) := by
  unfold Machine.showFrame; split
  · split
    · exact h.showNew c _
    · exact h.showOld c
  · exact h.showOld c

theorem Inv.present {s : State} (h : Inv s) (c : Chan) : Inv (present c s) := by
  unfold Machine.present; split
  · split
    · exact (h.showFrame c).modOutput c _
    · exact (((h.releaseReady c).abandonAtDeadline c).releaseOnAir c).goBlack c
    · exact (((h.releaseReady c).abandonAtDeadline c).releaseOnAir c).goBlack c
  · exact h.showFrame c

theorem Inv.beginHold {s : State} (h : Inv s) (c : Chan) : Inv (beginHold c s) := by
  unfold Machine.beginHold
  dsimp only
  split
  · exact Inv.goBlack (Inv.releaseOnAir (h.modOutput c _) c) c
  · exact h.modOutput c _

theorem Inv.endHold {s : State} (h : Inv s) (c : Chan) : Inv (endHold c s) := h.modOutput c _

theorem Inv.stopOutput {s : State} (h : Inv s) (c : Chan) : Inv (stopOutput c s) :=
  (((h.releaseReady c).releaseOnAir c).goBlack c).endHold c

theorem Inv.outputReadFault {s : State} (h : Inv s) (c : Chan) (w : CodeWord) : Inv (outputReadFault c w s) := by
  unfold Machine.outputReadFault; split
  · exact Inv.storeFault (h.modOutput c _) _ _
  · exact h

/-! ## Channels -/

theorem Inv.computeDelay {s : State} (h : Inv s) (c : Chan) : Inv (computeDelay c s) := by
  unfold Machine.computeDelay; split
  · exact h.modChan c _
  · exact h

theorem Inv.setChanState {s : State} (h : Inv s) (c : Chan) (st : ChanState) : Inv (setChanState c st s) := by
  unfold Machine.setChanState
  apply Inv.condition
  apply Inv.raise
  exact h.modChan c _

theorem Inv.enterPriming {s : State} (h : Inv s) (c : Chan) : Inv (enterPriming c s) := by
  unfold Machine.enterPriming
  apply Inv.computeDelay
  apply Inv.modChan
  exact (h.endHold c).setChanState c _

theorem Inv.enterHolding {s : State} (h : Inv s) (c : Chan) : Inv (enterHolding c s) := by
  unfold Machine.enterHolding
  exact ((h.setChanState c _).beginHold c).alertOccurrence c

theorem Inv.followFeed {s : State} (h : Inv s) (c : Chan) : Inv (followFeed c s) := by
  unfold Machine.followFeed
  dsimp only
  split
  · exact h
  · split
    · exact h.enterPriming c
    · exact h
  · split
    · exact h
    · exact h.enterHolding c
  · split
    · exact h
    · exact h.enterHolding c
  · split
    · exact h.enterPriming c
    · exact h

theorem Inv.reportToChannels {s : State} (h : Inv s) (f : Feed) : Inv (reportToChannels f s) :=
  Inv.forEach _ _ (fun c _ h => h.followFeed c) h

theorem Inv.reprime {s : State} (h : Inv s) (c : Chan) (old new : Bank) : Inv (reprime c old new s) := by
  unfold Machine.reprime
  have h1 : Inv (if old.outStd ≠ new.outStd then Machine.goBlack c (Machine.releaseOnAir c s) else s) := by
    split
    · exact (h.releaseOnAir c).goBlack c
    · exact h
  dsimp only
  generalize (if old.outStd ≠ new.outStd then Machine.goBlack c (Machine.releaseOnAir c s) else s) = t at h1 ⊢
  split
  · exact h1.enterPriming c
  · split
    · exact h1.enterHolding c
    · exact h1.enterHolding c
    · exact h1
    · exact h1
    · exact h1

theorem Inv.takeEffects {s : State} (h : Inv s) (c : Chan) (old new : Bank) : Inv (takeEffects c old new s) := by
  unfold Machine.takeEffects; split
  · split
    · exact h
    · exact h.reprime c old new
  · exact h.computeDelay c

theorem Inv.applyTake {s : State} (h : Inv s) (c : Chan) (b : Bool) : Inv (applyTake c b s) := by
  unfold Machine.applyTake
  dsimp only
  split
  · apply Inv.raise
    apply Inv.takeEffects
    unfold takeEmission
    apply Inv.modOutput
    have h1 : Inv (swapBanks c s) := h.modChan c _
    split
    · exact h1.rebuild c _
    · exact h1
  · exact Inv.raise (h.modChan c _) _

theorem Inv.takeOn {s : State} (h : Inv s) (c : Chan) : Inv (takeOn c s).2 := by
  unfold Machine.takeOn
  dsimp only
  split
  · exact h.applyTake c false
  · exact h.modChan c _

theorem Inv.takeAll {s : State} (h : Inv s) (p : Port) (l : List Chan) : Inv (takeAll p l s).2 := by
  induction l generalizing s with
  | nil => exact h
  | cons c l ih => exact ih ((h.takeOn c).announce p _)

theorem keeps_take (p : Port) (m : Nat) (s : State) (h : Inv s) : (ownTake p m s).Keeps := by
  unfold ownTake; split
  · exact h
  · exact h.takeAll p _

theorem Inv.auxTake {s : State} (h : Inv s) (c : Chan) : Inv (auxTake c s) := by
  unfold Machine.auxTake
  exact ((h.takeOn c).peerAppend .a _).peerAppend .b _

theorem Inv.queueJob {s : State} (h : Inv s) (c : Chan) (j : Job) : Inv (queueJob c j s) := by
  unfold Machine.queueJob
  have h1 : Inv (setOutcome c .job (Machine.handOver j
      ((Machine.forEach j.slots Machine.pin s).modChan c fun ch => { ch with resolved := some j.resolved }))) := by
    unfold setOutcome
    apply Inv.modChan
    apply Inv.handOver
    apply Inv.modChan
    exact Inv.forEach _ _ (fun n _ h => h.pin n) h
  dsimp only
  split
  · exact h1.setChanState c _
  · exact h1

theorem Inv.dispatchJob {s : State} (h : Inv s) (c : Chan) (i : StdId) (passes : List PassRec) :
    Inv (dispatchJob c i passes s) := by
  unfold Machine.dispatchJob
  dsimp only
  split
  · next n t e => exact Inv.queueJob (Inv.allocateEq h (by rfl) e) c _
  · next t e => exact Inv.modChan (Inv.allocateEq h (by rfl) e) c _

theorem Inv.dispatch {s : State} (h : Inv s) (c : Chan) : Inv (dispatch c s) := by
  unfold Machine.dispatch
  apply Inv.prune
  split
  · exact Inv.dispatchJob (h.modChan c _) c _ _
  · exact Inv.modChan (h.modChan c _) c _

theorem Inv.outputFrameStart {s : State} (h : Inv s) (c : Chan) : Inv (outputFrameStart c s) := by
  unfold Machine.outputFrameStart; split
  · have h1 : Inv (beginFrame c (countFrame c (Machine.advanceTiming c s))) :=
      Inv.modOutput (Inv.modChan (h.advanceTiming c) c _) c _
    have h2 := h1.present c
    have h3 : Inv (pendingTake c (Machine.present c (beginFrame c (countFrame c (Machine.advanceTiming c s))))) := by
      unfold pendingTake; split
      · exact h2.applyTake c true
      · exact h2
    unfold dispatchIfActive
    split
    · exact h3.dispatch c
    · exact h3.dispatch c
    · exact h3
    · exact h3
    · exact h3
  · exact h

theorem keeps_setChannel (p : Port) (a : ChannelEdit) (s : State) (h : Inv s) : (ownSetChannel p a s).Keeps := by
  unfold ownSetChannel; split
  · exact h
  · split
    · exact h
    · dsimp only; split
      · exact Inv.announce (h.modChan _ _) p _
      · exact h

theorem keeps_getChannel (a : Nat) (s : State) (h : Inv s) : (ownGetChannel a s).Keeps := by
  unfold ownGetChannel; split <;> exact h

theorem Inv.startState {s : State} (h : Inv s) (c : Chan) : Inv (startState c s) := by
  unfold Machine.startState; split
  · exact h.enterPriming c
  · exact Inv.modChan (h.setChanState c _) c _

theorem keeps_startChannel (p : Port) (a : Nat) (s : State) (h : Inv s) : (ownStartChannel p a s).Keeps := by
  unfold ownStartChannel; split
  · exact h
  · next c _ =>
    split
    · exact h
    · split
      · apply Inv.announce
        apply Inv.startState
        unfold clearRun
        exact Inv.modOutput (h.modChan c _) c _
      · exact h

theorem keeps_stopChannel (p : Port) (a : Nat) (s : State) (h : Inv s) : (ownStopChannel p a s).Keeps := by
  unfold ownStopChannel; split
  · exact h
  · next c _ =>
    split
    · exact h
    · apply Inv.announce
      unfold stopChannel
      exact ((h.setChanState c _).abandonAtStop c).stopOutput c

theorem keeps_getChannelStatus (a : Nat × Nat) (s : State) (h : Inv s) : (ownGetChannelStatus a s).Keeps := by
  unfold ownGetChannelStatus; split
  · show Inv _
    split
    · exact h.modChan _ _
    · exact h
  · exact h

/-! ## Auxiliary lines -/

theorem Inv.auxLevelChange {s : State} (h : Inv s) (x : AuxNo) (b : Bool) : Inv (auxLevelChange x b s) := h.modAux x _

theorem Inv.debounceExpiry {s : State} (h : Inv s) (x : AuxNo) : Inv (debounceExpiry x s) := by
  unfold Machine.debounceExpiry; split
  · dsimp only; split
    · refine Inv.forEach _ _ (fun c _ h => h.auxTake c) ?_
      exact Inv.modAux (h.modAux x _) x _
    · exact h.modAux x _
  · exact h

theorem Inv.alertExpiry {s : State} (h : Inv s) (x : AuxNo) : Inv (alertExpiry x s) := by
  unfold Machine.alertExpiry; split
  · exact h.modAux x _
  · exact h

theorem keeps_setAuxLine (p : Port) (a : Nat × Nat × Nat × Nat) (s : State) (h : Inv s) :
    (ownSetAuxLine p a s).Keeps := by
  unfold ownSetAuxLine; split
  · dsimp only; split
    · exact Inv.announceIf (h.modAux _ _) _ p _
    · exact h
  · exact h

/-! ## Frame store requests -/

theorem keeps_getPoolStatus (a : Nat) (s : State) (h : Inv s) : (ownGetPoolStatus a s).Keeps := by
  unfold ownGetPoolStatus; split
  · exact h
  · show Inv _
    split
    · exact h.setPool _
    · exact h

theorem keeps_getSlot (a : Nat) (s : State) (h : Inv s) : (ownGetSlot a s).Keeps := by
  unfold ownGetSlot; split <;> exact h

/-- A FREE slot leaves the free list for the retired set while the set has room. -/
theorem Inv.retireFree {s : State} (h : Inv s) (n : SlotNo) (hr : retiredCount s < Config.retiredMax) :
    Inv (retireFree n s) := by
  refine ⟨⟨h.freeList.1.filter _, fun m => ?_⟩, ?_, h.dram, h.refs, h.rings, h.dets, h.profiles, h.ports, h.time⟩
  · show m ∈ s.free.filter (· ≠ n) ↔ (s.slots.set n (.cleared .retired s.slots[n].fault))[m].state = .free
    rw [List.mem_filter, h.freeList.2 m]
    by_cases e : m = n
    · subst e; simp [Slot.cleared]
    · have h' : n.val ≠ m.val := fun k => e (Fin.ext k.symm)
      have : (s.slots.set n (.cleared .retired s.slots[n].fault))[m] = s.slots[m] := by simp [h']
      rw [this]; simp [e]
  · have hc := countState_set s.slots n (.cleared .retired s.slots[n].fault) .retired
    unfold retiredCount stateCount at hr ⊢
    show (s.slots.set n (.cleared .retired s.slots[n].fault)).toList.countP (fun y => y.state = .retired) ≤
      Config.retiredMax
    rw [if_pos (show (Slot.cleared .retired s.slots[n].fault).state = .retired from rfl)] at hc
    omega

theorem keeps_retireSlot (p : Port) (a : Nat × Nat) (s : State) (h : Inv s) : (ownRetireSlot p a s).Keeps := by
  unfold ownRetireSlot; split
  · exact h
  · next n _ =>
    dsimp only
    split
    · exact h
    · split
      · exact h
      · next hr =>
        split
        · exact (h.retireFree n (by omega)).announce p _
        · exact Inv.announce (h.modSlot n _ rfl) p _

theorem keeps_restoreSlot (p : Port) (a : Nat × Nat) (s : State) (h : Inv s) : (ownRestoreSlot p a s).Keeps := by
  unfold ownRestoreSlot; split
  · exact h
  · next n _ =>
    dsimp only
    split
    · next hr => exact (h.enterFree n (by rw [hr]; decide)).announce p _
    · split
      · exact Inv.announce (h.modSlot n _ rfl) p _
      · exact h

/-! ## Receivers -/

theorem Inv.reportState {s : State} (h : Inv s) (f : Feed) : Inv (reportState f s) := by
  unfold Machine.reportState
  apply Inv.reportToChannels
  split
  · exact (h.relock f).detectorRestart f
  · exact h.detectorLoss f
  · exact h.detectorLoss f
  · exact h.detectorLoss f

theorem Inv.enterRxState {s : State} (h : Inv s) (f : Feed) (st : RxState) : Inv (enterRxState f st s) := by
  unfold Machine.enterRxState
  apply Inv.reportState
  apply Inv.condition
  exact h.modRx f _

theorem Inv.abandonCapture {s : State} (h : Inv s) (f : Feed) : Inv (abandonCapture f s) := by
  unfold Machine.abandonCapture
  have h1 := h.modRx f fun r => { r with capture := .none, sig1 := none, sig2 := none }
  dsimp only
  split
  · exact h1.dropFilling f _
  · exact h1
  · exact h1

theorem Inv.structuralChangeRx {s : State} (h : Inv s) (f : Feed) : Inv (structuralChangeRx f s) := by
  unfold Machine.structuralChangeRx
  apply Inv.enterRxState
  exact Inv.modRx (h.abandonCapture f) f _

theorem Inv.endSlotCapture {s : State} (h : Inv s) (f : Feed) (n : SlotNo) : Inv (endSlotCapture f n s) := by
  unfold Machine.endSlotCapture
  have h1 : Inv (if 64 < s.rxs[f].lineErrors then s.modSlot n fun x => { x with damaged := true } else s) := by
    split
    · exact h.modSlot n _ rfl
    · exact h
  have h2 := (h1.moveSlot .filling .complete n rfl rfl).prune f
  dsimp only
  split
  · exact h2.handover f n _ _
  · exact h2

theorem Inv.endCapture {s : State} (h : Inv s) (f : Feed) : Inv (endCapture f s) := by
  unfold Machine.endCapture
  apply Inv.modRx
  split
  · exact h.endSlotCapture f _
  · exact h.skipReport f
  · exact h

theorem Inv.formSignatures {s : State} (h : Inv s) (f : Feed) (k : Nat) (l : List LineCode) :
    Inv (formSignatures f k l s) := by
  unfold Machine.formSignatures
  dsimp only
  split
  · split
    · split
      · exact h.modRx f _
      · split
        · exact h.modRx f _
        · exact h
    · exact h
  · exact h

theorem Inv.activeLine {s : State} (h : Inv s) (f : Feed) (k : Nat) (a b c : List Sample) :
    Inv (activeLine f k a b c s) := by
  unfold Machine.activeLine; split
  · exact h
  · next lay _ =>
    dsimp only
    have h1 : Inv (match s.rxs[f].capture with
        | .slot n => Machine.writeLine n (slotLine lay.lines k) a b c s
        | .none | .skipped => s) := by
      split
      · exact h.writeLine _ _ _ _ _
      · exact h
      · exact h
    split
    · exact (h1.formSignatures f k _).endCapture f
    · exact h1.formSignatures f k _

theorem Inv.openCapture {s : State} (h : Inv s) (f : Feed) (t : Nat) : Inv (openCapture f t s) := by
  unfold Machine.openCapture; split
  · exact h
  · next i _ =>
    dsimp only
    exact Inv.modRx (h.admitCapture f i _ t) f _

theorem Inv.enterLockedRx {s : State} (h : Inv s) (f : Feed) (i : StdId) (t : Nat) : Inv (enterLockedRx f i t s) := by
  unfold Machine.enterLockedRx
  apply Inv.openCapture
  apply Inv.enterRxState
  split
  · exact Inv.raise (h.modRx f _) _
  · exact h.modRx f _

theorem Inv.identifyRun {s : State} (h : Inv s) (f : Feed) (t : Nat) : Inv (identifyRun f t s) := by
  unfold Machine.identifyRun
  dsimp only
  split
  · exact h
  · split
    · exact h.enterLockedRx f _ t
    · unfold enterUnknown
      exact Inv.enterRxState (h.modRx f _) f _

theorem Inv.acquireLine {s : State} (h : Inv s) (f : Feed) (t : Nat) (c : LineCode) (l : FeedLineData) :
    Inv (acquireLine f t c l s) := by
  unfold Machine.acquireLine; split
  · unfold acquireFrameStart
    dsimp only
    split
    · exact Inv.identifyRun (h.modRx f _) f t
    · exact h.modRx f _
  · exact h.modRx f _

theorem Inv.restartAcquiring {s : State} (h : Inv s) (f : Feed) (t : Nat) (c : LineCode) (l : FeedLineData) :
    Inv (restartAcquiring f t c l s) := Inv.modRx (Inv.structuralChangeRx (h.modRx f _) f) f _

theorem Inv.changeLine {s : State} (h : Inv s) (f : Feed) (t : Nat) (c : LineCode) (l : FeedLineData) :
    Inv (changeLine f t c l s) := by
  unfold Machine.changeLine; split
  · exact h.restartAcquiring f t c l
  · exact Inv.modRx (h.structuralChangeRx f) f _

theorem Inv.flywheelFrameStart {s : State} (h : Inv s) (f : Feed) (t : Nat) (c : LineCode) (l : FeedLineData) :
    Inv (flywheelFrameStart f t c l s) := by
  unfold Machine.flywheelFrameStart
  dsimp only
  split
  · split
    · exact Inv.openCapture (h.modRx f _) f t
    · exact h.modRx f _
  · exact h.restartAcquiring f t c l

theorem Inv.receiveLine {s : State} (h : Inv s) (f : Feed) (k : Nat) (c : LineCode) (l : FeedLineData) :
    Inv (receiveLine f k c l s) := by
  unfold Machine.receiveLine
  dsimp only
  split
  · exact h.modRx f _
  · exact Inv.activeLine (h.modRx f _) f k _ _ _

theorem Inv.flywheelLine {s : State} (h : Inv s) (f : Feed) (t : Nat) (c : LineCode) (l : FeedLineData) :
    Inv (flywheelLine f t c l s) := by
  unfold Machine.flywheelLine
  dsimp only
  split
  · split
    · split
      · exact h.receiveLine f _ c l
      · exact h.flywheelFrameStart f t c l
    · exact h.changeLine f t c l
  · exact h.changeLine f t c l

theorem Inv.validLine {s : State} (h : Inv s) (f : Feed) (t : Nat) (c : LineCode) (l : FeedLineData) :
    Inv (validLine f t c l s) := by
  unfold Machine.validLine
  apply Inv.modRx
  split
  · exact h.enterRxState f _
  · exact h.acquireLine f t c l
  · exact h.flywheelLine f t c l
  · exact h.flywheelLine f t c l

theorem Inv.feedLine {s : State} (h : Inv s) (f : Feed) (l : FeedLineData) : Inv (feedLine f l s) := by
  unfold Machine.feedLine; split
  · dsimp only; split
    · exact Inv.modRx (h.validLine f _ _ l) f _
    · exact Inv.modRx (h.modRx f _) f _
  · exact h

theorem Inv.lineWindowClose {s : State} (h : Inv s) (f : Feed) : Inv (lineWindowClose f s) := by
  unfold Machine.lineWindowClose; split
  · dsimp only; split
    · split
      · unfold missLine
        dsimp only
        split
        · exact Inv.activeLine (h.modRx f _) f _ _ _ _
        · exact h.modRx f _
      · exact h.structuralChangeRx f
    · exact h
  · exact h

theorem Inv.lossExpiry {s : State} (h : Inv s) (f : Feed) : Inv (lossExpiry f s) := by
  unfold Machine.lossExpiry; split
  · dsimp only
    exact Inv.enterRxState (Inv.modRx (h.abandonCapture f) f _) f _
  · exact h

theorem keeps_getLinkCheck (a : Nat) (s : State) (h : Inv s) : (ownGetLinkCheck a s).Keeps := by
  unfold ownGetLinkCheck; split
  · exact h
  · exact h.modRx _ _

theorem keeps_getFeedStatus (a : Nat) (s : State) (h : Inv s) : (ownGetFeedStatus a s).Keeps := by
  unfold ownGetFeedStatus; split <;> exact h

end Sys2Proof.Machine
end

