-- ==== Sys2Proof/Laws/Picture.lean ====
section
/-! SUPPORT. The sample arithmetic of a pass, and what the destination of a job reads as once its picture is
written (file 08). -/

namespace Sys2Proof.Machine

/-! ## Taps -/

/-- Taps of samples that have not failed: the weighted sum. -/
theorem tapSum_some (cs vs : List Int) (h : cs.length = vs.length) :
    tapSum cs (vs.map some) = some (List.zipWith (· * ·) cs vs).sum := by
  induction cs generalizing vs with
  | nil => cases vs <;> simp_all [tapSum]
  | cons c cs ih =>
    cases vs with
    | nil => simp at h
    | cons v vs =>
      simp only [List.map_cons, tapSum, ih vs (by simpa using h), Option.bind_some, List.zipWith_cons_cons,
        List.sum_cons]
      split
      · next h => subst h; simp
      · rfl

/-- A value is failed exactly when a tap whose coefficient is not 0 reaches a failed sample (R155). -/
theorem tapSum_eq_none (cs : List Int) (vs : List (Option Int)) (h : cs.length = vs.length) :
    tapSum cs vs = none ↔ ∃ (i : Nat) (k : Int), cs[i]? = some k ∧ k ≠ 0 ∧ vs[i]? = some none := by
  induction cs generalizing vs with
  | nil => simp [tapSum]
  | cons c cs ih =>
    cases vs with
    | nil => simp at h
    | cons v vs =>
      have ih := ih vs (by simpa using h)
      simp only [tapSum]
      constructor
      · intro k
        cases e : tapSum cs vs with
        | none => obtain ⟨i, k, a⟩ := ih.1 e; exact ⟨i + 1, k, by simpa using a⟩
        | some z =>
          rw [e] at k
          by_cases hc : c = 0
          · simp [hc] at k
          · simp [hc] at k; exact ⟨0, c, by simp [hc, k]⟩
      · rintro ⟨i, k, a⟩
        cases i with
        | zero =>
          simp at a
          obtain ⟨rfl, b, rfl⟩ := a
          cases tapSum cs vs <;> simp [b]
        | succ i => rw [ih.2 ⟨i, k, by simpa using a⟩]; rfl

/-! ## Dither -/

/-- A reversed value fits its bits. -/
theorem bitReverse_lt (bits x : Nat) : bitReverse bits x < 2 ^ bits := by
  induction bits generalizing x with
  | zero => simp [bitReverse]
  | succ m ih =>
    have h := ih (x / 2)
    have h2 : x % 2 * 2 ^ m ≤ 1 * 2 ^ m := Nat.mul_le_mul_right _ (by omega)
    simp only [bitReverse]
    rw [Nat.pow_succ]; omega

/-- Bit k of a reversed value. -/
theorem testBit_bitReverse (bits x k : Nat) (hk : k < bits) :
    (bitReverse bits x).testBit k = x.testBit (bits - 1 - k) := by
  induction bits generalizing x k with
  | zero => omega
  | succ n ih =>
    simp only [bitReverse]
    rw [Nat.mul_comm, Nat.testBit_two_pow_mul_add _ (bitReverse_lt n _)]
    by_cases h : k < n
    · rw [if_pos h, ih _ _ h, ← Nat.testBit_succ]
      congr 1; omega
    · have : k = n := by omega
      subst this
      simp [Nat.testBit_zero]

/-! ## The picture of a job -/

/-- An interlaced standard has as many lines in either field. -/
theorem activeLines_even (i : StdId) : (Config.std i).interlaced = true → (Config.std i).activeLines % 2 = 0 := by
  revert i; decide

/-- The lines of a pass lie in the picture. -/
theorem passLines_lt {i : StdId} {pass line : Nat} (hp : pass ≤ 1) (h : line ∈ passLines i pass) :
    line < (Config.std i).activeLines := by
  unfold passLines at h
  dsimp only at h
  split at h
  · next hi =>
    obtain ⟨m, hm, rfl⟩ := List.mem_map.1 h
    have := List.mem_range.1 hm
    have := activeLines_even i hi
    omega
  · exact List.mem_range.1 h

/-- A pass writes each of its lines once. -/
theorem passLines_nodup (i : StdId) (pass : Nat) : (passLines i pass).Nodup := by
  unfold passLines
  dsimp only
  split
  · exact List.nodup_range.map fun a b h => by simpa using h
  · exact List.nodup_range

/-- The lines a pass writes: every line, or those of its parity (R133, R134). -/
theorem mem_passLines {i : StdId} {pass line : Nat} (hp : pass ≤ 1) (hl : line < (Config.std i).activeLines) :
    line ∈ passLines i pass ↔ ((Config.std i).interlaced = false ∨ line % 2 = pass) := by
  unfold passLines
  dsimp only
  by_cases hi : (Config.std i).interlaced = true
  · rw [if_pos hi]
    simp only [List.mem_map, List.mem_range, hi, Bool.true_eq_false, false_or]
    constructor
    · rintro ⟨m, _, rfl⟩; omega
    · intro h
      have := activeLines_even i hi
      exact ⟨line / 2, by omega, by omega⟩
  · rw [if_neg hi]
    simp [hl, hi]

/-- What a place reads as after a pass has written its lines. -/
theorem readSample_writePass (s0 : State) (j : Job) (cap : Captured) (p : PassRec) (s : State) (n : SlotNo)
    (line : Nat) (c : Component) (x : Nat) (hp : p.pass ≤ 1) (hl : line < 1080) (hx : x < compRoom c) :
    readSample (writePass s0 j cap p s) n line c x =
      if n = j.dest ∧ line ∈ passLines j.outStd p.pass ∧ x < componentWidth (Config.std j.outStd).width c
      then outputSample s0 j cap p line c x else readSample s n line c x := by
  refine (readSample_writeLines j.dest n (fun y c => outputComponent s0 j cap p y c) (passLines j.outStd p.pass)
    line c x s (passLines_nodup _ _)
    (fun y hy => lt_of_lt_of_le (passLines_lt hp hy) (activeLines_le _)) hl hx).trans ?_
  unfold outputComponent
  rw [List.getElem?_map]
  by_cases h1 : n = j.dest ∧ line ∈ passLines j.outStd p.pass
  · rw [if_pos h1]
    by_cases h2 : x < componentWidth (Config.std j.outStd).width c
    · rw [if_pos ⟨h1.1, h1.2, h2⟩, List.getElem?_eq_getElem (by simpa using h2), List.getElem_range]; rfl
    · rw [if_neg (fun k => h2 k.2.2), List.getElem?_eq_none (by simpa using h2)]; rfl
  · rw [if_neg h1, if_neg (fun k => h1 ⟨k.1, k.2.1⟩)]

/-- What a place reads as once a job's picture is written: the sample of the pass that wrote its line, in the
destination's picture area, and what it read as before everywhere else. -/
theorem readSample_writePicture (j : Job) (cap : Captured) (s : State) (n : SlotNo) (line : Nat) (c : Component)
    (x : Nat) (hcap : j.captured = some cap) (hl : line < 1080) (hx : x < compRoom c)
    (hp : j.passes.map PassRec.pass = passNumbers j.outStd) :
    (n ≠ j.dest ∨ (Config.std j.outStd).activeLines ≤ line ∨
        componentWidth (Config.std j.outStd).width c ≤ x →
      readSample (writePicture j s) n line c x = readSample s n line c x) ∧
    (∀ p ∈ j.passes, n = j.dest → line < (Config.std j.outStd).activeLines →
      x < componentWidth (Config.std j.outStd).width c →
      (Config.std j.outStd).interlaced = false ∨ line % 2 = p.pass →
      readSample (writePicture j s) n line c x = outputSample s j cap p line c x) := by
  unfold writePicture
  rw [hcap]
  dsimp only
  have outside : n ≠ j.dest ∨ (Config.std j.outStd).activeLines ≤ line ∨
      componentWidth (Config.std j.outStd).width c ≤ x → ∀ (p : PassRec) (u : State), p.pass ≤ 1 →
      readSample (writePass s j cap p u) n line c x = readSample u n line c x := by
    intro h p u hp1
    rw [readSample_writePass s j cap p u n line c x hp1 hl hx, if_neg]
    rintro ⟨a, b, d⟩
    have := passLines_lt hp1 b
    rcases h with h | h | h
    · exact h a
    · omega
    · omega
  have inside : n = j.dest → line < (Config.std j.outStd).activeLines →
      x < componentWidth (Config.std j.outStd).width c → ∀ (p : PassRec) (u : State), p.pass ≤ 1 →
      readSample (writePass s j cap p u) n line c x =
        if (Config.std j.outStd).interlaced = false ∨ line % 2 = p.pass then outputSample s j cap p line c x
        else readSample u n line c x := by
    intro h1 h2 h3 p u hp1
    rw [readSample_writePass s j cap p u n line c x hp1 hl hx]
    by_cases h : (Config.std j.outStd).interlaced = false ∨ line % 2 = p.pass
    · rw [if_pos h, if_pos ⟨h1, (mem_passLines hp1 h2).2 h, h3⟩]
    · rw [if_neg h, if_neg (fun k => h ((mem_passLines hp1 h2).1 k.2.1))]
  generalize j.passes = ps at hp
  unfold passNumbers at hp
  by_cases hi : (Config.std j.outStd).interlaced = true
  · rw [if_pos hi] at hp
    obtain ⟨p, r1, rfl, h0, hr1⟩ := List.map_eq_cons_iff.1 hp
    obtain ⟨q, r2, rfl, h1, hr2⟩ := List.map_eq_cons_iff.1 hr1
    obtain rfl := List.map_eq_nil_iff.1 hr2
    have e : forEach [p, q] (writePass s j cap) s = writePass s j cap q (writePass s j cap p s) := rfl
    rw [e]
    constructor
    · intro h
      rw [outside h q _ (by omega), outside h p _ (by omega)]
    · intro r hr hn hline hx' hpar
      have hpar : line % 2 = r.pass := by simpa [hi] using hpar
      rw [inside hn hline hx' q _ (by omega), inside hn hline hx' p _ (by omega)]
      simp only [hi, Bool.true_eq_false, false_or]
      rcases List.mem_pair.1 hr with rfl | rfl
      · rw [if_neg (by omega), if_pos hpar]
      · rw [if_pos hpar]
  · rw [if_neg hi] at hp
    obtain ⟨p, r1, rfl, h0, hr1⟩ := List.map_eq_cons_iff.1 hp
    obtain rfl := List.map_eq_nil_iff.1 hr1
    have e : forEach [p] (writePass s j cap) s = writePass s j cap p s := rfl
    rw [e]
    constructor
    · intro h
      rw [outside h p _ (by omega)]
    · intro r hr hn hline hx' hpar
      rw [List.mem_singleton.1 hr] at hpar ⊢
      rw [inside hn hline hx' p _ (by omega), if_pos hpar]

end Sys2Proof.Machine
end

