-- ==== Sys2Proof/Laws/Receivers.lean ====
section
/-! SUPPORT. Which operations leave the receiver records alone, and what a receiver's report leaves of it. -/

namespace Sys2Proof.Machine

theorem forEach_rxs {α : Type} (l : List α) (g : α → State → State) (h : ∀ x s, (g x s).rxs = s.rxs) (s : State) :
    (forEach l g s).rxs = s.rxs := by
  induction l generalizing s with
  | nil => rfl
  | cons x l ih => exact (ih (g x s)).trans (h x s)

theorem release_rxs (n : SlotNo) (s : State) : (release n s).rxs = s.rxs := by
  unfold release
  dsimp only
  split
  · split
    · split <;> rfl
    · rfl
  · rfl

theorem releaseFrom_rxs (st : SlotState) (n : SlotNo) (s : State) : (releaseFrom st n s).rxs = s.rxs := by
  unfold releaseFrom; split
  · exact release_rxs n s
  · rfl

theorem detachOrRelease_rxs (n : SlotNo) (s : State) : (detachOrRelease n s).rxs = s.rxs := by
  unfold detachOrRelease
  split
  · split
    · exact release_rxs n s
    · rfl
  · rfl

theorem removeMember_rxs (f : Feed) (n : SlotNo) (s : State) : (removeMember f n s).rxs = s.rxs :=
  detachOrRelease_rxs n _

theorem removeOldest_rxs (f : Feed) (k : Nat) (s : State) : (removeOldest f k s).rxs = s.rxs :=
  forEach_rxs _ _ (fun n s => removeMember_rxs f n s) s

theorem relock_rxs (f : Feed) (s : State) : (relock f s).rxs = s.rxs := removeOldest_rxs f _ s

theorem prune_rxs (f : Feed) (s : State) : (prune f s).rxs = s.rxs := by
  unfold prune
  split
  · exact removeOldest_rxs f _ s
  · exact removeOldest_rxs f _ s

theorem detectorRestart_rxs (f : Feed) (s : State) : (detectorRestart f s).rxs = s.rxs := condition_rxs _ _ _ _

theorem computeDelay_rxs (c : Chan) (s : State) : (computeDelay c s).rxs = s.rxs := by
  unfold computeDelay; split <;> rfl

theorem setChanState_rxs (c : Chan) (st : ChanState) (s : State) : (setChanState c st s).rxs = s.rxs :=
  condition_rxs _ _ _ _

theorem enterPriming_rxs (c : Chan) (s : State) : (enterPriming c s).rxs = s.rxs :=
  (computeDelay_rxs c _).trans (setChanState_rxs c _ _)

theorem releaseOnAir_rxs (c : Chan) (s : State) : (releaseOnAir c s).rxs = s.rxs := by
  unfold releaseOnAir
  split
  · exact releaseFrom_rxs _ _ _
  · rfl

theorem enterHolding_rxs (c : Chan) (s : State) : (enterHolding c s).rxs = s.rxs := by
  refine Eq.trans (b := (setChanState c .holding s).rxs) ?_ (setChanState_rxs c _ s)
  unfold enterHolding alertOccurrence beginHold
  dsimp only
  split
  · exact releaseOnAir_rxs c _
  · rfl

theorem followFeed_rxs (c : Chan) (s : State) : (followFeed c s).rxs = s.rxs := by
  unfold followFeed
  dsimp only
  split
  · rfl
  · split
    · exact enterPriming_rxs c s
    · rfl
  · split
    · rfl
    · exact enterHolding_rxs c s
  · split
    · rfl
    · exact enterHolding_rxs c s
  · split
    · exact enterPriming_rxs c s
    · rfl

/-- A report to the channels changes no receiver. -/
theorem reportToChannels_rxs (f : Feed) (s : State) : (reportToChannels f s).rxs = s.rxs :=
  forEach_rxs _ _ followFeed_rxs s

/-- A report changes no receiver. -/
theorem reportState_rxs (f : Feed) (s : State) : (reportState f s).rxs = s.rxs := by
  unfold reportState
  dsimp only
  rw [reportToChannels_rxs]
  split
  · rw [detectorRestart_rxs, relock_rxs]
  all_goals rfl

/-- A receiver that takes a state has it, and is otherwise as it was. -/
theorem enterRxState_rxs (f : Feed) (st : RxState) (s : State) :
    (enterRxState f st s).rxs = modifyAt s.rxs f fun r => { r with state := st } := by
  unfold enterRxState
  dsimp only
  rw [reportState_rxs, condition_rxs]
  rfl

theorem dropFilling_rxs (f : Feed) (n : SlotNo) (s : State) : (dropFilling f n s).rxs = s.rxs :=
  releaseFrom_rxs _ _ _

/-- An abandoned capture leaves the receiver with no capture and no signatures. -/
theorem abandonCapture_rxs (f : Feed) (s : State) :
    (abandonCapture f s).rxs = modifyAt s.rxs f fun r => { r with capture := .none, sig1 := none, sig2 := none } := by
  unfold abandonCapture
  dsimp only
  split
  · exact dropFilling_rxs f _ _
  · rfl
  · rfl

/-- A structural change leaves the receiver in ACQUIRING. -/
theorem structuralChangeRx_state (f : Feed) (s : State) : (structuralChangeRx f s).rxs[f].state = .acquiring := by
  unfold structuralChangeRx
  dsimp only
  rw [enterRxState_rxs, modifyAt_same]

theorem enterLocked_rxs (f : Feed) (st : DetState) (s : State) : (enterLocked f st s).rxs = s.rxs :=
  condition_rxs _ _ _ _

theorem exitLocked_rxs (f : Feed) (s : State) : (exitLocked f s).rxs = s.rxs := condition_rxs _ _ _ _

theorem tagField_rxs (x : FieldIn) (t : FilmTag) (s : State) : (tagField x t s).rxs = s.rxs := by
  unfold tagField; split <;> rfl

theorem filmField32_rxs (f : Feed) (p : Nat) (x : Option FieldIn) (s : State) :
    (filmField32 f p x s).rxs = s.rxs := by
  unfold filmField32
  cases x <;> dsimp only <;> repeat' split
  all_goals first
    | rfl
    | exact tagField_rxs _ _ _

theorem modDet_rxs (f : Feed) (g : Detector → Detector) (s : State) : (s.modDet f g).rxs = s.rxs := rfl

theorem rule32_rxs (f : Feed) (x : Option FieldIn) (s : State) : (rule32 f x s).rxs = s.rxs := by
  cases h : s.dets[f].state <;> simp only [rule32, h, cadenceBreak]
  · split <;> simp only [modDet_rxs]
  · split
    · exact modDet_rxs _ _ _
    · split <;> simp only [enterLocked_rxs, modDet_rxs]
  · split <;> simp only [exitLocked_rxs, filmField32_rxs, modDet_rxs]

theorem applyVerdict_rxs (f : Feed) (v : Verdict) (s : State) : (applyVerdict f v s).rxs = s.rxs := by
  cases h : s.dets[f].state <;> simp only [applyVerdict, h, cadenceBreak]
  · split <;> exact modDet_rxs _ _ _
  · split
    · split <;> simp only [enterLocked_rxs, modDet_rxs]
    · exact modDet_rxs _ _ _
  · cases v <;> simp only [modDet_rxs]
    split <;> simp only [exitLocked_rxs, modDet_rxs]

theorem film22_rxs (f : Feed) (b : Bool) (x : Option FieldIn) (s : State) : (film22 f b x s).rxs = s.rxs := by
  unfold film22 completeFilm22 openFilm22
  repeat' split
  all_goals first
    | rfl
    | exact tagField_rxs _ _ _

theorem takeField_rxs (f : Feed) (b : Bool) (x : Option FieldIn) (s : State) : (takeField f b x s).rxs = s.rxs := by
  unfold takeField
  dsimp only
  repeat' split
  all_goals simp only [rule32_rxs, film22_rxs, applyVerdict_rxs, State.modDet]

theorem handover_rxs (f : Feed) (n : SlotNo) (a b : Signature) (s : State) : (handover f n a b s).rxs = s.rxs := by
  unfold handover
  dsimp only
  rw [takeField_rxs, takeField_rxs]
  rfl

/-- Capture work on an active line leaves the receiver's state and layout, and the other receivers. -/
theorem activeLine_state (f : Feed) (k : Nat) (y cb cr : List Sample) (s : State) :
    (activeLine f k y cb cr s).rxs[f].state = s.rxs[f].state := by
  have hw : ∀ n, (writeLine n k y cb cr s).rxs = s.rxs := by
    intro n; unfold writeLine writeComponent; repeat' split
    all_goals rfl
  have hw' : ∀ n j, (writeLine n j y cb cr s).rxs = s.rxs := by
    intro n j; unfold writeLine writeComponent; repeat' split
    all_goals rfl
  have hf : ∀ (l : List LineCode) (u : State), (formSignatures f k l u).rxs[f].state = u.rxs[f].state := by
    intro l u
    unfold formSignatures
    dsimp only
    repeat' split
    all_goals first
      | rfl
      | simp only [State.modRx, modifyAt_same]
  have he : ∀ u : State, (endCapture f u).rxs[f].state = u.rxs[f].state := by
    intro u
    unfold endCapture
    dsimp only [State.modRx]
    rw [modifyAt_same]
    split
    · next n _ =>
      have hm : ∀ v : State, (moveSlot .filling .complete n v).rxs = v.rxs := by
        intro v; unfold moveSlot; split <;> rfl
      unfold endSlotCapture
      dsimp only
      repeat' split
      all_goals simp only [handover_rxs, prune_rxs, hm, State.modSlot]
    · unfold skipReport; rw [takeField_rxs, takeField_rxs]
    · rfl
  unfold activeLine
  split
  · rfl
  · dsimp only
    split
    · rw [he, hf]; split <;> simp only [hw']
    · rw [hf]; split <;> simp only [hw']

end Sys2Proof.Machine
end

