-- ==== Sys2Proof/Laws/Startup.lean ====
section
/-! SUPPORT. Resets and start-up keep the invariant. -/

namespace Sys2Proof.Machine

/-! ## Counting slots -/

/-- The slots in order of their number. -/
theorem slots_toList (v : Vector Slot 96) : v.toList = (List.finRange 96).map fun n => v[n] := by
  apply List.ext_getElem
  · simp
  · intro i h1 h2; simp

/-- How many slot numbers a list names. -/
theorem countP_contains (l : List SlotNo) : (List.finRange 96).countP (fun n => l.contains n) ≤ l.length := by
  rw [List.countP_eq_length_filter]
  refine List.Subperm.length_le (List.Nodup.subperm ((List.nodup_finRange 96).filter _) fun n hn => ?_)
  have := (List.mem_filter.mp hn).2
  simpa using this

/-- The free list that is formed anew names each FREE slot once. -/
theorem formFree_ok (v : Vector Slot 96) : (formFree v).Nodup ∧ ∀ n : SlotNo, n ∈ formFree v ↔ v[n].state = .free := by
  refine ⟨?_, fun n => ?_⟩
  · unfold formFree
    exact (List.nodup_finRange 96).filter _
  · simp [formFree]

/-- A store with new records, its free list formed anew and its retired set within the limit. -/
theorem Inv.rebuilt {s t : State} (h : Inv s) (v : Vector Slot 96) (h1 : t.slots = v) (h2 : t.free = formFree v)
    (h3 : v.toList.countP (fun x => x.state = .retired) ≤ Config.retiredMax) (h4 : t.dram = s.dram)
    (h5 : t.refs = s.refs) (h6 : t.rings = s.rings) (h7 : t.dets = s.dets) (h8 : t.profiles = s.profiles)
    (h9 : t.ports = s.ports) (h10 : t.dev.houseTime = s.dev.houseTime) : Inv t := by
  obtain ⟨a, b⟩ := formFree_ok v
  refine ⟨⟨?_, fun n => ?_⟩, ?_, ?_, ?_, ?_, ?_, ?_, ?_, ?_⟩
  · rw [h2]; exact a
  · rw [h2, h1]; exact b n
  · unfold retiredCount stateCount; rw [h1]; exact h3
  · rw [h4]; exact h.dram
  · rw [h5]; exact h.refs
  · rw [h6]; exact h.rings
  · rw [h7]; exact h.dets
  · rw [h8]; exact h.profiles
  · rw [h9]; exact h.ports
  · rw [h10]; exact h.time

/-! ## Power-on, pin reset and the image -/

theorem Inv.hardReset (cause : Cause) (b : Bool) (s : State) : Inv (hardReset cause b s) :=
  Inv.of_eq Inv.reset rfl rfl rfl rfl rfl rfl rfl rfl rfl

theorem Inv.setDev {s : State} (h : Inv s) (d : Device) (hd : d.houseTime ≤ Config.houseMax) :
    Inv { s with dev := d } :=
  ⟨h.freeList, h.retired, h.dram, h.refs, h.rings, h.dets, h.profiles, h.ports, hd⟩

theorem Inv.dramInitialized {s : State} (h : Inv s) : Inv (dramInitialized s) := by
  unfold Machine.dramInitialized; split
  · exact h.setDev _ h.time
  · exact h

theorem imageRetired_length (r : ConfigRead) : (imageRetired (usedImage r)).length ≤ Config.retiredMax := by
  unfold usedImage
  split
  · next b hj =>
    have hn : imageByte b 160 ≤ 16 := by
      unfold judgeImage at hj
      dsimp only at hj
      split at hj
      · cases hj
      · split at hj
        · cases hj
        · split at hj
          · cases hj
          · split at hj
            · cases hj
            · omega
    unfold imageRetired
    refine (List.length_filter_le _ _).trans ?_
    rw [List.length_map, List.length_take]
    exact (Nat.min_le_left _ _).trans hn
  · simp [imageRetired]

theorem state_startSlots (l : List Nat) (n : SlotNo) :
    (startSlots l)[n].state = if l.contains n.val then .retired else .free := by
  rw [startSlots, Fin.getElem_fin, Vector.getElem_ofFn]; rfl

theorem retired_startSlots (l : List Nat) (hl : l.length ≤ Config.retiredMax) :
    (startSlots l).toList.countP (fun x => x.state = .retired) ≤ Config.retiredMax := by
  rw [slots_toList, List.countP_map]
  refine le_trans ?_ hl
  have : (List.finRange 96).countP ((fun x : Slot => decide (x.state = .retired)) ∘ fun n => (startSlots l)[n]) =
      (List.finRange 96).countP fun n => l.contains n.val := by
    refine List.countP_congr fun n _ => ?_
    rw [Function.comp_apply, decide_eq_true_eq, state_startSlots]
    by_cases h : l.contains n.val = true
    · rw [if_pos h]; exact ⟨fun _ => h, fun _ => rfl⟩
    · rw [if_neg h]; exact ⟨fun k => (SlotState.noConfusion k), fun k => absurd k h⟩
  rw [this, List.countP_eq_length_filter, ← List.length_map (f := Fin.val)]
  refine List.Subperm.length_le (List.Nodup.subperm ?_ fun n hn => ?_)
  · exact ((List.nodup_finRange 96).filter _).map Fin.val_injective
  · obtain ⟨m, hm, rfl⟩ := List.mem_map.mp hn
    simpa using (List.mem_filter.mp hm).2

theorem Inv.takeImage {s : State} (h : Inv s) (r : ConfigRead) : Inv (takeImage r s) := by
  have h1 := retired_startSlots _ (imageRetired_length r)
  unfold Machine.takeImage
  dsimp only
  generalize startSlots _ = v at h1 ⊢
  exact h.rebuilt v rfl rfl h1 rfl rfl rfl rfl rfl rfl rfl

theorem Inv.becomeReady {s : State} (h : Inv s) : Inv (becomeReady s) := by
  have h1 := h.setDev { s.dev with state := .ready, stage := .none, clk := 0, houseTime := 0 } (Nat.zero_le _)
  unfold Machine.becomeReady
  apply Inv.raise
  exact h1.of_eq rfl rfl rfl rfl rfl rfl rfl rfl rfl

theorem Inv.configurationReadDone {s : State} (h : Inv s) (r : ConfigRead) : Inv (configurationReadDone r s) := by
  unfold Machine.configurationReadDone; split
  · exact (h.takeImage r).becomeReady
  · exact h

/-- What becoming READY changes (R185, R187). -/
theorem becomeReady_eq (s : State) : ∃ v u, becomeReady s = { s with
    dev := { s.dev with state := .ready, stage := .none, clk := 0, houseTime := 0 }
    timing := v, units := u, aux := s.aux.map AuxLine.atReady } := ⟨_, _, rfl⟩

/-- What the image changes (R185, step 3). -/
theorem takeImage_eq (r : ConfigRead) (s : State) : ∃ chans aux slots free units, takeImage r s = { s with
    dev := { s.dev with load := judgeImage r }
    chans := chans, aux := aux, slots := slots, free := free, units := units } := ⟨_, _, _, _, _, rfl⟩

/-! ## Soft reset -/

theorem Inv.discardJob {s : State} (h : Inv s) (j : Option Job) : Inv (discardJob j s) := by
  unfold Machine.discardJob; split
  · exact h.leavePartial _ _
  · exact h

theorem state_rebuilt (s : State) (joins : List SlotNo) (n : SlotNo)
    (h : (rebuiltSlot joins n s.slots[n]).state = .retired) : s.slots[n].state = .retired ∨ joins.contains n = true := by
  unfold rebuiltSlot at h
  split at h
  · next e => exact Or.inl e
  · split at h
    · next e => exact Or.inr e
    · cases h

theorem countP_le_add {α : Type} (l : List α) (p q r : α → Bool) (h : ∀ x, p x = true → q x = true ∨ r x = true) :
    l.countP p ≤ l.countP q + l.countP r := by
  induction l with
  | nil => simp
  | cons x l ih =>
    simp only [List.countP_cons]
    have := h x
    by_cases h1 : p x = true
    · rcases this h1 with h2 | h2 <;> simp only [h1, h2, if_true] <;> omega
    · simp only [h1]; simp; omega

theorem Inv.rebuildStore {s : State} (h : Inv s) : Inv (rebuildStore s) := by
  have hr := h.retired
  unfold Machine.rebuildStore
  dsimp only
  generalize hj : (flaggedSlots s).take (Config.retiredMax - retiredCount s) = joins
  generalize hv : (Vector.ofFn fun n : SlotNo => rebuiltSlot joins n s.slots[n]) = v
  have hstate : ∀ n : SlotNo, v[n] = rebuiltSlot joins n s.slots[n] := by
    intro n; rw [← hv, Fin.getElem_fin, Vector.getElem_ofFn]
  refine h.rebuilt v rfl rfl ?_ rfl rfl rfl rfl rfl rfl rfl
  rw [slots_toList, List.countP_map]
  have h1 := countP_le_add (List.finRange 96)
    ((fun x : Slot => decide (x.state = .retired)) ∘ fun n => v[n])
    (fun n => decide (s.slots[n].state = .retired)) (fun n => joins.contains n) (by
      intro n hn
      have hn' := of_decide_eq_true hn
      rw [show ((fun n : SlotNo => v[n]) n) = v[n] from rfl, hstate n] at hn'
      rcases state_rebuilt s joins n hn' with e | e
      · exact Or.inl (decide_eq_true e)
      · exact Or.inr e)
  have h2 := countP_contains joins
  have h3 : joins.length ≤ Config.retiredMax - retiredCount s := by
    rw [← hj, List.length_take]; exact Nat.min_le_left _ _
  have h4 : (List.finRange 96).countP (fun n => decide (s.slots[n].state = .retired)) = retiredCount s := by
    unfold retiredCount stateCount
    rw [slots_toList, List.countP_map]; rfl
  rw [h4] at h1
  exact h1.trans ((Nat.add_le_add_left (h2.trans h3) _).trans (by omega))

/-- A soft reset of an entry leaves a built-in entry as it is. -/
theorem profiles_softReset {s : State} (h : Inv s) (e : EntryNo) :
    ProfileOk e (s.profiles.map Profile.softReset)[e] := by
  rw [Fin.getElem_fin, Vector.getElem_map]
  exact (h.profiles e).promote

/-- Replacing the records that the invariant speaks of by ones that are within their bounds. -/
theorem Inv.replaced {s t : State} (h : Inv s) (h1 : t.slots = s.slots) (h2 : t.free = s.free) (h3 : t.dram = s.dram)
    (h4 : ∀ n : RefNo, RefOk t.refs[n]) (h5 : ∀ f : Feed, RingOk t.rings[f]) (h6 : ∀ f : Feed, DetOk t.dets[f])
    (h7 : ∀ e : EntryNo, ProfileOk e t.profiles[e]) (h8 : ∀ p : Port, PortOk (t.ports.get p))
    (h9 : t.dev.houseTime ≤ Config.houseMax) : Inv t := by
  refine ⟨⟨?_, fun n => ?_⟩, ?_, ?_, h4, h5, h6, h7, h8, h9⟩
  · rw [h2]; exact h.freeList.1
  · rw [h1, h2]; exact h.freeList.2 n
  · unfold retiredCount stateCount; rw [h1]; exact h.retired
  · rw [h3]; exact h.dram

theorem Inv.resetBlocks {s : State} (h : Inv s) : Inv (resetBlocks s) := by
  have h1 := ((h.discardJob s.lanes[(0 : LaneNo)]).discardJob s.lanes[(1 : LaneNo)]).rebuildStore
  unfold Machine.resetBlocks
  dsimp only
  generalize Machine.rebuildStore _ = t at h1 ⊢
  exact h1.replaced rfl rfl rfl Inv.reset.refs Inv.reset.rings Inv.reset.dets (profiles_softReset h1) h1.ports h1.time

theorem Inv.abortOther {s : State} (h : Inv s) (p : Port) : Inv (abortOther p s).2 := by
  unfold Machine.abortOther; split
  · exact h.post p _ _ _
  · exact h.post p _ _ _
  · exact h
  · exact h

theorem PortOk.softReset {r : PortRec} : PortOk r.softReset :=
  ⟨by simp [PortRec.softReset], fun b hb => by cases hb⟩

theorem keeps_resetDevice (p : Port) (tag : Byte) (a : Unit) (s : State) (h : Inv s) :
    (ownResetDevice p tag a s).Keeps := by
  have h1 := (h.abortOther p.other).resetBlocks
  unfold ownResetDevice
  dsimp only
  generalize Machine.resetBlocks (Machine.abortOther p.other s).2 = t at h1 ⊢
  show Inv _
  exact h1.replaced rfl rfl rfl h1.refs h1.rings h1.dets h1.profiles
    (by intro q; cases q <;> exact PortOk.softReset) (Nat.zero_le _)

theorem Inv.softResetEnd {s : State} (h : Inv s) : Inv (softResetEnd s) := by
  unfold Machine.softResetEnd; split
  · split
    · dsimp only
      have h1 := fun p tag => (((h.becomeReady).post p .ok tag []).announce p ⟨0x02#8, none, none⟩).requestDone p
      split
      · exact (h1 _ _).requestDone _
      · exact h1 _ _
    · exact h
    · exact h
    · exact h
  · exact h

/-! ## What a soft reset does -/

/-- A discarded job touches the DRAM only. -/
theorem discardJob_eq (j : Option Job) (s : State) :
    ∃ m k, discardJob j s = { s with dram := m, partials := k } := by
  cases j with
  | none => exact ⟨s.dram, s.partials, rfl⟩
  | some j => exact (leavePartial_eq j.dest j.outStd s).imp fun m e => ⟨_, e⟩

/-- The rebuild reads the slots only. -/
theorem rebuildStore_dram (s : State) (m : Dram) (k : Nat) :
    rebuildStore { s with dram := m, partials := k } = { rebuildStore s with dram := m, partials := k } := by
  simp only [rebuildStore, flaggedSlots, retiredCount, stateCount]

/-- What a soft reset does to the blocks: each takes its values; the ports, the device and the queue of commands
are untouched. -/
theorem resetBlocks_eq (s : State) :
    ∃ m k v, resetBlocks s = { s with
      slots := (rebuildStore s).slots, free := (rebuildStore s).free, pool := (rebuildStore s).pool
      dram := m, partials := k
      units := ⟨s.units.a.clearAll, s.units.b.clearAll⟩
      refs := Vector.ofFn Reference.reset
      rxs := Vector.replicate 8 .reset
      rings := Vector.replicate 8 .reset
      dets := Vector.replicate 8 .reset
      chans := s.chans.map Channel.softReset
      profiles := s.profiles.map Profile.softReset
      queue := []
      lanes := Vector.replicate 2 none
      outputs := Vector.replicate 8 .reset
      aux := s.aux.map AuxLine.softReset
      timing := v } := by
  obtain ⟨m0, k0, e0⟩ := discardJob_eq s.lanes[(0 : LaneNo)] s
  obtain ⟨m1, k1, e1⟩ := discardJob_eq s.lanes[(1 : LaneNo)] { s with dram := m0, partials := k0 }
  unfold resetBlocks
  rw [e0, e1, rebuildStore_dram s m1 k1]
  generalize hr : rebuildStore s = r
  have hb : r = { s with slots := r.slots, free := r.free, pool := r.pool } := by
    rw [← hr]; simp only [rebuildStore]
  generalize r.slots = a, r.free = b, r.pool = c at hb
  subst hb
  exact ⟨m1, k1, _, rfl⟩
end Sys2Proof.Machine
end

