-- ==== Sys2Proof/Laws/Timing.lean ====
section
/-! SUPPORT. What a change of an epoch does to the frame timings and deadlines, once for every rule. -/

namespace Sys2Proof.Machine

theorem insertJob_perm (j : Job) (l : List Job) : (insertJob j l).Perm (j :: l) := by
  induction l with
  | nil => exact List.Perm.refl _
  | cons k rest ih =>
    unfold insertJob; split
    · exact List.Perm.refl _
    · exact (ih.cons k).trans (List.Perm.swap j k rest)

theorem sortJobs_perm (l : List Job) : (sortJobs l).Perm l := by
  induction l with
  | nil => exact List.Perm.refl _
  | cons k rest ih => exact (insertJob_perm k _).trans (ih.cons k)

/-- One output: its timing takes the rule's value, and its jobs' deadlines follow it. -/
theorem retimeWith_spec (f : OutTiming → Reference → Bank → OutTiming) (c : Chan) (s : State) :
    ∃ q : List Job, retimeWith f c s =
      { s with timing := s.timing.set c (f s.timing[c] (refOf s c) (bankOf s c)), queue := q
               lanes := s.lanes.map fun l => l.map
                 (Job.redeadline s.timing (s.timing.set c (f s.timing[c] (refOf s c) (bankOf s c)))) } ∧
      q.Perm (s.queue.map (Job.redeadline s.timing (s.timing.set c (f s.timing[c] (refOf s c) (bankOf s c))))) := by
  generalize hx : f s.timing[c] (refOf s c) (bankOf s c) = x
  have hset : ∀ d : Chan, (s.timing.set c x)[d] = if d = c then x else s.timing[d] := by
    intro d
    have := modifyAt_get s.timing c d (fun _ => x)
    exact this
  by_cases h : x.next = s.timing[c].next
  · have hid : Job.redeadline s.timing (s.timing.set c x) = id := by
      funext j
      unfold Job.redeadline
      have : (s.timing.set c x)[j.chan].next = s.timing[j.chan].next := by
        rw [hset]; split
        · next e => rw [h]; exact (congrArg (fun d : Chan => s.timing[d].next) e).symm
        · rfl
      rw [if_pos this]; rfl
    refine ⟨s.queue, ?_, ?_⟩
    · unfold retimeWith
      simp only [hx, h, if_true]
      rw [hid]
      simp [State.modTiming, modifyAt]
    · rw [hid, List.map_id]
  · have hw : Job.redeadline s.timing (s.timing.set c x) = Job.withDeadline c x.next := by
      funext j
      unfold Job.redeadline Job.withDeadline
      rw [hset]
      by_cases e : j.chan = c
      · have e' : s.timing[j.chan].next = s.timing[c].next := congrArg (fun d : Chan => s.timing[d].next) e
        rw [if_pos e, if_pos e, e', if_neg h]
      · rw [if_neg e, if_neg e, if_pos rfl]
    refine ⟨sortJobs (s.queue.map (Job.withDeadline c x.next)), ?_, ?_⟩
    · unfold retimeWith
      simp only [hx, if_neg h, hw]
      rfl
    · rw [hw]; exact sortJobs_perm _

/-- A list of outputs, each once. -/
theorem forEach_retimeWith (f : OutTiming → Reference → Bank → OutTiming) (l : List Chan) (hl : l.Nodup) (s : State) :
    ∃ t : State, forEach l (retimeWith f) s = t ∧
      t = { s with timing := t.timing, queue := t.queue, lanes := t.lanes } ∧
      (∀ c : Chan, t.timing[c] = if c ∈ l then f s.timing[c] (refOf s c) (bankOf s c) else s.timing[c]) ∧
      (∀ k : LaneNo, t.lanes[k] = s.lanes[k].map (Job.redeadline s.timing t.timing)) ∧
      t.queue.Perm (s.queue.map (Job.redeadline s.timing t.timing)) := by
  induction l generalizing s with
  | nil =>
    have hid : Job.redeadline s.timing s.timing = id := by funext j; simp [Job.redeadline]
    refine ⟨s, rfl, rfl, by simp, ?_, ?_⟩
    · intro k; rw [hid]; simp
    · rw [hid, List.map_id]
  | cons c rest ih =>
    obtain ⟨q, e1, hq⟩ := retimeWith_spec f c s
    generalize hx : f s.timing[c] (refOf s c) (bankOf s c) = x at e1 hq
    have hset : ∀ d : Chan, (s.timing.set c x)[d] = if d = c then x else s.timing[d] :=
      fun d => modifyAt_get s.timing c d (fun _ => x)
    obtain ⟨t, e2, h1, h2, h3, h4⟩ := ih (List.nodup_cons.1 hl).2 (retimeWith f c s)
    have hc : c ∉ rest := (List.nodup_cons.1 hl).1
    have hrefs : ∀ d, refOf (retimeWith f c s) d = refOf s d := by rw [e1]; intro d; rfl
    have hbank : ∀ d, bankOf (retimeWith f c s) d = bankOf s d := by rw [e1]; intro d; rfl
    have htim : (retimeWith f c s).timing = s.timing.set c x := by rw [e1]
    simp only [hrefs, hbank, htim] at h2 h3 h4
    have hall : ∀ d : Chan, t.timing[d] =
        if d ∈ c :: rest then f s.timing[d] (refOf s d) (bankOf s d) else s.timing[d] := by
      intro d
      rw [h2 d, hset]
      by_cases hd : d = c
      · subst hd; rw [if_neg hc, if_pos rfl, if_pos List.mem_cons_self, hx]
      · simp [hd]
    have hcomp : ∀ j : Job, Job.redeadline (s.timing.set c x) t.timing (Job.redeadline s.timing (s.timing.set c x) j) =
        Job.redeadline s.timing t.timing j := by
      intro j
      by_cases hj : j.chan = c
      · have ht : t.timing[j.chan] = x := by
          have : t.timing[j.chan] = t.timing[c] := congrArg (fun d : Chan => t.timing[d]) hj
          rw [this, hall, if_pos List.mem_cons_self, hx]
        have hs : (s.timing.set c x)[j.chan] = x := by rw [hset, if_pos hj]
        unfold Job.redeadline
        rw [hs, ht]
        split
        · rw [hs, ht, if_pos rfl]
        · dsimp only; rw [hs, ht, if_pos rfl]
      · have hs : (s.timing.set c x)[j.chan] = s.timing[j.chan] := by rw [hset, if_neg hj]
        unfold Job.redeadline
        rw [hs, if_pos rfl, hs]
    refine ⟨t, e2, ?_, hall, ?_, ?_⟩
    · rw [h1, e1]
    · intro k
      rw [h3 k, e1]
      simp only [Fin.getElem_fin, Vector.getElem_map, Option.map_map]
      congr 1
      funext j; exact hcomp j
    · refine h4.trans ?_
      rw [e1]
      refine (hq.map _).trans ?_
      rw [List.map_map]
      rw [show (Job.redeadline (s.timing.set c x) t.timing ∘ Job.redeadline s.timing (s.timing.set c x)) =
        Job.redeadline s.timing t.timing from funext hcomp]

theorem boundTo_nodup (s : State) (n : RefNo) : (boundTo s n).Nodup :=
  List.Nodup.filter _ (List.nodup_finRange 8)

theorem mem_boundTo (s : State) (n : RefNo) (c : Chan) : c ∈ boundTo s n ↔ (bankOf s c).ref = n := by
  simp [boundTo, allChans]

/-- Every output bound to a reference: what `FramesFollow` states, and nothing else changes. -/
theorem forEach_framesFollow (f : OutTiming → Reference → Bank → OutTiming) (n : RefNo) (s : State) :
    ∃ t : State, forEach (boundTo s n) (retimeWith f) s = t ∧
      t = { s with timing := t.timing, queue := t.queue, lanes := t.lanes } ∧ FramesFollow f n s t := by
  obtain ⟨t, e, h1, h2, h3, h4⟩ := forEach_retimeWith f (boundTo s n) (boundTo_nodup s n) s
  refine ⟨t, e, h1, ?_, h3, h4⟩
  intro c
  rw [h2 c]
  by_cases hc : (bankOf s c).ref = n
  · rw [if_pos ((mem_boundTo s n c).2 hc), if_pos hc]
    have : t.refs = s.refs := by rw [h1]
    rw [this, ← hc]; rfl
  · rw [if_neg (fun h => hc ((mem_boundTo s n c).1 h)), if_neg hc]

end Sys2Proof.Machine
end

