-- ==== Sys2Proof/Tests/Slice0.lean ====
section
/-! SUPPORT. Tests: the well-formedness checks refuse ill-formed commands, the worked examples of the spec, and
for each obligation states and operands that meet its hypotheses, clause by clause at the edges of its ranges. -/

namespace Sys2Proof.Machine.Tests

set_option Elab.async false

/-! ## Ill-formed commands are refused -/

/-- A request with nine parameter words. -/
theorem test_paramsOk_refuses : WellFormed (.take 0 .a 1#8 (List.replicate 9 0#16)) = false := by decide
/-- A whole STATUS frame is not malformed. -/
theorem test_frameMalformed_refuses : WellFormed (.malformedFrame 0 .a [0x03#8, 0#8] 0) = false := by decide
/-- A line with too few chroma samples. -/
theorem test_lineOk_refuses :
    WellFormed (.feedLine 0 0 ⟨none, none, [1#10, 2#10], [], [], false, 0, 0⟩) = false := by decide
/-- A luma code word beyond sample 1919. -/
theorem test_codeWordOk_refuses : WellFormed (.outputReadFault 0 0 ⟨0, .y, 240⟩) = false := by decide
/-- An image that begins with 0xA5 and ends there. -/
theorem test_configReadOk_refuses : WellFormed (.configurationReadDone 0 (.bytes [0xA5#8])) = false := by decide
/-- GET_DEVICE_STATUS with the code of another request. -/
theorem test_deviceCodeOk_refuses : WellFormed (.getDeviceStatus 0 .a 1#8 0x10#8 []) = false := by decide

/-! ## Worked examples of the spec -/

/-- File 07: the weights of the 1080p25, interlaced and film examples. -/
theorem test_weights_of_file_07 :
    weight 1 0 882550 1080000 = 26 ∧ weight 4 1 424550 450450 = 30 ∧ weight 4 3 63650 450450 = 5 ∧
    weight 1 0 716225 1126125 = 20 ∧ weight 1 0 670100 1126125 = 19 ∧ weight 4 2 253000 1080000 = 8 ∧
    weight 1 0 253000 1080000 = 7 := by decide
/-- File 07: the dither values of frame 500 of the interlaced example. -/
theorem test_dither_of_file_07 : ditherValue .d4 2 500 true 0 = 1 ∧
    ditherValue .d4 2 500 true 1 = 3 := by decide
/-- File 07: nearest fields, where halfway and beyond take the newer. -/
theorem test_nearest_of_file_07 (a c : Picture) (ha : a.stamp = 76666650) (hc : c.stamp = 77117100) :
    nearest 77091200 a c = ⟨.nearest, none, [c]⟩ := by simp [nearest, ha, hc]
/-- File 08: the taps of output line 0 of the film example give 493. -/
theorem test_vertical_of_file_08 :
    resampleAt ⟨.resample 4 64, Config.cubic⟩ (pos64 0 576 1080) 575
      (fun l => some (if l = 0 then 500 else 600)) = some 493 := by decide +kernel
/-- File 08: the positions of lines 0, 1 and 1079, of luma sample 0, and on the fields' own grids. -/
theorem test_positions_of_file_08 :
    pos64 0 576 1080 = -15 ∧ pos64 1 576 1080 = 19 ∧ pos64 1079 576 1080 = 36814 ∧ pos64 0 720 1920 = -20 ∧
    fieldPos (-15) 0 = -8 ∧ fieldPos 19 1 = -23 ∧ fieldPos 19 0 = 9 := by decide
/-- File 08: phase 49 of the cubic profile, and the matrix example SD to HD. -/
theorem test_matrix_of_file_08 :
    Config.cubicPhase 49 = [-5, 53, 226, -18] ∧
    ([0, 1, 2].map fun r => matrixRow ⟨.matrix, Config.sdToHd⟩ r 500 600 400) = [513, 589, 404] := by
  decide +kernel
/-- File 08: the validation of 256 words lasts 9,612 ticks. -/
theorem test_validation_of_file_08 : validationTicks 256 = 9612 := by decide
/-- File 09: the blend where both pictures hold 720. -/
theorem test_blend_of_file_09 : blendValue 26 720 720 = 720 ∧ blendValue 26 400 720 = 660 := by decide
/-- File 06: the effective delays of its examples. -/
theorem test_effective_delays :
    [effectiveDelay (Bank.builtIn 0) 1080000 7,
     effectiveDelay { Bank.builtIn 0 with outStd := 6 } 1080000 7,
     effectiveDelay { Bank.builtIn 0 with outStd := 2, mode := .filmAware } 900900 7,
     effectiveDelay { Bank.builtIn 0 with delay := some 1000000 } 1080000 7,
     effectiveDelay { Bank.builtIn 0 with delay := some 6000000 } 1080000 5,
     effectiveDelay { Bank.builtIn 0 with outStd := 2, delay := some 3000000 } 450450 3] =
    [2637450, 2727000, 3809700, 1530450, 4320000, 1530450] := by decide
/-- File 04: the smoothed stamps of the worked sequence. -/
theorem test_smoothing_of_file_04 :
    ((List.range 9).foldl (fun (x : Ring × List (Option Int)) n =>
      let r := (smoothRing 1080000 (5000000 + 1079950 * n) x.1).1
      (r, x.2 ++ [r.prevSmooth])) (Ring.reset, [])).2 =
    [some 5000000, some 6079993, some 7159981, some 8239964, some 9319943, some 10399875, some 11479809,
     some 12559745, some 13639683] := by decide

/-- A picture with one stamp. -/
def pic (stamp : Int) : Picture := ⟨stamp, false, .frames, [⟨0, .frame⟩]⟩
/-- A job of channel 0 with a number of pictures for each pass. -/
def job (outStd : StdId) (pics : List Nat) : Job :=
  { chan := 0, frame := 1, outStd := outStd, srcStd := 4, deadline := 5450450
    passes := (pics.zip [0, 1]).map fun x => ⟨x.2, .late, none, 0, 0, List.replicate x.1 (pic 5)⟩
    slots := [0], fields := (none, none, none), resolved := ⟨0, 1, 2⟩, captured := none, dest := 1, start := none
    completion := none, failed := [], onAirFailed := [] }

/-- File 09: the durations of R152. -/
theorem test_durations_of_file_09 :
    [jobDuration (job 7 [2]), jobDuration (job 7 [1]), jobDuration (job 2 [2, 1]), jobDuration (job 8 [2]),
     jobDuration (job 0 [2, 2]), jobDuration (job 1 [2, 2])] =
    [85860, 46980, 66420, 42660, 24228, 21708] := by decide

/-! ## States that meet the hypotheses of the obligations -/

/-- A READY part at house time 5,000,000 with nothing commanded since start-up. -/
def ready : State :=
  { State.reset with dev := { State.reset.dev with state := .ready, stage := .none, houseTime := 5000000 } }
/-- The same at house time 0, before any event is due but the frame starts, which lie at 1. -/
def quiet : State := { ready with
  dev := { ready.dev with houseTime := 0 }, timing := Vector.replicate 8 { OutTiming.reset with next := 1 } }

/-- The part right after PIN_RESET: RESET_N is asserted. -/
def pinHeld : State := hardReset .pin true ready

/-- Channel 0's job runs on lane 0, reading slot 0 into slot 1. -/
def running : State :=
  { ((ready.modSlot 0 fun x => { x with state := .complete, pins := 1 }).modSlot 1
      fun x => { x with state := .rendering }) with
    lanes := #v[some { job 7 [1] with start := some 4950000, completion := some 5000000 }, none] }
/-- Channel 0's job waits in the queue. -/
def queued : State := { running with lanes := #v[none, none], queue := [job 7 [1]] }

/-- A READY part with an idle mailbox takes a request of port A. -/
theorem test_hyps_Taken : Taken (ready.elapse 0) .a := ⟨rfl, rfl, Or.inl rfl⟩

theorem test_hyps_EmptyQueueLetsTimePass :
    (ready.pending = [] ∧ (dueCommands ready).isEmpty = false) ∧ (quiet.pending = [] ∧ dueCommands quiet = []) ∧
    (ready.dev.state = .ready ∧ ready.dev.houseTime + (2 ^ 64 - 1 - 5000000) ≤ 2 ^ 64 - 1) ∧
    2 ^ 64 - 1 < ready.dev.houseTime + (2 ^ 64 - 5000000) ∧
    (State.reset.dev.state = .starting ∧ State.reset.dev.resetN = false) ∧
    (pinHeld.dev.state = .starting ∧ pinHeld.dev.resetN = true) ∧
    (ready.dev.houseTime ≤ 2 ^ 64 - 1 ∧ Instr.dramInitialized 0 ∉ dueCommands ready) := by decide +kernel

theorem inv_ready : Inv ready where
  freeList := by unfold FreeListOk; decide +kernel
  retired := by decide +kernel
  dram := rfl
  refs := by unfold RefOk; decide +kernel
  rings := by unfold RingOk; decide +kernel
  dets := by unfold DetOk; decide +kernel
  profiles := by unfold ProfileOk; decide +kernel
  ports := by intro p; cases p <;> exact ⟨by decide, fun b h => by cases h⟩
  time := by decide +kernel
theorem test_hyps_EveryStepKeepsTheInvariant : Inv ready ∧ (match step ready with
    | .next _ => true | .fault _ => false | .refused _ => false) = true := ⟨inv_ready, by decide +kernel⟩
theorem test_hyps_HardResetGivesResetValues :
    (Instr.powerOnReset 0 = .powerOnReset 0 ∧ Cause.powerOn = .powerOn ∧ ready.dev.resetN = ready.dev.resetN) ∧
    (Instr.pinReset 0 = .pinReset 0 ∧ Cause.pin = .pin ∧ true = true) ∧
    ((1 : EntryNo).val ≤ 1 ∧ 6 ≤ (6 : EntryNo).val) := by decide

theorem test_hyps_StartUpStages_held : HeldInReset pinHeld ∧
    ∀ dt, Instr.resetDevice 5 .a 1#8 [] ≠ .powerOnReset dt ∧ Instr.resetDevice 5 .a 1#8 [] ≠ .resetNRelease dt :=
  ⟨⟨rfl, rfl, rfl, rfl, by intro p; cases p <;> decide +kernel, by decide +kernel, by decide +kernel⟩,
    fun dt => ⟨nofun, nofun⟩⟩

theorem test_hyps_StartUpStages :
    ((State.reset.elapse 2700000).dev.stage = .dramInit ∧ 2700000 ≤ (State.reset.elapse 2700000).dev.clk) ∧
    (State.reset.elapse 2699999).dev.clk < 2700000 ∧ (ready.elapse 0).dev.stage ≠ .dramInit := by decide

/-- A part that reads its configuration memory. -/
def reading : State := { State.reset with dev := { State.reset.dev with stage := .configRead } }
/-- A valid image: the built-in bank for channel 0, with every range at its end, and two retired slots. -/
def image : List Byte :=
  [0xA5, 1] ++ List.replicate 14 0 ++
  [7, 11, 1, 11, 0x11, 0x2A, 0x87, 0x5B, 0x8D, 0x80, 2, 4, 3, 250, 15, 255, 0, 1] ++ List.replicate 126 0 ++
  [2, 0, 95] ++ List.replicate 14 0 ++ [0x9F]
/-- The bank that `image` spells for channel 0. -/
def imageBank : Bank :=
  { feed := 7, outStd := 11, ref := 1, expected := some 11, offset := 1124999, delay := some 6000000
    mode := .filmAware, ditherPeriod := .d32, ditherPhase := 3, lossHold := 250, vProf := some 15, hProf := none
    mProf := some 0, enable := true }
/-- The part's record after CONFIGURATION_READ_DONE. -/
def loadOf (r : ConfigRead) : Option LoadResult :=
  match exec (.configurationReadDone 0 r) reading with
  | .next u => some u.dev.load
  | .fault _ => none
  | .refused _ => none

theorem test_hyps_ConfigurationReadMakesThePartReady :
    (reading.elapse 0).dev.stage = .configRead ∧
    [loadOf .noAck, loadOf (.bytes [0#8]), loadOf (.bytes (0xA5#8 :: 2#8 :: image.drop 2)), loadOf (.bytes image)] =
      [some .failed, some .skipped, some .failed, some .loaded] := by decide +kernel

/-- The image with CLEAR_BY_ACK and the master enable for unit A, a reserved bit for unit B, AUX0 and AUX3 at the
ends of their ranges, and AUX1 and AUX2 beyond them. -/
def imageOfLines : List Byte :=
  [0xA5, 1, 3, 4, 1, 2, 255, 4, 0, 0, 0, 3, 0, 3, 1, 128] ++ (image.take 177).drop 16 ++ [0x0B]
theorem test_hyps_ConfigurationReadMakesThePartReady_lines :
    loadOf (.bytes imageOfLines) = some .loaded ∧
    ((3#8).extractLsb' 2 6 = 0#6 ∧ imageByte imageOfLines 2 = 3) ∧
    ((4#8).extractLsb' 2 6 ≠ 0#6 ∧ imageByte imageOfLines 3 = 4) ∧
    (imageByte imageOfLines 4 = AuxMode.takeInput.code ∧ imageByte imageOfLines 5 = AuxEdge.both.code) ∧
    3 < imageByte imageOfLines 7 ∧ 2 < imageByte imageOfLines 11 ∧
    (imageByte imageOfLines 13 = AuxMode.alertOutput.code ∧ imageByte imageOfLines 14 = AuxEdge.falling.code) ∧
    (imageOfLines[161 + 1]? = some 95#8 ∧ 1 < imageByte imageOfLines 160) := by decide +kernel

theorem test_hyps_LoadedImageGivesTheDefaultBank :
    (let x := imageBank
     imageByte image 16 = x.feed.val ∧ imageByte image 17 = x.outStd.val ∧ imageByte image 18 = x.ref.val ∧
      imageByte image 19 = x.expected.elim 255 Fin.val ∧
      imageByte image 20 * 65536 + imageByte image 21 * 256 + imageByte image 22 = x.offset ∧
      imageByte image 23 * 65536 + imageByte image 24 * 256 + imageByte image 25 = x.delay.getD 0xFFFFFF ∧
      imageByte image 26 = x.mode.code ∧ imageByte image 27 = x.ditherPeriod.code ∧
      imageByte image 28 = x.ditherPhase.val ∧ imageByte image 29 = x.lossHold ∧
      imageByte image 30 = x.vProf.elim 255 Fin.val ∧ imageByte image 31 = x.hProf.elim 255 Fin.val ∧
      imageByte image 32 = x.mProf.elim 255 Fin.val ∧ imageByte image 33 = (if x.enable then 1 else 0) ∧
      x.lossHold ≤ 250 ∧ x.offset < x.pOut ∧ ∀ d, x.delay = some d → d ≤ 6000000) ∧
    8 ≤ imageByte (image.set 16 8#8) 16 ∧ 6000000 < 0x5B8D81 := by
  refine ⟨⟨?_, ?_, ?_, ?_, ?_, ?_, ?_, ?_, ?_, ?_, ?_, ?_, ?_, ?_, ?_, ?_, ?_⟩, ?_⟩ <;>
    first | (intro d h; cases h; decide) | decide +kernel

theorem test_hyps_ResetDeviceBeginsASoftReset :
    Taken (ready.elapse 0) .b ∧
    ((ready.modPort .a fun r => { r with mailbox := .busy (.commit 1#8 0#16 5009612) }).elapse 0).dev.resetN = false :=
  ⟨⟨rfl, rfl, Or.inl rfl⟩, rfl⟩

theorem test_hyps_ResetDeviceBeginsASoftReset_samples :
    ((running.elapse 0).lanes[(0 : LaneNo)]).map Job.dest = some 1 ∧ (1 : SlotNo) ≠ 2 ∧
    ((Config.std 8).activeLines ≤ 720 ∧ 720 < 1080) ∧
    (componentWidth (Config.std 8).width .cb ≤ 640 ∧ 640 < compRoom .cb) := by decide +kernel

/-- Fifteen retired slots and two slots in use that are flagged. -/
def flaggedStore : State := { ready with
  slots := Vector.ofFn fun n =>
    if n.val < 15 then Slot.cleared .retired false
    else if n = 20 ∨ n = 95 then { Slot.cleared .complete false with retirePending := true }
    else Slot.cleared .free false }
theorem test_hyps_StoreRebuildsAtSoftReset :
    retiredCount flaggedStore ≤ 16 ∧
    [20, 95] = (List.finRange 96).filter (fun n => flaggedStore.slots[n].state.inUse &&
      (flaggedStore.slots[n].retirePending || flaggedStore.slots[n].fault)) ∧
    flaggedStore.slots[(14 : SlotNo)].state = .retired ∧
    (20 : SlotNo) ∈ [(20 : SlotNo), 95].take (16 - retiredCount flaggedStore) ∧
    (95 : SlotNo) ∉ [(20 : SlotNo), 95].take (16 - retiredCount flaggedStore) ∧
    flaggedStore.slots[(95 : SlotNo)].state ≠ .retired := by decide +kernel

/-- A part in a soft reset that port A asked for. -/
def softReset : State :=
  { State.reset with dev := { State.reset.dev with stage := .softReset .a 7#8 true, cause := .request } }
theorem test_hyps_SoftResetEnds :
    (softReset.elapse 27000).dev.stage = .softReset .a 7#8 true ∧ 27000 ≤ (softReset.elapse 27000).dev.clk ∧
    (softReset.elapse 26999).dev.clk < 27000 ∧ ((softReset.elapse 27000).port .b).peers.length < 8 ∧
    ∀ p tag aborted, (ready.elapse 0).dev.stage ≠ .softReset p tag aborted := by
  refine ⟨rfl, by decide, by decide, by decide, ?_⟩
  intro p tag aborted h
  cases h

/-- RESET_N held. -/
def heldInReset : State := { ready with dev := { ready.dev with resetN := true } }
theorem test_hyps_FramesOnTheLink :
    WellFormed (.malformedFrame 0 .a [0x01#8, 0#8] 0) = true ∧ WellFormed (.malformedFrame 0 .a [] 7) = true ∧
    (ready.elapse 0).dev.resetN = false ∧ (heldInReset.elapse 0).dev.resetN = true := by decide

theorem test_hyps_BusyMailboxRefusesEveryRequest :
    (Instr.take 0 .a 1#8 [1#16]).request.isSome = true ∧
    ((ready.modPort .a fun r => { r with mailbox := .busy (.reset 7#8) }).port .a).mailbox = .busy (.reset 7#8) := by
  decide

theorem test_hyps_PortsAnswerWithoutAnOwner :
    State.reset.dev.resetN = false ∧ State.reset.dev.state = .starting ∧ (State.reset.port .a).mailbox = .idle ∧
    (Request.mk 0 .a 1#8 0x34#8 []).decodes = false ∧ (Request.mk 0 .a 1#8 0x99#8 []).decodes = false := by decide

theorem test_hyps_PeerChangeLists :
    ((ready.modPort .a fun r => { r with peers := List.replicate 8 ⟨0x10#8, some 0, none⟩ }).port .a).peers.length = 8 ∧
    (ready.port .a).peers.length ≤ 8 := by decide

/-- Port A's unit with chosen flags of one group, in CLEAR_BY_ACK. -/
def flagged (g : GroupNo) (w : Word) : State :=
  ready.setUnit .a { ready.unit .a with flags := (ready.unit .a).flags.set g w, mode := .byAck }
theorem test_hyps_GetEventsReportsTheFirstGroup :
    (((flagged 18 16#16).unit .a).flags[(18 : GroupNo)] &&& ((flagged 18 16#16).unit .a).enables[(18 : GroupNo)] ≠ 0#16 ∧
      ∀ h : GroupNo, h < 18 →
        ((flagged 18 16#16).unit .a).flags[h] &&& ((flagged 18 16#16).unit .a).enables[h] = 0#16) ∧
    ((flagged 18 16#16).unit .a).mode = .byAck ∧
    (((flagged 0 2#16).unit .a).flags[(0 : GroupNo)] &&& ((flagged 0 2#16).unit .a).enables[(0 : GroupNo)] ≠ 0#16) ∧
    (ready.unit .a).mode = .onRead ∧
    (∀ g : GroupNo, (ready.unit .a).flags[g] &&& (ready.unit .a).enables[g] = 0#16) ∧
    ((2 : GroupNo).val = 1 + (1 : RefNo).val ∧ (3 : GroupNo).val = 3 + (0 : Chan).val ∧
      (10 : GroupNo).val = 3 + (7 : Chan).val ∧ (11 : GroupNo).val = 11 + (0 : Feed).val ∧
      (18 : GroupNo).val = 11 + (7 : Feed).val) := by decide +kernel

theorem test_hyps_AckEventsClearsNamedFlags :
    18#16 = BitVec.ofNat 16 (18 : GroupNo).val ∧ (31#16).toNat < 2 ^ groupSize 18 ∧
    (∀ g : GroupNo, 18#16 = BitVec.ofNat 16 g.val → 2 ^ groupSize g ≤ (32#16).toNat) ∧
    (∀ g : GroupNo, 19#16 ≠ BitVec.ofNat 16 g.val) := by decide +kernel

theorem test_hyps_SetEventModeAndEnables :
    ((1#16).toNat ≤ 1 ∧ (0#16).toNat ≤ 1) ∧ ¬ ((2#16).toNat ≤ 1 ∧ (0#16).toNat ≤ 1) ∧
    ((∀ i : Fin 16, groupSize 3 ≤ i.val → (15#16).getLsbD i.val = false) ∧
      (∀ i : Fin 16, 2 * groupSize 3 ≤ i.val → (128#16).getLsbD i.val = false) ∧
      (∀ i : Fin 8, i.val < groupSize 3 →
        ((128#16).getLsbD (2 * i.val) || (128#16).getLsbD (2 * i.val + 1)) = isCondition 3 i.val)) ∧
    ¬ (∀ i : Fin 16, groupSize 3 ≤ i.val → (16#16).getLsbD i.val = false) := by decide +kernel

theorem test_hyps_EventLineAndConditions : (Source.cadence 7).pos < 5 ∧ (Source.refLock 0).pos < 5 := by decide
theorem test_hyps_SetReferenceChangesTheAlignment :
    (ready.modChan 0 fun ch => { ch with state := .running }).chans[(0 : Chan)].state ≠ .stopped ∧
    (bankOf ready 0).ref = 1 ∧ 1080000 % (bankOf ready 0).pOut ≠ 0 ∧ 16 * 65536 + 31424 = 1080000 ∧
    (∀ c : Chan, ready.chans[c].state ≠ .stopped → (bankOf ready c).ref = 0 → 1080000 % (bankOf ready c).pOut = 0) ∧
    ready.refs[(0 : RefNo)].tAlign = 1080000 ∧ ready.refs[(0 : RefNo)].tAlign ≠ 4500000 ∧
    ¬ (1080001 = 1080000 ∨ 1080001 = 4504500 ∨ 1080001 = 4500000) := by decide +kernel

theorem test_hyps_FirstFrameStartIsLeast :
    RefOk (Reference.reset 1) ∧ (Reference.reset 1).tAlign % (Bank.builtIn 0).pOut = 0 ∧
    450449 < ({ Bank.builtIn 0 with offset := 450449 }).pOut := by unfold RefOk; decide
theorem test_hyps_FirstFrameStartIsLeast_grids :
    (let t := { OutTiming.reset with grid := .at (0 + 1) 9, last := some 5 }
     t.grid = .at (0 + 1) 9 ∧ t.grid ≠ .free ∧ t.last = some 5) ∧
    ({ OutTiming.reset with grid := .past }).grid = .past ∧ ({ OutTiming.reset with grid := .free }).grid = .free ∧
    (OutTiming.reset.grid = .at 0 0 ∧ OutTiming.reset.last = none) ∧ (bankOf ready 0).ref = 1 := by decide +kernel

/-- REF0 with chosen values. -/
def withRef (f : Reference → Reference) : State := (ready.modRef 0 f).elapse 0
/-- REF0 in LOCKING, whose last pulse came an interval before now. -/
def lockingFor (i good epoch : Nat) : Reference :=
  { withRef id |>.refs[(0 : RefNo)] with state := .locking, lastPulse := some (5000000 - i), good := good, epoch := epoch }
/-- REF0 in LOCKED at an epoch of a kind. -/
def lockedAt (kind : EpochKind) (epoch oot : Nat) : Reference :=
  { Reference.reset 0 with state := .locked, kind := kind, epoch := epoch, oot := oot, good := 4 }

theorem test_hyps_PulsesThatAreCounted :
    ((ready.elapse 0).refs[(0 : RefNo)].state = .absent ∧ State.reset.dev.state = .starting) ∧
    (let r := lockingFor 1080270 2 0
     r.state = .locking ∧ r.lastPulse = some 3919730 ∧ absDiff (5000000 - 3919730) r.tAlign ≤ 270 ∧ r.good ≠ 3) ∧
    (let r := lockingFor 1080271 3 0
     r.state = .locking ∧ r.lastPulse = some 3919729 ∧ 270 < absDiff (5000000 - 3919729) r.tAlign) ∧
    (let r := lockedAt .pulse 3919729 0
     r.state = .locked ∧ 270 < absDiff 5000000 (r.epoch + r.interval) ∧ r.oot = 0) ∧
    (let r := lockedAt .provisional 4999729 1
     r.state = .locked ∧ 270 < absDiff 5000000 r.epoch ∧ r.oot = 1) := by decide +kernel

theorem test_hyps_FourthGoodIntervalAdopts :
    (let r := lockingFor 1079730 3 4999730
     r.state = .locking ∧ r.lastPulse = some 3920270 ∧ r.good = 3 ∧ absDiff (5000000 - 3920270) r.tAlign ≤ 270 ∧
     5000000 ≤ r.epoch + 270) ∧
    (let r := lockingFor 1080000 3 3920270
     r.epoch + 270 < 5000000 ∧ r.epoch + r.interval ≤ 5000000 + 270) ∧
    (let r := lockingFor 1080000 3 4999729
     r.epoch + 270 < 5000000 ∧ 5000000 + 270 < r.epoch + r.interval) ∧
    (let r := lockingFor 1080000 3 3920271
     r.epoch + 270 < 5000000 ∧ 5000000 + 270 < r.epoch + r.interval) := by decide +kernel

theorem test_hyps_PulseInWindowSetsTheEpoch :
    (let r := lockedAt .pulse 3920270 0
     r.kind ≠ .provisional ∧ r.epoch + r.interval ≤ 5000000 + 270 ∧ 5000000 ≤ r.epoch + r.interval) ∧
    (let r := lockedAt .provisional 4999730 0
     r.kind = .provisional ∧ r.epoch ≤ 5000000 ∧ 5000000 ≤ r.epoch + 270) := by decide

theorem test_hyps_EpochsWithoutAPulse :
    (Instr.syntheticEpoch 0 0 = .syntheticEpoch 0 0 ∧ (Reference.reset 0).state ≠ .locked ∧
      (withRef fun r => { r with epoch := 3920000 }).refs[(0 : RefNo)].epoch + 1080000 ≤ 5000000) ∧
    (let r := lockedAt .pulse 3920000 0
     r.state = .locked ∧ r.kind ≠ .provisional ∧ r.epoch + r.interval ≤ 5000000) ∧
    ¬ (lockedAt .pulse 3920001 0).epoch + 1080000 ≤ 5000000 := by decide +kernel

theorem test_hyps_WindowExpiryGoesToHoldover :
    (let r := lockedAt .provisional 4999730 0
     r.state = .locked ∧ r.kind = .provisional ∧ r.epoch + 270 ≤ 5000000) ∧
    ¬ (lockedAt .provisional 4999731 0).epoch + 270 ≤ 5000000 := by decide

theorem test_hyps_OutputFrameStartTakesFourSteps :
    (ready.elapse 0).dev.state = .ready ∧
    ((ready.modTiming 0 fun t => { t with next := 5000000 }).elapse 0).timing[(0 : Chan)].next ≤ 5000000 ∧
    ¬ ((ready.modTiming 0 fun t => { t with next := 5000001 }).elapse 0).timing[(0 : Chan)].next ≤ 5000000 := by
  decide +kernel

/-- Channel 0 in a state at output frame 1, with a READY slot, an ON_AIR slot and a hold countdown. -/
def presenting (st : ChanState) (r a : Option Held) (hold : Option Nat) : State :=
  (((ready.modChan 0 fun ch => { ch with state := st, frame := 1 }).modSlot 5 fun x => { x with state := .ready }).modSlot 6
    fun x => { x with state := .onAir }).modOutput 0 fun o => { o with ready := r, onAir := a, hold := hold }

theorem test_hyps_PresentationFollowsTheTable :
    (let s := presenting .running (some ⟨5, 1⟩) (some ⟨6, 0⟩) none
     s.queue = [] ∧ (∀ l : LaneNo, s.lanes[l] = none) ∧ s.chans[(0 : Chan)].state ≠ .holding ∧
     s.chans[(0 : Chan)].frame = 1 ∧ s.slots[(5 : SlotNo)].state = .ready ∧ s.slots[(6 : SlotNo)].state = .onAir) ∧
    (let s := presenting .holding none (some ⟨6, 0⟩) (some 1)
     s.chans[(0 : Chan)].state = .holding ∧ s.outputs[(0 : Chan)].hold = some (0 + 1) ∧
     s.outputs[(0 : Chan)].onAir = some ⟨6, 0⟩) ∧
    (let s := presenting .running none none none
     s.outputs[(0 : Chan)].ready = none ∧ s.outputs[(0 : Chan)].onAir = none) ∧
    (let s := presenting .holding none (some ⟨6, 0⟩) (some 0)
     s.outputs[(0 : Chan)].hold = some 0 ∧ s.outputs[(0 : Chan)].ready = none) := by decide +kernel

theorem test_hyps_PresentationFollowsTheTable_jobs :
    (let s := queued.modOutput 0 fun o => { o with onAir := some ⟨6, 0⟩ }
     s.outputs[(0 : Chan)].ready = none ∧ s.chans[(0 : Chan)].state ≠ .holding ∧ (abandonJob 0 s).1 = true ∧
     (abandonAtDeadline 0 s).outputs[(0 : Chan)].onAir = some ⟨6, 0⟩) ∧
    ((abandonAtDeadline 0 queued).outputs[(0 : Chan)].onAir = none ∧ (abandonJob 0 ready).1 = false) ∧
    (let s := presenting .holding (some ⟨5, 1⟩) (some ⟨6, 0⟩) (some 0)
     let a := abandonAtDeadline 0 (release 5 (s.modOutput 0 fun o => { o with ready := none }))
     s.chans[(0 : Chan)].state = .holding ∧ s.outputs[(0 : Chan)].hold = some 0 ∧
     s.outputs[(0 : Chan)].ready = some ⟨5, 1⟩ ∧ s.slots[(5 : SlotNo)].state = .ready ∧
     a.outputs[(0 : Chan)].onAir = some ⟨6, 0⟩ ∧ a.slots[(6 : SlotNo)].state = .onAir) := by decide +kernel

theorem test_hyps_LateJobIsAbandonedAndReported :
    (abandonJob 0 running).1 = true ∧ (abandonJob 0 queued).1 = true := by decide +kernel

theorem test_hyps_AbandonmentTakesBackTheJob :
    (∃ j : Job, (abandonJob 0 running).1 = true ∧ (∃ l : LaneNo, running.lanes[l] = some j) ∧ j.chan = 0 ∧
      (∀ l : LaneNo, l ≠ 0 → running.lanes[l] = none) ∧ (∀ k ∈ running.queue, k.chan = 0 → k = j) ∧
      running.slots[j.dest].state = .rendering ∧ running.slots[j.dest].fault = false ∧
      running.slots[j.dest].retirePending = false ∧ j.slots.Nodup ∧ ∀ n ∈ j.slots, running.slots[n].state = .complete) ∧
    job 7 [1] ∈ queued.queue ∧ (∀ l : LaneNo, queued.lanes[l] = none) ∧
    ∀ k ∈ queued.queue, k.chan = 0 → k = job 7 [1] := by
  refine ⟨⟨{ job 7 [1] with start := some 4950000, completion := some 5000000 }, ?_⟩, ?_⟩
  · exact ⟨by decide +kernel, ⟨0, by decide +kernel⟩, by decide +kernel⟩
  · decide +kernel

/-- Slot 0 in a state with a pin count. -/
def pinned (st : SlotState) (pins : Nat) : Slot := { Slot.cleared st false with pins := pins }
theorem test_hyps_AbandonmentTakesBackTheJob_each :
    (running.lanes[(0 : LaneNo)].map Job.chan = some 0 ∧ ∀ k : LaneNo, ¬ k < 0) ∧
    (queued.queue = [] ++ job 7 [1] :: [] ∧ (∀ l : LaneNo, queued.lanes[l] = none) ∧ (job 7 [1]).chan = 0) ∧
    ((∀ l : LaneNo, ready.lanes[l] = none) ∧ ready.queue = []) ∧
    ((pinned .complete 1).state = .complete ∧ 1 < (pinned .detached 2).pins ∧ (pinned .detached 1).pins ≤ 1 ∧
      (pinned .ready 0).state ≠ .complete ∧ (pinned .ready 0).state ≠ .detached) := by decide +kernel

/-- Feed 0 holds one COMPLETE frame of 1080p25; the free list is as given. -/
def dispatching (free : List SlotNo) : State :=
  { (((ready.modRx 0 fun r => { r with detected := some 4, state := .locked }).modRing 0 fun r =>
      { r with members := [0] }).modSlot 0 fun x => { x with state := .complete, stamp1 := some 5 }) with free := free }

theorem test_hyps_DispatchHasThreeOutcomes :
    ((dispatching []).rxs[(bankOf (dispatching []) 0).feed].detected = some 4 ∧
      pictureList (dispatching []) 0 .frames ≠ [] ∧ (dispatching []).free = []) ∧
    (dispatching [7, 9]).free = 7 :: [9] ∧
    pictureList (ready.modRx 0 fun r => { r with detected := some 4 }) 0 .frames = [] ∧
    listKindOf (some 4) .blend .video = .frames ∧
    ((job 7 [1]).slots.Nodup ∧ ∀ n ∈ (job 7 [1]).slots, (dispatching []).slots[n].state = .complete) ∧
    [job 7 [1], { job 7 [2] with chan := 1 }].Pairwise (fun x y =>
      ¬ (y.deadline < x.deadline ∨ (x.deadline = y.deadline ∧ y.chan < x.chan))) ∧
    slotSet (job 2 [2, 1]).passes ≠ [] := by decide +kernel

theorem test_hyps_SelectionFollowsTheBracket :
    [pic 5, pic 8].Pairwise (fun x y => x.stamp < y.stamp) ∧ 4 < (pic 5).stamp ∧ (pic 8).stamp ≤ 8 ∧
    [pic 5, pic 8] = [pic 5] ++ [pic 8] ∧ (pic 5).stamp ≤ 5 ∧ 7 < (pic 8).stamp ∧
    [pic 5, pic 8] = [] ++ pic 5 :: pic 8 :: [] := by decide

theorem test_hyps_WeightBlendAndDither :
    ((0 : Int) ≤ 0 ∧ (0 : Int) < 1 ∧ 31 < 32) ∧ (32 ≤ 32 ∧ (4 : Int) ≤ 1019) ∧
    (4294967263#32).toNat + DitherPeriod.d32.n < 2 ^ 32 ∧ 31 < DitherPeriod.d32.n ∧
    ([-18, 53, 226, -5] : List Int).length = ([4, 1019, 4, 1019] : List Int).length ∧ 4 < DitherPeriod.d32.bits := by
  decide
theorem test_hyps_JobStartSetsItsCompletion :
    queued.lanes[(0 : LaneNo)] = none ∧ queued.queue = job 7 [1] :: [] ∧
    running.lanes[(0 : LaneNo)] ≠ none ∧ ready.queue = [] ∧
    (let r := (job 7 [1]).resolved
     holdsResample queued r.v = true ∧ holdsResample queued r.h = true ∧ holdsMatrix queued r.m = true) ∧
    (holdsResample queued 6 = false ∧ holdsMatrix queued 0 = false) ∧
    (∀ e : EntryNo, e.val ≤ 2 → queued.profiles[e].active = builtInContent e) := by decide +kernel

theorem test_hyps_JobCompletionFillsTheReadySlot :
    (∃ j : Job, (running.elapse 0).lanes[(0 : LaneNo)] = some j ∧ j.completion = some 5000000 ∧
      (running.elapse 0).dev.houseTime = 5000000 ∧ (running.elapse 0).slots[j.dest].state = .rendering ∧
      j.dest ∉ j.slots ∧ j.slots.Nodup ∧ ∀ n ∈ j.slots, (running.elapse 0).slots[n].state = .complete) ∧
    ¬ ∃ (j : Job) (at_ : Nat), (ready.elapse 0).dev.state = .ready ∧ (ready.elapse 0).lanes[(0 : LaneNo)] = some j ∧
      j.completion = some at_ ∧ at_ ≤ (ready.elapse 0).dev.houseTime := by
  refine ⟨⟨{ job 7 [1] with start := some 4950000, completion := some 5000000 }, by decide +kernel⟩, ?_⟩
  rintro ⟨j, at_, _, h, _⟩
  cases h

/-- The built-in contents of entries 0, 1 and 2, captured. -/
def captured : Captured := ⟨⟨.resample 4 64, Config.cubic⟩, ⟨.resample 4 64, Config.cubic⟩, ⟨.matrix, Config.identityMatrix⟩⟩
theorem test_hyps_JobCompletionFillsTheReadySlot_picture :
    ({ job 7 [1] with captured := some captured }).captured = some captured ∧
    ((job 7 [1]).passes.map PassRec.pass = [0] ∧ (Config.std 7).interlaced = false ∧ 1079 < (Config.std 7).activeLines) ∧
    ((job 2 [2, 1]).passes.map PassRec.pass = [0, 1] ∧ (Config.std 2).interlaced = true ∧ 1079 % 2 = 1) ∧
    ((Config.std 8).activeLines ≤ 720 ∧ 1280 ≤ 1280 ∧ 1919 < compRoom .y) ∧
    ((job 2 [2, 1]).passes.map fun p => p.pics.length) = [2, 1] ∧
    ((pic 5).kind = .frames ∧ (pic 5).reads = [⟨0, .frame⟩]) := by decide +kernel

/-- An output that emits the picture of its ON_AIR slot. -/
def emitting : State :=
  running.modOutput 0 fun o => { o with emitStd := some 7, display := .live, onAir := some ⟨6, 0⟩ }
theorem test_hyps_ReadErrorsAreRecorded :
    (running.lanes[(0 : LaneNo)]).isSome = true ∧
    ((job 7 [1]).passes.find? (fun x => x.pass = (0 : Fin 2).val)).bind (fun pr => pr.pics[(0 : Fin 2).val]?) =
      some (pic 5) ∧
    1079 < (pic 5).lineCount (Config.std 4).activeLines ∧ 239 * 8 < componentWidth (Config.std 4).width .y ∧
    119 * 8 < componentWidth (Config.std 7).width .cb ∧
    emitting.outputs[(0 : Chan)].emitStd = some 7 ∧ emitting.outputs[(0 : Chan)].display ≠ .black ∧
    emitting.outputs[(0 : Chan)].onAir = some ⟨6, 0⟩ ∧
    ({ job 7 [1] with failed := [⟨0, 0, ⟨1079, .y, 239⟩⟩] }).failed ≠ [] ∧
    ready.lanes[(0 : LaneNo)] = none ∧ ready.outputs[(0 : Chan)].emitStd = none ∧
    ((Config.std 2).interlaced = true ∧ 2 * 539 + 1 < (Config.std 2).activeLines ∧
      (Config.std 2).activeLines ≤ 2 * 540 ∧ (Config.std 7).interlaced = false ∧
      1919 < componentWidth (Config.std 7).width .y ∧ componentWidth (Config.std 7).width .y ≤ 1920) := by decide +kernel

/-- What is emitted: the even lines in field 1 and the odd ones in field 2 of an interlaced standard, within its
lines and its width (R163). -/
theorem test_emittedSample_stays_inside :
    [emittedLine 2 false 539, emittedLine 2 true 539, emittedLine 2 true 540, emittedLine 7 false 1079,
      emittedLine 7 false 1080, emittedLine 7 true 0] = [some 1078, some 1079, none, some 1079, none, none] ∧
    emittedSample emitting 0 false 0 .y 1920 = none ∧ emittedSample ready 0 false 0 .y 0 = none ∧
    emittedSample (emitting.modOutput 0 fun o => { o with display := .black }) 0 false 1079 .cr 959 = some 512#10 := by
  decide +kernel

/-- `k` retired slots, and slot 90 in use with its flags as given. -/
def retiredAnd (k : Nat) (retirePending fault : Bool) : State :=
  { ready with
    slots := Vector.ofFn fun n =>
      if n.val < k then Slot.cleared .retired false
      else if n = 90 then { Slot.cleared .complete fault with retirePending := retirePending }
      else Slot.cleared .free false }
theorem test_hyps_ReleaseGoesByTheFlags :
    (retiredAnd 16 false false).slots[(90 : SlotNo)].state.inUse = true ∧
    ((retiredAnd 15 true false).slots[(90 : SlotNo)].retirePending = true ∧ retiredCount (retiredAnd 15 true false) < 16) ∧
    ((retiredAnd 16 false true).slots[(90 : SlotNo)].fault = true ∧ retiredCount (retiredAnd 16 false true) = 16) := by
  decide +kernel

theorem test_hyps_RetireAndRestoreSlots :
    (95 < (96#16).toNat) ∧ (165#16).toNat = 255 - (90#16).toNat ∧ (90 : SlotNo).val = (90#16).toNat ∧
    ((retiredAnd 16 false false).slots[(0 : SlotNo)].state = .retired) ∧
    (let x := (retiredAnd 16 true false).slots[(90 : SlotNo)]
     x.state ≠ .free ∧ x.state ≠ .retired ∧ x.retirePending = true) ∧
    ((retiredAnd 16 false false).slots[(91 : SlotNo)].state = .free ∧ 16 ≤ retiredCount (retiredAnd 16 false false)) ∧
    ((retiredAnd 15 false false).slots[(91 : SlotNo)].state = .free ∧ retiredCount (retiredAnd 15 false false) < 16) ∧
    (let x := (retiredAnd 15 false false).slots[(90 : SlotNo)]
     x.state ≠ .free ∧ x.state ≠ .retired ∧ x.retirePending = false ∧ x.fault = false) := by decide +kernel

/-- A line of two luma samples with one code at both ends. -/
def line (c : LineCode) : FeedLineData := ⟨some c, some c, [3#10, 1023#10], [512#10], [512#10], false, 63, 1700⟩
/-- A blank line and an active line of field 1. -/
def blankLine : LineCode := ⟨false, true⟩
def activeCode : LineCode := ⟨false, false⟩
/-- Feed 0's receiver with chosen values. -/
def withRx (f : Receiver → Receiver) : State := (ready.modRx 0 f).elapse 0

theorem test_hyps_LinesOutOfLock :
    (∀ c, ¬ ((⟨some blankLine, none, [], [], [], false, 0, 0⟩ : FeedLineData).startCode = some c ∧
      (⟨some blankLine, none, [], [], [], false, 0, 0⟩ : FeedLineData).endCode = some c)) ∧
    ((line blankLine).startCode = some blankLine ∧ (line blankLine).endCode = some blankLine) ∧
    (withRx id).rxs[(0 : Feed)].state = .noSignal ∧
    (let r := (withRx fun r => { r with state := .acquiring }).rxs[(0 : Feed)]
     r.state = .acquiring ∧ ¬ (blankLine.blank = true ∧ blankLine.field2 = false ∧ r.prevActive = true)) ∧
    (let r := (withRx fun r => { r with state := .acquiring, prevActive := true }).rxs[(0 : Feed)]
     r.state = .acquiring ∧ blankLine.blank = true ∧ blankLine.field2 = false ∧ r.prevActive = true) := by
  refine ⟨?_, by decide, by decide +kernel, by decide +kernel, by decide +kernel⟩
  intro c h
  cases h.2

/-- The layout of 1280 by 720 lines, progressive: 30 blank and 720 active lines. -/
def layout720 : Layout := ⟨List.replicate 30 blankLine ++ List.replicate 720 activeCode, 1280⟩
/-- Feed 0 with a run of three frames of `layout720`. -/
def runOfThree (periods : List Nat) : State :=
  withRx fun r => { r with state := .acquiring, run := ⟨some layout720, 540000, 3, periods⟩ }

theorem test_hyps_RunOfThreeIsIdentified :
    (runOfThree []).rxs[(0 : Feed)].run.layout = some layout720 ∧ (runOfThree []).rxs[(0 : Feed)].state = .acquiring ∧
    layout720.lines.length = (Config.std 8).totalLines ∧
    layout720.lines.countP (fun c => !c.blank) = (Config.std 8).activeLines ∧ layout720.width = (Config.std 8).width ∧
    layout720.lines.any LineCode.field2 = (Config.std 8).interlaced ∧
    (∀ p ∈ [540000, 540108, 539892], absDiff p (Config.pNom 8) * 1000000 ≤ 200 * Config.pNom 8) ∧
    (∀ i : StdId, ¬ ∀ p ∈ [540109, 539892, 540000], absDiff p (Config.pNom i) * 1000000 ≤ 200 * Config.pNom i) ∧
    (withRx fun r => { r with detected := some 8 }).rxs[(0 : Feed)].detected = some 8 := by decide +kernel

/-- A locked receiver whose flywheel stands at a position of `layout720`. -/
def onFlywheel (k lastRaw : Nat) : State :=
  withRx fun r => { r with
    state := .locked, detected := some 8, layout := some layout720, lastRaw := some lastRaw, pRef := some 540000
    nextPos := k, posReceived := true, capture := .slot 3 }
theorem test_hyps_LinesOnTheFlywheel :
    (let r := (onFlywheel 1 4999334).rxs[(0 : Feed)]
     r.state = .locked ∧ r.lastRaw = some 4999334 ∧ r.pRef = some 540000 ∧ r.layout = some layout720 ∧
     r.nextPos < layout720.lines.length) ∧
    absDiff 5000000 (4999334 + 1 * 540000 / 750) = 54 ∧ layout720.lines[1]? = some blankLine ∧
    (line activeCode).luma.length ≠ layout720.width ∧ layout720.lines[1 % 750]? ≠ some activeCode ∧
    (∀ k : Nat, k ≤ 1 → 54 < absDiff 5000000 (4999335 + k * 540000 / 750)) := by
  refine ⟨by decide +kernel, by decide, by decide, by decide, by decide +kernel, ?_⟩
  intro k hk
  interval_cases k <;> decide

theorem test_hyps_LinesOnTheFlywheel_change :
    (let r := (withRx fun r => { r with
        state := .locked, layout := some layout720, lastRaw := some 4999334, prevActive := true }).rxs[(0 : Feed)]
     r.lastRaw = some 4999334 ∧ r.layout = some layout720 ∧
     blankLine.blank = true ∧ blankLine.field2 = false ∧ r.prevActive = true) ∧
    (let r := (onFlywheel 1 4999334).rxs[(0 : Feed)]
     r.lastRaw = some 4999334 ∧ r.layout = some layout720 ∧
     ¬ (blankLine.blank = true ∧ blankLine.field2 = false ∧ r.prevActive = true)) := by decide +kernel

/-- An active line of field 2. -/
def activeCode2 : LineCode := ⟨true, false⟩
theorem test_hyps_ActiveLinesAreWritten_ends :
    ((withRx fun r => { r with capture := .skipped }).rxs[(0 : Feed)].capture = .skipped) ∧
    (let s := (onFlywheel 750 4999334).modSlot 3 fun x => { x with
        state := .filling, seq := some 7#32, stamp1 := some 5, stamp2 := some 9 }
     s.slots[(3 : SlotNo)].state = .filling ∧ s.slots[(3 : SlotNo)].seq = some 7#32 ∧
     s.slots[(3 : SlotNo)].stamp1 = some 5 ∧ s.slots[(3 : SlotNo)].stamp2 = some 9) ∧
    ((withRx fun r => { r with sig1 := some [], sig2 := some [] }).rxs[(0 : Feed)].sig2 = some [] ∧
      (withRx id).rxs[(0 : Feed)].sig1 = none) ∧
    ((Config.std 0).interlaced = true ∧ (Config.std 4).interlaced = false) ∧
    (let lines := [activeCode, activeCode, activeCode2]
     (∀ c ∈ lines.drop (2 + 1), c.blank = true) ∧
     ((∃ c ∈ lines.drop (1 + 1), c.blank = false) ∧ ∀ c ∈ lines.drop (1 + 1), c.blank = true ∨ c.field2 = true) ∧
     ∃ c ∈ lines.drop (0 + 1), c.blank = false ∧ c.field2 = false) ∧
    (35 < 36 ∧ 63 < 64) := by decide +kernel

theorem test_hyps_ActiveLinesAreWritten :
    (onFlywheel 1 4999334).rxs[(0 : Feed)].layout = some layout720 ∧
    (onFlywheel 1 4999334).rxs[(0 : Feed)].capture = .slot 3 ∧ (withRx id).rxs[(0 : Feed)].capture = .none ∧
    (1079 < 1080 ∧ 1919 < compRoom .y ∧ (3 : SlotNo) ≠ 4) ∧ [3#10, 1023#10][1]? = some 1023#10 ∧
    layout720.lines[749]? = some activeCode := by decide +kernel

theorem test_hyps_FlywheelFrameStartsWindowsAndLoss_start :
    (let r := (onFlywheel 750 4459946).rxs[(0 : Feed)]
     r.state = .locked ∧ r.lastRaw = some 4459946 ∧ r.pRef = some 540000 ∧ r.layout = some layout720 ∧
     r.nextPos = layout720.lines.length) ∧
    ((line blankLine).startCode = some blankLine ∧ (line blankLine).endCode = some blankLine) ∧
    layout720.lines ≠ [] ∧ absDiff 5000000 (4459946 + 540000) = 54 ∧ layout720.lines.head? = some blankLine ∧
    blankLine.blank = true := by decide +kernel

theorem test_hyps_FlywheelFrameStartsWindowsAndLoss :
    (absDiff (5000000 - 4459892) (Config.pNom 8) * 1000000 ≤ 200 * Config.pNom 8) ∧
    (let r := (withRx fun r => { r with
        state := .unknown, layout := some ⟨layout720.lines, 1000⟩
        run := ⟨some ⟨layout720.lines, 1000⟩, 540000, 3, []⟩, lastRaw := some 4460000 }).rxs[(0 : Feed)]
     r.state = .unknown ∧ absDiff (5000000 - 4460000) r.run.pRun * 1000000 ≤ 200 * r.run.pRun ∧
     identify ((⟨layout720.lines, 1000⟩ : Layout).structure_ !r.missed) [5000000 - 4460000] = none) ∧
    ¬ absDiff (5000000 - 4459891) (Config.pNom 8) * 1000000 ≤ 200 * Config.pNom 8 ∧
    (onFlywheel 1 4999334).slots[(3 : SlotNo)].state ≠ .filling ∧
    (let r := (withRx fun r => { r with state := .acquiring, lossFrom := some 4973000 }).rxs[(0 : Feed)]
     r.state ≠ .noSignal ∧ r.lossFrom = some 4973000 ∧ 4973000 + 27000 ≤ 5000000) ∧
    5000000 < 4973001 + 27000 ∧ (withRx id).rxs[(0 : Feed)].state = .noSignal ∧
    (4999226 + 1 * 540000 / 750 + 54 ≤ 5000000 ∧ 5000000 < 4999227 + 1 * 540000 / 750 + 54) ∧
    (layout720.lines.length ≤ 750 ∧ layout720.lines[749]? = some activeCode) := by decide +kernel
/-- A ring whose last raw and smoothed stamps are 5,000,000. -/
def ringAt (window : List Int) : Ring :=
  { Ring.reset with window := window, prevRaw := some 5000000, prevSmooth := some 5000000 }
theorem test_hyps_StampsAreSmoothed :
    Ring.reset.prevSmooth = none ∧ (ringAt (List.replicate 16 540000)).window.length ≤ 16 ∧
    ((5607500 : Int) - (5000000 + 540000)).natAbs ≤ 540000 / 8 ∧
    540000 / 8 < ((5607501 : Int) - (5000000 + 540000)).natAbs ∧
    (ringAt []).prevSmooth = some 5000000 ∧ (4999999 : Int) < 5000000 ∧ (5000000 : Int) ≤ 5000000 ∧
    (withRx fun r => { r with detected := some 8 }).rxs[(0 : Feed)].detected = some 8 ∧
    (ringAt [1, 2, 3]).window.length < 4 ∧ 4 ≤ (ringAt [1, 2, 3, 4]).window.length := by decide +kernel

/-- Feed 0's ring is full and its oldest member is COMPLETE; `free` is the free list. -/
def fullRing (free : List SlotNo) : State :=
  { ((ready.modRing 0 fun _ => { ringAt [] with members := [0, 1, 2], depth := 3 }).modSlot 0
      fun x => { x with state := .complete, pins := 1 }) with free := free }
/-- The state that FrameStartAdmitsOrSkips calls `u`, from a full ring. -/
def afterOverrun (free : List SlotNo) : State :=
  let t := (fullRing free).modRing 0 fun _ => guardRing none (smoothRing 540000 5540000 (fullRing free).rings[(0 : Feed)]).1
  raise (.ringOverrun 0) (((t.rings[(0 : Feed)].members.take 1).foldl (fun s n => removeMember 0 n s) t).modRing 0
    fun r => { r with overruns := satAdd (2 ^ 32 - 1) r.overruns 1 })
theorem test_hyps_FrameStartAdmitsOrSkips :
    ¬ ((fullRing []).rings[(0 : Feed)].members.length < (fullRing []).rings[(0 : Feed)].depth) ∧
    (afterOverrun []).free = [] ∧ (afterOverrun [7, 9]).free = 7 :: [9] ∧
    (afterOverrun [7, 9]).rings[(0 : Feed)].prevSmooth = some 5540000 := by decide +kernel

/-- Channel 0 in a state, drawing on feed 0. -/
def drawing (st : ChanState) : State := (fullRing []).modChan 0 fun ch => { ch with state := st }
theorem test_hyps_RemovalAndPruning :
    (fullRing []).slots[(0 : SlotNo)].state = .complete ∧
    ((bankOf (drawing .running) 0).feed = 0 ∧ (drawing .running).chans[(0 : Chan)].state = .running ∧
      ∀ c : Chan, c ≠ 0 → (bankOf (drawing .running) c).feed ≠ 0) ∧
    (∀ c : Chan, (drawing .holding).chans[c].state ≠ .priming ∧ (drawing .holding).chans[c].state ≠ .running) := by
  decide +kernel

theorem test_hyps_SetFeedChangesTheRing :
    (8 ≤ (8#16).toNat ∧ (2#16).toNat < 3 ∧ 8 < (9#16).toNat ∧ 2 ≤ (2#16).toNat ∧ 255 < (256#16).toNat) ∧
    ((3#16).toNat = 3 ∧ (8#16).toNat ≤ 8 ∧ (1#16).toNat ≤ 1 ∧ (255#16).toNat ≤ 255) ∧
    ((bankOf (drawing .priming) 0).feed = 0 ∧ (drawing .priming).chans[(0 : Chan)].state = .priming) ∧
    (∀ c : Chan, ready.chans[c].state ≠ .priming ∧ ready.chans[c].state ≠ .running) ∧
    (let r := ready.rings[(0 : Feed)]
     r.depth = (7#16).toNat ∧ r.cadenceEnable = decide (1#16 = 1#16) ∧ r.threshold = (4#16).toNat ∧
     r.depth ≠ (3#16).toNat) := by decide +kernel

/-- A field with the signature `sig`. -/
def field (sig : Signature) (damaged : Bool) : FieldIn := ⟨sig, damaged, ⟨3, false⟩, 5000000⟩
theorem test_hyps_RepeatFlagsAreFormed :
    (List.replicate 10 RepeatFlag.clear).length ≤ 10 ∧ (field [1] true).damaged = true ∧ (field [1] false).damaged = false ∧
    ((⟨[5], true⟩ : RefBuffer).damaged = true ∧ (⟨[5], false⟩ : RefBuffer).damaged = false) := by decide

/-- Feed 0's detector with chosen values. -/
def withDet (f : Detector → Detector) : State := ready.modDet 0 f
theorem test_hyps_ThreeTwoPattern :
    (let h := (List.range 10).map fun k => if k = 4 ∨ k = 4 + 5 then RepeatFlag.set else .clear
     h.getLast? = some .set ∧ candidatePhase h = some ((6 - 4) % 5) ∧ candidatePhase [] = none) ∧
    (let d := (withDet fun d => { d with
        state := .candidate32, phase := some 1, candidates := 4, history := [.set] }).dets[(0 : Feed)]
     d.state = .candidate32 ∧ d.phase = some 1 ∧ d.candidates = 4 ∧ d.history.getLast? = some .set ∧ (1 + 1) % 5 = 2) ∧
    (let d := (withDet fun d => { d with state := .locked32, phase := some 4, history := [.clear] }).dets[(0 : Feed)]
     d.state = .locked32 ∧ ¬ ((4 + 1) % 5 = 2 ∧ RepeatFlag.clear = .clear)) ∧
    (withDet id).dets[(0 : Feed)].state = .video := by decide +kernel

theorem test_hyps_TwoTwoPatternAndLocks :
    ((⟨[5], false⟩ : RefBuffer).damaged = false ∧ (field [9] false).damaged = false) ∧
    (withDet fun d => { d with state := .candidate22, passCount := 7 }).dets[(0 : Feed)].passCount = 7 ∧
    (withDet fun d => { d with state := .locked22, failCount := 2 }).dets[(0 : Feed)].failCount = 2 ∧
    (∀ i ∈ [(0 : StdId), 2], (withRx fun r => { r with detected := some i }).rxs[(0 : Feed)].detected = some i) ∧
    ((withDet id).dets[(0 : Feed)].history = [] ∧
      (withDet fun d => { d with history := [.unknown] }).dets[(0 : Feed)].history ≠ []) := by decide +kernel
/-- The verdict on a frame that follows a skip is UNKNOWN, though its fields are present (R82). -/
theorem test_verdict_after_a_skip :
    let d := { Detector.reset with buf1 := some ⟨[5], false⟩, buf2 := some ⟨[50000], false⟩, mIntra := some 0 }
    d.verdictOn 4 (some (field [90000] false)) = .pass ∧
    { d with followsSkip := true }.verdictOn 4 (some (field [90000] false)) = .unknown := by decide +kernel

theorem test_hyps_FilmFramesAreFormed :
    ({ Detector.reset with anchor := some 5 }).anchor = some 5 ∧
    ({ Detector.reset with openFilm := some ⟨0, 5, ⟨3, false⟩⟩ }).openFilm = some ⟨0, 5, ⟨3, false⟩⟩ ∧
    ([⟨0, 5, ⟨3, false⟩, ⟨3, true⟩, false⟩] : List FilmEntry).length ≤ 8 ∧
    (withDet fun d => { d with cycleBegun := true }).dets[(0 : Feed)].cycleBegun = true ∧
    (withDet fun d => { d with state := .locked22 }).dets[(0 : Feed)].state = .locked22 ∧
    (fullRing []).slots[(0 : SlotNo)].state.inUse = true := by decide +kernel

theorem test_hyps_SetChannelWritesTheNextBank :
    (paramsChannel [0x0701#16, 0x0000#16, 0x09FA#16] = some ⟨7, some 0#16, [(9, 250)]⟩ ∧
      paramsChannel [0x0800#16, 0x09FA#16] = some ⟨8, none, [(9, 250)]⟩ ∧
      paramsChannel [0x0000#16, 0x09FA#16, 0x0900#16] = some ⟨0, none, [(9, 250), (9, 0)]⟩ ∧
      paramsChannel [0x0000#16, 0x0400#16, 0x0006#16, 0xDF91#16] = some ⟨0, none, [(4, 450449)]⟩) ∧
    (∀ x ∈ [(4#8, 450449#32), (13#8, 255#32)], x.1.toNat ≤ 13 ∧ (x.1 ≠ 4#8 → x.1 ≠ 5#8 → x.2.toNat < 256)) ∧
    13 < (14#8).toNat ∧ ([0#16] : List Word).length < 2 ∧ 7 < (List.replicate 8 0#16).length ∧
    (Bank.builtIn 7).setFields [(9, 251)] = none ∧
    ((Bank.builtIn 0).setFields [(4, 450450)]).any (fun b => b.pOut ≤ b.offset) = true ∧
    ((Bank.builtIn 0).setFields [(4, 450449)]).any (fun b => b.offset < b.pOut) = true ∧
    ready.chans[(7 : Chan)].revision = 0#16 ∧ imageBank.lossHold ≤ 250 ∧ (∀ d, imageBank.delay = some d → d ≤ 6000000) := by
  refine ⟨by decide, by simp, by decide, by decide, by decide, by decide, by decide, by decide, by decide +kernel,
    by decide, ?_⟩
  intro d h
  cases h
  decide

/-- REF1 aligned to 1,080,000 ticks, with which the built-in banks are not compatible. -/
def incompatible : State := ready.modRef 1 fun r => { r with tAlign := 1080000 }
/-- Channel 0 with another feed in bank B. -/
def otherFeed (st : ChanState) : State :=
  ready.modChan 0 fun ch => { ch with state := st, bankB := { ch.bankB with feed := 7 } }
theorem test_hyps_TakeSwapsTheBanks :
    (255 < (256#16).toNat ∧ (255#16).toNat ≤ 255 ∧ 255#16 ≠ 0#16) ∧
    ready.refs[(1 : RefNo)].tAlign % (Bank.builtIn 0).pOut = 0 ∧
    incompatible.refs[(1 : RefNo)].tAlign % (Bank.builtIn 0).pOut ≠ 0 ∧
    ready.chans[(0 : Chan)].state = .stopped ∧ ready.chans[(0 : Chan)].takePending = false ∧
    (otherFeed .running).chans[(0 : Chan)].state ≠ .stopped ∧
    (otherFeed .running).chans[(0 : Chan)].bankB.feed ≠ (bankOf (otherFeed .running) 0).feed ∧
    (dispatching []).rxs[(0 : Feed)].state = .locked ∧ ready.rxs[(0 : Feed)].state ≠ .locked := by decide +kernel

theorem test_hyps_StartAndStopChannel :
    (8 ≤ (8#16).toNat ∧ (7 : Chan).val = (7#16).toNat) ∧ (otherFeed .running).chans[(0 : Chan)].state ≠ .stopped ∧
    (incompatible.chans[(0 : Chan)].state = .stopped ∧
      incompatible.refs[(bankOf incompatible 0).ref].tAlign % (bankOf incompatible 0).pOut ≠ 0) ∧
    (ready.chans[(0 : Chan)].state = .stopped ∧ ready.refs[(bankOf ready 0).ref].tAlign % (bankOf ready 0).pOut = 0) ∧
    ((dispatching []).rxs[(0 : Feed)].state = .locked ∧ (dispatching []).rxs[(0 : Feed)].detected = some 4 ∧
      (bankOf (dispatching []) 0).expected = none) ∧
    ((abandonJob 0 queued).1 = true ∧ (abandonJob 0 ready).1 = false) ∧
    (ready.outputs[(0 : Chan)].onAir = none ∧ ready.outputs[(0 : Chan)].ready = none) ∧
    (let s := presenting .running (some ⟨5, 1⟩) (some ⟨6, 0⟩) none
     s.outputs[(0 : Chan)].onAir = some ⟨6, 0⟩ ∧ s.slots[(6 : SlotNo)].state = .onAir ∧
     s.outputs[(0 : Chan)].ready = some ⟨5, 1⟩ ∧ s.slots[(5 : SlotNo)].state = .ready) := by decide +kernel

theorem test_hyps_ChannelsFollowTheirFeeds :
    (∀ st ∈ [ChanState.stopped, .waitFeed, .priming, .running, .holding], (otherFeed st).chans[(0 : Chan)].state = st) ∧
    (Bank.builtIn 0).lossHold ≠ 0 ∧ (Bank.builtIn 0).delay = none ∧
    imageBank.delay = some 6000000 ∧
    ((3 - 1) * 450450 < 450450 + 1080000 ∧ 450450 + 1080000 ≤ (5 - 1) * 450450) ∧
    (let s := (presenting .running none (some ⟨6, 0⟩) none).modChan 0 fun ch =>
        { ch with bankA := { ch.bankA with lossHold := 0 } }
     s.chans[(0 : Chan)].state ≠ .holding ∧ (bankOf s 0).lossHold = 0 ∧
     s.outputs[(0 : Chan)].onAir = some ⟨6, 0⟩ ∧ s.slots[(6 : SlotNo)].state = .onAir) := by decide +kernel

/-- Port A with an open staging buffer of two words for entry 15. -/
def staging (words : List (Option Word)) : State :=
  (ready.modPort .a fun r => { r with staging := some ⟨15, .matrix, words⟩ }).elapse 0
theorem test_hyps_ProfileStaging :
    Taken (staging []) .a ∧ 15 < (16#16).toNat ∧ (5#16).toNat ≤ 5 ∧ (6 : EntryNo).val = (6#16).toNat ∧
    ((ready.elapse 0).port .a).staging = none ∧
    ((staging (List.replicate 9 none)).port .a).staging = some ⟨15, .matrix, List.replicate 9 none⟩ ∧
    Shape.matrix.size ≤ (6#16).toNat + 3 ∧ (5#16).toNat + 3 < Shape.matrix.size ∧
    (List.replicate 9 (none : Option Word)).length = Shape.matrix.size :=
  ⟨⟨rfl, rfl, Or.inl rfl⟩, by decide, by decide, by decide, rfl, rfl, by decide, by decide, by decide⟩

/-- A validation of port A that ends at 5,002,943 at house time `now`. -/
def validating (now : Nat) : State :=
  ((staging ([0#16, 8191#16].map some)).modPort .a fun r =>
    { r with mailbox := .busy (.commit 7#8 (0xE001#16) 5002943) }).elapse (now - 5000000)
theorem test_hyps_CommitValidatesAndInstalls :
    (validating 5002943).dev.state = .ready ∧
    ((validating 5002943).port .a).mailbox = .busy (.commit 7#8 0xE001#16 5002943) ∧
    ((validating 5002943).port .a).staging = some ⟨15, .matrix, [some 0#16, some 8191#16]⟩ ∧
    5002943 ≤ (validating 5002943).dev.houseTime ∧ (validating 5002942).dev.houseTime < 5002943 ∧
    ([] : List (Option Word)).filterMap id = [] ∧
    [0#16, 8191#16].foldl (· + ·) 0xE001#16 = 0#16 ∧ [0#16, 8191#16].length ≠ Shape.matrix.size ∧
    [0#16, 8191#16].foldl (· + ·) 0#16 ≠ 0#16 ∧
    (List.replicate 8 0#16 ++ [8192#16]).foldl (· + ·) 0xE000#16 = 0#16 ∧
    ¬ (-8192 ≤ (8192#16).toInt ∧ (8192#16).toInt ≤ 8191) ∧
    (-8192 ≤ (8191#16).toInt ∧ (8191#16).toInt ≤ 8191) ∧
    (ready.profiles[(15 : EntryNo)].active = none ∧ ready.profiles[(15 : EntryNo)].users = 0) ∧
    ((ready.modProfile 15 fun _ => ⟨some ⟨.matrix, Config.identityMatrix⟩, none, 1⟩).profiles[(15 : EntryNo)].active ≠ none) := by
  decide +kernel

/-- AUX3 with chosen values. -/
def withAux (f : AuxLine → AuxLine) : State := ready.modAux 3 f
theorem test_hyps_AuxiliaryLines :
    (3 < (4#16).toNat ∧ 2 < (3#16).toNat ∧ 255 < (256#16).toNat) ∧
    ((3 : AuxNo).val = (3#16).toNat ∧ 1#16 = BitVec.ofNat 16 AuxMode.takeInput.code ∧
      2#16 = BitVec.ofNat 16 AuxEdge.both.code ∧ (255#16).toNat ≤ 255) ∧
    (let a := ready.aux[(3 : AuxNo)]
     (a.mode = .disabled ∧ a.edge = .falling ∧ a.mask = (0#16).setWidth 8) ∧ a.mode ≠ .takeInput) ∧
    (let a := (withAux fun a => { a with mode := .takeInput, timer := some 4973000 }).aux[(3 : AuxNo)]
     a.mode = .takeInput ∧ a.timer = some 4973000 ∧ 4973000 + 27000 ≤ 5000000 ∧ 5000000 < 4973001 + 27000) ∧
    (let a := (withAux fun a => { a with mode := .alertOutput, expiry := some 5000000 }).aux[(3 : AuxNo)]
     a.expiry = some 5000000 ∧ 5000000 < 5000001) := by decide +kernel

theorem test_hyps_ReadRequests :
    (511#16).toNat ≤ 511 ∧ 511 < (512#16).toNat ∧ 2 ≤ (2#16).toNat ∧ 8 ≤ (8#16).toNat ∧ 96 ≤ (96#16).toNat ∧
    16 ≤ (16#16).toNat ∧ ([1#16, 2#16] : List Word).length = 2 := by decide

end Sys2Proof.Machine.Tests
end

section
/-! The frame store: release (R25), RETIRE_SLOT (R31) and RESTORE_SLOT (R32). First the rules that serve every
request with an announcement, then what each operation does by its slot's state, then the two statements. -/

namespace Sys2Proof.Machine

/-! ## A taken request that changes the state -/

/-- An announcement goes to the other port, so it commutes with a change of this port's record. -/
theorem announce_modPort (p : Port) (e : PeerEntry) (f : PortRec → PortRec) (s : State) :
    announce p e (s.modPort p f) = (announce p e s).modPort p f := by
  cases p <;> rfl

/-- An owner that answers with a change `u` of the state, `u` leaving the port's own record alone: the outcome is
`u` on the state before the frame, with the port's record answered on top (R178). -/
theorem submit_changes {α : Type} (p : Port) (tag : Byte) (params : List Word) (d : List Word → Option α)
    (o : α → State → Answer) (s : State) (h : Taken s p) (a : α) (hd : d params = some a) (st : Status)
    (words : List Word) (u : State → State) (hu : ∀ f, u (s.modPort p f) = (u s).modPort p f)
    (ho : o a (s.taking p params.length) = .complete st words (u (s.taking p params.length))) :
    submit p tag params d o s = (u s).replied s p st tag words params.length := by
  rw [submit_owner p tag params d o s h a hd, ho]
  show post p st tag words (u (s.taking p params.length)) = _
  rw [State.taking, hu, post, State.modPort_modPort]
  rfl

/-- The same for an owner that makes a change `v` and announces it to the other port (R179, R182). -/
theorem submit_announces {α : Type} (p : Port) (tag : Byte) (params : List Word) (d : List Word → Option α)
    (o : α → State → Answer) (s : State) (h : Taken s p) (a : α) (hd : d params = some a)
    (words : List Word) (e : PeerEntry) (v : State → State) (hv : ∀ f, v (s.modPort p f) = (v s).modPort p f)
    (ho : o a (s.taking p params.length) = .ok words (announce p e (v (s.taking p params.length)))) :
    submit p tag params d o s = (announce p e (v s)).replied s p .ok tag words params.length :=
  submit_changes p tag params d o s h a hd .ok words (fun s => announce p e (v s))
    (fun f => by rw [hv, announce_modPort]) ho

/-! ## Slot states and slot numbers -/

theorem SlotState.inUse_iff (st : SlotState) : st.inUse = true ↔ st ≠ .free ∧ st ≠ .retired := by
  cases st <;> simp [SlotState.inUse]

/-- No slot is named by a number above 95 or by a wrong complement. -/
theorem guardedSlot_none {slot complement : Nat} (h : 95 < slot ∨ complement ≠ 255 - slot) :
    guardedSlot slot complement = none := by
  unfold guardedSlot idx
  rcases h with h | h
  · rw [dif_neg (by omega), ite_self]
  · rw [if_neg h]

theorem guardedSlot_some {slot complement : Nat} (n : SlotNo) (hn : n.val = slot)
    (hc : complement = 255 - slot) : guardedSlot slot complement = some n := by
  subst hn
  rw [guardedSlot, if_pos hc, idx, dif_pos n.isLt]

/-! ## Release (R25) -/

/-- A slot in use with neither flag set goes to the free list. -/
theorem release_unflagged {s : State} {n : SlotNo} (hu : s.slots[n].state.inUse = true)
    (hp : s.slots[n].retirePending = false) (hf : s.slots[n].fault = false) : release n s = enterFree n s := by
  rw [release, if_pos hu, if_neg (by rw [hp, hf]; decide)]

/-- A slot in use with a flag set goes to RETIRED while the retired set has room. -/
theorem release_flagged_room {s : State} {n : SlotNo} (hu : s.slots[n].state.inUse = true)
    (hf : s.slots[n].retirePending = true ∨ s.slots[n].fault = true)
    (hr : retiredCount s < Config.retiredMax) : release n s = enterRetired n s := by
  rw [release, if_pos hu, if_pos (by simpa using hf), if_pos hr]

/-- With the retired set full it goes to the free list, and RETIRE_LIMIT is recorded and raised. -/
theorem release_flagged_full {s : State} {n : SlotNo} (hu : s.slots[n].state.inUse = true)
    (hf : s.slots[n].retirePending = true ∨ s.slots[n].fault = true)
    (hr : Config.retiredMax ≤ retiredCount s) :
    release n s = slotFault .retireLimit n none (enterFree n s) := by
  rw [release, if_pos hu, if_pos (by simpa using hf), if_neg (by omega)]

/-! ## RETIRE_SLOT at its owner (R31), one row of its table each -/

section
variable {p : Port} {a : Nat × Nat} {s : State} {n : SlotNo}

theorem ownRetireSlot_invalid (hg : guardedSlot a.1 a.2 = none) : ownRetireSlot p a s = .invalid s := by
  rw [ownRetireSlot, hg]

/-- The slot is RETIRED, or in use with retire pending set. -/
theorem ownRetireSlot_already (hg : guardedSlot a.1 a.2 = some n)
    (h : s.slots[n].state = .retired ∨ (s.slots[n].state ≠ .free ∧ s.slots[n].retirePending = true)) :
    ownRetireSlot p a s = .complete .already [] s := by
  have hrow : s.slots[n].state = .retired ∨ (s.slots[n].state.inUse = true ∧ s.slots[n].retirePending = true) := by
    rw [SlotState.inUse_iff]; tauto
  simp only [ownRetireSlot, hg, if_pos hrow]

/-- The row of ALREADY is left behind: the slot is not RETIRED, and not in use with retire pending set. -/
theorem not_already_row (hr : s.slots[n].state ≠ .retired)
    (hp : ¬ (s.slots[n].state ≠ .free ∧ s.slots[n].retirePending = true)) :
    ¬ (s.slots[n].state = .retired ∨ (s.slots[n].state.inUse = true ∧ s.slots[n].retirePending = true)) := by
  rw [SlotState.inUse_iff]; tauto

theorem ownRetireSlot_limitReached (hg : guardedSlot a.1 a.2 = some n) (hr : s.slots[n].state ≠ .retired)
    (hp : ¬ (s.slots[n].state ≠ .free ∧ s.slots[n].retirePending = true))
    (hc : Config.retiredMax ≤ retiredCount s) : ownRetireSlot p a s = .refused .limitReached s := by
  simp only [ownRetireSlot, hg, if_neg (not_already_row hr hp), if_pos hc]

theorem ownRetireSlot_free (hg : guardedSlot a.1 a.2 = some n) (hx : s.slots[n].state = .free)
    (hc : retiredCount s < Config.retiredMax) :
    ownRetireSlot p a s = .ok [0#16, 7#16] (announce p ⟨0x42#8, some n.val, none⟩ (retireFree n s)) := by
  have hrow := not_already_row (s := s) (n := n) (by rw [hx]; decide) (fun h => h.1 hx)
  simp only [ownRetireSlot, hg, if_neg hrow, if_neg (Nat.not_le.mpr hc), if_pos hx]
  rfl

theorem ownRetireSlot_pending (hg : guardedSlot a.1 a.2 = some n) (hx : s.slots[n].state ≠ .free)
    (hr : s.slots[n].state ≠ .retired) (hp : s.slots[n].retirePending = false)
    (hc : retiredCount s < Config.retiredMax) :
    ownRetireSlot p a s = .ok [1#16, BitVec.ofNat 16 s.slots[n].state.code]
      (announce p ⟨0x42#8, some n.val, none⟩ (s.modSlot n fun x => { x with retirePending := true })) := by
  have hrow := not_already_row (s := s) (n := n) hr (fun h => Bool.false_ne_true (hp.symm.trans h.2))
  simp only [ownRetireSlot, hg, if_neg hrow, if_neg (Nat.not_le.mpr hc), if_neg hx]
  rfl

/-! ## RESTORE_SLOT at its owner (R32), one row of its table each -/

theorem ownRestoreSlot_invalid (hg : guardedSlot a.1 a.2 = none) : ownRestoreSlot p a s = .invalid s := by
  rw [ownRestoreSlot, hg]

theorem ownRestoreSlot_retired (hg : guardedSlot a.1 a.2 = some n) (hx : s.slots[n].state = .retired) :
    ownRestoreSlot p a s = .ok [2#16] (announce p ⟨0x43#8, some n.val, none⟩ (enterFree n s)) := by
  simp only [ownRestoreSlot, hg, if_pos hx]
  rfl

theorem ownRestoreSlot_flagged (hg : guardedSlot a.1 a.2 = some n) (hr : s.slots[n].state ≠ .retired)
    (hx : s.slots[n].state ≠ .free) (hf : s.slots[n].retirePending = true ∨ s.slots[n].fault = true) :
    ownRestoreSlot p a s = .ok [3#16] (announce p ⟨0x43#8, some n.val, none⟩
      (s.modSlot n fun x => { x with retirePending := false, fault := false })) := by
  have hu : s.slots[n].state.inUse = true := (SlotState.inUse_iff _).mpr ⟨hx, hr⟩
  simp only [ownRestoreSlot, hg, if_neg hr, if_pos (And.intro hu hf)]
  rfl

/-- The slot is FREE, or in use with neither flag set. -/
theorem ownRestoreSlot_notRetired (hg : guardedSlot a.1 a.2 = some n)
    (h : s.slots[n].state = .free ∨
      (s.slots[n].state ≠ .retired ∧ s.slots[n].retirePending = false ∧ s.slots[n].fault = false)) :
    ownRestoreSlot p a s = .complete .notRetired [] s := by
  have hr : s.slots[n].state ≠ .retired := by
    rcases h with h | ⟨h, _, _⟩
    · rw [h]; decide
    · exact h
  have hrow : ¬ (s.slots[n].state.inUse = true ∧
      (s.slots[n].retirePending = true ∨ s.slots[n].fault = true)) := by
    rintro ⟨hu, hflag⟩
    rcases h with hfree | ⟨_, hp, hf⟩
    · exact SlotState.inUse_ne_free hu hfree
    · rw [hp, hf] at hflag; exact absurd hflag (by decide)
  simp only [ownRestoreSlot, hg, if_neg hr, if_neg hrow]

end

/-! ## The commands -/

theorem exec_retireSlot (dt : Nat) (p : Port) (tag : Byte) (params : List Word) (s : State) :
    exec (.retireSlot dt p tag params) s =
      .next (submit p tag params params2 (ownRetireSlot p) (s.elapse dt)) := rfl

theorem exec_restoreSlot (dt : Nat) (p : Port) (tag : Byte) (params : List Word) (s : State) :
    exec (.restoreSlot dt p tag params) s =
      .next (submit p tag params params2 (ownRestoreSlot p) (s.elapse dt)) := rfl

end Sys2Proof.Machine

open Sys2Proof Sys2Proof.Machine

/-- Settles O38, from the three cases of a release. -/
theorem releaseGoesByTheFlags : Obligations.ReleaseGoesByTheFlags := by
  rintro s n _ rfl hu
  refine ⟨fun hp hf => release_unflagged hu hp hf, fun hf hr => release_flagged_room hu hf hr, fun hf hr => ?_⟩
  exact release_flagged_full hu hf (Nat.le_of_eq hr.symm)

/-- Settles O39: the request is taken, its owner answers by the row of its table, and the answer is posted over the
owner's change. -/
theorem retireAndRestoreSlots : Obligations.RetireAndRestoreSlots := by
  refine ⟨?_, ?_⟩
  · rintro s _ dt p tag w k rfl ht
    rw [exec_retireSlot]
    have reads := submit_reads p tag [w, k] params2 (ownRetireSlot p) (s.elapse dt) ht (w.toNat, k.toNat) rfl
    have announces := submit_announces p tag [w, k] params2 (ownRetireSlot p) (s.elapse dt) ht (w.toNat, k.toNat) rfl
    refine ⟨fun h => ?invalid, ?_⟩
    case invalid => rw [reads _ _ (ownRetireSlot_invalid (guardedSlot_none h))]; rfl
    rintro n _ hn hk rfl
    have hg := guardedSlot_some n hn hk
    refine ⟨fun h => ?already, fun hr hp hc => ?limit, fun hx hc => ?free, fun hx hr hp hc => ?pending⟩
    case already => rw [reads _ _ (ownRetireSlot_already hg h)]; rfl
    case limit => rw [reads _ _ (ownRetireSlot_limitReached hg hr hp hc)]; rfl
    case free => rw [announces _ _ (retireFree n) (fun _ => rfl) (ownRetireSlot_free hg hx hc)]; rfl
    case pending =>
      rw [announces _ _ (fun s => s.modSlot n _) (fun _ => rfl) (ownRetireSlot_pending hg hx hr hp hc)]; rfl
  · rintro s _ dt p tag w k rfl ht
    rw [exec_restoreSlot]
    have reads := submit_reads p tag [w, k] params2 (ownRestoreSlot p) (s.elapse dt) ht (w.toNat, k.toNat) rfl
    have announces := submit_announces p tag [w, k] params2 (ownRestoreSlot p) (s.elapse dt) ht (w.toNat, k.toNat) rfl
    refine ⟨fun h => ?invalid, ?_⟩
    case invalid => rw [reads _ _ (ownRestoreSlot_invalid (guardedSlot_none h))]; rfl
    rintro n _ hn hk rfl
    have hg := guardedSlot_some n hn hk
    refine ⟨fun h => ?retired, fun hr hx hf => ?flagged, fun h => ?notRetired⟩
    case retired => rw [announces _ _ (enterFree n) (fun _ => rfl) (ownRestoreSlot_retired hg h)]; rfl
    case flagged =>
      rw [announces _ _ (fun s => s.modSlot n _) (fun _ => rfl) (ownRestoreSlot_flagged hg hr hx hf)]; rfl
    case notRetired => rw [reads _ _ (ownRestoreSlot_notRetired hg h)]; rfl

end

section
/-! Temporal phase and picture selection: the weight of a blending pass (R128), the blend (R131), the dither
sequence (R127), and the arithmetic of a sample (R134, R135, R137 to R139). -/

namespace Sys2Proof.Machine

/-! ## Weight (R128) -/

section
variable {n b : Nat} {off delta : Int}

/-- Nothing is lost where the weight is taken as a natural number: the numerator is never negative. -/
theorem weight_eq_floor (h0 : 0 ≤ off) (hd : 0 < delta) :
    (weight n b off delta : Int) = (64 * n * off + (2 * b + 1) * delta) / (2 * n * delta) :=
  Int.toNat_of_nonneg (Int.ediv_nonneg (by positivity) (by positivity))

/-- The threshold (2b + 1)/(2N) lies below 1. -/
theorem threshold_lt (hd : 0 < delta) (hb : b < n) : (2 * (b : Int) + 1) * delta < 2 * n * delta :=
  mul_lt_mul_of_pos_right (by omega) hd

/-- The exact fraction lies below 32 and the threshold below 1, so their sum lies below 33. -/
theorem weight_le (h0 : 0 ≤ off) (hlt : off < delta) (hb : b < n) : weight n b off delta ≤ 32 := by
  have hd : 0 < delta := by omega
  have hn : (0 : Int) < n := by omega
  have hfraction : 64 * (n : Int) * off < 64 * n * delta := mul_lt_mul_of_pos_left hlt (by positivity)
  have hthreshold := threshold_lt hd hb
  have hfloor : (64 * (n : Int) * off + (2 * b + 1) * delta) / (2 * n * delta) < 33 :=
    Int.ediv_lt_of_lt_mul (by positivity) (by linarith)
  have := weight_eq_floor (n := n) (b := b) h0 hd
  omega

/-- A target time on the older picture's stamp shows that picture unmixed, for every dither value (R126). -/
theorem weight_at_older_stamp (hd : 0 < delta) (hb : b < n) : weight n b 0 delta = 0 := by
  have hfloor : (64 * (n : Int) * 0 + (2 * b + 1) * delta) / (2 * n * delta) = 0 := by
    rw [mul_zero, zero_add]
    exact Int.ediv_eq_zero_of_lt (by positivity) (threshold_lt hd hb)
  have := weight_eq_floor (n := n) (b := b) (le_refl 0) hd
  omega

end

/-! ## Blend (R131) -/

/-- A blend is a mean of its two values in 32nds, rounded: it leaves no interval that holds both. -/
theorem blendValue_mem {q : Nat} {a c lo hi : Int} (hq : q ≤ 32) (ha : lo ≤ a ∧ a ≤ hi) (hc : lo ≤ c ∧ c ≤ hi) :
    lo ≤ blendValue q a c ∧ blendValue q a c ≤ hi := by
  have hold : (0 : Int) ≤ 32 - q := by omega
  have hnew : (0 : Int) ≤ q := by omega
  have hlower : (32 - (q : Int)) * lo + q * lo ≤ (32 - q) * a + q * c :=
    add_le_add (mul_le_mul_of_nonneg_left ha.1 hold) (mul_le_mul_of_nonneg_left hc.1 hnew)
  have hupper : (32 - (q : Int)) * a + q * c ≤ (32 - q) * hi + q * hi :=
    add_le_add (mul_le_mul_of_nonneg_left ha.2 hold) (mul_le_mul_of_nonneg_left hc.2 hnew)
  rw [← add_mul, sub_add_cancel] at hlower hupper
  unfold blendValue
  omega

/-! ## Dither (R127) -/

theorem DitherPeriod.n_eq_two_pow (d : DitherPeriod) : d.n = 2 ^ d.bits := by cases d <;> rfl

theorem DitherPeriod.n_pos (d : DitherPeriod) : 0 < d.n := by cases d <;> decide

theorem ditherValue_lt (d : DitherPeriod) (phase : Fin 4) (frame : BitVec 32) (interlaced : Bool) (pass : Nat) :
    ditherValue d phase frame interlaced pass < 2 ^ d.bits := bitReverse_lt _ _

/-- The dither value has the bits of the pass's place in the period, in reverse. -/
theorem testBit_ditherValue (d : DitherPeriod) (phase : Fin 4) (frame : BitVec 32) (interlaced : Bool) (pass k : Nat)
    (hk : k < d.bits) :
    (ditherValue d phase frame interlaced pass).testBit k =
      (((if interlaced then 2 * frame.toNat + pass else frame.toNat) + phase.val * 2 ^ d.bits / 4) %
        2 ^ d.bits).testBit (d.bits - 1 - k) := by
  rw [← d.n_eq_two_pow]
  exact testBit_bitReverse _ _ _ hk

/-- Reversing twice gives back a value that fits the bits. -/
theorem bitReverse_bitReverse {bits x : Nat} (hx : x < 2 ^ bits) : bitReverse bits (bitReverse bits x) = x := by
  refine Nat.eq_of_testBit_eq fun k => ?_
  by_cases hk : k < bits
  · rw [testBit_bitReverse _ _ _ hk, testBit_bitReverse _ _ _ (by omega)]
    congr 1; omega
  · have hpow : 2 ^ bits ≤ 2 ^ k := Nat.pow_le_pow_right (by decide) (by omega)
    rw [Nat.testBit_eq_false_of_lt (lt_of_lt_of_le (bitReverse_lt _ _) hpow),
      Nat.testBit_eq_false_of_lt (lt_of_lt_of_le hx hpow)]

theorem bitReverse_eq_iff {bits x v : Nat} (hx : x < 2 ^ bits) (hv : v < 2 ^ bits) :
    bitReverse bits x = v ↔ x = bitReverse bits v :=
  ⟨fun h => by rw [← h, bitReverse_bitReverse hx], fun h => by rw [h, bitReverse_bitReverse hv]⟩

/-- Of m consecutive numbers exactly one has a given residue. -/
theorem exists_unique_residue {m p : Nat} (start : Nat) (hp : p < m) :
    ∃ i, i < m ∧ (start + i) % m = p ∧ ∀ i', i' < m → (start + i') % m = p → i' = i := by
  have hm : 0 < m := by omega
  have hplace : (start + (p + (m - start % m)) % m) % m = p := by
    have hwhole : start + (p + (m - start % m)) = p + m * (start / m + 1) := by
      have := Nat.div_add_mod start m
      have := Nat.mod_lt start hm
      rw [Nat.mul_succ]; omega
    rw [Nat.add_mod_mod, hwhole, Nat.add_mul_mod_self_left, Nat.mod_eq_of_lt hp]
  refine ⟨(p + (m - start % m)) % m, Nat.mod_lt _ hm, hplace, fun i' hi' h => ?_⟩
  have hsame : i' ≡ (p + (m - start % m)) % m [MOD m] := Nat.ModEq.add_left_cancel' start (h.trans hplace.symm)
  rwa [Nat.ModEq, Nat.mod_mod, Nat.mod_eq_of_lt hi'] at hsame

/-- The dither value of the i-th frame of a progressive output from frame k, where the counter does not wrap. -/
theorem ditherValue_progressive (d : DitherPeriod) (phase : Fin 4) (k : BitVec 32) (i : Nat)
    (h : k.toNat + i < 2 ^ 32) :
    ditherValue d phase (k + BitVec.ofNat 32 i) false 0 =
      bitReverse d.bits ((k.toNat + phase.val * d.n / 4 + i) % d.n) := by
  have hframe : (k + BitVec.ofNat 32 i).toNat = k.toNat + i := by
    rw [BitVec.toNat_add, BitVec.toNat_ofNat]; omega
  rw [ditherValue, if_neg Bool.false_ne_true, hframe, Nat.add_right_comm]

/-- Over one period the place takes each residue once, and the reversal is one-to-one. -/
theorem ditherValue_visits_once (d : DitherPeriod) (phase : Fin 4) (k : BitVec 32) (v : Nat)
    (hk : k.toNat + d.n < 2 ^ 32) (hv : v < d.n) :
    ∃ i, i < d.n ∧ ditherValue d phase (k + BitVec.ofNat 32 i) false 0 = v ∧
      ∀ i', i' < d.n → ditherValue d phase (k + BitVec.ofNat 32 i') false 0 = v → i' = i := by
  have hrev : bitReverse d.bits v < d.n := d.n_eq_two_pow ▸ bitReverse_lt _ _
  have hiff (i : Nat) (hi : i < d.n) : ditherValue d phase (k + BitVec.ofNat 32 i) false 0 = v ↔
      (k.toNat + phase.val * d.n / 4 + i) % d.n = bitReverse d.bits v := by
    rw [ditherValue_progressive d phase k i (by omega)]
    exact bitReverse_eq_iff (d.n_eq_two_pow ▸ Nat.mod_lt _ d.n_pos) (d.n_eq_two_pow ▸ hv)
  obtain ⟨i, hi, hplace, honce⟩ := exists_unique_residue (k.toNat + phase.val * d.n / 4) hrev
  exact ⟨i, hi, (hiff i hi).2 hplace, fun i' hi' h => honce i' hi' ((hiff i' hi').1 h)⟩

/-! ## Taps (R137) -/

/-- The taps stand about the whole part of a position, and the fraction, its residue modulo 64, chooses their
coefficients. -/
theorem resampleAt_resample (n phases last : Nat) (coeffs cs : List Int) (pos : Int) (sample : Nat → Option Int)
    (hcs : cs = (coeffs.drop ((pos % 64).toNat * phases / 64 * n)).take n) :
    resampleAt ⟨.resample n phases, coeffs⟩ pos last sample = tapValue cs ((List.range cs.length).map fun k =>
      sample (clampIndex (pos / 64 - ((cs.length / 2 : Nat) : Int) + 1 + (k : Int)) last)) := by
  rw [hcs, Int.emod_def]; rfl

theorem tapValue_some (cs vs : List Int) (h : cs.length = vs.length) :
    tapValue cs (vs.map some) = some (clampInt (((List.zipWith (· * ·) cs vs).sum + 128) / 256) 4 1019) := by
  rw [tapValue, tapSum_some cs vs h, Option.map_some]

end Sys2Proof.Machine

open Sys2Proof Sys2Proof.Machine

/-- Settles O34: the sample arithmetic is the rules' own, the dither value is a reversal of its place, the weight and
the blend stay within their bounds, and a period visits each dither value once. -/
theorem weightBlendAndDither : Obligations.WeightBlendAndDither := by
  refine ⟨⟨fun _ _ _ _ _ => ⟨rfl, rfl⟩, resampleAt_resample, tapValue_some, fun _ _ _ => rfl, ?matrix⟩, ?dither,
    ⟨?weight, ?blendUp, ?blendDown⟩, ditherValue_visits_once⟩
  case matrix =>
    intro m r k y cb cr hk
    rw [hk, hk, hk]; rfl
  case dither =>
    rintro d phase frame interlaced pass bits _ hbits rfl
    obtain rfl : bits = d.bits := by rw [hbits]; cases d <;> rfl
    exact ⟨d.n_eq_two_pow, ditherValue_lt _ _ _ _ _, testBit_ditherValue _ _ _ _ _⟩
  case weight =>
    intro n b off delta h0 hlt hb
    have hd : 0 < delta := lt_of_le_of_lt h0 hlt
    refine ⟨weight_eq_floor h0 hd, weight_le h0 hlt hb, ?_⟩
    rintro rfl
    exact weight_at_older_stamp hd hb
  case blendUp => exact fun q a c hq hac => blendValue_mem hq ⟨le_refl a, hac⟩ ⟨hac, le_refl c⟩
  case blendDown => exact fun q a c hq hca => blendValue_mem hq ⟨hca, le_refl a⟩ ⟨le_refl c, hca⟩

end

section
/-! The event units' requests (file 12): ACK_EVENTS (R194), SET_EVENT_MODE (R195) and SET_EVENT_ENABLES (R196). First
how a change of one unit goes with the port's answer and what the words of a request name, then what each owner
answers, then the two statements. -/

namespace Sys2Proof.Machine

/-! ## A change of one event unit -/

/-- An event unit is not part of a port's record. -/
theorem State.unit_modPort (s : State) (p : Port) (f : PortRec → PortRec) : (s.modPort p f).unit p = s.unit p := by
  cases p <;> rfl

theorem State.unit_taking (s : State) (p : Port) (k : Nat) : (s.taking p k).unit p = s.unit p := s.unit_modPort p _

theorem State.free_taking (s : State) (p : Port) (k : Nat) : (s.taking p k).free = s.free := by
  cases p <;> rfl

theorem State.unit_setUnit (s : State) (p : Port) (u : EventUnit) : (s.setUnit p u).unit p = u := by
  cases p <;> rfl

theorem State.setUnit_modPort (s : State) (p : Port) (f : PortRec → PortRec) (u : EventUnit) :
    (s.modPort p f).setUnit p u = (s.setUnit p u).modPort p f := by
  cases p <;> rfl

/-- An owner that answers OK with a new unit for its port: the outcome is that unit, with the port's record answered
on top (R178). -/
theorem submit_setsUnit {α : Type} (p : Port) (tag : Byte) (params : List Word) (d : List Word → Option α)
    (o : α → State → Answer) (s : State) (h : Taken s p) (a : α) (hd : d params = some a) (words : List Word)
    (u : EventUnit)
    (ho : o a (s.taking p params.length) = .ok words ((s.taking p params.length).setUnit p u)) :
    submit p tag params d o s = (s.setUnit p u).replied s p .ok tag words params.length :=
  submit_changes p tag params d o s h a hd .ok words (fun s => s.setUnit p u)
    (fun f => s.setUnit_modPort p f u) ho

/-! ## What the words of a request name -/

/-- A word names the group whose number it is. -/
theorem idx_toNat_eq_some_iff (w : Word) (g : GroupNo) : idx 19 w.toNat = some g ↔ w = BitVec.ofNat 16 g.val := by
  have hg := g.isLt
  have hword : w = BitVec.ofNat 16 g.val ↔ w.toNat = g.val := by
    rw [← BitVec.toNat_inj, BitVec.toNat_ofNat, Nat.mod_eq_of_lt (by omega)]
  rw [hword, idx]
  split
  · rw [Option.some_inj, Fin.ext_iff]
  · next hout => exact ⟨fun h => (nomatch h), fun h => absurd (h ▸ hg) hout⟩

theorem eq_zero_or_one_of_toNat_le_one {w : Word} (h : w.toNat ≤ 1) : w = 0#16 ∨ w = 1#16 := by
  bv_omega

/-- A flag parameter is read where it is 0 or 1. -/
theorem flagOf_toNat (w : Word) (h : w.toNat ≤ 1) : flagOf w.toNat = some (decide (w = 1#16)) := by
  obtain rfl | rfl := eq_zero_or_one_of_toNat_le_one h <;> rfl

theorem flagOf_eq_none {n : Nat} (h : 1 < n) : flagOf n = none := by
  match n, h with
  | _ + 2, _ => rfl

theorem groupSize_le_five (g : GroupNo) : groupSize g ≤ 5 := by
  unfold groupSize; split_ifs <;> decide

/-- A word lies below a power of two where no bit from there on is set. -/
theorem toNat_lt_two_pow_iff (w : Word) (k : Nat) :
    w.toNat < 2 ^ k ↔ ∀ i : Fin 16, k ≤ i.val → w.getLsbD i.val = false := by
  refine ⟨fun h i hi => ?_, fun h => Nat.lt_pow_two_of_testBit _ fun i hi => ?_⟩
  · exact Nat.testBit_lt_two_pow (lt_of_lt_of_le h (Nat.pow_le_pow_right (by decide) hi))
  · by_cases hword : i < 16
    · exact h ⟨i, hword⟩ hi
    · exact BitVec.getLsbD_of_ge w i (by omega)

/-- The edge bits of the source at position i are the bits 2i and 2i + 1. -/
theorem edgeBits_eq_zero_iff (w : Word) (i : Nat) :
    w.toNat / 4 ^ i % 4 = 0 ↔ (w.getLsbD (2 * i) || w.getLsbD (2 * i + 1)) = false := by
  have hfour : 4 ^ i = 2 ^ (2 * i) := by rw [Nat.pow_mul]
  have hhalf : w.toNat / 2 ^ (2 * i + 1) = w.toNat / 2 ^ (2 * i) / 2 := by rw [Nat.pow_succ, Nat.div_div_eq_div_mul]
  rw [Bool.or_eq_false_iff, ← BitVec.testBit_toNat, ← BitVec.testBit_toNat, Nat.testBit_eq_decide_div_mod_eq,
    Nat.testBit_eq_decide_div_mod_eq, decide_eq_false_iff_not, decide_eq_false_iff_not, hhalf, hfour]
  omega

/-- R196's rule for the edge selects, bit by bit. -/
theorem edgesOk_iff (g : GroupNo) (w : Word) :
    edgesOk g w.toNat = true ↔ ∀ i : Fin 8, i.val < groupSize g →
      (w.getLsbD (2 * i.val) || w.getLsbD (2 * i.val + 1)) = isCondition g i.val := by
  have hsource (i : Nat) :
      (if isCondition g i then decide (w.toNat / 4 ^ i % 4 ≠ 0) else decide (w.toNat / 4 ^ i % 4 = 0)) = true ↔
        (w.getLsbD (2 * i) || w.getLsbD (2 * i + 1)) = isCondition g i := by
    cases isCondition g i with
    | false => exact decide_eq_true_iff.trans (edgeBits_eq_zero_iff w i)
    | true => exact decide_eq_true_iff.trans ((edgeBits_eq_zero_iff w i).not.trans (Iff.of_eq (Bool.not_eq_false _)))
  have hsize := groupSize_le_five g
  simp only [edgesOk, List.all_eq_true, List.mem_range, hsource]
  exact ⟨fun h i => h i.val, fun h i hi => h ⟨i, by omega⟩ hi⟩

/-- What SET_EVENT_ENABLES asks of its two words, bit by bit. -/
theorem enablesAndEdges_iff (g : GroupNo) (en ed : Word) :
    (en.toNat < 2 ^ groupSize g ∧ ed.toNat < 4 ^ groupSize g ∧ edgesOk g ed.toNat = true) ↔
      (∀ i : Fin 16, groupSize g ≤ i.val → en.getLsbD i.val = false) ∧
      (∀ i : Fin 16, 2 * groupSize g ≤ i.val → ed.getLsbD i.val = false) ∧
      (∀ i : Fin 8, i.val < groupSize g →
        (ed.getLsbD (2 * i.val) || ed.getLsbD (2 * i.val + 1)) = isCondition g i.val) := by
  have hfour : 4 ^ groupSize g = 2 ^ (2 * groupSize g) := by rw [Nat.pow_mul]
  rw [hfour, toNat_lt_two_pow_iff, toNat_lt_two_pow_iff, edgesOk_iff]

/-- A clear takes effect on every named flag but POOL_EMPTY while the free list is empty (R191). -/
theorem clearable_eq (s : State) (g : GroupNo) (named : Word) :
    clearable s g named = if g = 0 ∧ s.free = [] then named &&& ~~~2#16 else named := by
  have hpoolEmpty : (g.val = 0 && s.free.isEmpty) = true ↔ g = 0 ∧ s.free = [] := by
    rw [Bool.and_eq_true, decide_eq_true_eq, List.isEmpty_iff, Fin.ext_iff]; rfl
  rw [clearable, if_congr hpoolEmpty rfl rfl]
  rfl

/-! ## The owners -/

section
variable {p : Port} {s : State} {g : GroupNo} {w : Word}

theorem ownAckEvents_clears {named : Word} (hw : w = BitVec.ofNat 16 g.val) (hn : named.toNat < 2 ^ groupSize g) :
    ownAckEvents p (w.toNat, named.toNat) s =
      .ok [(s.unit p).flags[g] &&& ~~~(clearable s g named)] (s.setUnit p { s.unit p with
        flags := (s.unit p).flags.set g ((s.unit p).flags[g] &&& ~~~(clearable s g named)) }) := by
  have hnamed : BitVec.ofNat 16 named.toNat = named := by rw [BitVec.ofNat_toNat, BitVec.setWidth_eq]
  simp only [ownAckEvents, (idx_toNat_eq_some_iff w g).mpr hw, if_pos hn, hnamed, clearFlags, State.unit_setUnit,
    Fin.getElem_fin, Vector.getElem_set_self]

/-- No group, or flags that the group does not have. -/
theorem ownAckEvents_invalid {named : Word}
    (h : ∀ g : GroupNo, w = BitVec.ofNat 16 g.val → 2 ^ groupSize g ≤ named.toNat) :
    ownAckEvents p (w.toNat, named.toNat) s = .invalid s := by
  unfold ownAckEvents
  split
  case h_1 => rfl
  case h_2 g hg => exact if_neg (Nat.not_lt.mpr (h g ((idx_toNat_eq_some_iff w g).mp hg)))

theorem ownSetEventMode_sets {m e : Word} (hm : m.toNat ≤ 1) (he : e.toNat ≤ 1) :
    ownSetEventMode p (m.toNat, e.toNat) s = .ok [] (s.setUnit p { s.unit p with
      mode := if m = 0#16 then .onRead else .byAck, master := decide (e = 1#16) }) := by
  have hmode : (if decide (m = 1#16) = true then ClearMode.byAck else .onRead) =
      if m = 0#16 then .onRead else .byAck := by
    obtain rfl | rfl := eq_zero_or_one_of_toNat_le_one hm <;> rfl
  simp only [ownSetEventMode, flagOf_toNat m hm, flagOf_toNat e he, hmode]

theorem ownSetEventMode_invalid {m e : Word} (h : ¬ (m.toNat ≤ 1 ∧ e.toNat ≤ 1)) :
    ownSetEventMode p (m.toNat, e.toNat) s = .invalid s := by
  obtain hm | he : 1 < m.toNat ∨ 1 < e.toNat := by omega
  · simp only [ownSetEventMode, flagOf_eq_none hm]
  · simp only [ownSetEventMode, flagOf_eq_none he]
    cases flagOf m.toNat <;> rfl

theorem ownSetEventEnables_sets {en ed : Word} (hw : w = BitVec.ofNat 16 g.val)
    (h : en.toNat < 2 ^ groupSize g ∧ ed.toNat < 4 ^ groupSize g ∧ edgesOk g ed.toNat = true) :
    ownSetEventEnables p (w.toNat, en.toNat, ed.toNat) s = .ok [] (s.setUnit p { s.unit p with
      enables := (s.unit p).enables.set g en, edges := (s.unit p).edges.set g ed }) := by
  simp only [ownSetEventEnables, (idx_toNat_eq_some_iff w g).mpr hw, if_pos h, BitVec.ofNat_toNat, BitVec.setWidth_eq]

/-- No group, or words that do not fit the group's sources. -/
theorem ownSetEventEnables_invalid {en ed : Word}
    (h : ∀ g : GroupNo, w = BitVec.ofNat 16 g.val →
      ¬ (en.toNat < 2 ^ groupSize g ∧ ed.toNat < 4 ^ groupSize g ∧ edgesOk g ed.toNat = true)) :
    ownSetEventEnables p (w.toNat, en.toNat, ed.toNat) s = .invalid s := by
  unfold ownSetEventEnables
  split
  case h_1 => rfl
  case h_2 g hg => exact if_neg (h g ((idx_toNat_eq_some_iff w g).mp hg))

end

/-! ## The commands -/

theorem exec_ackEvents (dt : Nat) (p : Port) (tag : Byte) (params : List Word) (s : State) :
    exec (.ackEvents dt p tag params) s = .next (submit p tag params params2 (ownAckEvents p) (s.elapse dt)) := rfl

theorem exec_setEventMode (dt : Nat) (p : Port) (tag : Byte) (params : List Word) (s : State) :
    exec (.setEventMode dt p tag params) s =
      .next (submit p tag params params2 (ownSetEventMode p) (s.elapse dt)) := rfl

theorem exec_setEventEnables (dt : Nat) (p : Port) (tag : Byte) (params : List Word) (s : State) :
    exec (.setEventEnables dt p tag params) s =
      .next (submit p tag params params3 (ownSetEventEnables p) (s.elapse dt)) := rfl

end Sys2Proof.Machine

open Sys2Proof Sys2Proof.Machine

/-- Settles O18: the owner's two answers, seen from the state before the frame. -/
theorem ackEventsClearsNamedFlags : Obligations.AckEventsClearsNamedFlags := by
  rintro s _ dt p tag w named rfl ht
  rw [exec_ackEvents]
  refine ⟨?clears, fun h => ?invalid⟩
  case clears =>
    rintro g _ hw hn rfl
    have ho := ownAckEvents_clears (p := p) (s := (s.elapse dt).taking p 2) hw hn
    rw [State.unit_taking, clearable_eq, State.free_taking] at ho
    rw [submit_setsUnit p tag [w, named] params2 (ownAckEvents p) _ ht (w.toNat, named.toNat) rfl _ _ ho]
    rfl
  case invalid =>
    rw [submit_reads p tag [w, named] params2 (ownAckEvents p) _ ht (w.toNat, named.toNat) rfl _ _
      (ownAckEvents_invalid h)]
    rfl

/-- Settles O19: the answers of both owners, where the words are read bit by bit. -/
theorem setEventModeAndEnables : Obligations.SetEventModeAndEnables := by
  refine ⟨?_, ?_⟩
  · rintro s _ dt p tag m e rfl ht
    rw [exec_setEventMode]
    refine ⟨fun ⟨hm, he⟩ => ?sets, fun h => ?invalid⟩
    case sets =>
      have ho := ownSetEventMode_sets (p := p) (s := (s.elapse dt).taking p 2) hm he
      rw [State.unit_taking] at ho
      rw [submit_setsUnit p tag [m, e] params2 (ownSetEventMode p) _ ht (m.toNat, e.toNat) rfl _ _ ho]
      rfl
    case invalid =>
      rw [submit_reads p tag [m, e] params2 (ownSetEventMode p) _ ht (m.toNat, e.toNat) rfl _ _
        (ownSetEventMode_invalid h)]
      rfl
  · rintro s _ dt p tag w en ed rfl ht
    rw [exec_setEventEnables]
    refine ⟨fun g hw h => ?sets, fun h => ?invalid⟩
    case sets =>
      have ho := ownSetEventEnables_sets (p := p) (s := (s.elapse dt).taking p 3) hw
        ((enablesAndEdges_iff g en ed).mpr h)
      rw [State.unit_taking] at ho
      rw [submit_setsUnit p tag [w, en, ed] params3 (ownSetEventEnables p) _ ht (w.toNat, en.toNat, ed.toNat) rfl
        _ _ ho]
      rfl
    case invalid =>
      have hbad := fun g hw => mt (enablesAndEdges_iff g en ed).mp (h g hw)
      rw [submit_reads p tag [w, en, ed] params3 (ownSetEventEnables p) _ ht (w.toNat, en.toNat, ed.toNat) rfl _ _
        (ownSetEventEnables_invalid hbad)]
      rfl

end

section
/-! The machine as a whole: a step, the passing of time, and the invariant that every step keeps. -/

namespace Sys2Proof.Machine

/-! ## The invariant (one line per command: the law of the operation that the command runs) -/

/-- Every command ends in a next state, and that state keeps the invariant. -/
theorem Inv.exec {s : State} (h : Inv s) (i : Instr) : ∃ t, exec i s = .next t ∧ Inv t :=
  match i with
  | .powerOnReset _ => ⟨_, rfl, Inv.hardReset _ _ _⟩
  | .pinReset _ => ⟨_, rfl, Inv.hardReset _ _ _⟩
  | .dramInitialized dt => ⟨_, rfl, (h.elapse dt).dramInitialized⟩
  | .configurationReadDone dt read => ⟨_, rfl, (h.elapse dt).configurationReadDone read⟩
  | .softResetEnd dt => ⟨_, rfl, (h.elapse dt).softResetEnd⟩
  | .malformedFrame dt p bytes _ => ⟨_, rfl, (h.elapse dt).malformedFrame p bytes⟩
  | .fetch dt p offset further => ⟨_, rfl, (h.elapse dt).fetchFrame p offset further⟩
  | .status dt p further => ⟨_, rfl, (h.elapse dt).statusFrame p further⟩
  | .getDeviceStatus dt p tag _ ps => ⟨_, rfl, (h.elapse dt).submit p tag ps _ _ keeps_deviceStatus⟩
  | .resetDevice dt p tag ps => ⟨_, rfl, (h.elapse dt).submit p tag ps _ _ (keeps_resetDevice p tag)⟩
  | .getPeerChanges dt p tag ps => ⟨_, rfl, (h.elapse dt).submit p tag ps _ _ (keeps_peerChanges p)⟩
  | .setReference dt p tag ps => ⟨_, rfl, (h.elapse dt).submit p tag ps _ _ (keeps_setReference p)⟩
  | .getReferenceStatus dt p tag ps => ⟨_, rfl, (h.elapse dt).submit p tag ps _ _ keeps_getReferenceStatus⟩
  | .setFeed dt p tag ps => ⟨_, rfl, (h.elapse dt).submit p tag ps _ _ (keeps_setFeed p)⟩
  | .getFeedStatus dt p tag ps => ⟨_, rfl, (h.elapse dt).submit p tag ps _ _ keeps_getFeedStatus⟩
  | .getLinkCheck dt p tag ps => ⟨_, rfl, (h.elapse dt).submit p tag ps _ _ keeps_getLinkCheck⟩
  | .setChannel dt p tag ps => ⟨_, rfl, (h.elapse dt).submit p tag ps _ _ (keeps_setChannel p)⟩
  | .getChannel dt p tag ps => ⟨_, rfl, (h.elapse dt).submit p tag ps _ _ keeps_getChannel⟩
  | .startChannel dt p tag ps => ⟨_, rfl, (h.elapse dt).submit p tag ps _ _ (keeps_startChannel p)⟩
  | .stopChannel dt p tag ps => ⟨_, rfl, (h.elapse dt).submit p tag ps _ _ (keeps_stopChannel p)⟩
  | .take dt p tag ps => ⟨_, rfl, (h.elapse dt).submit p tag ps _ _ (keeps_take p)⟩
  | .getChannelStatus dt p tag ps => ⟨_, rfl, (h.elapse dt).submit p tag ps _ _ keeps_getChannelStatus⟩
  | .getPoolStatus dt p tag ps => ⟨_, rfl, (h.elapse dt).submit p tag ps _ _ keeps_getPoolStatus⟩
  | .getSlot dt p tag ps => ⟨_, rfl, (h.elapse dt).submit p tag ps _ _ keeps_getSlot⟩
  | .retireSlot dt p tag ps => ⟨_, rfl, (h.elapse dt).submit p tag ps _ _ (keeps_retireSlot p)⟩
  | .restoreSlot dt p tag ps => ⟨_, rfl, (h.elapse dt).submit p tag ps _ _ (keeps_restoreSlot p)⟩
  | .profileBegin dt p tag ps => ⟨_, rfl, (h.elapse dt).submit p tag ps _ _ (keeps_profileBegin p)⟩
  | .profileData dt p tag ps => ⟨_, rfl, (h.elapse dt).submit p tag ps _ _ (keeps_profileData p)⟩
  | .profileCommit dt p tag ps => ⟨_, rfl, (h.elapse dt).submit p tag ps _ _ (keeps_profileCommit p tag)⟩
  | .profileAbandon dt p tag ps => ⟨_, rfl, (h.elapse dt).submit p tag ps _ _ (keeps_profileAbandon p)⟩
  | .getProfile dt p tag ps => ⟨_, rfl, (h.elapse dt).submit p tag ps _ _ (keeps_getProfile p)⟩
  | .validationEnd dt p => ⟨_, rfl, (h.elapse dt).validationEnd p⟩
  | .getEvents dt p tag ps => ⟨_, rfl, (h.elapse dt).submit p tag ps _ _ (keeps_getEvents p)⟩
  | .ackEvents dt p tag ps => ⟨_, rfl, (h.elapse dt).submit p tag ps _ _ (keeps_ackEvents p)⟩
  | .setEventMode dt p tag ps => ⟨_, rfl, (h.elapse dt).submit p tag ps _ _ (keeps_setEventMode p)⟩
  | .setEventEnables dt p tag ps => ⟨_, rfl, (h.elapse dt).submit p tag ps _ _ (keeps_setEventEnables p)⟩
  | .setAuxLine dt p tag ps => ⟨_, rfl, (h.elapse dt).submit p tag ps _ _ (keeps_setAuxLine p)⟩
  | .getAuxStatus dt p tag ps => ⟨_, rfl, (h.elapse dt).submit p tag ps _ _ fun _ _ h => h⟩
  | .refPulse dt n => ⟨_, rfl, (h.elapse dt).refPulse n⟩
  | .syntheticEpoch dt n => ⟨_, rfl, (h.elapse dt).syntheticEpoch n⟩
  | .provisionalEpoch dt n => ⟨_, rfl, (h.elapse dt).provisionalEpoch n⟩
  | .windowExpiry dt n => ⟨_, rfl, (h.elapse dt).windowExpiry n⟩
  | .outputFrameStart dt c => ⟨_, rfl, (h.elapse dt).outputFrameStart c⟩
  | .jobCompletion dt l => ⟨_, rfl, (h.elapse dt).jobCompletion l⟩
  | .correctableRead dt r => ⟨_, rfl, (h.elapse dt).correctableRead r⟩
  | .uncorrectableRead dt l r => ⟨_, rfl, (h.elapse dt).uncorrectableRead l r⟩
  | .outputReadFault dt c w => ⟨_, rfl, (h.elapse dt).outputReadFault c w⟩
  | .feedLine dt f line => ⟨_, rfl, (h.elapse dt).feedLine f line⟩
  | .lineWindowClose dt f => ⟨_, rfl, (h.elapse dt).lineWindowClose f⟩
  | .lossTimerExpiry dt f => ⟨_, rfl, (h.elapse dt).lossExpiry f⟩
  | .auxLevelChange dt x high => ⟨_, rfl, (h.elapse dt).auxLevelChange x high⟩
  | .debounceExpiry dt x => ⟨_, rfl, (h.elapse dt).debounceExpiry x⟩
  | .alertExpiry dt x => ⟨_, rfl, (h.elapse dt).alertExpiry x⟩
  | .resetNRelease dt => ⟨_, rfl, (h.elapse dt).setDev _ (h.elapse dt).time⟩

/-- A step runs one command, or lets a period of CLK27 pass. -/
theorem Inv.step {s : State} (h : Inv s) : ∃ t, step s = .next t ∧ Inv t := by
  unfold Machine.step
  split
  case h_1 i rest _ =>
    have hrest : Inv { s with pending := rest } := h.of_eq rfl rfl rfl rfl rfl rfl rfl rfl rfl
    exact hrest.exec i
  case h_2 =>
    unfold idleStep
    split
    case h_1 i _ _ => exact h.exec i
    case h_2 => exact ⟨_, rfl, h.elapse 1⟩

/-! ## The passing of time, and the events that it brings about -/

/-- No time passes in 0 periods, where house time is in its range. -/
theorem State.elapse_zero {s : State} (h : s.dev.houseTime ≤ Config.houseMax) : s.elapse 0 = s := by
  unfold State.elapse
  split
  · simp [satAdd, h]
  · split <;> rfl

/-- An event that is due is among the due commands. -/
theorem mem_whenDue {due : Bool} {i : Instr} : i ∈ whenDue due i ↔ due = true := by
  cases due <;> simp [whenDue]

/-! An event of time that is not due changes nothing (log entry 3). -/

theorem dramInitialized_not_due {s : State} (h : ¬ dramDue s = true) : dramInitialized s = s := if_neg h
theorem softResetEnd_not_due {s : State} (h : ¬ softResetDue s = true) : softResetEnd s = s := if_neg h
theorem jobCompletion_not_due {s : State} {l : LaneNo} (h : ¬ completionDue s l = true) : jobCompletion l s = s :=
  if_neg h
theorem validationEnd_not_due {s : State} {p : Port} (h : ¬ validationDue s p = true) : validationEnd p s = s :=
  if_neg h
theorem syntheticEpoch_not_due {s : State} {n : RefNo} (h : ¬ syntheticDue s n = true) : syntheticEpoch n s = s :=
  if_neg h
theorem provisionalEpoch_not_due {s : State} {n : RefNo} (h : ¬ provisionalDue s n = true) :
    provisionalEpoch n s = s := if_neg h
theorem windowExpiry_not_due {s : State} {n : RefNo} (h : ¬ windowDue s n = true) : windowExpiry n s = s := if_neg h
theorem lineWindowClose_not_due {s : State} {f : Feed} (h : ¬ lineWindowDue s f = true) : lineWindowClose f s = s :=
  if_neg h
theorem lossExpiry_not_due {s : State} {f : Feed} (h : ¬ lossDue s f = true) : lossExpiry f s = s := if_neg h
theorem debounceExpiry_not_due {s : State} {x : AuxNo} (h : ¬ debounceDue s x = true) : debounceExpiry x s = s :=
  if_neg h
theorem alertExpiry_not_due {s : State} {x : AuxNo} (h : ¬ alertDue s x = true) : alertExpiry x s = s := if_neg h
theorem outputFrameStart_not_due {s : State} {c : Chan} (h : ¬ frameStartDue s c = true) :
    outputFrameStart c s = s := if_neg h

/-! A due event is among the commands that an empty queue takes. -/

section
variable {s : State}

theorem mem_due_start {i : Instr} (h : i ∈ dueStart s) : i ∈ dueCommands s := by simp [dueCommands, h]
theorem mem_due_completion {l : LaneNo} (h : completionDue s l = true) : .jobCompletion 0 l ∈ dueCommands s := by
  simp only [dueCommands, List.mem_append, List.mem_flatMap]
  exact .inl <| .inl <| .inl <| .inl <| .inl <| .inr ⟨l, List.mem_finRange l, mem_whenDue.2 h⟩
theorem mem_due_validation {p : Port} (h : validationDue s p = true) : .validationEnd 0 p ∈ dueCommands s := by
  simp only [dueCommands, List.mem_append, List.mem_flatMap]
  exact .inl <| .inl <| .inl <| .inl <| .inr ⟨p, by cases p <;> simp, mem_whenDue.2 h⟩
theorem mem_due_ref {n : RefNo} {i : Instr} (h : i ∈ dueRef s n) : i ∈ dueCommands s := by
  simp only [dueCommands, List.mem_append, List.mem_flatMap]
  exact .inl <| .inl <| .inl <| .inr ⟨n, List.mem_finRange n, h⟩
theorem mem_due_feed {f : Feed} {i : Instr} (h : i ∈ dueFeed s f) : i ∈ dueCommands s := by
  simp only [dueCommands, List.mem_append, List.mem_flatMap]
  exact .inl <| .inl <| .inr ⟨f, List.mem_finRange f, h⟩
theorem mem_due_aux {x : AuxNo} {i : Instr} (h : i ∈ dueAux s x) : i ∈ dueCommands s := by
  simp only [dueCommands, List.mem_append, List.mem_flatMap]
  exact .inl <| .inr ⟨x, List.mem_finRange x, h⟩
theorem mem_due_frameStart {c : Chan} (h : frameStartDue s c = true) : .outputFrameStart 0 c ∈ dueCommands s := by
  simp only [dueCommands, List.mem_append, List.mem_flatMap]
  exact .inr ⟨c, List.mem_finRange c, mem_whenDue.2 h⟩

end

/-- The time events that an empty queue looks for; one that is not due changes nothing. -/
theorem exec_not_due {s : State} (hs : s.dev.houseTime ≤ Config.houseMax) {i : Instr} (hi : i ∉ dueCommands s)
    (hkind : i = .dramInitialized 0 ∨ i = .softResetEnd 0 ∨ (∃ l : LaneNo, i = .jobCompletion 0 l) ∨
      (∃ p : Port, i = .validationEnd 0 p) ∨
      (∃ n : RefNo, i = .syntheticEpoch 0 n ∨ i = .provisionalEpoch 0 n ∨ i = .windowExpiry 0 n) ∨
      (∃ f : Feed, i = .lineWindowClose 0 f ∨ i = .lossTimerExpiry 0 f) ∨
      (∃ x : AuxNo, i = .debounceExpiry 0 x ∨ i = .alertExpiry 0 x) ∨
      (∃ c : Chan, i = .outputFrameStart 0 c)) : exec i s = .next s := by
  have run (f : State → State) (h : f s = s) : (.next (f (s.elapse 0)) : Result) = .next s := by
    rw [State.elapse_zero hs, h]
  obtain rfl | rfl | ⟨l, rfl⟩ | ⟨p, rfl⟩ | ⟨n, rfl | rfl | rfl⟩ | ⟨f, rfl | rfl⟩ | ⟨x, rfl | rfl⟩ | ⟨c, rfl⟩ := hkind
  · exact run _ (dramInitialized_not_due fun h => hi (mem_due_start (by simp [dueStart, mem_whenDue.2 h])))
  · exact run _ (softResetEnd_not_due fun h => hi (mem_due_start (by simp [dueStart, mem_whenDue.2 h])))
  · exact run _ (jobCompletion_not_due fun h => hi (mem_due_completion h))
  · exact run _ (validationEnd_not_due fun h => hi (mem_due_validation h))
  · exact run _ (syntheticEpoch_not_due fun h => hi (mem_due_ref (n := n) (by simp [dueRef, mem_whenDue.2 h])))
  · exact run _ (provisionalEpoch_not_due fun h => hi (mem_due_ref (n := n) (by simp [dueRef, mem_whenDue.2 h])))
  · exact run _ (windowExpiry_not_due fun h => hi (mem_due_ref (n := n) (by simp [dueRef, mem_whenDue.2 h])))
  · exact run _ (lineWindowClose_not_due fun h => hi (mem_due_feed (f := f) (by simp [dueFeed, mem_whenDue.2 h])))
  · exact run _ (lossExpiry_not_due fun h => hi (mem_due_feed (f := f) (by simp [dueFeed, mem_whenDue.2 h])))
  · exact run _ (debounceExpiry_not_due fun h => hi (mem_due_aux (x := x) (by simp [dueAux, mem_whenDue.2 h])))
  · exact run _ (alertExpiry_not_due fun h => hi (mem_due_aux (x := x) (by simp [dueAux, mem_whenDue.2 h])))
  · exact run _ (outputFrameStart_not_due fun h => hi (mem_due_frameStart h))

end Sys2Proof.Machine

open Sys2Proof Sys2Proof.Machine

/-- Settles O4: a step runs a command, and every command keeps the invariant. -/
theorem everyStepKeepsTheInvariant : Obligations.EveryStepKeepsTheInvariant := by
  intro s t h e
  obtain ⟨u, hu, hinv⟩ := h.step
  obtain rfl : u = t := Host.Outcome.next.inj (hu.symm.trans e)
  exact hinv

/-- Settles O1, by the first case of `step`. -/
theorem stepRunsTheFrontCommand : Obligations.StepRunsTheFrontCommand := fun _ _ => rfl

/-- Settles O2, by the two cases of the idle step, the events that are not due, and the cases of `elapse`. -/
theorem emptyQueueLetsTimePass : Obligations.EmptyQueueLetsTimePass := by
  refine ⟨fun s hs => ?idle, fun s i hs hi hkind => exec_not_due hs hi hkind, fun s dt => ?time⟩
  case idle =>
    have hstep : step s = idleStep s := by rw [step, hs]
    exact ⟨fun i rest h => by rw [hstep, idleStep, h], fun h => by rw [hstep, idleStep, h]⟩
  case time =>
    refine ⟨fun hr h => ?_, fun hr h => ?_, fun hr h => s.elapse_starting dt hr h, fun hr h => s.elapse_held dt hr h⟩
    · rw [s.elapse_ready dt hr, satAdd, if_pos (show _ ≤ Config.houseMax from h)]
    · rw [s.elapse_ready dt hr, satAdd, if_neg (show ¬ _ ≤ Config.houseMax from Nat.not_le.2 h)]; rfl

/-- Settles O3: each command's meaning is a next state. -/
theorem everyCommandAnswersNext : Obligations.EveryCommandAnswersNext := by
  intro i s
  cases i <;> exact ⟨_, rfl⟩

/-- Settles O5. -/
theorem resetHasTheInvariant : Obligations.ResetHasTheInvariant := Inv.reset

end

section
/-! The control ports: frames, the mailbox, and the ports' answers without an owner (R176–R183). -/

namespace Sys2Proof.Machine

/-! ## What a frame returns (R177, R180) -/

theorem padTo_length (k : Nat) (l : List Byte) : (padTo k l).length = k := by
  simp only [padTo, List.length_take, List.length_append, List.length_replicate]; omega

/-- At least `e` bytes are there, so `k` zeros fill them up to `e + k`. -/
theorem padTo_eq_take {e k : Nat} {l : List Byte} (h : e ≤ l.length) :
    padTo (e + k) l = (l ++ List.replicate k 0#8).take (e + k) := by
  have hk : e + k - l.length ≤ k := by omega
  rw [padTo, List.take_append, List.take_append, List.take_replicate, List.take_replicate, Nat.min_self,
    Nat.min_eq_left hk]

theorem returnedBytes_head (s : State) (p : Port) {bytes : List Byte} (h : bytes ≠ []) :
    (returnedBytes s p bytes).head? = some (statusByte s p) := by
  cases bytes with
  | nil => exact absurd rfl h
  | cons kind rest => rfl

/-- No frame returns more bytes than the controller sends. -/
theorem returnedBytes_length_le (s : State) (p : Port) (bytes : List Byte) :
    (returnedBytes s p bytes).length ≤ bytes.length := by
  cases bytes with
  | nil => exact Nat.le_refl 0
  | cons kind rest =>
    refine Nat.succ_le_succ ?_
    split
    · exact Nat.le_of_eq (by rw [List.length_replicate])
    · split
      · cases rest with
        | nil => exact Nat.le_refl 0
        | cons n payload =>
          dsimp only
          split
          · exact Nat.le_of_eq (padTo_length _ _)
          · exact Nat.succ_le_succ (Nat.zero_le _)
      · split
        · cases rest with
          | nil => exact Nat.le_refl 0
          | cons n payload =>
            dsimp only
            split
            · exact Nat.le_of_eq (padTo_length _ _)
            · exact Nat.succ_le_succ (Nat.zero_le _)
        · exact Nat.zero_le _

/-- A word is read back from its two bytes. -/
theorem toNat_of_bytes (w : Word) : (w.extractLsb' 8 8).toNat * 256 + (w.extractLsb' 0 8).toNat = w.toNat := by
  have hw := w.isLt
  simp only [BitVec.extractLsb'_toNat, Nat.shiftRight_eq_div_pow]
  omega

/-- The bytes of a FETCH frame. -/
def fetchBytes (offset : Option Word) (k : Nat) : List Byte :=
  (match offset with
    | none => [0x02#8, 0#8]
    | some w => [0x02#8, 1#8] ++ wordBytes w) ++ List.replicate k 0#8

/-- The frame's own bytes after the first: the length byte and the offset. -/
def echoLength (offset : Option Word) : Nat := if offset.isSome then 3 else 1

/-- A FETCH returns the status byte, zeros while its own bytes are sent, the held response, and zeros (R180). -/
theorem returnedBytes_fetch (s : State) (p : Port) (offset : Option Word) (k : Nat) :
    returnedBytes s p (fetchBytes offset k) = statusByte s p ::
      ((List.replicate (echoLength offset) 0#8 ++
        (fetchWords (s.port p).held (offset.elim 0 BitVec.toNat)).flatMap wordBytes) ++
          List.replicate k 0#8).take (echoLength offset + k) := by
  cases offset with
  | none =>
    have hpay : (match List.replicate k (0#8 : Byte) with
        | hi :: lo :: _ => if (0#8 : Byte) = 1#8 then hi.toNat * 256 + lo.toNat else 0
        | _ => 0) = 0 := by split <;> rfl
    rw [← padTo_eq_take (by simp)]
    have hlen : (0#8 :: List.replicate k (0#8 : Byte)).length = 1 + k := by simp [Nat.add_comm]
    simp only [echoLength, Option.isSome_none, Bool.false_eq_true, if_false, ← hlen]
    exact congrArg (fun x => statusByte s p :: padTo (0#8 :: List.replicate k 0#8).length (List.replicate 1 0#8 ++
      (fetchWords (s.port p).held x).flatMap wordBytes)) hpay
  | some w =>
    rw [← padTo_eq_take (by simp [echoLength])]
    have hlen : (1#8 :: w.extractLsb' 8 8 :: w.extractLsb' 0 8 :: List.replicate k (0#8 : Byte)).length = 3 + k := by
      simp; omega
    simp only [echoLength, Option.isSome_some, if_true, ← hlen]
    exact congrArg (fun x => statusByte s p :: padTo (1#8 :: w.extractLsb' 8 8 :: w.extractLsb' 0 8 ::
      List.replicate k 0#8).length (List.replicate 3 0#8 ++ (fetchWords (s.port p).held x).flatMap wordBytes))
      (toNat_of_bytes w)

/-- A STATUS frame returns the status byte, a zero, the device state and the held tag, and zeros. -/
theorem returnedBytes_status (s : State) (p : Port) (k : Nat) :
    returnedBytes s p ([0x03#8, 0#8] ++ List.replicate k 0#8) = statusByte s p ::
      ([0#8, BitVec.ofNat 8 s.dev.state.code, heldTag (s.port p).held] ++ List.replicate k 0#8).take (k + 1) := by
  rw [Nat.add_comm k 1, ← padTo_eq_take (by simp)]
  have hlen : (0#8 :: List.replicate k (0#8 : Byte)).length = 1 + k := by simp [Nat.add_comm]
  rw [← hlen]
  rfl

theorem fetchFrame_eq {s : State} (h : s.dev.resetN = false) (p : Port) (offset : Option Word) (k : Nat) :
    fetchFrame p offset k s = s.modPort p fun r => { r with dout := returnedBytes s p (fetchBytes offset k) } := by
  exact if_neg (by simp [h])

theorem statusFrame_eq {s : State} (h : s.dev.resetN = false) (p : Port) (k : Nat) :
    statusFrame p k s = s.modPort p fun r =>
      { r with framingError := false, dout := returnedBytes s p ([0x03#8, 0#8] ++ List.replicate k 0#8) } := by
  rw [statusFrame, if_neg (by simp [h])]

theorem malformedFrame_eq {s : State} (h : s.dev.resetN = false) (p : Port) (bytes : List Byte) :
    malformedFrame p bytes s = s.modPort p fun r =>
      { r with
        framingError := true
        submitRefused := r.submitRefused || bytes.head? = some 0x01#8
        dout := returnedBytes s p bytes } := by
  rw [malformedFrame, if_neg (by simp [h])]

theorem frames_resetN {s : State} (h : s.dev.resetN = true) (p : Port) :
    (∀ bytes, malformedFrame p bytes s = s) ∧ (∀ offset k, fetchFrame p offset k s = s) ∧
      (∀ k, statusFrame p k s = s) :=
  ⟨fun _ => if_pos h, fun _ _ => if_pos h, fun _ => if_pos h⟩

theorem exec_malformedFrame (dt : Nat) (p : Port) (bytes : List Byte) (bits : Fin 8) (s : State) :
    exec (.malformedFrame dt p bytes bits) s = .next (malformedFrame p bytes (s.elapse dt)) := rfl

theorem exec_fetch (dt : Nat) (p : Port) (offset : Option Word) (k : Nat) (s : State) :
    exec (.fetch dt p offset k) s = .next (fetchFrame p offset k (s.elapse dt)) := rfl

theorem exec_status (dt : Nat) (p : Port) (k : Nat) (s : State) :
    exec (.status dt p k) s = .next (statusFrame p k (s.elapse dt)) := rfl

/-! ## Every request is a SUBMIT (R178, R179) -/

theorem params0_eq_none {l : List Word} (h : l.length ≠ 0) : params0 l = none := by
  unfold params0; split
  · exact absurd rfl h
  · rfl

theorem params1_eq_none {l : List Word} (h : l.length ≠ 1) : params1 l = none := by
  unfold params1; split
  · exact absurd rfl h
  · rfl

theorem params2_eq_none {l : List Word} (h : l.length ≠ 2) : params2 l = none := by
  unfold params2; split
  · exact absurd rfl h
  · rfl

theorem params3_eq_none {l : List Word} (h : l.length ≠ 3) : params3 l = none := by
  unfold params3; split
  · exact absurd rfl h
  · rfl

theorem params4_eq_none {l : List Word} (h : l.length ≠ 4) : params4 l = none := by
  unfold params4; split
  · exact absurd rfl h
  · rfl

theorem paramsReference_eq_none {l : List Word} (h : l.length ≠ 3) : paramsReference l = none := by
  unfold paramsReference; split
  · exact absurd rfl h
  · rfl

theorem paramsData_eq_none {l : List Word} (h : l.length ≠ 5) : paramsData l = none := by
  unfold paramsData; split
  · exact absurd rfl h
  · rfl

/-- A request of the table other than SET_CHANNEL that does not decode has a wrong number of words. -/
theorem Request.length_ne {q : Request} (h : q.decodes = false) (hc : requestCodes.contains q.code = true)
    (hs : q.code ≠ 0x30#8) : q.params.length ≠ paramCount q.code := by
  have hc' := List.contains_iff_mem.mp hc
  simpa [Request.decodes, hc', hs] using h

theorem decodeDevice_eq_none {dt : Nat} {p : Port} {tag code : Byte} {ps : List Word}
    (h : Request.decodes ⟨dt, p, tag, code, ps⟩ = false) : decodeDevice code ps = none := by
  unfold decodeDevice
  split
  · next hc =>
    subst hc
    exact params0_eq_none (Request.length_ne h (show requestCodes.contains 0x01#8 = true by decide)
      (show (0x01#8 : Byte) ≠ 0x30#8 by decide))
  · rfl

theorem paramsChannel_eq_none {dt : Nat} {p : Port} {tag : Byte} {ps : List Word}
    (h : Request.decodes ⟨dt, p, tag, 0x30#8, ps⟩ = false) : paramsChannel ps = none := by
  have hc : 0x30#8 ∈ requestCodes := by decide
  simpa [Request.decodes, hc] using h

/-- The command is the request `q` at its port: a SUBMIT with some decoder, which refuses what R179 refuses, and
some owner. -/
def IsSubmit (i : Instr) (q : Request) : Prop :=
  ∃ (α : Type) (d : List Word → Option α) (o : α → State → Answer),
    (∀ s : State, exec i s = .next (submit q.port q.tag q.params d o (s.elapse q.dt))) ∧
      (q.decodes = false → d q.params = none)

/-- A request whose decoder refuses every number of words but its code's. -/
theorem isSubmit_of_count {α : Type} {i : Instr} {q : Request} {k : Nat} (d : List Word → Option α)
    (o : α → State → Answer)
    (he : ∀ s : State, exec i s = .next (submit q.port q.tag q.params d o (s.elapse q.dt)))
    (hd : ∀ {l : List Word}, l.length ≠ k → d l = none)
    (hk : requestCodes.contains q.code = true ∧ q.code ≠ 0x30#8 ∧ paramCount q.code = k) : IsSubmit i q := by
  obtain ⟨hc, hs, hk⟩ := hk
  exact ⟨α, d, o, he, fun h => hd (hk ▸ Request.length_ne h hc hs)⟩

theorem isSubmit_of_request {i : Instr} {q : Request} (h : i.request = some q) : IsSubmit i q := by
  cases i
  case getDeviceStatus =>
    cases h; exact ⟨_, _, _, fun _ => rfl, decodeDevice_eq_none⟩
  case setChannel =>
    cases h; exact ⟨_, _, _, fun _ => rfl, paramsChannel_eq_none⟩
  case resetDevice | getPeerChanges | profileAbandon | getEvents | getAuxStatus =>
    cases h; exact isSubmit_of_count _ _ (fun _ => rfl) params0_eq_none (by dsimp only; decide)
  case getReferenceStatus | getFeedStatus | getLinkCheck | getChannel | startChannel | stopChannel | take |
      getPoolStatus | getSlot | profileCommit =>
    cases h; exact isSubmit_of_count _ _ (fun _ => rfl) params1_eq_none (by dsimp only; decide)
  case getChannelStatus | retireSlot | restoreSlot | ackEvents | setEventMode =>
    cases h; exact isSubmit_of_count _ _ (fun _ => rfl) params2_eq_none (by dsimp only; decide)
  case getProfile | setEventEnables =>
    cases h; exact isSubmit_of_count _ _ (fun _ => rfl) params3_eq_none (by dsimp only; decide)
  case setFeed | profileBegin | setAuxLine =>
    cases h; exact isSubmit_of_count _ _ (fun _ => rfl) params4_eq_none (by dsimp only; decide)
  case setReference =>
    cases h; exact isSubmit_of_count _ _ (fun _ => rfl) paramsReference_eq_none (by dsimp only; decide)
  case profileData =>
    cases h; exact isSubmit_of_count _ _ (fun _ => rfl) paramsData_eq_none (by dsimp only; decide)
  all_goals exact absurd h (by simp [Instr.request])

/-! ## Peer changes (R182, R183) -/

theorem exec_getPeerChanges (dt : Nat) (p : Port) (tag : Byte) (params : List Word) (s : State) :
    exec (.getPeerChanges dt p tag params) s =
      .next (submit p tag params params0 (ownPeerChanges p) (s.elapse dt)) := rfl

/-- The port's record after an append: the newest eight entries stay. -/
theorem port_peerAppend (p : Port) (e : PeerEntry) (s : State) (h : (s.port p).peers.length ≤ 8) :
    (peerAppend p e s).port p = if (s.port p).peers.length = 8
      then { s.port p with peers := (s.port p).peers.tail ++ [e], overflow := true }
      else { s.port p with peers := (s.port p).peers ++ [e] } := by
  have hp : (peerAppend p e s).port p = if (s.port p).peers.length < 8
      then { s.port p with peers := (s.port p).peers ++ [e] }
      else { s.port p with peers := (s.port p).peers.drop ((s.port p).peers.length - 7) ++ [e], overflow := true } :=
    (State.port_modPort s p fun r =>
      if r.peers.length < 8 then { r with peers := r.peers ++ [e] }
      else { r with peers := r.peers.drop (r.peers.length - 7) ++ [e], overflow := true })
  by_cases h8 : (s.port p).peers.length = 8
  · rw [hp, if_pos h8, if_neg (by omega), h8, ← List.drop_one]
  · rw [hp, if_neg h8, if_pos (by omega)]

theorem unit_peerAppend (p : Port) (e : PeerEntry) (s : State) :
    (peerAppend p e s).unit p = (s.unit p).setFlag .peerChange := by cases p <;> rfl

theorem peerAppend_other (p : Port) (e : PeerEntry) (s : State) :
    (peerAppend p e s).port p.other = s.port p.other ∧ (peerAppend p e s).unit p.other = s.unit p.other := by
  cases p <;> exact ⟨rfl, rfl⟩

/-- GET_PEER_CHANGES at a port that takes it: the list and the indicator are answered, and both are emptied. -/
theorem submit_peerChanges {s : State} {p : Port} (tag : Byte) (h : Taken s p) :
    submit p tag [] params0 (ownPeerChanges p) s = s.modPort p fun r =>
      { r.answered (statusByte s p) .ok tag (wList PeerEntry.words r.peers ++ wFlag r.overflow) 0 with
        peers := [], overflow := false } := by
  rw [submit_owner p tag [] params0 (ownPeerChanges p) s h () rfl]
  cases p <;> rfl

/-! ## Event units (R190–R193) -/

theorem exec_getEvents (dt : Nat) (p : Port) (tag : Byte) (params : List Word) (s : State) :
    exec (.getEvents dt p tag params) s =
      .next (submit p tag params params0 (ownGetEvents p) (s.elapse dt)) := rfl

theorem isLocked_iff (d : DetState) : d.isLocked = true ↔ d = .locked32 ∨ d = .locked22 := by
  cases d <;> simp [DetState.isLocked]

theorem conditionsWord_device (s : State) : conditionsWord s 0 = if s.free = [] then 2#16 else 0#16 := by
  cases h : s.free <;> simp [conditionsWord, h, bitAt]

theorem conditionsWord_ref (s : State) (n : RefNo) (g : GroupNo) (hg : g.val = 1 + n.val) :
    conditionsWord s g = if s.refs[n].state = .locked then 1#16 else 0#16 := by
  have h0 : g.val ≠ 0 := by omega
  have h2 : g.val ≤ 2 := by omega
  have hn : g.val - 1 = n.val := by omega
  simp [conditionsWord, h0, h2, hn, bitAt]

theorem conditionsWord_channel (s : State) (c : Chan) (g : GroupNo) (hg : g.val = 3 + c.val) :
    conditionsWord s g = if s.chans[c].state = .holding then 8#16 else 0#16 := by
  have h0 : g.val ≠ 0 := by omega
  have h2 : ¬ g.val ≤ 2 := by omega
  have h10 : g.val ≤ 10 := by omega
  have hn : g.val - 3 = c.val := by omega
  simp [conditionsWord, h0, h2, h10, hn, bitAt]

theorem conditionsWord_feed (s : State) (f : Feed) (g : GroupNo) (hg : g.val = 11 + f.val) :
    conditionsWord s g = (if s.rxs[f].state = .locked then 1#16 else 0#16) |||
      (if s.dets[f].state = .locked32 ∨ s.dets[f].state = .locked22 then 4#16 else 0#16) := by
  have h0 : g.val ≠ 0 := by omega
  have h2 : ¬ g.val ≤ 2 := by omega
  have h10 : ¬ g.val ≤ 10 := by omega
  have hn : g.val - 11 = f.val := by omega
  simp [conditionsWord, h0, h2, h10, hn, bitAt, isLocked_iff]

/-- The group that GET_EVENTS reports: the first with an enabled flag set. -/
theorem liveGroups_eq_cons {u : EventUnit} {g : GroupNo} (hg : u.flags[g] &&& u.enables[g] ≠ 0#16)
    (hlt : ∀ h : GroupNo, h < g → u.flags[h] &&& u.enables[h] = 0#16) :
    ∃ rest, u.liveGroups = g :: rest := by
  have hmem : g ∈ u.liveGroups := List.mem_filter.mpr ⟨List.mem_finRange g, decide_eq_true hg⟩
  have hsort : u.liveGroups.Pairwise (· < ·) := (List.pairwise_lt_finRange 19).filter _
  cases hl : u.liveGroups with
  | nil => rw [hl] at hmem; exact absurd hmem (List.not_mem_nil)
  | cons h rest =>
    rw [hl] at hmem hsort
    rcases List.mem_cons.mp hmem with rfl | hr
    · exact ⟨rest, rfl⟩
    · have hh : h ∈ u.liveGroups := hl ▸ List.mem_cons_self
      have hlive : u.live h ≠ 0#16 := by simpa using (List.mem_filter.mp hh).2
      exact absurd (hlt h (List.rel_of_pairwise_cons hsort hr)) hlive

theorem liveGroups_eq_nil {u : EventUnit} (h : ∀ g : GroupNo, u.flags[g] &&& u.enables[g] = 0#16) :
    u.liveGroups = [] :=
  List.filter_eq_nil_iff.mpr fun g _ => by simpa using (show u.live g = 0#16 from h g)

theorem liveGroups_length (u : EventUnit) :
    u.liveGroups.length = (List.finRange 19).countP fun g => u.flags[g] &&& u.enables[g] ≠ 0#16 :=
  List.countP_eq_length_filter.symm

/-- What a clear of every flag of a group leaves (R191): POOL_EMPTY while the free list is empty. -/
theorem clearable_self (s : State) (g : GroupNo) (w : Word) :
    w &&& ~~~(clearable s g w) = if g = 0 ∧ s.free = [] then w &&& 2#16 else 0#16 := by
  rw [clearable_eq]
  split
  · ext i hi
    simp only [BitVec.getElem_and, BitVec.getElem_not]
    cases w[i] <;> simp
  · ext i hi; simp

/-- What GET_EVENTS leaves of the flags it reports (R191, R193). -/
def flagsLeft (s : State) (p : Port) (g : GroupNo) : Word :=
  match (s.unit p).mode with
  | .onRead => (s.unit p).flags[g] &&& ~~~(clearable s g (s.unit p).flags[g])
  | .byAck => (s.unit p).flags[g]

theorem flagsLeft_byAck {s : State} {p : Port} (g : GroupNo) (h : (s.unit p).mode = .byAck) :
    flagsLeft s p g = (s.unit p).flags[g] := by rw [flagsLeft, h]

theorem flagsLeft_onRead {s : State} {p : Port} (g : GroupNo) (h : (s.unit p).mode = .onRead) :
    flagsLeft s p g = if g = 0 ∧ s.free = [] then (s.unit p).flags[g] &&& 2#16 else 0#16 := by
  rw [flagsLeft, h]
  exact clearable_self s g _

theorem State.setUnit_unit (s : State) (p : Port) : s.setUnit p (s.unit p) = s := by cases p <;> rfl

/-- In either clear mode, what GET_EVENTS leaves is written back to the reported group. -/
theorem ownGetEvents_live {s : State} {p : Port} {g : GroupNo} {rest : List GroupNo}
    (h : (s.unit p).liveGroups = g :: rest) :
    ownGetEvents p () s = .ok [BitVec.ofInt 16 g.val, (s.unit p).flags[g], (s.unit p).enables[g], conditionsWord s g,
        BitVec.ofInt 16 (s.unit p).liveGroups.length]
      (s.setUnit p { s.unit p with flags := (s.unit p).flags.set g (flagsLeft s p g) }) := by
  have hl : ∀ m, (s.unit p).mode = m → (match m with
      | .onRead => clearFlags p g (s.unit p).flags[g] s
      | .byAck => s) = s.setUnit p { s.unit p with flags := (s.unit p).flags.set g (flagsLeft s p g) } := by
    intro m hm
    cases m with
    | onRead => rw [flagsLeft, hm]; rfl
    | byAck =>
      rw [flagsLeft_byAck g hm, Fin.getElem_fin, Vector.set_getElem_self]
      exact (State.setUnit_unit s p).symm
  simp only [ownGetEvents, h, ← hl _ rfl]
  rfl

theorem ownGetEvents_none {s : State} {p : Port} (h : (s.unit p).liveGroups = []) :
    ownGetEvents p () s = .ok [255#16, 0#16, 0#16, 0#16, 0#16] s := by
  simp only [ownGetEvents, h]
  rfl

theorem conditionsWord_taking (s : State) (p : Port) (k : Nat) (g : GroupNo) :
    conditionsWord (s.taking p k) g = conditionsWord s g := by cases p <;> rfl

theorem flagsLeft_taking (s : State) (p : Port) (k : Nat) (g : GroupNo) :
    flagsLeft (s.taking p k) p g = flagsLeft s p g := by cases p <;> rfl

/-! ## The status byte and the EVENT line (R176, R192) -/

theorem eventLine_iff (s : State) (p : Port) : eventLine s p = true ↔
    s.dev.resetN = false ∧ (s.unit p).master = true ∧
      ∃ g : GroupNo, (s.unit p).flags[g] &&& (s.unit p).enables[g] ≠ 0#16 := by
  have hlive : (!(s.unit p).liveGroups.isEmpty) = true ↔
      ∃ g : GroupNo, (s.unit p).flags[g] &&& (s.unit p).enables[g] ≠ 0#16 := by
    rw [Bool.not_eq_true', List.isEmpty_eq_false_iff, ne_eq, EventUnit.liveGroups, List.filter_eq_nil_iff]
    simp only [EventUnit.live, List.mem_finRange, true_implies, not_forall, not_not]
    exact exists_congr fun g => decide_eq_true_iff
  rw [eventLine, Bool.and_eq_true, Bool.and_eq_true, hlive, Bool.not_eq_true', and_assoc]

/-- The status byte of a mailbox code, the EVENT line, submit refused and framing error seen. -/
def packStatus (code : Nat) (event refused framing : Bool) : Byte :=
  BitVec.ofNat 8 (code * 64 + (if event then 32 else 0) + (if refused then 16 else 0) + (if framing then 8 else 0))

theorem statusByte_eq (s : State) (p : Port) : statusByte s p =
    packStatus (s.port p).mailbox.code (eventLine s p) (s.port p).submitRefused (s.port p).framingError := rfl

/-- The fields of the status byte stand side by side. -/
theorem packStatus_fields : ∀ (code : Fin 3) (event refused framing : Bool),
    let b := packStatus code.val event refused framing
    b.extractLsb' 6 2 = BitVec.ofNat 2 code.val ∧ b.getLsbD 5 = event ∧ b.getLsbD 4 = refused ∧
      b.getLsbD 3 = framing ∧ b.extractLsb' 0 3 = 0#3 := by decide

theorem Mailbox.code_lt (m : Mailbox) : m.code < 3 := by cases m <;> simp [Mailbox.code]

/-! ## Sources (R190) -/

/-- Each unit applies its own edge select to a change. -/
theorem unit_condition (s : State) (p : Port) (src : Source) (before after : Bool) :
    (condition src before after s).unit p =
      if before ≠ after ∧ (s.unit p).edgeOn src after = true then (s.unit p).setFlag src else s.unit p := by
  by_cases h : before = after
  · rw [condition, if_pos h, if_neg (fun hc => hc.1 h)]
  · rw [condition, if_neg h]
    cases p <;> simp [State.unit, PerPort.get, EventUnit.edge, h]

theorem condition_units (s : State) (src : Source) (before after : Bool) :
    condition src before after s = { s with units := (condition src before after s).units } := by
  unfold condition; split <;> rfl

theorem isCondition_iff (g : GroupNo) (i : Nat) : isCondition g i = true ↔
    (1 ≤ g.val ∧ g.val ≤ 2 ∧ i = 0) ∨ (3 ≤ g.val ∧ g.val ≤ 10 ∧ i = 3) ∨ (11 ≤ g.val ∧ (i = 0 ∨ i = 2)) := by
  unfold isCondition
  have := g.isLt
  split_ifs <;> simp <;> omega

end Sys2Proof.Machine

open Sys2Proof Sys2Proof.Machine

/-- Settles O13, from the bytes that each kind of frame returns. -/
theorem framesOnTheLink : Obligations.FramesOnTheLink := by
  refine ⟨rfl, ?_, ?_, ?_, ?_⟩
  · rintro s _ dt p bytes bits rfl _
    refine ⟨fun hr => ⟨returnedBytes (s.elapse dt) p bytes, ?_, fun hb => returnedBytes_head _ p hb,
      returnedBytes_length_le _ p bytes⟩, fun hr => ?_⟩
    · rw [exec_malformedFrame, malformedFrame_eq hr]
    · rw [exec_malformedFrame, (frames_resetN hr p).1]
  · rintro s _ dt p off k _ _ rfl hr rfl rfl
    rw [exec_fetch, fetchFrame_eq hr, returnedBytes_fetch]
    cases ((s.elapse dt).port p).held <;> rfl
  · rintro s _ dt p k rfl hr
    rw [exec_status, statusFrame_eq hr, returnedBytes_status]
    cases p <;> cases (s.elapse dt).dev.state <;> rfl
  · rintro s _ dt p off k rfl hr
    obtain ⟨_, hfetch, hstatus⟩ := frames_resetN hr p
    rw [exec_fetch, exec_status, hfetch, hstatus]
    exact ⟨rfl, rfl⟩

/-- Settles O14: every request is a SUBMIT, and a SUBMIT at a BUSY mailbox is refused. -/
theorem busyMailboxRefusesEveryRequest : Obligations.BusyMailboxRefusesEveryRequest := by
  rintro i q s _ hq rfl
  obtain ⟨α, d, o, hexec, _⟩ := isSubmit_of_request hq
  refine ⟨fun r hr hb => ?_, fun hr => ?_⟩
  · rw [hexec, submit_busy q.port q.tag q.params d o _ r hr hb]
  · rw [hexec, submit_resetN q.port q.tag q.params d o _ hr]

/-- Settles O15: every request is a SUBMIT whose decoder refuses what R179 refuses. -/
theorem portsAnswerWithoutAnOwner : Obligations.PortsAnswerWithoutAnOwner := by
  refine ⟨?_, ?_⟩
  · rintro i q s _ hq rfl hr hs hm
    obtain ⟨α, d, o, hexec, _⟩ := isSubmit_of_request hq
    rw [hexec, submit_notReady q.port q.tag q.params d o _ hr hm hs]
  · rintro i q s _ hq rfl ht hd
    obtain ⟨α, d, o, hexec, hnone⟩ := isSubmit_of_request hq
    rw [hexec, submit_invalid q.port q.tag q.params d o _ ht (hnone hd)]

/-- Settles O16, from the append and from the owner of GET_PEER_CHANGES. -/
theorem peerChangeLists : Obligations.PeerChangeLists := by
  refine ⟨⟨fun _ _ _ => rfl, rfl, rfl⟩, ?_, fun s p e h => ?_⟩
  · rintro s _ dt p tag rfl ht
    rw [exec_getPeerChanges, submit_peerChanges tag ht]
    rfl
  · exact ⟨port_peerAppend p e s h, unit_peerAppend p e s, peerAppend_other p e s⟩

/-- Settles O17, from the conditions word of each group and the first live group. -/
theorem getEventsReportsTheFirstGroup : Obligations.GetEventsReportsTheFirstGroup := by
  refine ⟨fun s => ⟨conditionsWord_device s, conditionsWord_ref s, conditionsWord_channel s, conditionsWord_feed s⟩, ?_⟩
  rintro s _ dt p tag rfl ht
  refine ⟨fun g hg hlt => ⟨flagsLeft (s.elapse dt) p g, ?_, flagsLeft_byAck g, flagsLeft_onRead g⟩, fun hnone => ?_⟩
  · obtain ⟨rest, hlive⟩ := liveGroups_eq_cons hg hlt
    rw [exec_getEvents, submit_setsUnit p tag [] params0 (ownGetEvents p) _ ht () rfl _ _
      (ownGetEvents_live (by rw [State.unit_taking]; exact hlive)), conditionsWord_taking, flagsLeft_taking,
      State.unit_taking, liveGroups_length]
    rfl
  · rw [exec_getEvents, submit_reads p tag [] params0 (ownGetEvents p) _ ht () rfl _ _
      (ownGetEvents_none (by rw [State.unit_taking]; exact liveGroups_eq_nil hnone))]
    rfl

/-- Settles O20, from the packing of the status byte and the edge rule of a condition source. -/
theorem eventLineAndConditions : Obligations.EventLineAndConditions := by
  refine ⟨⟨fun src => by cases src <;> rfl, by decide, isCondition_iff, fun _ _ => rfl, fun _ _ => ⟨rfl, rfl, rfl⟩⟩,
    fun s p => ⟨eventLine_iff s p, ?_⟩, fun s p src before after _ => ⟨unit_condition s p src before after,
      condition_units s src before after⟩⟩
  obtain ⟨hmailbox, hrest⟩ := packStatus_fields ⟨_, Mailbox.code_lt (s.port p).mailbox⟩ (eventLine s p)
    (s.port p).submitRefused (s.port p).framingError
  rw [statusByte_eq]
  refine ⟨hmailbox.trans ?_, hrest⟩
  cases (s.port p).mailbox <;> rfl

end

section
/-! The reference timebase: pulses, epochs, and the output frame starts that follow them (R2–R13). -/

namespace Sys2Proof.Machine

/-! ## Pulses that are counted (R7–R10) -/

theorem exec_refPulse (dt : Nat) (n : RefNo) (s : State) :
    exec (.refPulse dt n) s = .next (refPulse n (s.elapse dt)) := rfl

theorem State.isReady_iff (s : State) : s.isReady = true ↔ s.dev.state = .ready := decide_eq_true_iff

theorem near_iff (t x : Nat) : near t x = true ↔ absDiff t x ≤ 270 := decide_eq_true_iff

theorem condition_same (src : Source) (b : Bool) (s : State) : condition src b b s = s := if_pos rfl

section
variable {s : State} {n : RefNo} {t l : Nat}

/-- A pulse outside LOCKED does not change the REF_LOCK condition. -/
theorem enterLocking_unlocked (h : s.refs[n].state ≠ .locked) :
    enterLocking n t s = s.modRef n fun r => { r with state := .locking, lastPulse := some t, good := 0 } := by
  simp only [enterLocking, h, decide_false, condition_same]

theorem pulseLocking_good (hl : s.refs[n].lastPulse = some l) (hn : absDiff (t - l) s.refs[n].tAlign ≤ 270)
    (hg : s.refs[n].good ≠ 3) :
    pulseLocking n t s = s.modRef n fun r => { r with lastPulse := some t, good := r.good + 1 } := by
  have hnear : near (t - l) s.refs[n].tAlign = true := (near_iff _ _).mpr hn
  have hfour : ¬ s.refs[n].good + 1 = 4 := by omega
  simp only [pulseLocking, hl, Option.isSome_some, Option.getD_some, hnear, Bool.and_self, if_true, if_neg hfour]

theorem pulseLocking_fourth (hl : s.refs[n].lastPulse = some l) (hn : absDiff (t - l) s.refs[n].tAlign ≤ 270)
    (hg : s.refs[n].good = 3) : pulseLocking n t s = adopt n t (t - l) s := by
  have hnear : near (t - l) s.refs[n].tAlign = true := (near_iff _ _).mpr hn
  have hfour : s.refs[n].good + 1 = 4 := by omega
  simp only [pulseLocking, hl, Option.isSome_some, Option.getD_some, hnear, Bool.and_self, if_true, if_pos hfour]

theorem pulseLocking_bad (hl : s.refs[n].lastPulse = some l) (hn : 270 < absDiff (t - l) s.refs[n].tAlign) :
    pulseLocking n t s = s.modRef n fun r => { r with lastPulse := some t, good := 0 } := by
  have hnear : near (t - l) s.refs[n].tAlign = false := decide_eq_false (Nat.not_le.mpr hn)
  simp only [pulseLocking, hl, Option.isSome_some, Option.getD_some, hnear, Bool.and_false, Bool.false_eq_true,
    if_false]

/-- The time X at which a LOCKED reference expects its pulse (R10). -/
def expectedPulse (r : Reference) : Nat := if r.kind = .provisional then r.epoch else r.epoch + r.interval

theorem pulseLocked_outside (h : 270 < absDiff t (expectedPulse s.refs[n])) :
    pulseLocked n t s = pulseOutside n t s := by
  have hnear : ¬ near t (expectedPulse s.refs[n]) = true := fun hn => Nat.not_le.mpr h ((near_iff _ _).mp hn)
  unfold expectedPulse at hnear
  simp only [pulseLocked]
  split at hnear
  · next hk => rw [if_pos hk, if_neg hnear]
  · next hk => rw [if_neg hk, if_neg hnear]

theorem pulseOutside_first (h : s.refs[n].oot = 0) :
    pulseOutside n t s = s.modRef n fun r => { r with oot := 1 } := by
  rw [pulseOutside, if_neg (by rw [h]; decide)]
  simp only [State.modRef, modifyAt, h]

/-- The second pulse in a row outside the window unlocks the reference. -/
theorem pulseOutside_second (h : s.refs[n].oot = 1) (hs : s.refs[n].state = .locked) :
    pulseOutside n t s = condition (.refLock n) true false (s.modRef n fun r =>
      { r with state := .locking, lastPulse := some t, good := 0, oot := 0 }) := by
  have hwas : ((s.modRef n fun r => { r with oot := 0 }).refs[n].state = .locked) = True := by
    refine eq_true ?_
    show (modifyAt s.refs n _)[n].state = .locked
    rw [modifyAt_same]; exact hs
  rw [pulseOutside, if_pos (by rw [h])]
  simp only [enterLocking, hwas, decide_true]
  simp only [State.modRef, modifyAt, Fin.getElem_fin, Vector.getElem_set_self, Vector.set_set]

theorem refPulse_ready (h : s.dev.state = .ready) : refPulse n s = match s.refs[n].state with
    | .absent | .holdover => enterLocking n s.now s
    | .locking => pulseLocking n s.now s
    | .locked => pulseLocked n s.now s :=
  if_pos ((State.isReady_iff s).mpr h)

theorem refPulse_starting (h : s.dev.state = .starting) : refPulse n s = s :=
  if_neg (by simp [State.isReady, h])

end

/-! ## Epochs and the outputs that follow them (R5, R6, R12) -/

/-- What `FramesFollow` says of a state depends on its channels, timings, lanes and queue. -/
theorem FramesFollow.congr {f : OutTiming → Reference → Bank → OutTiming} {n : RefNo} {s s' u : State}
    (h : FramesFollow f n s u) (hc : s'.chans = s.chans) (ht : s'.timing = s.timing) (hl : s'.lanes = s.lanes)
    (hq : s'.queue = s.queue) : FramesFollow f n s' u := by
  unfold FramesFollow bankOf at *
  rw [hc, ht, hl, hq]
  exact h

/-- A reference changes by `g`, and its bound outputs follow by the rule `f`: nothing else changes. -/
def follow (f : OutTiming → Reference → Bank → OutTiming) (n : RefNo) (g : Reference → Reference) (s : State) : State :=
  forEach (boundTo s n) (retimeWith f) (s.modRef n g)

theorem follow_spec (f : OutTiming → Reference → Bank → OutTiming) (n : RefNo) (g : Reference → Reference)
    (s : State) :
    follow f n g s = { s with
        refs := s.refs.set n (g s.refs[n]), timing := (follow f n g s).timing, queue := (follow f n g s).queue
        lanes := (follow f n g s).lanes } ∧
      FramesFollow f n s (follow f n g s) := by
  obtain ⟨u, hu, hfields, hfollow⟩ := forEach_framesFollow f n (s.modRef n g)
  have hu' : follow f n g s = u := hu
  rw [hu']
  exact ⟨hfields, hfollow.congr rfl rfl rfl rfl⟩

theorem moveEpoch_eq (n : RefNo) (t : Nat) (kind : EpochKind) (i : Nat) (s : State) :
    moveEpoch n t kind i s =
      follow OutTiming.recompute n (fun r => { r with epoch := t, kind := kind, interval := i }) s := rfl

theorem newPeriod_eq (n : RefNo) (t : Nat) (kind : EpochKind) (i : Nat) (s : State) :
    newPeriod n t kind i s =
      follow OutTiming.enterPeriod n (fun r => { r with epoch := t, kind := kind, interval := i }) s := rfl

theorem retime_eq (n : RefNo) (t i : Nat) (s : State) :
    retime n t i s = raise (.refRetimed n)
      (follow OutTiming.retimed n (fun r => { r with epoch := t, kind := .pulse, interval := i }) s) := rfl

/-- An accepted pulse is stamped after the epoch has moved; the outputs follow the epoch and the interval only. -/
theorem follow_accept {f : OutTiming → Reference → Bank → OutTiming} (n : RefNo) (g a : Reference → Reference)
    (s : State) (ha : ∀ (x : OutTiming) (r : Reference) (b : Bank), f x (a r) b = f x r b) :
    ∃ u : State, (follow f n g s).modRef n a = u ∧
      u = { s with refs := u.refs, timing := u.timing, queue := u.queue, lanes := u.lanes } ∧
      u.refs = s.refs.set n (a (g s.refs[n])) ∧ FramesFollow f n s u := by
  obtain ⟨hfields, hframes, hlanes, hqueue⟩ := follow_spec f n g s
  generalize follow f n g s = v at *
  have hrefs : v.refs = s.refs.set n (g s.refs[n]) := by rw [hfields]
  refine ⟨_, rfl, ?_, ?_, ?_, hlanes, hqueue⟩
  · rw [hfields]; rfl
  · show modifyAt v.refs n a = _
    rw [hrefs, modifyAt]
    simp only [Fin.getElem_fin, Vector.getElem_set_self, Vector.set_set]
  · intro c
    show v.timing[c] = _
    rw [hframes c]
    split
    · show _ = f _ (modifyAt v.refs n a)[n] _
      rw [modifyAt_same, ha]
    · rfl

theorem recompute_stamped (x : OutTiming) (r : Reference) (b : Bank) (l : Option Nat) (k : Nat) :
    x.recompute { r with lastPulse := l, oot := k } b = x.recompute r b := rfl

theorem enterPeriod_stamped (x : OutTiming) (r : Reference) (b : Bank) (l : Option Nat) (k : Nat) :
    x.enterPeriod { r with lastPulse := l, oot := k } b = x.enterPeriod r b := rfl

/-- Flags are raised by a change of the reference as they are without it. -/
theorem condition_modRef_units (src : Source) (b a : Bool) (n : RefNo) (g : Reference → Reference) (s : State) :
    (condition src b a (s.modRef n g)).units = (condition src b a s).units := by
  unfold condition; split <;> rfl

theorem condition_eq_units (src : Source) (b a : Bool) (s : State) :
    condition src b a s = { s with units := (condition src b a s).units } := condition_units s src b a

/-- A pulse that locks a reference, before the choice of late, early or retime (R11). -/
def locking (n : RefNo) (t : Nat) (s : State) : State :=
  condition (.refLock n) false true (s.modRef n fun r => { r with state := .locked, lastPulse := some t, good := 4 })

theorem locking_eq (n : RefNo) (t : Nat) (s : State) : locking n t s =
    { s with
      refs := s.refs.set n { s.refs[n] with state := .locked, lastPulse := some t, good := 4 }
      units := (condition (.refLock n) false true s).units } := by
  rw [locking, condition_eq_units, condition_modRef_units]
  rfl

/-- The outputs follow an adoption; the reference is LOCKED to the pulse, and REF_LOCK becomes true. -/
theorem follow_locking (f : OutTiming → Reference → Bank → OutTiming) (n : RefNo) (t i : Nat) (s : State) :
    ∃ u : State, follow f n (fun r => { r with epoch := t, kind := .pulse, interval := i }) (locking n t s) = u ∧
      u = { s with refs := u.refs, timing := u.timing, queue := u.queue, lanes := u.lanes, units := u.units } ∧
      u.refs = s.refs.set n { s.refs[n] with
        state := .locked, kind := .pulse, epoch := t, interval := i, lastPulse := some t, good := 4 } ∧
      FramesFollow f n s u ∧ u.units = (condition (.refLock n) false true s).units := by
  obtain ⟨hfields, hfollow⟩ :=
    follow_spec f n (fun r => { r with epoch := t, kind := .pulse, interval := i }) (locking n t s)
  generalize follow f n _ (locking n t s) = v at *
  rw [locking_eq] at hfields hfollow
  refine ⟨v, rfl, ?_, ?_, hfollow.congr rfl rfl rfl rfl, ?_⟩
  · rw [hfields]
  · rw [hfields]
    simp only [Fin.getElem_fin, Vector.getElem_set_self, Vector.set_set]
  · rw [hfields]

section
variable {s : State} {n : RefNo} {t i : Nat}

theorem adopt_late (h : t ≤ s.refs[n].epoch + 270) : adopt n t i s = moveEpoch n t .pulse i (locking n t s) :=
  if_pos (by omega)

theorem adopt_early (h : s.refs[n].epoch + 270 < t) (hi : s.refs[n].epoch + s.refs[n].interval ≤ t + 270) :
    adopt n t i s = newPeriod n t .pulse i (locking n t s) :=
  (if_neg (by omega)).trans (if_pos (by omega))

theorem adopt_retime (h : s.refs[n].epoch + 270 < t) (hi : t + 270 < s.refs[n].epoch + s.refs[n].interval) :
    adopt n t i s = retime n t i (locking n t s) :=
  (if_neg (by omega)).trans (if_neg (by omega))

end

/-- A pulse inside the window of a LOCKED reference whose epoch is not PROVISIONAL begins the next period (R10). -/
theorem pulseLocked_period {s : State} {n : RefNo} {t : Nat} (hk : s.refs[n].kind ≠ .provisional)
    (hn : absDiff t (s.refs[n].epoch + s.refs[n].interval) ≤ 270) :
    pulseLocked n t s = (newPeriod n t .pulse (s.refs[n].clampInterval ((t : Int) - s.refs[n].epoch)) s).modRef n
      fun r => { r with lastPulse := some t, oot := 0 } := by
  simp only [pulseLocked, if_neg hk, if_pos ((near_iff _ _).mpr hn)]

/-- With the epoch PROVISIONAL it moves the epoch (R10). -/
theorem pulseLocked_provisional {s : State} {n : RefNo} {t : Nat} (hk : s.refs[n].kind = .provisional)
    (hn : absDiff t s.refs[n].epoch ≤ 270) :
    pulseLocked n t s = (moveEpoch n t .pulse
      (s.refs[n].clampInterval ((t : Int) - ((s.refs[n].epoch : Int) - s.refs[n].interval))) s).modRef n
      fun r => { r with lastPulse := some t, oot := 0 } := by
  simp only [pulseLocked, if_pos hk, if_pos ((near_iff _ _).mpr hn)]

/-- An epoch without a pulse begins a new alignment period at E + I. -/
theorem newPeriod_spec (n : RefNo) (t : Nat) (kind : EpochKind) (s : State) :
    ∃ u : State, newPeriod n t kind s.refs[n].interval s = u ∧
      u = { s with refs := u.refs, timing := u.timing, queue := u.queue, lanes := u.lanes } ∧
      u.refs = s.refs.set n { s.refs[n] with epoch := t, kind := kind } ∧
      FramesFollow OutTiming.enterPeriod n s u := by
  obtain ⟨hfields, hfollow⟩ := follow_spec OutTiming.enterPeriod n
    (fun r => { r with epoch := t, kind := kind, interval := s.refs[n].interval }) s
  rw [newPeriod_eq]
  generalize follow OutTiming.enterPeriod n _ s = v at *
  exact ⟨v, rfl, by rw [hfields], by rw [hfields], hfollow⟩

theorem exec_syntheticEpoch (dt : Nat) (n : RefNo) (s : State) :
    exec (.syntheticEpoch dt n) s = .next (syntheticEpoch n (s.elapse dt)) := rfl

theorem exec_provisionalEpoch (dt : Nat) (n : RefNo) (s : State) :
    exec (.provisionalEpoch dt n) s = .next (provisionalEpoch n (s.elapse dt)) := rfl

theorem exec_windowExpiry (dt : Nat) (n : RefNo) (s : State) :
    exec (.windowExpiry dt n) s = .next (windowExpiry n (s.elapse dt)) := rfl

theorem syntheticDue_iff (s : State) (n : RefNo) : syntheticDue s n = true ↔
    s.dev.state = .ready ∧ s.refs[n].state ≠ .locked ∧ s.refs[n].epoch + s.refs[n].interval ≤ s.dev.houseTime := by
  simp only [syntheticDue, Bool.and_eq_true, State.isReady_iff, decide_eq_true_eq, and_assoc]
  rfl

theorem provisionalDue_iff (s : State) (n : RefNo) : provisionalDue s n = true ↔
    s.dev.state = .ready ∧ (s.refs[n].state = .locked ∧ s.refs[n].kind ≠ .provisional) ∧
      s.refs[n].epoch + s.refs[n].interval ≤ s.dev.houseTime := by
  simp only [provisionalDue, Bool.and_eq_true, State.isReady_iff, decide_eq_true_eq, and_assoc]
  rfl

theorem windowDue_iff (s : State) (n : RefNo) : windowDue s n = true ↔
    s.dev.state = .ready ∧ s.refs[n].state = .locked ∧ s.refs[n].kind = .provisional ∧
      s.refs[n].epoch + 270 ≤ s.dev.houseTime := by
  simp only [windowDue, Bool.and_eq_true, State.isReady_iff, decide_eq_true_eq, and_assoc]
  rfl

end Sys2Proof.Machine

open Sys2Proof Sys2Proof.Machine

/-- Settles O23, from what a pulse does in each state of its reference. -/
theorem pulsesThatAreCounted : Obligations.PulsesThatAreCounted := by
  refine ⟨⟨?_, ?_⟩, ?_⟩
  · rintro s _ dt n rfl
    refine ⟨fun hr hs => ?_, fun hs => ?_⟩
    · rw [exec_refPulse, refPulse_ready hr]
      rcases hs with hs | hs
      all_goals
        rw [hs]
        exact congrArg Host.Outcome.next (enterLocking_unlocked (by rw [hs]; decide))
    · rw [exec_refPulse, refPulse_starting hs]
  · rintro s _ dt l n rfl hr hs hl
    rw [exec_refPulse, refPulse_ready hr, hs]
    exact ⟨fun hn hg => congrArg Host.Outcome.next (pulseLocking_good hl hn hg),
      fun hn => congrArg Host.Outcome.next (pulseLocking_bad hl hn)⟩
  · rintro s _ dt n _ rfl hr hs rfl hout
    rw [exec_refPulse, refPulse_ready hr, hs]
    have hlocked := pulseLocked_outside (t := (s.elapse dt).dev.houseTime) hout
    exact ⟨fun h0 => congrArg Host.Outcome.next (hlocked.trans (pulseOutside_first h0)),
      fun h1 => congrArg Host.Outcome.next (hlocked.trans (pulseOutside_second h1 hs))⟩

/-- Settles O24: the fourth good interval adopts the pulse, in one of three ways by where the pulse lies between the
epoch and the next. -/
theorem fourthGoodIntervalAdopts : Obligations.FourthGoodIntervalAdopts := by
  rintro s _ dt l n rfl hr hs hl hg hn
  rw [exec_refPulse]
  generalize s.elapse dt = t at *
  have hexec : refPulse n t = adopt n t.dev.houseTime (t.dev.houseTime - l) t := by
    rw [refPulse_ready hr, hs]
    exact pulseLocking_fourth hl hn hg
  rcases Nat.lt_or_ge (t.refs[n].epoch + 270) t.dev.houseTime with hafter | hlate
  · rcases Nat.lt_or_ge (t.dev.houseTime + 270) (t.refs[n].epoch + t.refs[n].interval) with hmid | hearly
    · obtain ⟨v, hv, hfields, hrefs, hfollow, hunits⟩ :=
        follow_locking OutTiming.retimed n t.dev.houseTime (t.dev.houseTime - l) t
      refine ⟨raise (.refRetimed n) v, ?_, ?_, hrefs, fun h => absurd h (by omega), fun _ h => absurd h (by omega),
        fun _ _ => ⟨hfollow, ?_⟩⟩
      · rw [hexec, adopt_retime hafter hmid, retime_eq, hv]
      · rw [hfields]; rfl
      · rw [raise, raise, hunits]
    · obtain ⟨v, hv, hfields, hrefs, hfollow, hunits⟩ :=
        follow_locking OutTiming.enterPeriod n t.dev.houseTime (t.dev.houseTime - l) t
      refine ⟨v, ?_, hfields, hrefs, fun h => absurd h (by omega), fun _ _ => ⟨hfollow, hunits⟩,
        fun _ h => absurd h (by omega)⟩
      rw [hexec, adopt_early hafter hearly, newPeriod_eq, hv]
  · obtain ⟨v, hv, hfields, hrefs, hfollow, hunits⟩ :=
      follow_locking OutTiming.recompute n t.dev.houseTime (t.dev.houseTime - l) t
    refine ⟨v, ?_, hfields, hrefs, fun _ => ⟨hfollow, hunits⟩, fun h => absurd h (by omega),
      fun h => absurd h (by omega)⟩
    rw [hexec, adopt_late hlate, moveEpoch_eq, hv]

/-- Settles O25: the pulse lies inside its window, and the outputs follow the new epoch. -/
theorem pulseInWindowSetsTheEpoch : Obligations.PulseInWindowSetsTheEpoch := by
  rintro s _ dt n x rfl hr hs
  rw [exec_refPulse, refPulse_ready hr, hs]
  generalize s.elapse dt = t at *
  refine ⟨?_, ?_⟩
  · rintro hk rfl hlo hhi
    have hn : absDiff t.dev.houseTime (t.refs[n].epoch + t.refs[n].interval) ≤ 270 := by
      unfold absDiff; split <;> omega
    obtain ⟨u, hu, hspec⟩ := follow_accept n (fun r => { r with
      epoch := t.dev.houseTime, kind := .pulse
      interval := t.refs[n].clampInterval ((t.dev.houseTime : Int) - t.refs[n].epoch) })
      (fun r => { r with lastPulse := some t.dev.houseTime, oot := 0 }) t
      (fun x r b => enterPeriod_stamped x r b (some t.dev.houseTime) 0)
    exact ⟨u, congrArg Host.Outcome.next ((pulseLocked_period hk hn).trans hu), hspec⟩
  · rintro hk rfl hlo hhi
    have hn : absDiff t.dev.houseTime t.refs[n].epoch ≤ 270 := by
      unfold absDiff; split <;> omega
    obtain ⟨u, hu, hspec⟩ := follow_accept n (fun r => { r with
      epoch := t.dev.houseTime, kind := .pulse
      interval := t.refs[n].clampInterval ((t.dev.houseTime : Int) - ((t.refs[n].epoch : Int) - t.refs[n].interval)) })
      (fun r => { r with lastPulse := some t.dev.houseTime, oot := 0 }) t
      (fun x r b => recompute_stamped x r b (some t.dev.houseTime) 0)
    exact ⟨u, congrArg Host.Outcome.next ((pulseLocked_provisional hk hn).trans hu), hspec⟩

/-- Settles O26: a due epoch begins a new period, and one that is not due changes nothing. -/
theorem epochsWithoutAPulse : Obligations.EpochsWithoutAPulse := by
  rintro s _ dt n i kind ok rfl hi
  have hcase : ∃ due : Bool, (due = true ↔ (s.elapse dt).dev.state = .ready ∧ ok ∧
        (s.elapse dt).refs[n].epoch + (s.elapse dt).refs[n].interval ≤ (s.elapse dt).dev.houseTime) ∧
      exec i s = .next (if due = true then newPeriod n
        ((s.elapse dt).refs[n].epoch + (s.elapse dt).refs[n].interval) kind (s.elapse dt).refs[n].interval
        (s.elapse dt) else s.elapse dt) := by
    rcases hi with ⟨rfl, rfl, hok⟩ | ⟨rfl, rfl, hok⟩
    · exact ⟨syntheticDue (s.elapse dt) n, by rw [hok]; exact syntheticDue_iff _ n, rfl⟩
    · exact ⟨provisionalDue (s.elapse dt) n, by rw [hok]; exact provisionalDue_iff _ n, rfl⟩
  obtain ⟨due, hdue, hexec⟩ := hcase
  refine ⟨fun h => ?_, fun h => ?_⟩
  · obtain ⟨u, hu, hspec⟩ := newPeriod_spec n
      ((s.elapse dt).refs[n].epoch + (s.elapse dt).refs[n].interval) kind (s.elapse dt)
    exact ⟨u, by rw [hexec, if_pos (hdue.mpr h), hu], hspec⟩
  · rw [hexec, if_neg (fun hd => h (hdue.mp hd))]

/-- Settles O27, from when the window is due. -/
theorem windowExpiryGoesToHoldover : Obligations.WindowExpiryGoesToHoldover := by
  rintro s _ dt n rfl
  refine ⟨fun h => ?_, fun h => ?_⟩
  · rw [exec_windowExpiry, windowExpiry, if_pos ((windowDue_iff _ n).mpr h)]
  · rw [exec_windowExpiry, windowExpiry_not_due (fun hd => h ((windowDue_iff _ n).mp hd))]

end

section
/-! SET_REFERENCE, and the sequence of an output's frame starts (R4, R5, R12, R13). -/

namespace Sys2Proof.Machine

/-! ## The sequence of frame starts (R5) -/

/-- Every standard's period is longer than the tolerance of a reference. -/
theorem pOut_gt (b : Bank) : 270 < b.pOut := by
  have h : ∀ i : StdId, 270 < Config.pNom i := by decide
  exact h b.outStd

/-- The least multiple of `d` that reaches `x`. -/
theorem ceilDiv_spec {x d q : Nat} (hd : 0 < d) (hq : q = (x + d - 1) / d) :
    x ≤ q * d ∧ ∀ k, x ≤ k * d → q ≤ k := by
  subst hq
  refine ⟨?_, fun k hk => ?_⟩
  · have := Nat.lt_div_mul_add hd (a := x + d - 1)
    omega
  · have : (x + d - 1) / d < k + 1 := by
      rw [Nat.div_lt_iff_lt_mul hd, Nat.succ_mul]
      omega
    omega

/-- The frame starts of one alignment period fill it (R3). -/
theorem framesPerPeriod_mul {r : Reference} {b : Bank} (h : r.tAlign % b.pOut = 0) :
    framesPerPeriod r b * b.pOut = r.tAlign :=
  Nat.div_mul_cancel (Nat.dvd_of_mod_eq_zero h)

/-- A reference's alignment period and interval are positive, and the last frame start of a period lies before the
next period's epoch. -/
theorem RefOk.interval_pos {r : Reference} (h : RefOk r) : 270 < r.tAlign ∧ 0 < r.interval := by
  obtain ⟨halign, hle, _⟩ := h
  have : r.tAlign = 1080000 ∨ r.tAlign = 4504500 ∨ r.tAlign = 4500000 := by
    simpa [Config.tAlignOk, or_assoc] using halign
  omega

/-- `firstAt` names a frame start of the sequence, at or after the bound, and none such lies before it. -/
theorem firstAt_least {r : Reference} {b : Bank} {bound m j : Nat} (hr : RefOk r) (hc : r.tAlign % b.pOut = 0)
    (h : (m, j) = firstAt r b bound) :
    j < framesPerPeriod r b ∧ bound ≤ gridTime r b m j ∧
      ∀ m' j', j' < framesPerPeriod r b → bound ≤ gridTime r b m' j' → gridTime r b m j ≤ gridTime r b m' j' := by
  have hP := pOut_gt b
  obtain ⟨hT, hI⟩ := hr.interval_pos
  obtain ⟨_, hspan, _⟩ := hr
  have hfill := framesPerPeriod_mul hc
  have hn : 0 < framesPerPeriod r b := Nat.pos_of_ne_zero fun h0 => by rw [h0] at hfill; omega
  obtain ⟨hm, hj⟩ := Prod.mk.inj h
  rw [← hm] at hj
  obtain ⟨hmle, hmleast⟩ := ceilDiv_spec hI hm
  obtain ⟨hjle, hjleast⟩ := ceilDiv_spec (by omega) hj
  generalize framesPerPeriod r b = n at *
  have hlast : (n - 1) * b.pOut + b.pOut = r.tAlign := by
    rw [← Nat.succ_mul, ← hfill]; congr 1; omega
  simp only [gridTime, Nat.zero_mul, Nat.add_zero] at *
  have hjn : j ≤ n - 1 := hjleast (n - 1) (by omega)
  have hjP : j * b.pOut ≤ (n - 1) * b.pOut := Nat.mul_le_mul_right _ hjn
  refine ⟨by omega, by omega, fun m' j' hj' hb => ?_⟩
  have hj'P : j' * b.pOut ≤ (n - 1) * b.pOut := Nat.mul_le_mul_right _ (by omega)
  have hmm : m ≤ m' := hmleast m' (by omega)
  rcases Nat.eq_or_lt_of_le hmm with rfl | hlt
  · have := hjleast j' (by omega)
    have := Nat.mul_le_mul_right b.pOut this
    omega
  · have hstep : (m + 1) * r.interval ≤ m' * r.interval := Nat.mul_le_mul_right _ hlt
    rw [Nat.succ_mul] at hstep
    omega

/-! ## The rules by which an output's next frame start follows its reference (R5, R6, R12, R13) -/

section
variable {t : OutTiming} {r : Reference} {b : Bank}

theorem recompute_at {m j : Nat} (h : t.grid = .at m j) : t.recompute r b = { t with next := gridTime r b m j } := by
  obtain ⟨last, next, grid, p⟩ := t
  cases h
  rfl

theorem enterPeriod_at_succ {m j : Nat} (h : t.grid = .at (m + 1) j) :
    t.enterPeriod r b = { t with next := gridTime r b m j, grid := .at m j } := by
  simp only [OutTiming.enterPeriod, h, OutTiming.place]

theorem enterPeriod_at_zero {j : Nat} (h : t.grid = .at 0 j) : t.enterPeriod r b = { t with grid := .past } := by
  simp only [OutTiming.enterPeriod, h]

theorem recompute_enterPeriod_off (h : t.grid = .free ∨ t.grid = .past) :
    t.recompute r b = t ∧ t.enterPeriod r b = t := by
  rcases h with h | h <;> simp only [OutTiming.recompute, OutTiming.enterPeriod, h, and_self]

theorem retimed_free (h : t.grid = .free) : t.retimed r b = t := by
  simp only [OutTiming.retimed, h]

theorem retimed_first (h : t.grid ≠ .free) (hl : t.last = none) : t.retimed r b = t.place r b (0, 0) := by
  rcases hg : t.grid with _ | _ | ⟨m, j⟩
  · exact absurd hg h
  · simp only [OutTiming.retimed, hg, hl]
  · simp only [OutTiming.retimed, hg, hl]

theorem earliest_some {l : Nat} (p now : Nat) (hl : t.last = some l) :
    t.earliest p now = max now (l + (max t.lastPeriod p + 1) / 2) := by
  simp only [OutTiming.earliest, hl, ceilHalf]

theorem earliest_eq (p now : Nat) : t.earliest p now =
    (match t.last with
      | some l => max now (l + (max t.lastPeriod p + 1) / 2)
      | none => now) := by
  cases hl : t.last <;> simp only [OutTiming.earliest, hl, ceilHalf]

theorem retimed_after {l : Nat} (h : t.grid ≠ .free) (hl : t.last = some l) :
    t.retimed r b = t.place r b (firstAt r b (l + (max t.lastPeriod b.pOut + 1) / 2)) := by
  have he : t.earliest b.pOut 0 = l + (max t.lastPeriod b.pOut + 1) / 2 := by
    rw [earliest_some _ _ hl, Nat.zero_max]
  rcases hg : t.grid with _ | _ | ⟨m, j⟩
  · exact absurd hg h
  · simp only [OutTiming.retimed, hg, hl, he]
  · simp only [OutTiming.retimed, hg, hl, he]

end

theorem bankCompatible_iff (s : State) (b : Bank) :
    bankCompatible s b = true ↔ s.refs[b.ref].tAlign % b.pOut = 0 := decide_eq_true_iff

/-- A rebuilt sequence: the frame timing of one output, and nothing else (R13). -/
theorem rebuild_eq (c : Chan) (pOld : Nat) (s : State) :
    rebuild c pOld s = s.modTiming c fun t =>
      if (refOf s c).tAlign % (bankOf s c).pOut = 0
      then t.place (refOf s c) (bankOf s c)
        (firstAt (refOf s c) (bankOf s c) (t.earliest (max pOld (bankOf s c).pOut) s.dev.houseTime))
      else { t with grid := .free } := by
  by_cases h : (refOf s c).tAlign % (bankOf s c).pOut = 0
  · rw [rebuild, if_pos ((bankCompatible_iff s _).mpr h)]
    simp only [if_pos h]
    rfl
  · rw [rebuild, if_neg (fun hb => h ((bankCompatible_iff s _).mp hb))]
    simp only [if_neg h]

/-! ## SET_REFERENCE (R4) -/

theorem exec_setReference (dt : Nat) (p : Port) (tag : Byte) (params : List Word) (s : State) :
    exec (.setReference dt p tag params) s =
      .next (submit p tag params paramsReference (ownSetReference p) (s.elapse dt)) := rfl

theorem tAlignOk_iff (a : Nat) : Config.tAlignOk a = true ↔ a = 1080000 ∨ a = 4504500 ∨ a = 4500000 := by
  simp [Config.tAlignOk, or_assoc]

theorem refusesAlign_iff (s : State) (n : RefNo) (a : Nat) : refusesAlign s n a = true ↔
    ∃ c : Chan, s.chans[c].state ≠ .stopped ∧ (bankOf s c).ref = n ∧ a % (bankOf s c).pOut ≠ 0 := by
  simp only [refusesAlign, List.any_eq_true, mem_boundTo, Bool.and_eq_true, compatible]
  refine exists_congr fun c => ?_
  simp
  tauto

theorem not_refusesAlign {s : State} {n : RefNo} {a : Nat}
    (h : ∀ c : Chan, s.chans[c].state ≠ .stopped → (bankOf s c).ref = n → a % (bankOf s c).pOut = 0) :
    ¬ refusesAlign s n a = true := by
  rintro hr
  obtain ⟨c, hs, hn, ha⟩ := (refusesAlign_iff s n a).mp hr
  exact ha (h c hs hn)

/-- Outputs whose timing is set one after another, each by a rule that does not read the timings. -/
theorem forEach_modTiming {F : Chan → State → State} {f : Chan → OutTiming → OutTiming} {s : State}
    (hF : ∀ c v, F c { s with timing := v } = { s with timing := v }.modTiming c (f c)) (l : List Chan)
    (hl : l.Nodup) : ∃ v, forEach l F s = { s with timing := v } ∧
      ∀ c : Chan, v[c] = if c ∈ l then f c s.timing[c] else s.timing[c] := by
  suffices h : ∀ w, ∃ v, forEach l F { s with timing := w } = { s with timing := v } ∧
      ∀ c : Chan, v[c] = if c ∈ l then f c w[c] else w[c] from h s.timing
  induction l with
  | nil => exact fun w => ⟨w, rfl, fun c => by simp⟩
  | cons c rest ih =>
    intro w
    obtain ⟨hc, hrest⟩ := List.nodup_cons.mp hl
    obtain ⟨v, hv, hget⟩ := ih hrest (modifyAt w c (f c))
    refine ⟨v, ?_, fun d => ?_⟩
    · rw [← hv, forEach, List.foldl_cons, hF]
      rfl
    · rw [hget, modifyAt_get]
      by_cases hd : d = c
      · subst hd
        rw [if_neg hc, if_pos rfl, if_pos List.mem_cons_self]
      · simp [hd]

/-- What R4 does to the timing of one bound output: it keeps, loses or gets its sequence. -/
def rebound (was : Bool) (r : Reference) (b : Bank) (now : Nat) (t : OutTiming) : OutTiming :=
  if r.tAlign % b.pOut ≠ 0 then { t with grid := .free }
  else if was then t
  else t.place r b (firstAt r b (t.earliest b.pOut now))

theorem rebind_eq (was : Chan → Bool) (c : Chan) (s : State) :
    rebind was c s = s.modTiming c (rebound (was c) (refOf s c) (bankOf s c) s.dev.houseTime) := by
  by_cases h : (refOf s c).tAlign % (bankOf s c).pOut = 0
  · have hcompatible : rebind was c s = if was c then s else rebuild c (bankOf s c).pOut s :=
      if_pos ((bankCompatible_iff s _).mpr h)
    have hrule : ∀ t, rebound (was c) (refOf s c) (bankOf s c) s.dev.houseTime t = if was c then t
        else t.place (refOf s c) (bankOf s c) (firstAt (refOf s c) (bankOf s c)
          (t.earliest (bankOf s c).pOut s.dev.houseTime)) := fun t => if_neg (not_not.mpr h)
    rw [hcompatible, funext hrule]
    cases was c with
    | true => simp [State.modTiming, modifyAt]
    | false =>
      rw [if_neg Bool.false_ne_true, rebuild_eq]
      simp only [h, if_true, Bool.false_eq_true, if_false, Nat.max_self]
  · have hrule : ∀ t, rebound (was c) (refOf s c) (bankOf s c) s.dev.houseTime t = { t with grid := .free } :=
      fun t => if_pos h
    rw [rebind, if_neg (fun hb => h ((bankCompatible_iff s _).mp hb)), funext hrule]

/-- A reference with a new T_align (R4). -/
def Reference.realigned (r : Reference) (a : Nat) : Reference :=
  { r with tAlign := a, interval := a, state := .absent, kind := .synthetic, lastPulse := none, good := 0, oot := 0 }

theorem setAlign_spec (n : RefNo) (a : Nat) (s : State) :
    ∃ v : Vector OutTiming 8, setAlign n a s = { condition (.refLock n) (s.refs[n].state = .locked) false
        (s.modRef n fun _ => s.refs[n].realigned a) with timing := v } ∧
      ∀ c : Chan, v[c] = if (bankOf s c).ref = n
        then rebound (bankCompatible s (bankOf s c)) (s.refs[n].realigned a) (bankOf s c) s.dev.houseTime s.timing[c]
        else s.timing[c] := by
  generalize hs' : condition (.refLock n) (s.refs[n].state = .locked) false
    (s.modRef n fun _ => s.refs[n].realigned a) = s'
  have hset : setAlign n a s =
      forEach (boundTo s n) (rebind fun c => bankCompatible s (bankOf s c)) s' := by rw [← hs']; rfl
  obtain ⟨v, hv, hget⟩ := forEach_modTiming (s := s')
    (f := fun c => rebound (bankCompatible s (bankOf s c)) (refOf s' c) (bankOf s' c) s'.dev.houseTime)
    (fun c w => rebind_eq (fun c => bankCompatible s (bankOf s c)) c { s' with timing := w })
    (boundTo s n) (boundTo_nodup s n)
  refine ⟨v, hset.trans hv, fun c => ?_⟩
  have hbank : bankOf s' c = bankOf s c := by rw [← hs', bankOf, condition_chans]; rfl
  have hnow : s'.dev = s.dev := by rw [← hs', condition_dev]; rfl
  have htiming : s'.timing = s.timing := by rw [← hs', condition_timing]; rfl
  rw [hget, htiming]
  by_cases hc : (bankOf s c).ref = n
  · have hn : (bankOf s' c).ref = n := by rw [hbank]; exact hc
    have href : refOf s' c = s.refs[n].realigned a := (congrArg (fun k : RefNo => s'.refs[k]) hn).trans (by
      rw [← hs', condition_refs]
      exact modifyAt_same _ _ _)
    rw [if_pos ((mem_boundTo s n c).mpr hc), if_pos hc, ← href, ← hbank, ← hnow]
  · rw [if_neg (fun h => hc ((mem_boundTo s n c).mp h)), if_neg hc]

theorem condition_modPort (src : Source) (b a : Bool) (p : Port) (f : PortRec → PortRec) (s : State) :
    condition src b a (s.modPort p f) = (condition src b a s).modPort p f := by
  unfold condition; split <;> rfl

/-- A port's record plays no part in a loop of steps that each leave it alone. -/
theorem forEach_modPort {α : Type} (F : α → State → State) (p : Port) (f : PortRec → PortRec)
    (hF : ∀ x s, F x (s.modPort p f) = (F x s).modPort p f) (l : List α) (s : State) :
    forEach l F (s.modPort p f) = (forEach l F s).modPort p f := by
  induction l generalizing s with
  | nil => rfl
  | cons x rest ih =>
    show forEach rest F (F x (s.modPort p f)) = (forEach rest F (F x s)).modPort p f
    rw [hF, ih]

theorem rebind_modPort (was : Chan → Bool) (c : Chan) (p : Port) (f : PortRec → PortRec) (s : State) :
    rebind was c (s.modPort p f) = (rebind was c s).modPort p f := by
  rw [rebind_eq, rebind_eq]
  rfl

theorem setAlign_modPort (n : RefNo) (a : Nat) (p : Port) (f : PortRec → PortRec) (s : State) :
    setAlign n a (s.modPort p f) = (setAlign n a s).modPort p f := by
  have hloop := forEach_modPort (rebind fun c => bankCompatible s (bankOf s c)) p f
    (fun c s => rebind_modPort _ c p f s) (boundTo s n) (condition (.refLock n) (s.refs[n].state = .locked) false
      (s.modRef n fun r => r.realigned a))
  rw [← condition_modPort] at hloop
  exact hloop

section
variable {p : Port} {s : State} {w a : Nat} {n : RefNo}

theorem ownSetReference_invalid (h : 2 ≤ w ∨ ¬ (a = 1080000 ∨ a = 4504500 ∨ a = 4500000)) :
    ownSetReference p (w, a) s = .invalid s := by
  unfold ownSetReference
  split
  · rfl
  · next n hn =>
    have hw : w < 2 := by
      by_contra hw
      simp [idx, hw] at hn
    rw [if_neg]
    intro ha
    rcases h with h | h
    · omega
    · exact h ((tAlignOk_iff a).mp ha)

variable (hw : n.val = w) (ha : a = 1080000 ∨ a = 4504500 ∨ a = 4500000)
include hw ha

theorem ownSetReference_legal : ownSetReference p (w, a) s =
    if refusesAlign s n a then .refused .refIncompatible s
    else if s.refs[n].tAlign = a then .ok [] s
    else .ok [] (announce p ⟨0x10#8, some n.val, none⟩ (setAlign n a s)) := by
  subst hw
  have hidx : idx 2 n.val = some n := dif_pos n.isLt
  simp only [ownSetReference, hidx, if_pos ((tAlignOk_iff a).mpr ha)]

end

end Sys2Proof.Machine

open Sys2Proof Sys2Proof.Machine

/-- Settles O21, from the owner's four answers and from what R4 does to each bound output. -/
theorem setReferenceChangesTheAlignment : Obligations.SetReferenceChangesTheAlignment := by
  rintro s _ dt p tag w hi lo _ rfl ht rfl
  rw [exec_setReference]
  generalize s.elapse dt = t at *
  refine ⟨fun h => ?_, fun n hn ha => ⟨fun hrefused => ?_, fun hkept hsame => ?_, fun r hkept hnew hr => ?_⟩⟩
  · rw [submit_reads p tag [w, hi, lo] paramsReference (ownSetReference p) t ht (w.toNat, val32 hi lo) rfl _ _
      (ownSetReference_invalid h)]
    rfl
  · rw [submit_reads p tag [w, hi, lo] paramsReference (ownSetReference p) t ht (w.toNat, val32 hi lo) rfl _ _
      ((ownSetReference_legal hn ha).trans (if_pos ((refusesAlign_iff t n _).mpr hrefused)))]
    rfl
  · rw [submit_reads p tag [w, hi, lo] paramsReference (ownSetReference p) t ht (w.toNat, val32 hi lo) rfl _ _
      ((ownSetReference_legal hn ha).trans ((if_neg (not_refusesAlign hkept)).trans (if_pos hsame)))]
    rfl
  · obtain ⟨v, hv, hget⟩ := setAlign_spec n (val32 hi lo) t
    obtain rfl : r = t.refs[n].realigned (val32 hi lo) := hr
    refine ⟨v, ?_, fun c => (hget c).trans ?_⟩
    · rw [submit_announces p tag [w, hi, lo] paramsReference (ownSetReference p) t ht (w.toNat, val32 hi lo) rfl []
        ⟨0x10#8, some n.val, none⟩ (setAlign n (val32 hi lo)) (fun f => setAlign_modPort n _ p f t)
        ((ownSetReference_legal hn ha).trans ((if_neg (not_refusesAlign hkept)).trans (if_neg hnew))), hv]
      rfl
    · by_cases hc : (bankOf t c).ref = n
      · have hwas : bankCompatible t (bankOf t c) = true ↔ t.refs[n].tAlign % (bankOf t c).pOut = 0 := by
          subst hc
          exact bankCompatible_iff t (bankOf t c)
        rw [if_pos hc, if_neg (not_not.mpr hc), rebound, earliest_eq]
        exact if_congr Iff.rfl rfl (if_congr hwas rfl rfl)
      · rw [if_neg hc, if_pos hc]

/-- Settles O22, from the rules of the sequence and `firstAt_least`. -/
theorem firstFrameStartIsLeast : Obligations.FirstFrameStartIsLeast := by
  refine ⟨?_, ?_, fun r b bound m j hr hc _ h => firstAt_least hr hc h⟩
  · intro t r b time htime
    obtain rfl : time = gridTime r b := funext fun m => funext fun j => htime m j
    refine ⟨fun m j => ⟨rfl, rfl⟩, rfl, rfl, fun m j h => recompute_at h, fun m j h => enterPeriod_at_succ h,
      fun j h => enterPeriod_at_zero h, recompute_enterPeriod_off, retimed_free, retimed_first, ?_⟩
    intro l m j hg hl hmj
    rw [retimed_after hg hl, ← hmj]
    rfl
  · rintro s c pOld bound m j _ _ rfl rfl hbound hmj
    have hearliest : bound = s.timing[c].earliest (max pOld (bankOf s c).pOut) s.dev.houseTime :=
      hbound.trans (earliest_eq _ _).symm
    rw [rebuild_eq, State.modTiming, modifyAt, ← hearliest]
    have hfirst : firstAt (refOf s c) (bankOf s c) bound = (m, j) := hmj.symm
    rw [hfirst]
    rfl
end

section
/-! Resets: the values after reset, the part held in reset, and the default banks of the image (R35, R112, R185–R186). -/

namespace Sys2Proof.Machine

/-! ## Power-on and pin reset (R185) -/

/-- A phase of the cubic interpolator: rounding to 1/2048, and the correction that one of the two middle coefficients
takes so that the four sum to 256 (R140). -/
def cubicRow (h : Int) : List Int :=
  let r (n : Int) : Int := (n + 1024) / 2048
  let d : Int := 256 - (r (-h ^ 3 + 128 * h ^ 2 - 4096 * h) + r (3 * h ^ 3 - 320 * h ^ 2 + 524288) +
    r (-3 * h ^ 3 + 256 * h ^ 2 + 4096 * h) + r (h ^ 3 - 64 * h ^ 2))
  [r (-h ^ 3 + 128 * h ^ 2 - 4096 * h), r (3 * h ^ 3 - 320 * h ^ 2 + 524288) + (if h < 32 then d else 0),
    r (-3 * h ^ 3 + 256 * h ^ 2 + 4096 * h) + (if h < 32 then 0 else d), r (h ^ 3 - 64 * h ^ 2)]

/-- The printed table of R140 is its formula. -/
theorem cubicPhase_eq : ∀ h : Fin 64, Config.cubicPhase h.val = cubicRow h.val := by decide

theorem cubic_eq {row : Int → List Int} (h : ∀ n, row n = cubicRow n) :
    Config.cubic = (List.range 64).flatMap fun h => row (h : Int) := by
  show _ = List.flatMap row ((List.range 64).flatMap fun n : Nat => [Int.ofNat n])
  rw [Config.cubic, List.flatMap_assoc]
  refine List.flatMap_congr fun n hn => ?_
  rw [List.flatMap_singleton, h]
  exact cubicPhase_eq ⟨n, List.mem_range.mp hn⟩

theorem builtInContent_low {e : EntryNo} (h : e.val ≤ 1) : builtInContent e = some ⟨.resample 4 64, Config.cubic⟩ :=
  if_pos h

theorem builtInContent_free {e : EntryNo} (h : 6 ≤ e.val) : builtInContent e = none := by
  rw [builtInContent, if_neg (by omega), if_neg (by omega), if_neg (by omega), if_neg (by omega), if_neg (by omega)]

theorem exec_powerOnReset (dt : Nat) (s : State) :
    exec (.powerOnReset dt) s = .next (hardReset .powerOn (s.elapse dt).dev.resetN (s.elapse dt)) := rfl

theorem exec_pinReset (dt : Nat) (s : State) :
    exec (.pinReset dt) s = .next (hardReset .pin true (s.elapse dt)) := rfl

/-- Both edges of every condition source are selected. -/
theorem bothEdges_condition : ∀ (g : GroupNo) (k : Fin 5), isCondition g k.val = true →
    (bothEdges g).getLsbD (2 * k.val) = true ∧ (bothEdges g).getLsbD (2 * k.val + 1) = true := by decide

theorem ports_hardReset (cause : Cause) (b : Bool) (s : State) (p : Port) :
    (hardReset cause b s).port p = .reset := by cases p <;> rfl

theorem unit_hardReset (cause : Cause) (b : Bool) (s : State) (p : Port) :
    (hardReset cause b s).unit p = .reset := by cases p <;> rfl

theorem flags_reset (g : GroupNo) : EventUnit.reset.flags[g] = 0#16 := Vector.getElem_replicate ..

/-! ## The part held in reset (R185, R192) -/

theorem hardReset_held (s : State) : HeldInReset (hardReset .pin true s) where
  resetN := rfl
  state := rfl
  stage := rfl
  clk := rfl
  flags p g := by rw [unit_hardReset]; exact flags_reset g
  lanes l := Vector.getElem_replicate ..
  outputs c := by
    have : (hardReset .pin true s).outputs[c] = .reset := Vector.getElem_replicate ..
    rw [this]; rfl

section
variable {s : State} (h : HeldInReset s)
include h

theorem HeldInReset.elapse (dt : Nat) : s.elapse dt = s := s.elapse_held dt h.state h.resetN

theorem HeldInReset.not_ready : s.isReady = false := by simp [State.isReady, h.state]

theorem HeldInReset.eventLine (p : Port) : eventLine s p = false := by
  simp [Machine.eventLine, h.resetN]

/-- While RESET_N is asserted no event of time is due, no output emits and no lane reads. -/
theorem HeldInReset.dramDue : ¬ dramDue s = true := by simp [Machine.dramDue, h.clk, Config.dramInitPeriods]

theorem HeldInReset.softResetDue : ¬ softResetDue s = true := by simp [Machine.softResetDue, h.stage]

theorem HeldInReset.emissionRead (c : Chan) (w : CodeWord) : emissionRead s c w = none := by
  rw [Machine.emissionRead, h.outputs c]

theorem HeldInReset.uncorrectableRead (l : LaneNo) (r : LaneRead) : uncorrectableRead l r s = s := by
  rw [Machine.uncorrectableRead, h.lanes l]

theorem HeldInReset.outputReadFault (c : Chan) (w : CodeWord) : outputReadFault c w s = s := by
  rw [Machine.outputReadFault, h.emissionRead c w]

theorem HeldInReset.correctableRead (r : Reader) : correctableRead r s = s := by
  have hr : readerActive s r = false := by
    cases r with
    | lane l => rw [readerActive, h.lanes l]; rfl
    | output c => rw [readerActive, emitsPicture, h.outputs c]; rfl
  rw [Machine.correctableRead, hr]
  rfl

/-- A level change reaches the pin and nothing that the reset holds. -/
theorem HeldInReset.auxLevelChange (x : AuxNo) (high : Bool) : HeldInReset (Machine.auxLevelChange x high s) :=
  ⟨h.resetN, h.state, h.stage, h.clk, h.flags, h.lanes, h.outputs⟩

/-- Every command but a power-on reset and the release leaves the part held. -/
theorem HeldInReset.exec {i : Instr} (hi : ∀ dt, i ≠ .powerOnReset dt ∧ i ≠ .resetNRelease dt) :
    ∃ t, exec i s = .next t ∧ HeldInReset t := by
  have idle (dt : Nat) {f : State → State} (hf : f s = s) :
      ∃ t, (.next (f (s.elapse dt)) : Result) = .next t ∧ HeldInReset t := ⟨s, by rw [h.elapse dt, hf], h⟩
  have hready : ¬ s.isReady = true := by rw [h.not_ready]; exact Bool.false_ne_true
  cases hq : i.request with
  | some q =>
    obtain ⟨α, d, o, hexec, _⟩ := isSubmit_of_request hq
    exact ⟨s, by rw [hexec, h.elapse, submit_resetN q.port q.tag q.params d o s h.resetN], h⟩
  | none =>
    cases i
    case powerOnReset dt => exact absurd rfl (hi dt).1
    case resetNRelease dt => exact absurd rfl (hi dt).2
    case pinReset dt => exact ⟨_, rfl, hardReset_held _⟩
    case dramInitialized dt => exact idle dt (dramInitialized_not_due h.dramDue)
    case configurationReadDone dt r =>
      exact idle dt (f := configurationReadDone r) (if_neg (by rw [h.stage]; decide))
    case softResetEnd dt => exact idle dt (softResetEnd_not_due h.softResetDue)
    case malformedFrame dt p bytes bits => exact idle dt ((frames_resetN h.resetN p).1 bytes)
    case fetch dt p o k => exact idle dt ((frames_resetN h.resetN p).2.1 o k)
    case status dt p k => exact idle dt ((frames_resetN h.resetN p).2.2 k)
    case validationEnd dt p =>
      exact idle dt (validationEnd_not_due fun hd => hready (Bool.and_eq_true_iff.mp hd).1)
    case refPulse dt n => exact idle dt (refPulse_starting h.state)
    case syntheticEpoch dt n =>
      exact idle dt (syntheticEpoch_not_due fun hd => by simp [syntheticDue, hready] at hd)
    case provisionalEpoch dt n =>
      exact idle dt (provisionalEpoch_not_due fun hd => by simp [provisionalDue, hready] at hd)
    case windowExpiry dt n => exact idle dt (windowExpiry_not_due fun hd => by simp [windowDue, hready] at hd)
    case outputFrameStart dt c =>
      exact idle dt (outputFrameStart_not_due fun hd => by simp [frameStartDue, hready] at hd)
    case jobCompletion dt l => exact idle dt (jobCompletion_not_due fun hd => by simp [completionDue, hready] at hd)
    case correctableRead dt r => exact idle dt (h.correctableRead r)
    case uncorrectableRead dt l r => exact idle dt (h.uncorrectableRead l r)
    case outputReadFault dt c w => exact idle dt (h.outputReadFault c w)
    case feedLine dt f line => exact idle dt (f := feedLine f line) (if_neg hready)
    case lineWindowClose dt f =>
      exact idle dt (lineWindowClose_not_due fun hd => by simp [lineWindowDue, hready] at hd)
    case lossTimerExpiry dt f => exact idle dt (lossExpiry_not_due fun hd => by simp [lossDue, hready] at hd)
    case auxLevelChange dt x high =>
      exact ⟨Machine.auxLevelChange x high (s.elapse dt), rfl, by rw [h.elapse]; exact h.auxLevelChange x high⟩
    case debounceExpiry dt x => exact idle dt (debounceExpiry_not_due fun hd => by simp [debounceDue, hready] at hd)
    case alertExpiry dt x => exact idle dt (alertExpiry_not_due fun hd => by simp [alertDue, hready] at hd)
    all_goals exact absurd hq (by simp [Instr.request])

end

theorem exec_dramInitialized (dt : Nat) (s : State) :
    exec (.dramInitialized dt) s = .next (dramInitialized (s.elapse dt)) := rfl

theorem dramDue_iff (s : State) : dramDue s = true ↔ s.dev.stage = .dramInit ∧ 2700000 ≤ s.dev.clk := by
  rw [dramDue, Bool.and_eq_true, decide_eq_true_iff, decide_eq_true_iff]
  rfl

/-! ## The default banks of the image (R112, R186) -/

theorem idx_val {n : Nat} (x : Fin n) : idx n x.val = some x := dif_pos x.isLt

theorem eq_val_of_idx {n v : Nat} {x : Fin n} (h : idx n v = some x) : v = x.val := by
  unfold idx at h
  split at h
  · exact congrArg Fin.val (Option.some.inj h)
  · cases h

theorem autoIdx_val {n : Nat} (hn : n ≤ 255) (x : Option (Fin n)) : autoIdx n (x.elim 255 Fin.val) = some x := by
  cases x with
  | none => rfl
  | some x =>
    have : x.val ≠ 255 := by omega
    simp only [autoIdx, Option.elim_some, if_neg this, idx_val, Option.map_some]

theorem eq_elim_of_autoIdx {n v : Nat} {x : Option (Fin n)} (h : autoIdx n v = some x) : v = x.elim 255 Fin.val := by
  unfold autoIdx at h
  split at h
  · next hv => cases h; exact hv
  · obtain ⟨y, hy, rfl⟩ := Option.map_eq_some_iff.mp h
    exact eq_val_of_idx hy

theorem TempMode.ofCode_code (x : TempMode) : TempMode.ofCode x.code = some x := by cases x <;> rfl
theorem DitherPeriod.ofCode_code (x : DitherPeriod) : DitherPeriod.ofCode x.code = some x := by cases x <;> rfl
theorem AuxMode.ofCode_code (x : AuxMode) : AuxMode.ofCode x.code = some x := by cases x <;> rfl
theorem AuxEdge.ofCode_code (x : AuxEdge) : AuxEdge.ofCode x.code = some x := by cases x <;> rfl

theorem TempMode.eq_code {v : Nat} {x : TempMode} (h : TempMode.ofCode v = some x) : v = x.code := by
  unfold TempMode.ofCode at h; split at h <;> cases h <;> rfl
theorem DitherPeriod.eq_code {v : Nat} {x : DitherPeriod} (h : DitherPeriod.ofCode v = some x) : v = x.code := by
  unfold DitherPeriod.ofCode at h; split at h <;> cases h <;> rfl

theorem TempMode.code_lt (x : TempMode) : x.code < 3 := by cases x <;> decide
theorem DitherPeriod.code_lt (x : DitherPeriod) : x.code < 5 := by cases x <;> decide

theorem flagOf_bool (x : Bool) : flagOf (if x then 1 else 0) = some x := by cases x <;> rfl

theorem eq_of_flagOf {v : Nat} {x : Bool} (h : flagOf v = some x) : v = if x then 1 else 0 := by
  unfold flagOf at h; split at h <;> cases h <;> rfl

/-- The delay as the image spells it, 0xFFFFFF for AUTO (R186). -/
theorem delay_of_image {d : Nat} {x : Bank} (b : Bank) (hd : d = x.delay.getD 0xFFFFFF)
    (hx : ∀ d, x.delay = some d → d ≤ 6000000) :
    b.setField 5 (if d = 0xFFFFFF then 0xFFFFFFFF else d) = some { b with delay := x.delay } := by
  cases hdel : x.delay with
  | none =>
    rw [hdel] at hd
    subst hd
    rfl
  | some e =>
    have he := hx e hdel
    rw [hdel, Option.getD_some] at hd
    have h1 : ¬ d = 0xFFFFFF := by omega
    have h2 : ¬ d = 0xFFFFFFFF := by omega
    rw [if_neg h1, Bank.setField, if_neg h2, if_pos (hd ▸ he), hd]

/-- The fields that a bank record takes from the image at a place: what its 18 bytes spell. -/
structure Spells (b : List Byte) (i : Nat) (x : Bank) : Prop where
  feed : imageByte b i = x.feed.val
  outStd : imageByte b (i + 1) = x.outStd.val
  ref : imageByte b (i + 2) = x.ref.val
  expected : imageByte b (i + 3) = x.expected.elim 255 Fin.val
  offset : image3 b (i + 4) = x.offset
  delay : image3 b (i + 7) = x.delay.getD 0xFFFFFF
  mode : imageByte b (i + 10) = x.mode.code
  ditherPeriod : imageByte b (i + 11) = x.ditherPeriod.code
  ditherPhase : imageByte b (i + 12) = x.ditherPhase.val
  lossHold : imageByte b (i + 13) = x.lossHold
  vProf : imageByte b (i + 14) = x.vProf.elim 255 Fin.val
  hProf : imageByte b (i + 15) = x.hProf.elim 255 Fin.val
  mProf : imageByte b (i + 16) = x.mProf.elim 255 Fin.val
  enable : imageByte b (i + 17) = if x.enable then 1 else 0
  lossHoldOk : x.lossHold ≤ 250
  delayOk : ∀ d, x.delay = some d → d ≤ 6000000

theorem setFields_cons {c v : Nat} {rest : List (Nat × Nat)} {b b' : Bank} (h : b.setField c v = some b') :
    Bank.setFields ((c, v) :: rest) b = Bank.setFields rest b' := by
  rw [Bank.setFields, h, Option.bind_some]

theorem setFields_image {b : List Byte} {i : Nat} {x : Bank} (h : Spells b i x) (start : Bank) :
    start.setFields (imageBank b i) = some x := by
  have hfeed (y : Bank) : y.setField 0 (imageByte b i) = some { y with feed := x.feed } := by
    rw [h.feed, Bank.setField, idx_val]; rfl
  have hstd (y : Bank) : y.setField 1 (imageByte b (i + 1)) = some { y with outStd := x.outStd } := by
    rw [h.outStd, Bank.setField, idx_val]; rfl
  have href (y : Bank) : y.setField 2 (imageByte b (i + 2)) = some { y with ref := x.ref } := by
    rw [h.ref, Bank.setField, idx_val]; rfl
  have hexp (y : Bank) : y.setField 3 (imageByte b (i + 3)) = some { y with expected := x.expected } := by
    rw [h.expected, Bank.setField, autoIdx_val (by decide)]; rfl
  have hoff (y : Bank) : y.setField 4 (image3 b (i + 4)) = some { y with offset := x.offset } := by
    rw [h.offset]; rfl
  have hmode (y : Bank) : y.setField 6 (imageByte b (i + 10)) = some { y with mode := x.mode } := by
    rw [h.mode, Bank.setField, TempMode.ofCode_code]; rfl
  have hper (y : Bank) : y.setField 7 (imageByte b (i + 11)) = some { y with ditherPeriod := x.ditherPeriod } := by
    rw [h.ditherPeriod, Bank.setField, DitherPeriod.ofCode_code]; rfl
  have hpha (y : Bank) : y.setField 8 (imageByte b (i + 12)) = some { y with ditherPhase := x.ditherPhase } := by
    rw [h.ditherPhase, Bank.setField, idx_val]; rfl
  have hhold (y : Bank) : y.setField 9 (imageByte b (i + 13)) = some { y with lossHold := x.lossHold } := by
    rw [h.lossHold, Bank.setField, if_pos h.lossHoldOk]
  have hv (y : Bank) : y.setField 10 (imageByte b (i + 14)) = some { y with vProf := x.vProf } := by
    rw [h.vProf, Bank.setField, autoIdx_val (by decide)]; rfl
  have hh (y : Bank) : y.setField 11 (imageByte b (i + 15)) = some { y with hProf := x.hProf } := by
    rw [h.hProf, Bank.setField, autoIdx_val (by decide)]; rfl
  have hm (y : Bank) : y.setField 12 (imageByte b (i + 16)) = some { y with mProf := x.mProf } := by
    rw [h.mProf, Bank.setField, autoIdx_val (by decide)]; rfl
  have hen (y : Bank) : y.setField 13 (imageByte b (i + 17)) = some { y with enable := x.enable } := by
    rw [h.enable, Bank.setField, flagOf_bool]; rfl
  rw [imageBank, setFields_cons (hfeed _), setFields_cons (hstd _), setFields_cons (href _), setFields_cons (hexp _),
    setFields_cons (hoff _), setFields_cons (delay_of_image _ h.delay h.delayOk), setFields_cons (hmode _),
    setFields_cons (hper _), setFields_cons (hpha _), setFields_cons (hhold _), setFields_cons (hv _),
    setFields_cons (hh _), setFields_cons (hm _), setFields_cons (hen _)]
  rfl

/-- Whether a field takes a value does not depend on the bank. -/
theorem setField_legal {c v : Nat} {b y : Bank} (h : b.setField c v = some y) (start : Bank) :
    ∃ z, start.setField c v = some z := by
  have hsame : (start.setField c v).isSome = (b.setField c v).isSome := by
    unfold Bank.setField
    split
    case h_6 =>
      split
      · rfl
      · split <;> rfl
    case h_10 => split <;> rfl
    case h_15 => rfl
    all_goals simp only [Option.isSome_map, Option.isSome_some]
  rw [h] at hsame
  exact Option.isSome_iff_exists.mp hsame

/-- Every field of a list that is written takes its value. -/
theorem legal_of_setFields {l : List (Nat × Nat)} {b x : Bank} (h : Bank.setFields l b = some x) (start : Bank) :
    ∀ f ∈ l, ∃ z, start.setField f.1 f.2 = some z := by
  induction l generalizing b with
  | nil => exact fun f hf => absurd hf List.not_mem_nil
  | cons f rest ih =>
    obtain ⟨b', hb', hrest⟩ := Option.bind_eq_some_iff.mp h
    intro g hg
    rcases List.mem_cons.mp hg with rfl | hg
    · exact setField_legal hb' start
    · exact ih hrest g hg

/-- A delay that a bank takes is AUTO or in its range. -/
theorem legal_delay {d : Nat} {b y : Bank} (h : b.setField 5 (if d = 0xFFFFFF then 0xFFFFFFFF else d) = some y)
    (hlt : d < 0xFFFFFFFF) : ∃ x : Option Nat, d = x.getD 0xFFFFFF ∧ ∀ e, x = some e → e ≤ 6000000 := by
  by_cases hd : d = 0xFFFFFF
  · exact ⟨none, hd, fun e he => by cases he⟩
  · rw [if_neg hd, Bank.setField, if_neg (by omega)] at h
    split at h
    · next hle => exact ⟨some d, rfl, fun e he => by cases he; exact hle⟩
    · cases h

theorem image3_lt (b : List Byte) (i : Nat) : image3 b i < 2 ^ 24 := by
  have hbyte : ∀ k, imageByte b k < 256 := fun k => (b.getD k 0#8).isLt
  have := hbyte i
  have := hbyte (i + 1)
  have := hbyte (i + 2)
  unfold image3
  omega

/-- Bytes that make a bank spell it. -/
theorem spells_of_setFields {b : List Byte} {i : Nat} {start x : Bank}
    (h : start.setFields (imageBank b i) = some x) : Spells b i x := by
  have hlegal := legal_of_setFields h start
  simp only [imageBank, List.forall_mem_cons] at hlegal
  obtain ⟨⟨_, h0⟩, ⟨_, h1⟩, ⟨_, h2⟩, ⟨_, h3⟩, _, ⟨_, h5⟩, ⟨_, h6⟩, ⟨_, h7⟩, ⟨_, h8⟩, ⟨_, h9⟩, ⟨_, h10⟩, ⟨_, h11⟩,
    ⟨_, h12⟩, ⟨_, h13⟩, _⟩ := hlegal
  obtain ⟨feed, hfeed, _⟩ := Option.map_eq_some_iff.mp h0
  obtain ⟨std, hstd, _⟩ := Option.map_eq_some_iff.mp h1
  obtain ⟨ref, href, _⟩ := Option.map_eq_some_iff.mp h2
  obtain ⟨expected, hexp, _⟩ := Option.map_eq_some_iff.mp h3
  obtain ⟨delay, hdelay, hdelayOk⟩ := legal_delay h5 ((image3_lt b _).trans (by decide))
  obtain ⟨mode, hmode, _⟩ := Option.map_eq_some_iff.mp h6
  obtain ⟨period, hperiod, _⟩ := Option.map_eq_some_iff.mp h7
  obtain ⟨phase, hphase, _⟩ := Option.map_eq_some_iff.mp h8
  have hhold : imageByte b (i + 13) ≤ 250 := by
    by_contra hhold
    exact absurd h9 (by simp [Bank.setField, hhold])
  obtain ⟨v, hv, _⟩ := Option.map_eq_some_iff.mp h10
  obtain ⟨hp, hh, _⟩ := Option.map_eq_some_iff.mp h11
  obtain ⟨m, hm, _⟩ := Option.map_eq_some_iff.mp h12
  obtain ⟨enable, hen, _⟩ := Option.map_eq_some_iff.mp h13
  have hspells : Spells b i ⟨feed, std, ref, expected, image3 b (i + 4), delay, mode, period, phase,
      imageByte b (i + 13), v, hp, m, enable⟩ :=
    ⟨eq_val_of_idx hfeed, eq_val_of_idx hstd, eq_val_of_idx href, eq_elim_of_autoIdx hexp, rfl, hdelay,
      TempMode.eq_code hmode, DitherPeriod.eq_code hperiod, eq_val_of_idx hphase, rfl, eq_elim_of_autoIdx hv,
      eq_elim_of_autoIdx hh, eq_elim_of_autoIdx hm, eq_of_flagOf hen, hhold, hdelayOk⟩
  obtain rfl := Option.some.inj (h.symm.trans (setFields_image hspells start))
  exact hspells

theorem defaultBank_of_spells {b : List Byte} {c : Chan} {x : Bank} (h : Spells b (16 + 18 * c.val) x)
    (ho : x.offset < x.pOut) : defaultBank (some b) c = x := by
  have hfilter : (some x).filter Bank.offsetOk = some x := by
    rw [Option.filter_some, if_pos (show x.offsetOk = true from decide_eq_true ho)]
  simp only [defaultBank, setFields_image h, hfilter, Option.getD_some]

theorem defaultBank_builtIn {b : List Byte} {c : Chan}
    (h : ∀ x, Spells b (16 + 18 * c.val) x → ¬ x.offset < x.pOut) : defaultBank (some b) c = Bank.builtIn c := by
  have hnone : ((Bank.builtIn c).setFields (imageBank b (16 + 18 * c.val))).filter Bank.offsetOk = none := by
    cases hx : (Bank.builtIn c).setFields (imageBank b (16 + 18 * c.val)) with
    | none => rfl
    | some x =>
      have ho : ¬ x.offsetOk = true := fun ho => h x (spells_of_setFields hx) (of_decide_eq_true ho)
      rw [Option.filter_some, if_neg ho]
  simp only [defaultBank, hnone, Option.getD_none]

/-- A byte that spells an index or AUTO is in range. -/
theorem elim_in_range {n v : Nat} {x : Option (Fin n)} (h : v = x.elim 255 Fin.val) (hv : n ≤ v) : v = 255 := by
  cases x with
  | none => exact h
  | some x =>
    have : v = x.val := h
    omega

end Sys2Proof.Machine

open Sys2Proof Sys2Proof.Machine

/-- Settles O6: each reset value is its definition, and a hard reset puts them in place. -/
theorem hardResetGivesResetValues : Obligations.HardResetGivesResetValues := by
  refine ⟨⟨fun _ _ => rfl, rfl, rfl, rfl, fun _ => rfl, fun _ => rfl, rfl, fun _ => rfl⟩,
    ⟨?_, rfl, rfl, rfl, rfl, fun e he => builtInContent_free he⟩, ?_⟩
  · intro r d row hr hd hrow e he
    obtain rfl : r = fun n => (n + 1024) / 2048 := funext hr
    rw [builtInContent_low he, cubic_eq (row := row) fun h => by rw [hrow, hd]; rfl]
  · intro s dt i cause resetN hi
    have hexec : exec i s = .next (hardReset cause resetN (s.elapse dt)) := by
      rcases hi with ⟨rfl, rfl, rfl⟩ | ⟨rfl, rfl, rfl⟩
      · rw [exec_powerOnReset, State.elapse_resetN]
      · exact exec_pinReset dt s
    refine ⟨_, hexec, State.elapse_pending s dt, rfl, rfl, rfl, rfl, rfl, rfl, fun p => ?_, fun p => ?_, ?_, fun n => ?_,
      rfl, rfl, rfl, ?_, State.elapse_partials s dt, fun f => ?_, fun c => ?_, fun e => ?_, rfl, fun l => ?_, fun x => ?_⟩
    · rw [ports_hardReset]
      exact ⟨rfl, rfl, rfl, rfl, rfl, rfl, rfl⟩
    · rw [unit_hardReset]
      refine ⟨rfl, rfl, fun g => ⟨flags_reset g, Vector.getElem_ofFn .., fun k hk => ?_⟩⟩
      have hedges : EventUnit.reset.edges[g] = bothEdges g := Vector.getElem_ofFn ..
      rw [hedges]
      exact bothEdges_condition g k hk
    · intro n
      exact Vector.getElem_ofFn ..
    · exact Vector.getElem_replicate ..
    · exact congrArg (· + 1) (State.elapse_freeCount s dt)
    · exact ⟨Vector.getElem_replicate .., Vector.getElem_replicate .., Vector.getElem_replicate ..⟩
    · exact ⟨Vector.getElem_ofFn .., Vector.getElem_replicate .., Vector.getElem_replicate ..⟩
    · exact Vector.getElem_ofFn ..
    · exact Vector.getElem_replicate ..
    · rw [← State.elapse_aux s dt]
      exact Vector.getElem_map ..

/-- Settles O7, from the part held in reset. -/
theorem startUpStages : Obligations.StartUpStages := by
  refine ⟨fun s dt => ⟨_, rfl, hardReset_held _⟩, fun s i h hi => h.exec hi, fun s p h => h.eventLine p, ?_⟩
  rintro s _ dt rfl
  refine ⟨rfl, fun h => ?_, fun h => ?_⟩
  · rw [exec_dramInitialized, dramInitialized, if_pos ((dramDue_iff _).mpr h)]
  · rw [exec_dramInitialized, dramInitialized_not_due]
    rw [dramDue_iff]
    rintro ⟨hstage, hclk⟩
    rcases h with h | h
    · exact h hstage
    · omega

/-- Settles O9: bytes that spell a bank give it, and a bank that the bytes give is spelled by them. -/
theorem loadedImageGivesTheDefaultBank : Obligations.LoadedImageGivesTheDefaultBank := by
  rintro b c _ _ rfl rfl
  refine ⟨?_, fun h => ?_⟩
  · rintro x ⟨h0, h1, h2, h3, h4, h5, h6, h7, h8, h9, h10, h11, h12, h13⟩ ⟨hhold, hoff, hdel⟩
    exact defaultBank_of_spells ⟨h0, h1, h2, h3, h4, h5, h6, h7, h8, h9, h10, h11, h12, h13, hhold, hdel⟩ hoff
  · refine defaultBank_builtIn fun x hx ho => ?_
    obtain ⟨h0, h1, h2, h3, h4, h5, h6, h7, h8, h9, h10, h11, h12, h13, hhold, hdel⟩ := hx
    have hmode := x.mode.code_lt
    have hperiod := x.ditherPeriod.code_lt
    rcases h with h | h | h | ⟨h, h'⟩ | ⟨o, hstd, h⟩ | ⟨h, h'⟩ | h | h | h | h | ⟨k, hk, h, h'⟩ | h
    · omega
    · omega
    · omega
    · exact h' (elim_in_range h3 h)
    · obtain rfl : o = x.outStd := Fin.ext (hstd.trans h1)
      exact Nat.not_le.mpr ho (h4 ▸ h)
    · cases hd : x.delay with
      | none => rw [hd] at h5; exact h' h5
      | some e =>
        have hle := hdel e hd
        have hbig : 6000000 < image3 b (16 + 18 * c.val + 7) := h
        rw [hd, Option.getD_some] at h5
        omega
    · omega
    · omega
    · omega
    · omega
    · obtain rfl | rfl | rfl : k = 0 ∨ k = 1 ∨ k = 2 := by omega
      · exact h' (elim_in_range h10 h)
      · exact h' (elim_in_range h11 h)
      · exact h' (elim_in_range h12 h)
    · cases hen : x.enable <;> simp [hen] at h13 <;> omega

end

section
/-! The configuration image, and the soft reset (R35, R36, R185–R187). -/

namespace Sys2Proof.Machine

/-! ## The image (R186) -/

theorem exec_configurationReadDone (dt : Nat) (r : ConfigRead) (s : State) :
    exec (.configurationReadDone dt r) s = .next (configurationReadDone r (s.elapse dt)) := rfl

theorem imageByte_eq_iff (b : List Byte) (i : Nat) (x : Byte) : imageByte b i = x.toNat ↔ b.getD i 0#8 = x :=
  BitVec.toNat_inj

/-- The judgement, with the image's bytes as they were read. -/
theorem judgeImage_bytes (b : List Byte) : judgeImage (.bytes b) =
    if b.getD 0 0#8 ≠ 0xA5#8 then .skipped
    else if b.getD 1 0#8 ≠ 1#8 then .failed
    else if (b.take 178).foldl (· + ·) 0#8 ≠ 0#8 then .failed
    else if 16 < (b.getD 160 0#8).toNat then .failed
    else .loaded :=
  if_congr (not_congr (imageByte_eq_iff b 0 0xA5#8)) rfl
    (if_congr (not_congr (imageByte_eq_iff b 1 1#8)) rfl (if_congr Iff.rfl rfl (if_congr Iff.rfl rfl rfl)))

theorem usedImage_loaded {b : List Byte} (h : judgeImage (.bytes b) = .loaded) : usedImage (.bytes b) = some b := by
  simp only [usedImage, h]

theorem usedImage_not_loaded {r : ConfigRead} (h : judgeImage r ≠ .loaded) : usedImage r = none := by
  unfold usedImage
  split
  · next b hj => exact absurd hj h
  · rfl

/-- The slots that a LOADED image lists as retired (R35). -/
theorem contains_imageRetired (b : List Byte) (n : SlotNo) : (imageRetired (some b)).contains n.val = true ↔
    ∃ k, k < (b.getD 160 0#8).toNat ∧ ∃ x, b[161 + k]? = some x ∧ x.toNat = n.val := by
  have hn : n.val < 96 := n.isLt
  rw [List.contains_iff_mem, imageRetired, List.mem_filter, List.mem_map]
  simp only [List.mem_iff_getElem?, List.getElem?_take, List.getElem?_drop, decide_eq_true_eq]
  constructor
  · rintro ⟨⟨x, ⟨k, hk⟩, hx⟩, _⟩
    split at hk
    · next hlt => exact ⟨k, hlt, x, hk, hx⟩
    · cases hk
  · rintro ⟨k, hlt, x, hk, hx⟩
    exact ⟨⟨x, ⟨k, by rw [if_pos (show k < imageByte b 160 from hlt)]; exact hk⟩, hx⟩, hn⟩

theorem startSlots_get (l : List Nat) (n : SlotNo) :
    (startSlots l)[n] = .cleared (if l.contains n.val then .retired else .free) false := Vector.getElem_ofFn ..

theorem formFree_ascending (v : Vector Slot 96) : (formFree v).Pairwise (· < ·) :=
  (List.pairwise_lt_finRange 96).filter _

/-- The bits of an event unit's mode byte. -/
theorem modeByte_bits : ∀ x : Byte, (4 ≤ x.toNat ↔ x.extractLsb' 2 6 ≠ 0#6) ∧
    (x.toNat % 2 = 1 ↔ x.getLsbD 0 = true) ∧ (x.toNat < 4 → (x.toNat / 2 = 1 ↔ x.getLsbD 1 = true)) := by decide

theorem startUnit_eq (x : Byte) (u : EventUnit) : startUnit x.toNat u = { u with
    mode := if x.extractLsb' 2 6 = 0#6 ∧ x.getLsbD 0 = true then .byAck else .onRead
    master := x.extractLsb' 2 6 ≠ 0#6 || x.getLsbD 1 } := by
  obtain ⟨hreset, hmode, hmaster⟩ := modeByte_bits x
  by_cases h : 4 ≤ x.toNat
  · have hx := hreset.mp h
    rw [startUnit, if_pos h, if_neg (fun hc => hx hc.1), decide_eq_true hx, Bool.true_or]
  · have hx : x.extractLsb' 2 6 = 0#6 := not_not.mp fun hx => h (hreset.mpr hx)
    have hbyte : (if x.toNat % 2 = 1 then ClearMode.byAck else .onRead) =
        if x.extractLsb' 2 6 = 0#6 ∧ x.getLsbD 0 = true then .byAck else .onRead :=
      if_congr (by rw [hmode]; exact (and_iff_right hx).symm) rfl rfl
    have hbit : decide (x.toNat / 2 = 1) = x.getLsbD 1 := by
      rw [Bool.eq_iff_iff, decide_eq_true_iff, hmaster (by omega)]
    rw [startUnit, if_neg h, hbyte, hbit, decide_eq_false (not_not.mpr hx), Bool.false_or]

theorem ofNat_imageByte (b : List Byte) (i : Nat) : BitVec.ofNat 8 (imageByte b i) = b.getD i 0#8 := by
  rw [imageByte, BitVec.ofNat_toNat, BitVec.setWidth_eq]

theorem AuxMode.ofCode_none {v : Nat} (h : 3 < v) : AuxMode.ofCode v = none := by
  unfold AuxMode.ofCode; split <;> first | omega | rfl

theorem AuxEdge.ofCode_none {v : Nat} (h : 2 < v) : AuxEdge.ofCode v = none := by
  unfold AuxEdge.ofCode; split <;> first | omega | rfl

/-- A line whose mode and edge bytes are in range takes them, and its sensed level where it is a TAKE_INPUT (R175). -/
theorem startLine_legal {b : List Byte} {x : AuxNo} {pin : Bool} {mode : AuxMode} {edge : AuxEdge}
    (hm : imageByte b (4 + 3 * x.val) = mode.code) (he : imageByte b (4 + 3 * x.val + 1) = edge.code) :
    (startLine (some b) x pin).atReady = {
      mode := mode, edge := edge, mask := b.getD (4 + 3 * x.val + 2) 0#8
      debounced := if mode = .takeInput then some pin else none
      timer := none, expiry := none, triggers := 0, pin := pin } := by
  simp only [startLine, hm, he, AuxMode.ofCode_code, AuxEdge.ofCode_code, ofNat_imageByte]
  cases mode <;> rfl

theorem startLine_illegal {b : List Byte} {x : AuxNo} {pin : Bool}
    (h : 3 < imageByte b (4 + 3 * x.val) ∨ 2 < imageByte b (4 + 3 * x.val + 1)) :
    startLine (some b) x pin = .reset pin := by
  rcases h with h | h
  · simp only [startLine, AuxMode.ofCode_none h]
  · simp only [startLine, AuxEdge.ofCode_none h]
    cases AuxMode.ofCode (imageByte b (4 + 3 * x.val)) <;> rfl

theorem atReady_reset (pin : Bool) : (AuxLine.reset pin).atReady = AuxLine.reset pin := rfl

theorem chans_ready (r : ConfigRead) (s : State) (c : Chan) :
    (becomeReady (takeImage r s)).chans[c] = .reset (defaultBank (usedImage r) c) := Vector.getElem_ofFn ..

theorem aux_becomeReady (s : State) (x : AuxNo) : (becomeReady s).aux[x] = s.aux[x].atReady := Vector.getElem_map ..

theorem aux_ready (r : ConfigRead) (s : State) (x : AuxNo) :
    (becomeReady (takeImage r s)).aux[x] = (startLine (usedImage r) x s.aux[x].pin).atReady := by
  rw [aux_becomeReady]
  exact congrArg AuxLine.atReady (Vector.getElem_ofFn ..)

theorem slots_ready (r : ConfigRead) (s : State) (n : SlotNo) : (becomeReady (takeImage r s)).slots[n] =
    .cleared (if (imageRetired (usedImage r)).contains n.val then .retired else .free) false :=
  startSlots_get _ n

theorem free_ready (r : ConfigRead) (s : State) :
    (becomeReady (takeImage r s)).free = formFree (becomeReady (takeImage r s)).slots := by
  simp only [becomeReady, takeImage, raise_free, raise_slots]

theorem units_ready (r : ConfigRead) (s : State) : (becomeReady (takeImage r s)).units =
    ⟨(startUnits (usedImage r) s.units).a.setFlag .resetOccurred,
      (startUnits (usedImage r) s.units).b.setFlag .resetOccurred⟩ := rfl

theorem atReady_eq (a : AuxLine) :
    a.atReady = { a with debounced := if a.mode = .takeInput then some a.pin else a.debounced } := by
  by_cases h : a.mode = .takeInput
  · simp only [AuxLine.atReady, if_pos h]
  · simp only [AuxLine.atReady, if_neg h]

/-- The fields that a start-up changes (R185). -/
theorem ready_eq (r : ConfigRead) (s : State) : ∃ u, becomeReady (takeImage r s) = u ∧
    u = { s with dev := u.dev, units := u.units, timing := u.timing, slots := u.slots, free := u.free
                 chans := u.chans, aux := u.aux } ∧
    u.dev = { s.dev with state := .ready, stage := .none, clk := 0, houseTime := 0, load := judgeImage r } := by
  obtain ⟨v, w, hready⟩ := becomeReady_eq (takeImage r s)
  obtain ⟨chans, aux, slots, free, units, himage⟩ := takeImage_eq r s
  rw [himage] at hready
  exact ⟨_, rfl, by rw [himage, hready], by rw [himage, hready]⟩

theorem startTiming_eq (s : State) (c : Chan) : startTiming s c =
    { last := none, next := (bankOf s c).offset, lastPeriod := 0
      grid := if s.refs[(bankOf s c).ref].tAlign % (bankOf s c).pOut = 0 then .at 0 0 else .free } := by
  have hgrid : (if bankCompatible s (bankOf s c) then FrameGrid.at 0 0 else .free) =
      if s.refs[(bankOf s c).ref].tAlign % (bankOf s c).pOut = 0 then .at 0 0 else .free :=
    if_congr (bankCompatible_iff s _) rfl rfl
  rw [startTiming, hgrid]

theorem timing_becomeReady (s : State) (c : Chan) : (becomeReady s).timing[c] = startTiming s c :=
  Vector.getElem_ofFn ..

/-! ## The store at a soft reset (R30, R36) -/

theorem retiredCount_eq (s : State) :
    retiredCount s = (List.finRange 96).countP fun n => s.slots[n].state = .retired := by
  rw [retiredCount, stateCount, slots_toList, List.countP_map]
  rfl

/-- The flagged slots that the retired set takes in, and those that find it full. -/
def joining (s : State) : List SlotNo := (flaggedSlots s).take (Config.retiredMax - retiredCount s)
def excess (s : State) : List SlotNo := (flaggedSlots s).drop (Config.retiredMax - retiredCount s)

theorem rebuildStore_slots (s : State) (n : SlotNo) :
    (rebuildStore s).slots[n] = rebuiltSlot (joining s) n s.slots[n] := Vector.getElem_ofFn ..

theorem rebuildStore_free (s : State) : (rebuildStore s).free = formFree (rebuildStore s).slots := by
  simp only [rebuildStore]

theorem rebuildStore_pool (s : State) : (rebuildStore s).pool = { Pool.reset with faultRec := rebuiltFault (excess s) } := by
  rw [rebuildStore, excess]

theorem not_retired_of_joining {s : State} {n : SlotNo} (h : n ∈ joining s) : s.slots[n].state ≠ .retired := by
  have hflagged := (List.mem_filter.mp (List.mem_of_mem_take h)).2
  obtain ⟨hused, _⟩ := Bool.and_eq_true_iff.mp hflagged
  exact ((SlotState.inUse_iff _).mp hused).2

theorem rebuiltFault_slot (l : List SlotNo) : (rebuiltFault l).slot = l.getLast? := by
  unfold rebuiltFault; split
  · next h => rw [h]
  · next h => rw [h]; rfl

theorem rebuiltFault_reason (l : List SlotNo) : (rebuiltFault l).reason = .retireLimit ↔ l ≠ [] := by
  unfold rebuiltFault; split
  · next h => exact ⟨fun _ hl => (nomatch (hl ▸ h : ([] : List SlotNo).getLast? = some _)), fun _ => rfl⟩
  · next h =>
    rw [List.getLast?_eq_none_iff] at h
    exact ⟨fun hr => (nomatch hr), fun hl => absurd h hl⟩

/-! ## Soft reset (R187) -/

theorem exec_softResetEnd (dt : Nat) (s : State) :
    exec (.softResetEnd dt) s = .next (softResetEnd (s.elapse dt)) := rfl

theorem softResetDue_iff {s : State} {p : Port} {tag : Byte} {aborted : Bool}
    (h : s.dev.stage = .softReset p tag aborted) : softResetDue s = true ↔ 27000 ≤ s.dev.clk := by
  rw [softResetDue, h]
  exact decide_eq_true_iff

/-- The requester's answer and the announcement of the reset, on a part that is READY again. -/
def resetAnswered (p : Port) (tag : Byte) (aborted : Bool) (s : State) : State :=
  if aborted then requestDone p.other
    (requestDone p (announce p ⟨0x02#8, none, none⟩ (post p .ok tag [] s)))
  else requestDone p (announce p ⟨0x02#8, none, none⟩ (post p .ok tag [] s))

section
variable (p : Port) (tag : Byte) (aborted : Bool) (s : State)

theorem resetAnswered_eq : resetAnswered p tag aborted s =
    { s with ports := (resetAnswered p tag aborted s).ports, units := (resetAnswered p tag aborted s).units } := by
  cases aborted <;> rfl

theorem port_resetAnswered :
    (resetAnswered p tag aborted s).port p = { s.port p with mailbox := .done, held := some ⟨.ok, tag, []⟩ } := by
  cases aborted <;> cases p <;> rfl

theorem other_resetAnswered (h : (s.port p.other).peers.length < 8) :
    (resetAnswered p tag aborted s).port p.other =
      { s.port p.other with peers := (s.port p.other).peers ++ [⟨0x02#8, none, none⟩] } := by
  have hport : (resetAnswered p tag aborted s).port p.other =
      (peerAppend p.other ⟨0x02#8, none, none⟩ s).port p.other := by cases aborted <;> cases p <;> rfl
  rw [hport, port_peerAppend _ _ _ (Nat.le_of_lt h), if_neg (Nat.ne_of_lt h)]

theorem unit_resetAnswered : (resetAnswered p tag aborted s).unit p = (s.unit p).setFlag .requestDone ∧
    (resetAnswered p tag aborted s).unit p.other =
      (let v := (s.unit p.other).setFlag .peerChange
       if aborted then v.setFlag .requestDone else v) := by
  cases aborted <;> cases p <;> exact ⟨rfl, rfl⟩

end

/-- The end of a soft reset, when it is due. -/
theorem softResetEnd_due {s : State} {p : Port} {tag : Byte} {aborted : Bool}
    (h : s.dev.stage = .softReset p tag aborted) (hc : 27000 ≤ s.dev.clk) :
    softResetEnd s = resetAnswered p tag aborted (becomeReady s) := by
  rw [softResetEnd, if_pos ((softResetDue_iff h).mpr hc), h]
  rfl

theorem unit_becomeReady (s : State) (p : Port) : (becomeReady s).unit p = (s.unit p).setFlag .resetOccurred := by
  cases p <;> rfl

/-- What the other port's record becomes where its request is aborted (R187, step 2). -/
def PortRec.aborted (r : PortRec) : PortRec :=
  match r.mailbox with
  | .busy (.commit tag _ _) => { r with mailbox := .done, held := some ⟨.aborted, tag, []⟩ }
  | .busy (.reset tag) => { r with mailbox := .done, held := some ⟨.aborted, tag, []⟩ }
  | .idle | .done => r

/-- The mailbox is BUSY. -/
def Mailbox.isBusy : Mailbox → Bool
  | .busy _ => true
  | .idle | .done => false

theorem State.modPort_self {s : State} {p : Port} {f : PortRec → PortRec} (h : f (s.port p) = s.port p) :
    s.modPort p f = s := by
  cases p
  · show { s with ports := { s.ports with a := f (s.port .a) } } = s
    rw [h]; rfl
  · show { s with ports := { s.ports with b := f (s.port .b) } } = s
    rw [h]; rfl

theorem abortOther_eq (p : Port) (s : State) :
    abortOther p s = ((s.port p).mailbox.isBusy, s.modPort p PortRec.aborted) := by
  have hpost (tag : Byte) (h : (s.port p).aborted = { s.port p with
      mailbox := .done, held := some ⟨.aborted, tag, []⟩ }) :
      post p .aborted tag [] s = s.modPort p PortRec.aborted := by
    have : s.ports.get p = s.port p := rfl
    rw [post, State.modPort, State.modPort, this, h]
  unfold abortOther
  split
  · next h => rw [hpost _ (by rw [PortRec.aborted, h]), h]; rfl
  · next h => rw [hpost _ (by rw [PortRec.aborted, h]), h]; rfl
  · next h => rw [State.modPort_self (by rw [PortRec.aborted, h]), h]; rfl
  · next h => rw [State.modPort_self (by rw [PortRec.aborted, h]), h]; rfl

/-- The part of a picture that a discarded job leaves: every other place reads as it did (R36, log entry 6). -/
theorem readSample_discardJob (o : Option Job) (n : SlotNo) (line : Nat) (c : Component) (x : Nat) (s : State)
    (hl : line < 1080) (hx : x < compRoom c)
    (h : ∀ j, o = some j → j.dest = n →
      (Config.std j.outStd).activeLines ≤ line ∨ componentWidth (Config.std j.outStd).width c ≤ x) :
    readSample (discardJob o s) n line c x = readSample s n line c x := by
  cases o with
  | none => rfl
  | some j =>
    rw [show discardJob (some j) s = leavePartial j.dest j.outStd s from rfl,
      readSample_leavePartial j.dest n j.outStd line c x s hl hx, if_neg]
    rintro ⟨rfl, hy, hw⟩
    rcases h j rfl rfl with h | h <;> omega

/-- The store as a soft reset finds it: the RUNNING jobs are discarded (R161). -/
def discardJobs (s : State) : State := discardJob s.lanes[(1 : LaneNo)] (discardJob s.lanes[(0 : LaneNo)] s)

theorem discardJobs_eq (s : State) : ∃ m k, discardJobs s = { s with dram := m, partials := k } := by
  obtain ⟨m0, k0, h0⟩ := discardJob_eq s.lanes[(0 : LaneNo)] s
  obtain ⟨m1, k1, h1⟩ := discardJob_eq s.lanes[(1 : LaneNo)] { s with dram := m0, partials := k0 }
  exact ⟨m1, k1, by rw [discardJobs, h0, h1]⟩

theorem resetBlocks_dram (s : State) :
    (resetBlocks s).dram = (discardJobs s).dram ∧ (resetBlocks s).freeCount = (discardJobs s).freeCount := by
  simp only [resetBlocks, rebuildStore, discardJobs, and_self]

/-- The blocks at a soft reset: what a place of the store reads as. -/
theorem readSample_resetBlocks (s : State) (n : SlotNo) (line : Nat) (c : Component) (x : Nat) (hl : line < 1080)
    (hx : x < compRoom c)
    (h : ∀ (l : LaneNo) (j : Job), s.lanes[l] = some j → j.dest = n →
      (Config.std j.outStd).activeLines ≤ line ∨ componentWidth (Config.std j.outStd).width c ≤ x) :
    readSample (resetBlocks s) n line c x = readSample s n line c x := by
  obtain ⟨hdram, hfree⟩ := resetBlocks_dram s
  have hjobs : readSample (resetBlocks s) n line c x = readSample (discardJobs s) n line c x := by
    unfold readSample
    rw [hdram, hfree]
  rw [hjobs, discardJobs, readSample_discardJob _ n line c x _ hl hx (h 1),
    readSample_discardJob _ n line c x _ hl hx (h 0)]

theorem softReset_bank (c : Channel) : c.softReset.bank = c.bank := by
  unfold Channel.bank
  show (match c.active with | .a => c.bankA | .b => c.bankB) = _
  rfl

/-- The frame timings at a soft reset: none yet, the next at the output offset (R15). -/
theorem timing_resetBlocks (s : State) (c : Chan) :
    (resetBlocks s).timing[c].last = none ∧ (resetBlocks s).timing[c].next = (bankOf s c).offset := by
  obtain ⟨m, k, hjobs⟩ := discardJobs_eq s
  have hbank : (s.chans.map Channel.softReset)[c].bank = bankOf s c := by
    rw [Fin.getElem_fin, Vector.getElem_map, softReset_bank]
    rfl
  rw [discardJobs] at hjobs
  unfold resetBlocks
  rw [hjobs, rebuildStore_dram]
  simp only [Fin.getElem_fin, Vector.getElem_ofFn]
  exact ⟨rfl, congrArg Bank.offset hbank⟩

theorem softReset_eq (x : Profile) : x.softReset = { active := x.pending.or x.active, pending := none, users := 0 } := by
  obtain ⟨active, pending, users⟩ := x
  cases pending <;> rfl

theorem State.port_taking_other (s : State) (p : Port) (k : Nat) : (s.taking p k).port p.other = s.port p.other := by
  cases p <;> rfl

theorem exec_resetDevice (dt : Nat) (p : Port) (tag : Byte) (params : List Word) (s : State) :
    exec (.resetDevice dt p tag params) s =
      .next (submit p tag params params0 (ownResetDevice p tag) (s.elapse dt)) := rfl

/-- What RESET_DEVICE does at its owner, when the other port's request has been ended. -/
def softResetBegun (p : Port) (tag : Byte) (aborted : Bool) (s : State) : State :=
  { resetBlocks s with
    dev := { (resetBlocks s).dev with
      state := .starting, stage := .softReset p tag aborted, clk := 0, cause := .request, houseTime := 0 }
    ports := ⟨(resetBlocks s).ports.a.softReset, (resetBlocks s).ports.b.softReset⟩ }

/-- The port that begins a soft reset: BUSY with it, and what R187 takes from a port is gone. -/
theorem port_resetBegun (p : Port) (tag : Byte) (aborted : Bool) (s : State) (k : Nat) :
    ((softResetBegun p tag aborted ((s.taking p k).modPort p.other PortRec.aborted)).modPort p
      fun x => { x with mailbox := .busy (.reset tag) }).port p = { s.port p with
        mailbox := .busy (.reset tag), submitRefused := false, framingError := false, peers := []
        overflow := false, staging := none, dout := statusByte s p :: List.replicate (2 * k + 3) 0#8 } := by
  obtain ⟨m, n, v, h⟩ := resetBlocks_eq ((s.taking p k).modPort p.other PortRec.aborted)
  rw [softResetBegun, h]
  cases p <;> rfl

theorem other_resetBegun (p : Port) (tag : Byte) (aborted : Bool) (s : State) (k : Nat) :
    ((softResetBegun p tag aborted ((s.taking p k).modPort p.other PortRec.aborted)).modPort p
      fun x => { x with mailbox := .busy (.reset tag) }).port p.other = (s.port p.other).aborted.softReset := by
  obtain ⟨m, n, v, h⟩ := resetBlocks_eq ((s.taking p k).modPort p.other PortRec.aborted)
  rw [softResetBegun, h]
  cases p <;> rfl

theorem aborted_softReset (r : PortRec) : r.aborted.softReset = { r with
    submitRefused := false, framingError := false, peers := [], overflow := false, staging := none
    mailbox := (match r.mailbox with | .busy _ => .done | m => m)
    held := (match r.mailbox with
      | .busy (.commit g _ _) => some ⟨.aborted, g, []⟩
      | .busy (.reset g) => some ⟨.aborted, g, []⟩
      | _ => r.held) } := by
  obtain ⟨mailbox, held, refused, framing, peers, overflow, staging, dout⟩ := r
  cases mailbox with
  | idle => rfl
  | done => rfl
  | busy q => cases q <;> rfl

/-- The blocks of a part whose soft reset has begun (R187, step 3). -/
theorem blocks_resetBegun (p : Port) (tag : Byte) (aborted : Bool) (s : State) :
    ∃ u, softResetBegun p tag aborted s = u ∧ u.pending = s.pending ∧
      u.dev = { s.dev with
        state := .starting, cause := .request, houseTime := 0, clk := 0, stage := .softReset p tag aborted } ∧
      u.units = ⟨s.units.a.clearAll, s.units.b.clearAll⟩ ∧
      u.refs = Vector.ofFn Reference.reset ∧
      u.rxs = Vector.replicate 8 .reset ∧ u.rings = Vector.replicate 8 .reset ∧ u.dets = Vector.replicate 8 .reset ∧
      u.outputs = Vector.replicate 8 .reset ∧ u.chans = s.chans.map Channel.softReset ∧
      u.profiles = s.profiles.map Profile.softReset ∧ u.queue = [] ∧ u.lanes = Vector.replicate 2 none ∧
      u.aux = s.aux.map AuxLine.softReset ∧
      u.slots = (rebuildStore s).slots ∧ u.free = (rebuildStore s).free ∧ u.pool = (rebuildStore s).pool := by
  obtain ⟨m, n, v, h⟩ := resetBlocks_eq s
  refine ⟨_, rfl, ?_⟩
  rw [softResetBegun, h]
  simp only [and_self]

theorem ownResetDevice_eq (p : Port) (tag : Byte) (s : State) :
    ownResetDevice p tag () s = .stays (.reset tag) (softResetBegun p tag (s.port p.other).mailbox.isBusy
      (s.modPort p.other PortRec.aborted)) := by
  rw [ownResetDevice, abortOther_eq]
  rfl

end Sys2Proof.Machine

open Sys2Proof Sys2Proof.Machine

/-- Settles O8: the image is judged, the blocks take its values, and the part becomes READY. -/
theorem configurationReadMakesThePartReady : Obligations.ConfigurationReadMakesThePartReady := by
  rintro s _ dt r rfl hstage
  rw [exec_configurationReadDone]
  generalize s.elapse dt = t at *
  have hexec : configurationReadDone r t = becomeReady (takeImage r t) := if_pos hstage
  obtain ⟨u, hu, hfields, hdev⟩ := ready_eq r t
  have hload' : u.dev.load = judgeImage r := by rw [hdev]
  subst hu
  refine ⟨_, congrArg Host.Outcome.next hexec, hfields, hdev.trans ?_, fun hload => ?_, fun b hload hr => ?_, fun n => ?_,
    ?_, fun c => ?_⟩
  · cases r with
    | noAck => rfl
    | bytes b => rw [judgeImage_bytes]
  · have hnone := usedImage_not_loaded (hload' ▸ hload)
    refine ⟨fun c => ?_, fun x => ?_, fun n => ?_, ?_⟩
    · rw [chans_ready, hnone]; rfl
    · rw [aux_ready, hnone]; rfl
    · rw [slots_ready, hnone]; rfl
    · rw [units_ready, hnone]; rfl
  · subst hr
    have hused := usedImage_loaded (hload'.symm.trans hload)
    refine ⟨fun c => ?_, fun n => ?_, ?_, ?_⟩
    · rw [chans_ready, hused]
    · rw [slots_ready, hused, if_congr (contains_imageRetired b n) rfl rfl]
    · rintro p _ _ rfl rfl
      rw [State.unit, units_ready, hused, ← startUnit_eq]
      cases p <;> rfl
    · rintro x _ _ rfl rfl
      rw [aux_ready, hused]
      exact ⟨fun mode edge hm he => startLine_legal hm he, fun h => by rw [startLine_illegal h]; rfl⟩
  · rw [free_ready]
    exact (formFree_ok _).2 n
  · rw [free_ready]
    exact formFree_ascending _
  · rw [timing_becomeReady, startTiming_eq]
    rfl

/-- Settles O10, from what the owner does to the blocks, the ports and the store. -/
theorem resetDeviceBeginsASoftReset : Obligations.ResetDeviceBeginsASoftReset := by
  rintro s _ dt p tag rfl ht
  rw [exec_resetDevice, submit_owner p tag [] params0 (ownResetDevice p tag) _ ht () rfl, ownResetDevice_eq]
  generalize s.elapse dt = t at *
  rw [State.port_taking_other, List.length_nil]
  have hport := port_resetBegun p tag (t.port p.other).mailbox.isBusy t 0
  have hother := other_resetBegun p tag (t.port p.other).mailbox.isBusy t 0
  have hread := readSample_resetBlocks ((t.taking p 0).modPort p.other PortRec.aborted)
  have htiming := timing_resetBlocks ((t.taking p 0).modPort p.other PortRec.aborted)
  have hsample : ∀ n line c x, readSample (softResetBegun p tag (t.port p.other).mailbox.isBusy
      ((t.taking p 0).modPort p.other PortRec.aborted)) n line c x =
        readSample (resetBlocks ((t.taking p 0).modPort p.other PortRec.aborted)) n line c x := fun _ _ _ _ => by
    simp only [readSample, softResetBegun]
  have hclock : (softResetBegun p tag (t.port p.other).mailbox.isBusy
      ((t.taking p 0).modPort p.other PortRec.aborted)).timing =
        (resetBlocks ((t.taking p 0).modPort p.other PortRec.aborted)).timing := by
    simp only [softResetBegun]
  obtain ⟨u, hu, hpending, hdev, hunits, hrefs, hrxs, hrings, hdets, houtputs, hchans, hprofiles, hqueue, hlanes,
    haux, hslots, hfree, hpool⟩ := blocks_resetBegun p tag (t.port p.other).mailbox.isBusy
      ((t.taking p 0).modPort p.other PortRec.aborted)
  rw [hu] at hport hother hsample hclock ⊢
  refine ⟨u.modPort p fun x => { x with mailbox := .busy (.reset tag) }, rfl, hpending, hdev.trans ?_, hport,
    hother.trans (aborted_softReset _), fun q => ?_, fun n => ?_, fun f => ?_, fun c => ⟨?_, ?_, ?_⟩, fun e => ?_, hqueue,
    fun l => ?_, fun x => ?_, fun n line c x hl hx h => ?_, ?_, ?_, ?_⟩
  · cases (t.port p.other).mailbox <;> rfl
  · cases q
    · exact congrArg PerPort.a hunits
    · exact congrArg PerPort.b hunits
  · show u.refs[n] = _
    rw [hrefs]
    exact Vector.getElem_ofFn ..
  · show u.rxs[f] = _ ∧ u.rings[f] = _ ∧ u.dets[f] = _
    rw [hrxs, hrings, hdets]
    exact ⟨Vector.getElem_replicate .., Vector.getElem_replicate .., Vector.getElem_replicate ..⟩
  · show u.outputs[c] = _
    rw [houtputs]
    exact Vector.getElem_replicate ..
  · show u.chans[c] = _
    rw [hchans]
    exact Vector.getElem_map ..
  · show u.timing[c].last = none ∧ u.timing[c].next = _
    rw [hclock]
    exact htiming c
  · show u.profiles[e] = _
    rw [hprofiles, ← softReset_eq]
    exact Vector.getElem_map ..
  · show u.lanes[l] = _
    rw [hlanes]
    exact Vector.getElem_replicate ..
  · show u.aux[x] = _
    rw [haux]
    exact Vector.getElem_map ..
  · have hu : readSample (u.modPort p fun x => { x with mailbox := .busy (.reset tag) }) n line c x =
      readSample u n line c x := rfl
    rw [hu, hsample, hread n line c x hl hx h]
    rfl
  · exact hslots
  · exact hfree
  · exact hpool

/-- Settles O11, from what the rebuild makes of each slot. -/
theorem storeRebuildsAtSoftReset : Obligations.StoreRebuildsAtSoftReset := by
  refine ⟨retiredCount_eq, ?_⟩
  intro s flagged _ hflagged
  have hjoin : flagged.take (16 - retiredCount s) = joining s := by rw [hflagged]; rfl
  have hexcess : flagged.drop (16 - retiredCount s) = excess s := by rw [hflagged]; rfl
  rw [hjoin, hexcess]
  refine ⟨fun n hn => ?_, fun n hn => ?_, fun n hr hn => ?_, ?_, ?_, fun n => ?_, ?_⟩
  · rw [rebuildStore_slots, rebuiltSlot, if_pos hn]
  · rw [rebuildStore_slots, rebuiltSlot, if_neg (not_retired_of_joining hn), if_pos (List.contains_iff_mem.mpr hn)]
  · rw [rebuildStore_slots, rebuiltSlot, if_neg hr, if_neg (fun h => hn (List.contains_iff_mem.mp h))]
  · simp only [rebuildStore]
  · rw [rebuildStore_free]
    exact formFree_ascending _
  · rw [rebuildStore_free]
    exact (formFree_ok _).2 n
  · rw [rebuildStore_pool]
    refine ⟨rfl, rfl, rfl, rfl, rebuiltFault_slot _, (rebuiltFault_reason _).trans ?_⟩
    rw [← hexcess, ne_eq, List.drop_eq_nil_iff, Nat.not_le]

/-- Settles O12: the soft reset is due when its periods have passed; then the part is READY and the requester is
answered. -/
theorem softResetEnds : Obligations.SoftResetEnds := by
  rintro s _ dt rfl
  rw [exec_softResetEnd]
  generalize s.elapse dt = t at *
  refine ⟨fun p tag aborted hstage => ⟨fun hc => ?_, fun hc => ?_⟩, fun h => ?_⟩
  · obtain ⟨v, w, hready⟩ := becomeReady_eq t
    obtain ⟨hunit, hother⟩ := unit_resetAnswered p tag aborted (becomeReady t)
    have hfields := resetAnswered_eq p tag aborted (becomeReady t)
    refine ⟨_, congrArg Host.Outcome.next (softResetEnd_due hstage hc), ?_, ?_, port_resetAnswered .., fun hlt => ?_,
      ?_, ?_, fun c => ?_, fun x => ?_⟩
    · rw [hfields, hready]
    · rw [hfields, hready]
    · exact other_resetAnswered p tag aborted (becomeReady t) hlt
    · rw [hunit, unit_becomeReady]
    · rw [hother, unit_becomeReady]
    · rw [hfields, timing_becomeReady]
      rfl
    · rw [hfields, aux_becomeReady, atReady_eq]
  · rw [softResetEnd_not_due fun hd => Nat.not_le.mpr hc ((softResetDue_iff hstage).mp hd)]
  · rw [softResetEnd_not_due]
    intro hd
    unfold softResetDue at hd
    split at hd
    · next hs => exact h _ _ _ hs
    all_goals cases hd

end

section
/-! The feed rings: smoothing, admission, removal and pruning, SET_FEED (R59–R72). -/

namespace Sys2Proof.Machine

/-! ## Records that a rule leaves alone or changes alike -/

theorem modifyAt_self {α : Type} {n : Nat} {v : Vector α n} {i : Fin n} {g : α → α} (h : g v[i] = v[i]) :
    modifyAt v i g = v := by
  rw [modifyAt, h]
  simp only [Fin.getElem_fin, Vector.set_getElem_self]

theorem modifyAt_congr {α : Type} {n : Nat} {v : Vector α n} {i : Fin n} {g g' : α → α} (h : g v[i] = g' v[i]) :
    modifyAt v i g = modifyAt v i g' := by
  rw [modifyAt, modifyAt, h]

theorem State.modDet_self {s : State} {f : Feed} {g : Detector → Detector} (h : g s.dets[f] = s.dets[f]) :
    s.modDet f g = s := by
  rw [State.modDet, modifyAt_self h]

theorem State.modDet_congr {s : State} {f : Feed} {g g' : Detector → Detector} (h : g s.dets[f] = g' s.dets[f]) :
    s.modDet f g = s.modDet f g' := by
  rw [State.modDet, State.modDet, modifyAt_congr h]

/-! ## The smoother and the guard (R60–R64) -/

/-- The window keeps the newest 16 intervals. -/
theorem window_append {α : Type} {k : Nat} (w : List α) (x : α) (h : w.length ≤ k) (hk : 0 < k) :
    (w ++ [x]).drop ((w ++ [x]).length - k) = (if w.length = k then w.tail else w) ++ [x] := by
  rw [List.length_append, List.length_singleton]
  by_cases hfull : w.length = k
  · rw [if_pos hfull, hfull, Nat.add_sub_cancel_left, List.drop_one, List.tail_append_of_ne_nil]
    rintro rfl
    exact absurd hfull (Nat.ne_of_lt hk)
  · rw [if_neg hfull, Nat.sub_eq_zero_of_le (by omega), List.drop_zero]

section
variable {pNom raw a : Nat} {r : Ring} {sp est e : Int}

theorem smoothRing_first (h : r.prevSmooth = none) :
    smoothRing pNom raw r = ({ r with prevRaw := some raw, prevSmooth := some (raw : Int) }, false) := by
  simp only [smoothRing, h]

theorem smoothRing_near (hs : r.prevSmooth = some sp) (hr : r.prevRaw = some a) (hw : r.window.length ≤ 16)
    (hest : est = pEstOf r.window pNom) (he : e = (raw : Int) - (sp + est)) (hn : e.natAbs ≤ pNom / 8) :
    smoothRing pNom raw r = ({ r with
      prevRaw := some raw, prevSmooth := some (sp + est + e / 8), lastError := some e
      window := (if r.window.length = 16 then r.window.tail else r.window) ++ [(raw : Int) - a] }, false) := by
  rw [hest] at he
  rw [← window_append _ _ hw (by decide)]
  simp only [smoothRing, hs, hr, ← he, if_pos hn, hest]

theorem smoothRing_step (hs : r.prevSmooth = some sp) (hest : est = pEstOf r.window pNom)
    (he : e = (raw : Int) - (sp + est)) (hn : pNom / 8 < e.natAbs) :
    smoothRing pNom raw r = ({ r with
      prevRaw := some raw, prevSmooth := some (raw : Int), lastError := some e, window := [], pendingBreak := true
      steps := satAdd (2 ^ 32 - 1) r.steps 1 }, true) := by
  rw [hest] at he
  simp only [smoothRing, hs, ← he, if_neg (Nat.not_le.mpr hn)]
  rfl

theorem guardRing_none : guardRing none r = r := rfl

theorem guardRing_some {l t : Int} (h : r.prevSmooth = some t) :
    guardRing (some l) r = if t ≤ l then { r with prevSmooth := some (l + 1), pendingBreak := true } else r := by
  simp only [guardRing, h]

end

theorem pNomIn_detected {s : State} {f : Feed} {i : StdId} (h : s.rxs[f].detected = some i) :
    pNomIn s f = Config.pNom i := by
  simp only [pNomIn, Receiver.standard, h, Option.some_or]

theorem pEst_detected {s : State} {f : Feed} {i : StdId} (h : s.rxs[f].detected = some i) :
    pEst s f = pEstOf s.rings[f].window (Config.pNom i) := by
  rw [pEst, pNomIn_detected h]

/-! ## Admission (R59, R66, R67) -/

theorem newestStamp_eq (s : State) (f : Feed) : newestStamp s f = (match s.rings[f].members.getLast? with
    | none => none
    | some n => s.slots[n].stamp2.or s.slots[n].stamp1) := by
  unfold newestStamp Slot.latestStamp
  cases s.rings[f].members.getLast? <;> rfl

theorem smoothFrame_eq {s : State} {f : Feed} {i : StdId} {raw : Nat} {x : Ring × Bool} {latest : Option Int}
    (hx : x = smoothRing (Config.pNom i) raw s.rings[f]) (hl : latest = newestStamp s f) :
    smoothFrame f i raw s = if x.2 then raise (.stampStep f) (s.modRing f fun _ => guardRing latest x.1)
      else s.modRing f fun _ => guardRing latest x.1 := by
  subst hx hl
  rfl

theorem overrun_eq (s : State) (f : Feed) :
    overrun f s = if s.rings[f].members.length < s.rings[f].depth then s
      else raise (.ringOverrun f) (((s.rings[f].members.take 1).foldl (fun s n => removeMember f n s) s).modRing f
        fun r => { r with overruns := satAdd (2 ^ 32 - 1) r.overruns 1 }) := rfl

section
variable {s u : State} {f : Feed} {i : StdId} {seq : BitVec 32} {raw : Nat}

theorem allocate_none {record : Slot} (h : s.free = []) : allocate record s = (none, allocationFailure s) := by
  simp only [allocate, h]

theorem allocate_some {record : Slot} {n : SlotNo} {rest : List SlotNo} (h : s.free = n :: rest) :
    allocate record s = (some n, { s with slots := s.slots.set n record, free := rest }) := by
  simp only [allocate, h]

/-- With no free slot the capture is skipped. -/
theorem admitCapture_skipped (hu : overrun f (smoothFrame f i raw s) = u) (hfree : u.free = []) :
    admitCapture f i seq raw s = (.skipped, (allocationFailure u).modRing f
      fun r => { r with skips := satAdd (2 ^ 32 - 1) r.skips 1 }) := by
  subst hu
  simp only [admitCapture, allocate_none hfree]
  rfl

/-- The head of the free list becomes the newest member. -/
theorem admitCapture_slot {n : SlotNo} {rest : List SlotNo} {stamp : Int}
    (hu : overrun f (smoothFrame f i raw s) = u) (hfree : u.free = n :: rest)
    (hs : u.rings[f].prevSmooth = some stamp) :
    admitCapture f i seq raw s = (.slot n, { u with
      free := rest
      slots := u.slots.set n (captureRecord f i seq raw stamp
        (if (Config.std i).interlaced then some (stamp + pEstOf u.rings[f].window (Config.pNom i) / 2) else none)
        u.rings[f].pendingBreak)
      rings := u.rings.set f { u.rings[f] with
        members := u.rings[f].members ++ [n], pendingBreak := false
        admitted := satAdd (2 ^ 32 - 1) u.rings[f].admitted 1 } }) := by
  have hstamp : u.rings[f].prevSmooth.getD raw = stamp := by rw [hs, Option.getD_some]
  simp only [admitCapture, hu, allocate_some hfree, hstamp]
  rfl

end

/-! ## Removal and pruning (R65, R69, R70) -/

theorem dropSlot_eq (n : SlotNo) (d : Detector) : d.dropSlot n = { d with
    films := d.films.filter fun x => x.first.slot ≠ n ∧ x.second.slot ≠ n
    openFilm := d.openFilm.filter fun o => o.first.slot ≠ n } := by
  have hopen : (match d.openFilm with
      | some o => if o.first.slot = n then none else some o
      | none => none) = d.openFilm.filter fun o => o.first.slot ≠ n := by
    cases d.openFilm with
    | none => rfl
    | some o =>
      by_cases h : o.first.slot = n <;> simp [Option.filter_some, h]
  rw [← hopen]
  rfl

/-- A COMPLETE slot leaves its ring: released, or DETACHED while it is pinned. -/
theorem removeMember_complete {s : State} {f : Feed} {n : SlotNo} (h : s.slots[n].state = .complete) :
    removeMember f n s = (if s.slots[n].pins = 0
      then release n (s.modRing f fun x => { x with members := x.members.filter (· ≠ n) })
      else (s.modRing f fun x => { x with members := x.members.filter (· ≠ n) }).modSlot n
        fun x => { x with state := .detached }).modDet f fun d => { d with
          films := d.films.filter fun x => x.first.slot ≠ n ∧ x.second.slot ≠ n
          openFilm := d.openFilm.filter fun o => o.first.slot ≠ n } := by
  have hr : (s.modRing f fun x => { x with members := x.members.filter (· ≠ n) }).slots[n].state = .complete := h
  rw [removeMember, detachOrRelease, if_pos hr, funext (dropSlot_eq n)]
  rfl

/-- How far a prune goes: the second successor of every removed member lies at or before the horizon, that of the
oldest one that stays lies after it, and two members stay. -/
theorem pruneCount_spec (h : Int) (l : List Int) :
    (pruneCount h l = 0 ∨ pruneCount h l + 2 ≤ l.length) ∧
      (∀ i x, i < pruneCount h l → l[i + 2]? = some x → x ≤ h) ∧
      (∀ x, l[pruneCount h l + 2]? = some x → h < x) := by
  induction l with
  | nil => exact ⟨.inl rfl, fun i x hi => absurd hi (Nat.not_lt_zero i), fun x hx => by simp at hx⟩
  | cons a l ih =>
    match l, ih with
    | [], _ => exact ⟨.inl rfl, fun i x hi => absurd hi (Nat.not_lt_zero i), fun x hx => by simp at hx⟩
    | [b], _ => exact ⟨.inl rfl, fun i x hi => absurd hi (Nat.not_lt_zero i), fun x hx => by simp [pruneCount] at hx⟩
    | b :: c :: rest, ih =>
      obtain ⟨hlen, hle, hgt⟩ := ih
      by_cases hc : c ≤ h
      · have hcount : pruneCount h (a :: b :: c :: rest) = pruneCount h (b :: c :: rest) + 1 := by
          rw [pruneCount, if_pos hc, Nat.add_comm]
        rw [hcount]
        refine ⟨.inr ?_, fun i x hi hx => ?_, fun x hx => hgt x hx⟩
        · simp only [List.length_cons] at hlen ⊢
          omega
        · cases i with
          | zero =>
            obtain rfl : c = x := by simpa using hx
            exact hc
          | succ i => exact hle i x (by omega) hx
      · have hcount : pruneCount h (a :: b :: c :: rest) = 0 := by rw [pruneCount, if_neg hc]
        rw [hcount]
        refine ⟨.inl rfl, fun i x hi => absurd hi (Nat.not_lt_zero i), fun x hx => ?_⟩
        obtain rfl : c = x := by simpa using hx
        exact Int.not_le.mp hc

theorem drawsOn_iff (s : State) (f : Feed) (c : Chan) : drawsOn s f c = true ↔
    (bankOf s c).feed = f ∧ (s.chans[c].state = .priming ∨ s.chans[c].state = .running) := by
  simp only [drawsOn, Bool.and_eq_true, Bool.or_eq_true, decide_eq_true_eq]
  rfl

/-- The horizon is the least term of the channels that draw on the feed (R69). -/
theorem horizon_eq_some {s : State} {f : Feed} {h : Int} (hex : ∃ c, drawsOn s f c = true ∧ horizonTerm s c = h)
    (hle : ∀ c, drawsOn s f c = true → h ≤ horizonTerm s c) : horizon s f = some h := by
  obtain ⟨c, hc, rfl⟩ := hex
  rw [horizon, List.min?_eq_some_iff]
  simp only [List.mem_map, List.mem_filter, allChans, List.mem_finRange, true_and]
  refine ⟨⟨c, hc, rfl⟩, ?_⟩
  rintro _ ⟨d, hd, rfl⟩
  exact hle d hd

theorem horizon_eq_none {s : State} {f : Feed} (h : ∀ c, ¬ drawsOn s f c = true) : horizon s f = none := by
  have : allChans.filter (drawsOn s f) = [] := List.filter_eq_nil_iff.mpr fun c _ => h c
  rw [horizon, this]
  rfl

theorem prune_horizon {s : State} {f : Feed} {h : Int} (hh : horizon s f = some h) :
    prune f s = (removeOldest f (pruneCount h (firstStamps s f)) s).modRing f
      fun r => { r with lastHorizon := some (h, s.dev.houseTime) } := by
  simp only [prune, hh]
  rfl

theorem prune_no_horizon {s : State} {f : Feed} (hh : horizon s f = none) :
    prune f s = (removeOldest f (completeCount s f - 2) s).modRing f fun r => { r with lastHorizon := none } := by
  simp only [prune, hh]

theorem firstStamps_get {s : State} {f : Feed} {i : Nat} {n : SlotNo} (h : s.rings[f].members[i]? = some n) :
    (firstStamps s f)[i]? = some (s.slots[n].stamp1.getD 0) := by
  rw [firstStamps, List.getElem?_map, h]
  rfl

/-! ## SET_FEED (R72, R89) -/

theorem exec_setFeed (dt : Nat) (p : Port) (tag : Byte) (params : List Word) (s : State) :
    exec (.setFeed dt p tag params) s = .next (submit p tag params params4 (ownSetFeed p) (s.elapse dt)) := rfl

theorem idx_eq_none {n v : Nat} (h : n ≤ v) : idx n v = none := dif_neg (Nat.not_lt.mpr h)

theorem cadenceDisable_eq (f : Feed) (s : State) : cadenceDisable f s =
    if s.dets[f].state.isLocked then exitLocked f s
    else s.modDet f fun d => if d.state = .video then d
      else { d with state := .video, phase := none, candidates := 0, passCount := 0 } := by
  have hvideo (h : s.dets[f].state = .video) : s = s.modDet f fun d => if d.state = .video then d
      else { d with state := .video, phase := none, candidates := 0, passCount := 0 } := by
    rw [State.modDet_self]
    exact if_pos h
  have hcandidate (h : s.dets[f].state ≠ .video) :
      (s.modDet f fun d => { d with state := .video, phase := none, candidates := 0, passCount := 0 }) =
        s.modDet f fun d => if d.state = .video then d
          else { d with state := .video, phase := none, candidates := 0, passCount := 0 } :=
    State.modDet_congr (if_neg h).symm
  unfold cadenceDisable
  split
  · next h => rw [h]; exact hvideo h
  · next h => rw [h]; exact hcandidate (by rw [h]; decide)
  · next h => rw [h]; exact hcandidate (by rw [h]; decide)
  · next h => rw [h]; rfl
  · next h => rw [h]; rfl

theorem anyDraws_iff (s : State) (f : Feed) : allChans.any (drawsOn s f) = true ↔
    ∃ c : Chan, (bankOf s c).feed = f ∧ (s.chans[c].state = .priming ∨ s.chans[c].state = .running) := by
  simp only [List.any_eq_true, allChans, List.mem_finRange, true_and, drawsOn_iff]

/-- The ring takes the three values and loses its oldest members; the detector follows an enable that goes off. -/
theorem setRing_eq {f : Feed} {d th : Nat} {enable : Bool} {s a : State}
    (ha : a = (s.rings[f].members.take (s.rings[f].members.length - d)).foldl (fun s n => removeMember f n s)
      (s.modRing f fun r => { r with depth := d, cadenceEnable := enable, threshold := th })) :
    setRing f d enable th s =
      if s.rings[f].cadenceEnable = true ∧ enable = false then cadenceDisable f a else a := by
  have hmembers : (s.modRing f fun r => { r with depth := d, cadenceEnable := enable, threshold := th }).rings[f].members =
      s.rings[f].members := by
    show (modifyAt s.rings f _)[f].members = _
    rw [modifyAt_same]
  have hoff : (s.rings[f].cadenceEnable && !enable) = true ↔ s.rings[f].cadenceEnable = true ∧ enable = false := by
    rw [Bool.and_eq_true, Bool.not_eq_true']
  have ha' : removeOldest f (s.rings[f].members.length - d) (s.modRing f fun r =>
      { r with depth := d, cadenceEnable := enable, threshold := th }) = a := by
    rw [ha, removeOldest, hmembers]
    rfl
  simp only [setRing, ha', hoff]

theorem decide_eq_one_iff {e : Word} (h : e.toNat ≤ 1) : decide (e = 1#16) = false ↔ e = 0#16 := by
  rcases eq_zero_or_one_of_toNat_le_one h with rfl | rfl <;> decide

theorem finish_ok (p : Port) (tag : Byte) (words : List Word) (s : State) :
    finish p tag (.ok words s) = s.done p .ok tag words := rfl

section
variable {p : Port} {s : State} {w d e th : Nat} {f : Feed} {enable : Bool}

theorem ownSetFeed_invalid (h : 8 ≤ w ∨ d < 3 ∨ 8 < d ∨ 2 ≤ e ∨ 255 < th) :
    ownSetFeed p (w, d, e, th) s = .invalid s := by
  unfold ownSetFeed
  split
  · next f enable hf he =>
    have hw : w < 8 := by
      by_contra hw
      rw [idx_eq_none (Nat.not_lt.mp hw)] at hf
      cases hf
    have he : e ≤ 1 := by
      by_contra he'
      rw [flagOf_eq_none (Nat.not_le.mp he')] at he
      cases he
    dsimp only
    rw [if_neg (by omega)]
  · rfl

theorem ownSetFeed_legal (hf : f.val = w) (he : flagOf e = some enable) (hd : 3 ≤ d) (hd' : d ≤ 8) (hth : th ≤ 255) :
    ownSetFeed p (w, d, e, th) s =
      if allChans.any (drawsOn s f) then .refused .feedInUse s
      else .ok [] (announceIf
        (!(s.rings[f].depth = d && s.rings[f].cadenceEnable = enable && s.rings[f].threshold = th)) p
        ⟨0x20#8, some f.val, none⟩ (setRing f d enable th s)) := by
  subst hf
  simp only [ownSetFeed, idx_val, he, if_pos (And.intro hd (And.intro hd' hth))]

end

end Sys2Proof.Machine

open Sys2Proof Sys2Proof.Machine

/-- Settles O45, from the cases of the smoother and the guard. -/
theorem stampsAreSmoothed : Obligations.StampsAreSmoothed := by
  refine ⟨fun pNom raw r h => smoothRing_first h, ?_, fun r l t h => ⟨rfl, fun hl => ?_, fun hl => ?_⟩, ?_⟩
  · intro pNom raw a r sp est e hs hr hw hest he
    exact ⟨fun hn => smoothRing_near hs hr hw hest he hn, fun hn => smoothRing_step hs hest he hn⟩
  · rw [guardRing_some h, if_neg (Int.not_le.mpr hl)]
  · rw [guardRing_some h, if_pos hl]
  · intro s f i h
    refine ⟨pEst_detected h, fun hw => if_pos hw, fun hw => ?_⟩
    rw [rateDeviation, if_neg (Nat.not_lt.mpr hw), pEst_detected h, pNomIn_detected h, pEstOf, if_pos hw]

/-- Settles O46, from the state that the smoother and the overrun leave, and from the allocation. -/
theorem frameStartAdmitsOrSkips : Obligations.FrameStartAdmitsOrSkips := by
  intro s t u f i seq raw x latest hx hl ht hu
  have hu' : overrun f (smoothFrame f i raw s) = u := by
    rw [smoothFrame_eq hx (hl.trans (newestStamp_eq s f).symm), ← ht, overrun_eq, hu]
  exact ⟨fun hfree => admitCapture_skipped hu' hfree, fun n rest stamp hfree hs => admitCapture_slot hu' hfree hs⟩

/-- Settles O47, from how a member leaves and how far a prune goes. -/
theorem removalAndPruning : Obligations.RemovalAndPruning := by
  refine ⟨?_, ?_⟩
  · rintro s _ f n hc rfl
    exact removeMember_complete hc
  · intro s f draws term remove hdraws hterm hremove
    have hdraws' : ∀ c, draws c ↔ drawsOn s f c = true := fun c => (hdraws c).trans (drawsOn_iff s f c).symm
    have hterm' : ∀ c, term c = horizonTerm s c := hterm
    refine ⟨fun h hex hle => ?_, fun hnone => ?_⟩
    · simp only [hdraws', hterm'] at hex hle
      obtain ⟨hlen, hbefore, hafter⟩ := pruneCount_spec h (firstStamps s f)
      refine ⟨pruneCount h (firstStamps s f), ?_, ?_, fun i n hi hn => hbefore i _ hi (firstStamps_get hn),
        fun n hn => hafter _ (firstStamps_get hn)⟩
      · rw [prune_horizon (horizon_eq_some hex hle), hremove]
        rfl
      · rwa [firstStamps, List.length_map] at hlen
    · simp only [hdraws'] at hnone
      rw [prune_no_horizon (horizon_eq_none hnone), hremove]
      rfl

/-- Settles O48, from the owner's answers and from what the accepted values do to the ring and the detector. -/
theorem setFeedChangesTheRing : Obligations.SetFeedChangesTheRing := by
  rintro s _ _ dt p tag w d e th rfl ht rfl
  rw [exec_setFeed]
  generalize s.elapse dt = t at *
  have howner := submit_owner p tag [w, d, e, th] params4 (ownSetFeed p) t ht (w.toNat, d.toNat, e.toNat, th.toNat) rfl
  refine ⟨fun h => ?_, ?_⟩
  · rw [submit_reads p tag [w, d, e, th] params4 (ownSetFeed p) t ht (w.toNat, d.toNat, e.toNat, th.toNat) rfl _ _
      (ownSetFeed_invalid h)]
    rfl
  · rintro f _ hf hd hd' he hth rfl
    have hlegal := ownSetFeed_legal (p := p) (s := t.taking p 4) hf (flagOf_toNat e he) hd hd' hth
    have hdraws := anyDraws_iff (t.taking p 4) f
    refine ⟨fun hex => ?_, fun a hnone ha => ?_⟩
    · rw [submit_reads p tag [w, d, e, th] params4 (ownSetFeed p) t ht (w.toNat, d.toNat, e.toNat, th.toNat) rfl _ _
        (hlegal.trans (if_pos (hdraws.mpr hex)))]
      rfl
    · have hfree : ¬ allChans.any (drawsOn (t.taking p 4) f) = true := by
        rw [hdraws]
        rintro ⟨c, hc, hs⟩
        obtain ⟨hp, hr⟩ := hnone c hc
        exact hs.elim hp hr
      have hreply : submit p tag [w, d, e, th] params4 (ownSetFeed p) t =
          (announceIf (!(t.rings[f].depth = d.toNat && t.rings[f].cadenceEnable = decide (e = 1#16) &&
              t.rings[f].threshold = th.toNat)) p ⟨0x20#8, some f.val, none⟩
            (if t.rings[f].cadenceEnable = true ∧ e = 0#16 then cadenceDisable f a else a)).done p .ok tag [] := by
        have hring := setRing_eq (s := t.taking p 4) ha
        rw [howner, List.length_cons, List.length_cons, List.length_cons, List.length_cons, List.length_nil, hlegal,
          if_neg hfree, hring, finish_ok, if_congr (and_congr Iff.rfl (decide_eq_one_iff he)) rfl rfl]
        rfl
      rw [hreply]
      refine ⟨fun h1 h2 h3 => ?_, fun hne => ?_⟩
      · have hoff : ¬ (t.rings[f].cadenceEnable = true ∧ e = 0#16) := by
          rintro ⟨hon, rfl⟩
          rw [h2] at hon
          exact absurd hon (by decide)
        rw [if_neg hoff, decide_eq_true h1, decide_eq_true h2, decide_eq_true h3]
        rfl
      · have hchanged : (t.rings[f].depth = d.toNat && t.rings[f].cadenceEnable = decide (e = 1#16) &&
            t.rings[f].threshold = th.toNat) = false := by
          rw [← Bool.not_eq_true, Bool.and_eq_true, Bool.and_eq_true, decide_eq_true_iff, decide_eq_true_iff,
            decide_eq_true_iff, and_assoc]
          exact hne
        rw [hchanged, ← cadenceDisable_eq]
        rfl

end

section
/-! The cadence detectors: repeat flags, the 3:2 and 2:2 patterns, film frames (R77–R88). -/

namespace Sys2Proof.Machine

/-! ## Repeat flags (R77) -/

theorem repeatDiff_none {ref : Option RefBuffer} {x : Option FieldIn}
    (h : x = none ∨ ref = none ∨ (∃ y, x = some y ∧ y.damaged = true) ∨ (∃ b, ref = some b ∧ b.damaged = true)) :
    repeatDiff ref x = none := by
  rcases h with rfl | rfl | ⟨y, rfl, hy⟩ | ⟨b, rfl, hb⟩
  · cases ref <;> rfl
  · rfl
  · cases ref with
    | none => rfl
    | some b => simp only [repeatDiff, hy, Bool.or_true, if_true]
  · cases x with
    | none => rfl
    | some y => simp only [repeatDiff, hb, Bool.true_or, if_true]

theorem repeatDiff_some {y : FieldIn} {b : RefBuffer} (hy : y.damaged = false) (hb : b.damaged = false) :
    repeatDiff (some b) (some y) = some (sigDiff y.sig b.sig) := by
  simp only [repeatDiff, hy, hb, Bool.or_self, Bool.false_eq_true, if_false]

/-- A field is taken: its flag, its difference and its buffer. -/
theorem takeFlag_eq {d : Detector} {threshold : Nat} {field2 : Bool} {x : Option FieldIn} (h : d.history.length ≤ 10) :
    d.takeFlag threshold field2 x = { d with
      history := (if d.history.length = 10 then d.history.tail else d.history) ++
        [flagOfDiff threshold (repeatDiff (if field2 then d.buf2 else d.buf1) x)]
      lastM := (repeatDiff (if field2 then d.buf2 else d.buf1) x).or d.lastM
      buf1 := if field2 then d.buf1 else x.map fun y => ⟨y.sig, y.damaged⟩
      buf2 := if field2 then x.map fun y => ⟨y.sig, y.damaged⟩ else d.buf2 } := by
  rw [← window_append _ _ h (by decide)]
  rfl

/-! ## The 3:2 pattern (R79–R81) -/

/-- Ten flags with two SET five apart, the others CLEAR. -/
def pattern32 (i : Nat) : List RepeatFlag :=
  (List.range 10).map fun k => if k = i ∨ k = i + 5 then RepeatFlag.set else .clear

theorem candidatePhase_pattern : ∀ i : Fin 5, candidatePhase (pattern32 i.val) = some ((6 - i.val) % 5) := by decide

/-- A list of ten flags, none UNKNOWN, whose SET positions are `i` and `i + 5`. -/
theorem eq_pattern32 {h : List RepeatFlag} {i : Nat} (hlen : h.length = 10) (hknown : RepeatFlag.unknown ∉ h)
    (hset : ∀ k < 10, h.getD k .unknown = .set ↔ k = i ∨ k = i + 5) : h = pattern32 i := by
  refine List.ext_getElem (by rw [hlen]; rfl) fun k hk _ => ?_
  have hk10 : k < 10 := hlen ▸ hk
  have hget : h.getD k .unknown = h[k] := by
    rw [List.getD_eq_getElem?_getD, List.getElem?_eq_getElem hk, Option.getD_some]
  have hiff := hset k hk10
  rw [hget] at hiff
  have hne : h[k] ≠ .unknown := fun he => hknown (he ▸ List.getElem_mem hk)
  simp only [pattern32, List.getElem_map, List.getElem_range]
  by_cases hs : k = i ∨ k = i + 5
  · rw [if_pos hs, hiff.mpr hs]
  · rw [if_neg hs]
    cases hf : h[k] with
    | set => exact absurd (hiff.mp hf) hs
    | clear => rfl
    | unknown => exact absurd hf hne

theorem candidatePhase_eq_some {h : List RepeatFlag} {p : Nat} (hp : candidatePhase h = some p) :
    ∃ i : Nat, i < 5 ∧ p = (6 - i) % 5 ∧ h = pattern32 i := by
  unfold candidatePhase at hp
  dsimp only at hp
  split at hp
  · next hh =>
    obtain ⟨hlen, hknown⟩ := hh
    split at hp
    · next i j hsets =>
      split at hp
      · next hij =>
        have hmem : ∀ k, k ∈ (List.range 10).filter (fun i => h.getD i .unknown = .set) ↔ k = i ∨ k = j := by
          intro k; rw [hsets]; simp
        have hi : i < 10 := List.mem_range.mp (List.mem_of_mem_filter ((hmem i).mpr (.inl rfl)))
        have hj : j < 10 := List.mem_range.mp (List.mem_of_mem_filter ((hmem j).mpr (.inr rfl)))
        obtain rfl : j = i + 5 := by omega
        refine ⟨i, by omega, ?_, eq_pattern32 hlen (by simpa using hknown) fun k hk => ?_⟩
        · have := Option.some.inj hp
          omega
        · rw [← hmem k, List.mem_filter, List.mem_range, decide_eq_true_iff]
          exact (and_iff_right hk).symm
      · cases hp
    · cases hp
  · cases hp

theorem lastFlag_eq {d : Detector} {flag : RepeatFlag} (h : d.history.getLast? = some flag) : d.lastFlag = flag := by
  rw [Detector.lastFlag, h, Option.getD_some]

theorem candidateFails_iff (flag : RepeatFlag) (p : Nat) : candidateFails flag p = true ↔
    flag = .unknown ∨ (flag = .set ∧ p ≠ 2) ∨ (flag = .clear ∧ p = 2) := by
  simp only [candidateFails, Bool.or_eq_true, Bool.and_eq_true, decide_eq_true_eq, or_assoc]

theorem not_candidateFails {flag : RepeatFlag} {p : Nat}
    (h : (flag = .set ∧ p = 2) ∨ (flag = .clear ∧ p ≠ 2)) : ¬ candidateFails flag p = true := by
  rw [candidateFails_iff]
  rcases h with ⟨rfl, h⟩ | ⟨rfl, h⟩ <;> simp [h]

theorem nextPhase_some {d : Detector} {p : Nat} (h : d.phase = some p) : nextPhase d.phase = (p + 1) % 5 := by
  rw [nextPhase, h, Option.getD_some]

section
variable {s : State} {f : Feed} {x : Option FieldIn} {flag : RepeatFlag} {p : Nat}

theorem rule32_video_none (hs : s.dets[f].state = .video) (hn : candidatePhase s.dets[f].history = none) :
    rule32 f x s = s := by
  simp only [rule32, hs, hn]

theorem rule32_video_some (hs : s.dets[f].state = .video) (hn : candidatePhase s.dets[f].history = some p) :
    rule32 f x s = s.modDet f fun d => { d with state := .candidate32, phase := some p, candidates := 0 } := by
  simp only [rule32, hs, hn]

variable (hflag : s.dets[f].history.getLast? = some flag) (hp : s.dets[f].phase = some p)
include hflag hp

theorem rule32_candidate (hs : s.dets[f].state = .candidate32) :
    rule32 f x s = if candidateFails flag ((p + 1) % 5)
      then s.modDet f fun d => { d with state := .video, phase := none, candidates := 0 }
      else if s.dets[f].candidates = 4 then enterLocked f .locked32
        (s.modDet f fun d => { d with phase := some ((p + 1) % 5), candidates := d.candidates + 1 })
      else s.modDet f fun d => { d with phase := some ((p + 1) % 5), candidates := d.candidates + 1 } := by
  have hcount : (s.dets[f].candidates + 1 = 5) = (s.dets[f].candidates = 4) := by simp
  simp only [rule32, hs, nextPhase_some hp, lastFlag_eq hflag, hcount]

theorem rule32_locked (hs : s.dets[f].state = .locked32) :
    rule32 f x s = if (p + 1) % 5 = 2 ∧ flag = .clear
      then cadenceBreak f (s.modDet f fun d => { d with phase := some ((p + 1) % 5) })
      else filmField32 f ((p + 1) % 5) x (s.modDet f fun d => { d with phase := some ((p + 1) % 5) }) := by
  simp only [rule32, hs, nextPhase_some hp, lastFlag_eq hflag]

end

theorem State.modDet_modDet (s : State) (f : Feed) (g g' : Detector → Detector) :
    (s.modDet f g).modDet f g' = s.modDet f fun d => g' (g d) := by
  simp only [State.modDet, modifyAt, Fin.getElem_fin, Vector.getElem_set_self, Vector.set_set]

/-- A break counts itself before the exit. -/
theorem cadenceBreak_eq (f : Feed) (s : State) (g : Detector → Detector) :
    cadenceBreak f (s.modDet f g) =
      exitLocked f (s.modDet f fun d => { g d with breaks := satAdd (2 ^ 32 - 1) (g d).breaks 1 }) := by
  rw [cadenceBreak, State.modDet_modDet]
  rfl

/-! ## The 2:2 pattern (R82–R84) -/

theorem judge_unknown {threshold : Nat} {b1 b2 : Option RefBuffer} {mi : Option Nat} {x : Option FieldIn}
    (h : b1 = none ∨ b2 = none ∨ mi = none ∨ x = none ∨ (∃ b, b1 = some b ∧ b.damaged = true) ∨
      (∃ b, b2 = some b ∧ b.damaged = true) ∨ (∃ y, x = some y ∧ y.damaged = true)) :
    judge threshold b1 b2 mi x = .unknown := by
  unfold judge
  split
  · next b1 b2 mi y =>
    have hdamaged : (b1.damaged || b2.damaged || y.damaged) = true := by
      simpa [or_assoc] using h
    rw [if_pos hdamaged]
  · rfl

theorem judge_sound {threshold i : Nat} {r1 r2 : RefBuffer} {y : FieldIn} (h1 : r1.damaged = false)
    (h2 : r2.damaged = false) (hy : y.damaged = false) :
    judge threshold (some r1) (some r2) (some i) (some y) =
      if sigDiff y.sig r2.sig ≤ threshold then .static
      else if 2 * i < sigDiff y.sig r2.sig then .pass else .fail := by
  simp only [judge, h1, h2, hy, Bool.or_self, Bool.false_eq_true, if_false]

section
variable {s : State} {f : Feed} {v : Verdict}

theorem applyVerdict_video (h : s.dets[f].state = .video) :
    applyVerdict f v s = if v = .pass then s.modDet f fun d => { d with state := .candidate22, passCount := 1 }
      else s.modDet f fun d => { d with passCount := 0 } := by
  simp only [applyVerdict, h]

theorem applyVerdict_candidate (h : s.dets[f].state = .candidate22) :
    applyVerdict f v s = if v = .pass then
        (if s.dets[f].passCount = 7
          then enterLocked f .locked22 (s.modDet f fun d => { d with passCount := d.passCount + 1 })
          else s.modDet f fun d => { d with passCount := d.passCount + 1 })
      else s.modDet f fun d => { d with state := .video, passCount := 0 } := by
  have hcount : (s.dets[f].passCount + 1 = 8) = (s.dets[f].passCount = 7) := by simp
  simp only [applyVerdict, h, hcount]

theorem applyVerdict_fail (h : s.dets[f].state = .locked22) :
    applyVerdict f .fail s = if s.dets[f].failCount = 2 then cadenceBreak f s
      else s.modDet f fun d => { d with failCount := d.failCount + 1 } := by
  have hcount : (s.dets[f].failCount + 1 = 3) = (s.dets[f].failCount = 2) := by simp
  simp only [applyVerdict, h, hcount]

theorem applyVerdict_pass (h : s.dets[f].state = .locked22) :
    applyVerdict f .pass s = s.modDet f fun d => { d with failCount := 0 } := by
  simp only [applyVerdict, h]

theorem applyVerdict_idle (h : s.dets[f].state = .locked22) (hv : v = .static ∨ v = .unknown) :
    applyVerdict f v s = s := by
  rcases hv with rfl | rfl <;> simp only [applyVerdict, h]

end

/-- The difference of the two fields of a frame, m_intra (R82). -/
def intraDiff (buf1 : Option RefBuffer) (x : Option FieldIn) : Option Nat :=
  match buf1, x with
  | some b, some y => some (sigDiff y.sig b.sig)
  | _, _ => none

section
variable {s : State} {f : Feed} {i : StdId} {x : Option FieldIn} {d : Detector}

theorem is22_only (h : i = 0 ∨ i = 2) : Config.is22 i = true ∧ Config.is32 i = false := by
  rcases h with rfl | rfl <;> decide

variable (hi : s.rxs[f].detected = some i) (h22 : i = 0 ∨ i = 2)
include hi h22

/-- A field 2 under a 2:2 standard forms m_intra (R82). -/
theorem takeField22_second (hd : d = { s.dets[f].takeFlag s.rings[f].threshold true x with
      mIntra := intraDiff s.dets[f].buf1 x }) :
    takeField f true x s = if s.rings[f].cadenceEnable
      then film22 f true x (s.modDet f fun _ => d) else s.modDet f fun _ => d := by
  obtain ⟨his22, his32⟩ := is22_only h22
  have htaken : ((s.modDet f fun d => d.takeFlag s.rings[f].threshold true x).modDet f fun d => { d with
      mIntra := intraDiff d.buf1 x }) = s.modDet f fun _ => d := by
    rw [State.modDet_modDet]
    exact State.modDet_congr hd.symm
  rw [← htaken]
  simp only [takeField, hi, Option.any_some, his22, his32, Bool.and_self, if_true, Bool.false_eq_true, if_false]
  cases s.rings[f].cadenceEnable <;> rfl

/-- The first field 1 after a report of LOCKED forms no verdict. -/
theorem takeField22_first (hh : s.dets[f].history = [])
    (hd : d = s.dets[f].takeFlag s.rings[f].threshold false x) :
    takeField f false x s = if s.rings[f].cadenceEnable
      then film22 f false x (s.modDet f fun _ => d) else s.modDet f fun _ => d := by
  obtain ⟨his22, his32⟩ := is22_only h22
  have htaken : (s.modDet f fun d => d.takeFlag s.rings[f].threshold false x) = s.modDet f fun _ => d :=
    State.modDet_congr hd.symm
  simp only [takeField, hi, Option.any_some, his22, his32, htaken, hh, List.isEmpty_nil, Bool.not_true,
    Bool.and_false, Bool.false_eq_true, if_false, if_true]
  cases s.rings[f].cadenceEnable <;> rfl

/-- A later field 1 forms the verdict on the frame before it, and applies it while the enable is on. -/
theorem takeField22_verdict {v : Verdict} {u : State} (hh : s.dets[f].history ≠ [])
    (hd : d = s.dets[f].takeFlag s.rings[f].threshold false x)
    (hv : v = s.dets[f].verdictOn s.rings[f].threshold x)
    (hu : u = s.modDet f fun _ => { d with verdict := some v, followsSkip := s.dets[f].buf2.isNone }) :
    takeField f false x s =
      if s.rings[f].cadenceEnable then film22 f false x (applyVerdict f v u) else u := by
  obtain ⟨his22, his32⟩ := is22_only h22
  have hne : s.dets[f].history.isEmpty = false := by rwa [List.isEmpty_eq_false_iff]
  have htaken : ((s.modDet f fun d => d.takeFlag s.rings[f].threshold false x).modDet f fun d =>
      { d with verdict := some v, followsSkip := s.dets[f].buf2.isNone }) = u := by
    rw [State.modDet_modDet, hu]
    exact State.modDet_congr (by rw [hd])
  simp only [takeField, hi, Option.any_some, his22, his32, ← hv, htaken, hne, Bool.not_false, Bool.and_self,
    Bool.and_false, Bool.false_eq_true, if_false, if_true]
  cases s.rings[f].cadenceEnable <;> rfl

end

/-! ## Film frames (R85–R88) -/

theorem beginHalf_present (d : Detector) (est : Int) (x : FieldIn) :
    d.beginHalf est (some x) = { d with
      half := if d.cycleBegun then 1 - d.half else 0, cycleBegun := true
      anchor := if d.cycleBegun = true ∧ d.half = 0 then d.anchor else some x.stamp } := by
  have hzero : (if d.cycleBegun = true then 1 - d.half else 0) = 0 ↔ ¬ (d.cycleBegun = true ∧ d.half = 0) := by
    split
    · next h => rw [and_iff_right h]; omega
    · next h => exact ⟨fun _ hc => h hc.1, fun _ => rfl⟩
  have hanchor : (if (if d.cycleBegun = true then 1 - d.half else 0) = 0 then some x.stamp else d.anchor) =
      if d.cycleBegun = true ∧ d.half = 0 then d.anchor else some x.stamp := by
    rw [if_congr hzero rfl rfl, ite_not]
  rw [← hanchor]
  rfl

theorem guardStamp_none (t : Int) : guardStamp none t = t := rfl

theorem guardStamp_some (l t : Int) : guardStamp (some l) t = max t (l + 1) := by
  rw [guardStamp]
  split <;> omega

theorem openPosition_stamped {d : Detector} {est a t : Int} {j : Nat} {x : Option FieldIn} (ha : d.anchor = some a)
    (ht : t = guardStamp d.lastFilmStamp (a + (j : Int) * 5 * est / 4)) :
    d.openPosition est j x = { d with
      nextFilm := d.nextFilm + 1, lastFilmStamp := some t
      openFilm := x.map fun y => ⟨d.nextFilm, t, y.ref⟩ } := by
  subst ht
  cases x <;> simp only [Detector.openPosition, ha, Option.map_some, Option.some_or, Option.map_none]

theorem completeFilm_open {d : Detector} {o : OpenFilm} {r : FieldRef} (ho : d.openFilm = some o)
    (hl : d.films.length ≤ 8) :
    d.completeFilm r = { d with
      films := (if d.films.length = 8 then d.films.tail else d.films) ++ [⟨o.number, o.stamp, o.first, r, d.breakSeen⟩]
      breakSeen := false, openFilm := none } := by
  rw [← window_append _ _ hl (by decide)]
  simp only [Detector.completeFilm, ho]
  rfl

section
variable {s : State} {f : Feed} {y : FieldIn}

theorem filmField32_begin : filmField32 f 0 (some y) s = tagField y ⟨s.dets[f].nextFilm, .first⟩
    (s.modDet f fun d => (d.beginHalf (pEst s f) (some y)).openPosition (pEst s f)
      (2 * (d.beginHalf (pEst s f) (some y)).half) (some y)) := rfl

theorem filmField32_later {k : Nat} (hc : s.dets[f].cycleBegun = true) (hk : k ≠ 0) :
    filmField32 f k (some y) s =
      if k = 3 then tagField y ⟨s.dets[f].nextFilm, .first⟩ (s.modDet f fun d =>
        d.openPosition (pEst s f) (2 * d.half + 1) (some y))
      else if k = 2 then tagField y ⟨s.dets[f].nextFilm - 1, .dropped⟩ s
      else tagField y ⟨s.dets[f].nextFilm - 1, .second⟩ (s.modDet f fun d => d.completeFilm y.ref) := by
  have hbegun : ¬ (!s.dets[f].cycleBegun) = true := by rw [hc]; decide
  rw [filmField32, if_neg hk, if_neg hbegun]
  rfl

theorem film22_none (f : Feed) (b : Bool) (s : State) : film22 f b none s = s := by
  unfold film22
  split
  · next h => cases h
  · rfl

theorem film22_locked (h : s.dets[f].state = .locked22) (b : Bool) :
    film22 f b (some y) s = if b then completeFilm22 f y s else openFilm22 f y s := by
  simp only [film22, h]

theorem openFilm22_eq {t : Int} (ht : t = guardStamp s.dets[f].lastFilmStamp y.stamp) :
    openFilm22 f y s = tagField y ⟨s.dets[f].nextFilm, .first⟩ (s.modDet f fun d => { d with
      openFilm := some ⟨s.dets[f].nextFilm, t, y.ref⟩, nextFilm := d.nextFilm + 1, lastFilmStamp := some t }) := by
  subst ht
  rfl

theorem tagField_used {g : FilmTag} (h : s.slots[y.ref.slot].state.inUse = true) :
    tagField y g s = s.modSlot y.ref.slot fun x =>
      if y.ref.field2 then { x with tag2 := some g } else { x with tag1 := some g } := if_pos h

end

end Sys2Proof.Machine

open Sys2Proof Sys2Proof.Machine

/-- Settles O49, from the difference against the reference buffer. -/
theorem repeatFlagsAreFormed : Obligations.RepeatFlagsAreFormed := by
  rintro d _ threshold field2 x _ flag hlen rfl rfl
  refine ⟨?_, ?_⟩
  · rintro hnone rfl
    rw [takeFlag_eq hlen, repeatDiff_none hnone]
    rfl
  · rintro y b _ hx href hy hb rfl rfl
    rw [takeFlag_eq hlen, href, hx, repeatDiff_some hy hb]
    rfl

/-- Settles O50, from the candidate pattern and the rule of each state. -/
theorem threeTwoPattern : Obligations.ThreeTwoPattern := by
  refine ⟨fun h p => ⟨candidatePhase_eq_some, ?_⟩, ?_⟩
  · rintro ⟨i, hi, rfl, rfl⟩
    exact candidatePhase_pattern ⟨i, hi⟩
  · rintro s f x _ flag p rfl hflag
    refine ⟨fun hs hnone => ?_, fun hs hsome => ?_, fun hs hp => ⟨fun hfail => ?_, fun hok hc => ?_, fun hok hc => ?_⟩,
      fun hs hp => ⟨fun h2 hclear => ?_, fun hgo => ?_⟩⟩
    · rw [rule32_video_none hs hnone]
    · rw [rule32_video_some hs hsome]
    · rw [rule32_candidate hflag hp hs, if_pos ((candidateFails_iff _ _).mpr hfail)]
    · rw [rule32_candidate hflag hp hs, if_neg (not_candidateFails hok), if_neg hc]
    · rw [rule32_candidate hflag hp hs, if_neg (not_candidateFails hok), if_pos hc]
      exact congrArg (enterLocked f .locked32) (State.modDet_congr (by rw [hc]))
    · rw [rule32_locked hflag hp hs, if_pos ⟨h2, hclear⟩, cadenceBreak_eq]
    · rw [rule32_locked hflag hp hs, if_neg hgo]

/-- Settles O51, from a field of a 2:2 standard, the table of verdicts, and what a verdict does. -/
theorem twoTwoPatternAndLocks : Obligations.TwoTwoPatternAndLocks := by
  refine ⟨?_, fun threshold b1 b2 mi x => ⟨judge_unknown, ?_⟩, ?_, ?_, ?_, ?_⟩
  · rintro s f i x _ d' _ v hi h22 rfl rfl
    refine ⟨fun m hd hm => ?_, fun hd hh => takeField22_first hi h22 hh hd, fun u hd hh hv hu => ?_⟩
    · subst hm
      exact takeField22_second hi h22 (by rw [hd]; rfl)
    · exact takeField22_verdict hi h22 hh hd hv hu
  · rintro r1 r2 y i _ rfl rfl rfl rfl h1 h2 hy rfl
    exact judge_sound h1 h2 hy
  · rintro s f _ v rfl
    refine ⟨fun h => ?_, fun h hv => ?_, fun h hc => ?_, fun h hc => ?_, fun h hv => ?_, fun h hc => ?_, fun h hc => ?_,
      applyVerdict_pass, applyVerdict_idle⟩
    · rw [applyVerdict_video h, if_pos rfl]
    · rw [applyVerdict_video h, if_neg hv]
    · rw [applyVerdict_candidate h, if_pos rfl, if_neg hc]
    · rw [applyVerdict_candidate h, if_pos rfl, if_pos hc]
      exact congrArg (enterLocked f .locked22) (State.modDet_congr (by rw [hc]))
    · rw [applyVerdict_candidate h, if_neg hv]
    · rw [applyVerdict_fail h, if_pos hc]
      rfl
    · rw [applyVerdict_fail h, if_neg hc]
  · intro s f st
    rfl
  · intro s f
    rfl
  · intro s f
    rfl

/-- Settles O52, from the film frame's positions in the cycle and the frames of a 2:2 lock. -/
theorem filmFramesAreFormed : Obligations.FilmFramesAreFormed := by
  refine ⟨beginHalf_present, ?_, fun d o r ho hl => completeFilm_open ho hl, ?_, ?_, fun s y g h => tagField_used h⟩
  · intro d est j x t a ha ht
    exact openPosition_stamped ha (ht.trans (by cases d.lastFilmStamp <;> simp only [guardStamp_none, guardStamp_some]))
  · rintro s f y _ rfl
    refine ⟨filmField32_begin, fun hc => ⟨?_, ?_, ?_, ?_⟩⟩
    all_goals exact filmField32_later hc (by decide)
  · rintro s f y _ t rfl hs ht
    refine ⟨?_, film22_locked hs true, fun b => film22_none f b s⟩
    rw [film22_locked hs]
    exact openFilm22_eq (ht.trans (by cases s.dets[f].lastFilmStamp <;> simp only [guardStamp_none, guardStamp_some]))

end

section
/-! The output frame start, presentation and abandonment (R106, R157, R164 to R166): each step as the fields that it
changes. -/

namespace Sys2Proof.Machine

/-! ## The output frame start (R106) -/

theorem exec_outputFrameStart (dt : Nat) (c : Chan) (s : State) :
    exec (.outputFrameStart dt c) s = .next (outputFrameStart c (s.elapse dt)) := rfl

/-- The output as its frame begins (R163). -/
def Output.begun (o : Output) (b : Bank) : Output :=
  { o with emitStd := if b.enable then some b.outStd else none, emitFailed := [] }

theorem beginFrame_outputs (c : Chan) (s : State) :
    (beginFrame c s).outputs = s.outputs.set c (s.outputs[c].begun (bankOf s c)) := rfl

theorem bankOf_modChan {s : State} {c : Chan} {f : Channel → Channel} (h : (f s.chans[c]).bank = s.chans[c].bank)
    (d : Chan) : bankOf (s.modChan c f) d = bankOf s d := by
  unfold bankOf State.modChan
  rw [modifyAt_get]
  split
  · next hd => rw [hd, h]
  · rfl

theorem bankOf_countFrame (c d : Chan) (s : State) : bankOf (countFrame c s) d = bankOf s d :=
  bankOf_modChan (f := fun ch => if ch.state = .stopped then ch else { ch with frame := ch.frame + 1 })
    (by split <;> rfl) d

/-- The time and place of the frame start that follows one at its place of the grid (R5). -/
theorem advanceTiming_eq (c : Chan) (s : State) :
    (advanceTiming c s).timing = s.timing.set c
      (OutTiming.following { s.timing[c] with last := some s.timing[c].next, lastPeriod := (bankOf s c).pOut }
        (refOf s c) (bankOf s c)) := rfl

theorem frameStartDue_iff (s : State) (c : Chan) :
    frameStartDue s c = true ↔ s.dev.state = .ready ∧ s.timing[c].next ≤ s.dev.houseTime := by
  rw [frameStartDue, Bool.and_eq_true, State.isReady_iff, decide_eq_true_eq, State.now]

theorem pendingTake_idle {c : Chan} {s : State} (h : s.chans[c].takePending = false) : pendingTake c s = s := by
  rw [pendingTake, h]; rfl

theorem pendingTake_due {c : Chan} {s : State} (h : s.chans[c].takePending = true) :
    pendingTake c s = applyTake c true s := by rw [pendingTake, h]; rfl

/-! ## Folds over entries and slots -/

/-- One change to each of the places that a list names. -/
def mapOn {α : Type} {n : Nat} (v : Vector α n) (l : List (Fin n)) (f : α → α) : Vector α n :=
  Vector.ofFn fun i => if i ∈ l then f v[i] else v[i]

theorem mapOn_get {α : Type} {n : Nat} (v : Vector α n) (l : List (Fin n)) (f : α → α) (i : Fin n) :
    (mapOn v l f)[i] = if i ∈ l then f v[i] else v[i] := Vector.getElem_ofFn ..

theorem foldl_modifyAt {α : Type} {n : Nat} (f : α → α) (l : List (Fin n)) (hl : l.Nodup) (v : Vector α n) :
    l.foldl (fun v i => modifyAt v i f) v = mapOn v l f := by
  induction l generalizing v with
  | nil =>
    refine Vector.ext fun i hi => ?_
    exact ((mapOn_get v [] f ⟨i, hi⟩).trans (if_neg List.not_mem_nil)).symm
  | cons x rest ih =>
    obtain ⟨hx, hrest⟩ := List.nodup_cons.1 hl
    rw [List.foldl_cons, ih hrest]
    refine Vector.ext fun i hi => ?_
    show (mapOn _ rest f)[(⟨i, hi⟩ : Fin n)] = (mapOn v (x :: rest) f)[(⟨i, hi⟩ : Fin n)]
    rw [mapOn_get, mapOn_get, modifyAt_get]
    by_cases e : (⟨i, hi⟩ : Fin n) = x
    · rw [e, if_neg hx, if_pos rfl, if_pos List.mem_cons_self]
    · rw [if_neg e]
      exact if_congr (by simp [e]) rfl rfl

theorem nodup_eraseDups {α : Type} [DecidableEq α] (l : List α) : l.eraseDups.Nodup := by
  induction hk : l.length using Nat.strong_induction_on generalizing l with
  | _ k ih =>
    cases l with
    | nil => exact List.nodup_nil
    | cons a l =>
      rw [List.eraseDups_cons, List.nodup_cons, List.mem_eraseDups]
      refine ⟨by simp, ih _ ?_ _ rfl⟩
      rw [← hk]
      exact Nat.lt_succ_of_le (List.length_filter_le ..)

theorem mem_entries (r : Resolved) (e : EntryNo) : e ∈ r.entries ↔ e = r.v ∨ e = r.h ∨ e = r.m := by
  simp [Resolved.entries, List.mem_eraseDups]

/-- A change of each of a job's entries. -/
theorem forEach_modProfile (f : Profile → Profile) (l : List EntryNo) (hl : l.Nodup) (s : State) :
    forEach l (fun e s => s.modProfile e f) s = { s with profiles := mapOn s.profiles l f } := by
  rw [← foldl_modifyAt f l hl]
  unfold forEach
  clear hl
  induction l generalizing s with
  | nil => rfl
  | cons e rest ih => rw [List.foldl_cons, ih]; rfl

/-- A change of each of the slots of a list. -/
theorem forEach_modSlot (f : Slot → Slot) (l : List SlotNo) (hl : l.Nodup) (s : State) :
    forEach l (fun n s => s.modSlot n f) s = { s with slots := mapOn s.slots l f } := by
  rw [← foldl_modifyAt f l hl]
  unfold forEach
  clear hl
  induction l generalizing s with
  | nil => rfl
  | cons n rest ih => rw [List.foldl_cons, ih]; rfl

/-- Pins and unpins of COMPLETE slots change their pin counts only. -/
theorem forEach_complete {g : SlotNo → State → State} {f : Slot → Slot} (hf : ∀ x, (f x).state = x.state)
    (hg : ∀ n s, s.slots[n].state = .complete → g n s = s.modSlot n f) (l : List SlotNo) (s : State)
    (hc : ∀ n ∈ l, s.slots[n].state = .complete) : forEach l g s = forEach l (fun n s => s.modSlot n f) s := by
  unfold forEach
  induction l generalizing s with
  | nil => rfl
  | cons n rest ih =>
    rw [List.foldl_cons, List.foldl_cons, hg n s (hc n List.mem_cons_self)]
    refine ih _ fun m hm => ?_
    rw [State.modSlot_slots, modifyAt_get]
    split
    · rw [hf, hc n List.mem_cons_self]
    · exact hc m (List.mem_cons_of_mem n hm)

theorem pin_complete {n : SlotNo} {s : State} (h : s.slots[n].state = .complete) :
    pin n s = s.modSlot n fun x => { x with pins := x.pins + 1 } := if_pos h

theorem unpin_complete {n : SlotNo} {s : State} (h : s.slots[n].state = .complete) :
    unpin n s = s.modSlot n fun x => { x with pins := x.pins - 1 } := if_pos h

theorem dropPins_complete {j : Job} {s : State} (hn : j.slots.Nodup)
    (hc : ∀ n ∈ j.slots, s.slots[n].state = .complete) :
    dropPins j s = { s with slots := mapOn s.slots j.slots fun x => { x with pins := x.pins - 1 } } := by
  rw [dropPins, forEach_complete (f := fun x => { x with pins := x.pins - 1 }) (fun _ => rfl)
    (fun _ _ h => unpin_complete h) j.slots s hc, forEach_modSlot _ _ hn]

theorem unpin_detached {n : SlotNo} {s : State} (h : s.slots[n].state = .detached) :
    unpin n s = if s.slots[n].pins ≤ 1 then release n (s.modSlot n fun x => { x with pins := x.pins - 1 })
      else s.modSlot n fun x => { x with pins := x.pins - 1 } := by
  unfold unpin
  rw [if_neg (by rw [h]; decide), if_pos h]

theorem unpin_other {n : SlotNo} {s : State} (hc : s.slots[n].state ≠ .complete) (hd : s.slots[n].state ≠ .detached) :
    unpin n s = transitionError s := by
  unfold unpin
  rw [if_neg hc, if_neg hd]

/-! ## A running job's profile uses (R142) -/

/-- An entry as one of its users ends (R142). -/
def Profile.left (x : Profile) : Profile :=
  if x.users ≤ 1 then { active := x.pending.or x.active, pending := none, users := 0 }
  else { x with users := x.users - 1 }

theorem dropUser_eq (e : EntryNo) (s : State) : dropUser e s = s.modProfile e Profile.left := by
  refine congrArg (s.modProfile e) (funext fun x => ?_)
  dsimp only [Profile.left]
  by_cases h : x.users ≤ 1
  · have h0 : x.users - 1 = 0 := by omega
    rw [if_pos h0, if_pos h, Profile.promote, h0]
    cases hp : x.pending <;> simp
  · rw [if_neg (by omega), if_neg h]

theorem dropUses_eq (j : Job) (s : State) :
    dropUses j s = { s with profiles := mapOn s.profiles j.resolved.entries Profile.left } := by
  rw [dropUses, funext₂ dropUser_eq]
  exact forEach_modProfile _ _ (nodup_eraseDups _) s

/-! ## The job of a channel -/

theorem runningJob_first {s : State} {c : Chan} {l : LaneNo} {j : Job} (hl : s.lanes[l] = some j) (hc : j.chan = c)
    (first : ∀ (k : LaneNo) (i : Job), k < l → s.lanes[k] = some i → i.chan ≠ c) :
    runningJob s c = some (l, j) := by
  have found : ∀ k : LaneNo, k < l → ∀ i, s.lanes[k] = some i → ¬ i.chan = c := fun k hk i => first k i hk
  unfold runningJob
  match l, hl, found with
  | 0, hl, _ => simp only [List.findSome?_cons, hl, if_pos hc]
  | 1, hl, found =>
    have h0 := found 0 (by decide)
    cases e : s.lanes[(0 : LaneNo)] with
    | none => simp only [List.findSome?_cons, e, hl, if_pos hc]
    | some i => simp only [List.findSome?_cons, e, if_neg (h0 i e), hl, if_pos hc]

theorem runningJob_none {s : State} {c : Chan}
    (h : ∀ (l : LaneNo) (k : Job), s.lanes[l] = some k → k.chan ≠ c) : runningJob s c = none := by
  unfold runningJob
  refine List.findSome?_eq_none_iff.2 fun l _ => ?_
  cases e : s.lanes[l] with
  | none => rfl
  | some k => exact if_neg (h l k e)

theorem queuedJob_none {s : State} {c : Chan} (h : ∀ k ∈ s.queue, k.chan ≠ c) : queuedJob s c = none := by
  refine List.find?_eq_none.2 fun k hk => ?_
  rw [decide_eq_true_eq]
  exact h k hk

theorem abandonJob_running {s : State} {c : Chan} {l : LaneNo} {j : Job} (h : runningJob s c = some (l, j)) :
    abandonJob c s = (true, abandonRunning l j s) := by
  rw [abandonJob, h]

theorem abandonJob_queued {s : State} {c : Chan} {j : Job} (hr : runningJob s c = none)
    (hq : queuedJob s c = some j) : abandonJob c s = (true, abandonQueued j s) := by
  rw [abandonJob, hr]
  dsimp only
  rw [hq]

theorem abandonJob_none {s : State} {c : Chan} (hr : runningJob s c = none) (hq : queuedJob s c = none) :
    abandonJob c s = (false, s) := by
  rw [abandonJob, hr]
  dsimp only
  rw [hq]

/-! ## Abandonment (R157, R159) -/

/-- What an abandoned RUNNING job leaves before its slots are given back. -/
def leftRunning (l : LaneNo) (j : Job) (s : State) : State :=
  leavePartial j.dest j.outStd (dropUses j { s with lanes := s.lanes.set l none })

theorem leftRunning_eq (l : LaneNo) (j : Job) (s : State) :
    ∃ m, leftRunning l j s = { s with
      lanes := s.lanes.set l none, profiles := mapOn s.profiles j.resolved.entries Profile.left, dram := m,
      partials := s.partials + 1 } := by
  unfold leftRunning
  rw [dropUses_eq]
  exact leavePartial_eq ..

theorem abandonRunning_eq (l : LaneNo) (j : Job) (s : State) :
    abandonRunning l j s = dropPins j (releaseFrom .rendering j.dest (leftRunning l j s)) := rfl

/-- What an abandoned QUEUED job leaves before its slots are given back. -/
def leftQueued (j : Job) (s : State) : State := { s with queue := s.queue.filter fun k => k.chan ≠ j.chan }

theorem abandonQueued_eq (j : Job) (s : State) :
    abandonQueued j s = dropPins j (releaseFrom .rendering j.dest (leftQueued j s)) := rfl

/-- Slots given back: the destination joins the free list, and each source slot has one pin fewer. -/
theorem givenBack {a : State} {j : Job} (hd : a.slots[j.dest].state = .rendering)
    (hf : a.slots[j.dest].fault = false) (hp : a.slots[j.dest].retirePending = false) (hn : j.slots.Nodup)
    (hc : ∀ n ∈ j.slots, a.slots[n].state = .complete) :
    dropPins j (releaseFrom .rendering j.dest a) = { a with
      slots := mapOn (a.slots.set j.dest (.cleared .free false)) j.slots fun x => { x with pins := x.pins - 1 }
      free := a.free ++ [j.dest] } := by
  have hr : releaseFrom .rendering j.dest a = enterFree j.dest a := by
    rw [releaseFrom, if_pos hd, release_unflagged (by rw [hd]; rfl) hp hf]
  rw [hr]
  refine dropPins_complete hn fun n hn => ?_
  have hne : n ≠ j.dest := fun e => by have := hc n hn; rw [e, hd] at this; cases this
  rw [← hc n hn]
  exact congrArg Slot.state (modifyAt_other a.slots j.dest n (fun _ => .cleared .free false) hne)

/-- The slots after they are given back. -/
theorem givenBack_get {v : Vector Slot 96} {d : SlotNo} {l : List SlotNo} (f : Slot → Slot) (x : Slot) (hd : d ∉ l) :
    (mapOn (v.set d x) l f)[d] = x ∧ (∀ n ∈ l, (mapOn (v.set d x) l f)[n] = f v[n]) ∧
    ∀ n, n ≠ d → n ∉ l → (mapOn (v.set d x) l f)[n] = v[n] := by
  have other : ∀ n, n ≠ d → (v.set d x)[n] = v[n] := fun n hn => modifyAt_other v d n (fun _ => x) hn
  refine ⟨?_, fun n hn => ?_, fun n hn hl => ?_⟩
  · rw [mapOn_get, if_neg hd]
    exact modifyAt_same v d fun _ => x
  · rw [mapOn_get, if_pos hn, other n fun e => hd (e ▸ hn)]
  · rw [mapOn_get, if_neg hl, other n hn]

theorem queuedJob_of_unique {s : State} {c : Chan} {j : Job} (hj : j ∈ s.queue) (hc : j.chan = c)
    (only : ∀ k ∈ s.queue, k.chan = c → k = j) : queuedJob s c = some j := by
  unfold queuedJob
  cases e : s.queue.find? fun k => k.chan = c with
  | none => exact absurd hc (by simpa using List.find?_eq_none.1 e j hj)
  | some k => rw [only k (List.mem_of_find?_eq_some e) (by simpa using List.find?_some e)]

theorem queuedJob_append {s : State} {c : Chan} {j : Job} {pre post : List Job} (hq : s.queue = pre ++ j :: post)
    (hc : j.chan = c) (hpre : ∀ k ∈ pre, k.chan ≠ c) : queuedJob s c = some j := by
  have none : pre.find? (fun k => k.chan = c) = none :=
    List.find?_eq_none.2 fun k hk => by rw [decide_eq_true_eq]; exact hpre k hk
  rw [queuedJob, hq, List.find?_append, none, Option.none_or, List.find?_cons, decide_eq_true hc]

/-- The queue without the channel's job. -/
theorem filter_append_job {c : Chan} {j : Job} {pre post : List Job} (hc : j.chan = c)
    (others : ∀ k ∈ pre ++ post, k.chan ≠ c) :
    (pre ++ j :: post).filter (fun k => k.chan ≠ j.chan) = pre ++ post := by
  have keep : ∀ l : List Job, (∀ k ∈ l, k.chan ≠ c) → l.filter (fun k => k.chan ≠ j.chan) = l := fun l hl =>
    List.filter_eq_self.2 fun k hk => by rw [decide_eq_true_eq, hc]; exact hl k hk
  rw [List.filter_append, List.filter_cons_of_neg (by simp), ← List.filter_append, keep _ others]

/-! ## The report of a late frame (R165, R173) -/

theorem abandonAtDeadline_some {c : Chan} {s v : State} (h : abandonJob c s = (true, v)) :
    abandonAtDeadline c s = startLanes (lateFrame c (v.modChan c fun ch =>
      { ch with counters := { ch.counters with late := satAdd Config.max16 ch.counters.late 1 } })) := by
  rw [abandonAtDeadline, h]

theorem abandonAtDeadline_none {c : Chan} {s v : State} (h : abandonJob c s = (false, v)) :
    abandonAtDeadline c s = v := by
  rw [abandonAtDeadline, h]

/-- An alert line after an occurrence on a channel (R173). -/
def AuxLine.alerted (a : AuxLine) (c : Chan) (now : Nat) : AuxLine :=
  if a.mode = .alertOutput ∧ a.mask.getLsbD c.val = true then { a with expiry := some (now + 5400000) } else a

theorem alertOccurrence_eq (c : Chan) (s : State) :
    alertOccurrence c s = { s with aux := s.aux.map fun a => a.alerted c s.dev.houseTime } := by
  refine congrArg (fun g => { s with aux := s.aux.map g }) (funext fun a => ?_)
  unfold AuxLine.alerted
  exact if_congr (by rw [Bool.and_eq_true, decide_eq_true_eq]) rfl rfl

theorem alertOccurrence_aux (c : Chan) (s : State) (x : AuxNo) :
    (alertOccurrence c s).aux[x] = s.aux[x].alerted c s.dev.houseTime := by
  rw [alertOccurrence_eq]
  exact Vector.getElem_map ..

theorem Output.late_self : ∀ {o : Output}, o.lateRun = true → { o with lateRun := true } = o
  | ⟨_, _, _, _, _, _, _⟩, rfl => rfl

/-- A late frame is reported once in a late run, and counts for the alert lines each time. -/
theorem lateFrame_eq (c : Chan) (s : State) :
    ∃ a, lateFrame c s = alertOccurrence c a ∧ a = { s with
      outputs := s.outputs.set c { s.outputs[c] with lateRun := true }
      units := if s.outputs[c].lateRun then s.units
        else ⟨s.units.a.setFlag (.outputLate c), s.units.b.setFlag (.outputLate c)⟩ } := by
  refine ⟨_, rfl, ?_⟩
  by_cases h : s.outputs[c].lateRun = true
  · rw [if_pos h, if_pos h]
    have self : s.outputs.set c { s.outputs[c] with lateRun := true } = s.outputs :=
      modifyAt_self (g := fun o : Output => { o with lateRun := true }) (Output.late_self h)
    rw [self]
  · rw [if_neg h, if_neg h]
    rfl

end Sys2Proof.Machine

open Sys2Proof Sys2Proof.Machine

/-- Settles O28: the three steps before presentation change the timing, the channel and the output of c. -/
theorem outputFrameStartTakesFourSteps : Obligations.OutputFrameStartTakesFourSteps := by
  unfold Obligations.OutputFrameStartTakesFourSteps
  rintro s _ dt c _ _ rfl rfl rfl
  rw [exec_outputFrameStart]
  generalize s.elapse dt = t at *
  unfold outputFrameStart
  refine ⟨fun due => ?_, fun due => ?_⟩
  · rw [if_pos ((frameStartDue_iff t c).mpr due)]
    refine ⟨beginFrame c (countFrame c (advanceTiming c t)), _, ?_, rfl, ?_, rfl, ?_, rfl, fun h => pendingTake_idle h,
      fun h => pendingTake_due h⟩
    · rfl
    · show (advanceTiming c t).timing = _
      rw [advanceTiming_eq]
      unfold OutTiming.following
      dsimp only
      rcases t.timing[c].grid with _ | _ | ⟨m, j⟩
      · rfl
      · simp only [OutTiming.place, gridTime, refOf, Nat.zero_mul, Nat.add_zero]
      · by_cases more : j + 1 < framesPerPeriod (refOf t c) (bankOf t c)
        · have more' : j + 1 < t.refs[(bankOf t c).ref].tAlign / (bankOf t c).pOut := more
          dsimp only
          rw [if_pos more]
          simp only [if_pos more', OutTiming.place, gridTime, refOf]
        · have more' : ¬ j + 1 < t.refs[(bankOf t c).ref].tAlign / (bankOf t c).pOut := more
          dsimp only
          rw [if_neg more]
          simp only [if_neg more', OutTiming.place, gridTime, refOf, Nat.zero_mul, Nat.add_zero]
    · rw [beginFrame_outputs, bankOf_countFrame]; rfl
  · rw [if_neg fun h => due ((frameStartDue_iff t c).mp h)]

/-- Settles O30: the report is the late counter, the late run and the alert lines, in this order. -/
theorem lateJobIsAbandonedAndReported : Obligations.LateJobIsAbandonedAndReported := by
  unfold Obligations.LateJobIsAbandonedAndReported
  intro s c v h
  obtain ⟨a, ha, e⟩ := lateFrame_eq c (v.modChan c fun ch =>
    { ch with counters := { ch.counters with late := satAdd Config.max16 ch.counters.late 1 } })
  refine ⟨alertOccurrence c a, by rw [abandonAtDeadline_some h, ha], ?_, ?_, ?_, ?_, fun x => ?_⟩
  · rw [alertOccurrence_eq, e]; rfl
  · rw [alertOccurrence_eq, e]; rfl
  · rw [alertOccurrence_eq, e]; rfl
  · rw [alertOccurrence_eq, e]; rfl
  · rw [alertOccurrence_aux, e]; rfl

/-- Settles O31: a RUNNING job and a QUEUED one give back the same slots; a RUNNING one its entries too. -/
theorem abandonmentTakesBackTheJob : Obligations.AbandonmentTakesBackTheJob := by
  unfold Obligations.AbandonmentTakesBackTheJob
  refine ⟨fun s c l j hl hc first => ?_, ?_, fun s c hlanes hqueue => ?_, ?_, ?_⟩
  · obtain ⟨m, e⟩ := leftRunning_eq l j s
    refine ⟨leftRunning l j s, by rw [e], ?_, fun x => ?_, fun n line comp x hline hx => ?_⟩
    · rw [abandonJob_running (runningJob_first hl hc first), abandonRunning_eq, releaseFrom, e]
      rfl
    · rw [e]
      refine (mapOn_get ..).trans (if_congr (mem_entries ..) rfl rfl)
    · exact (readSample_leavePartial j.dest n j.outStd line comp x _ hline hx).trans
        (by rw [dropUses_eq]; rfl)
  · rintro s _ c j pre post hlanes hq hc others rfl
    have hpre : ∀ k ∈ pre, k.chan ≠ c := fun k hk => others k (List.mem_append_left post hk)
    rw [abandonJob_queued (runningJob_none hlanes) (queuedJob_append hq hc hpre), abandonQueued_eq,
      leftQueued, hq, filter_append_job hc others]
    rfl
  · exact abandonJob_none (runningJob_none hlanes) (queuedJob_none hqueue)
  · rintro s n _ rfl
    exact ⟨unpin_complete, fun h hp => by rw [unpin_detached h, if_neg (by omega)],
      fun h hp => by rw [unpin_detached h, if_pos hp], unpin_other⟩
  · intro s v c j h found hc _ lane one hd hf hp hn hcomp
    have hd' : j.dest ∉ j.slots := fun m => by have := hcomp _ m; rw [hd] at this; cases this
    obtain ⟨dest, source, other⟩ := givenBack_get (v := s.slots) (fun x => { x with pins := x.pins - 1 })
      (.cleared .free false) hd'
    by_cases running : ∃ l : LaneNo, s.lanes[l] = some j
    · obtain ⟨l, hl⟩ := running
      obtain ⟨m, e⟩ := leftRunning_eq l j s
      rw [abandonJob_running (runningJob_first hl hc fun k i hk hi hic => ne_of_lt hk (lane k l i j hi hl hic hc)),
        abandonRunning_eq, givenBack (by rw [e]; exact hd) (by rw [e]; exact hf) (by rw [e]; exact hp) hn
          (by rw [e]; exact hcomp), e] at h
      obtain ⟨-, rfl⟩ := Prod.mk.inj h
      refine ⟨dest, rfl, source, other, (if_pos ⟨l, hl⟩).symm, fun k => ?_⟩
      refine (modifyAt_get s.lanes l k fun _ => none).trans ?_
      by_cases hk : k = l
      · rw [if_pos hk, hk, if_pos hl]
      · rw [if_neg hk, if_neg fun e => hk (lane k l j j e hl hc hc)]
    · obtain ⟨hq, hlanes⟩ := found.resolve_left running
      rw [abandonJob_queued (runningJob_none hlanes) (queuedJob_of_unique hq hc one), abandonQueued_eq,
        givenBack (a := leftQueued j s) hd hf hp hn hcomp] at h
      obtain ⟨-, rfl⟩ := Prod.mk.inj h
      refine ⟨dest, rfl, source, other, ?_, fun k => ?_⟩
      · rw [if_neg running]
        dsimp only [leftQueued]
        rw [hc]
      · exact (if_neg fun e => running ⟨k, e⟩).symm

end

section
/-! Presentation at an output frame start (R164, R166): what the store, the render engine and the output each
change. -/

namespace Sys2Proof.Machine

/-! ## What the store's operations leave unchanged -/

/-- The slots, the free list, the pool's record and the event units may differ, and nothing else. -/
def OnlyStore (s t : State) : Prop :=
  t = { s with slots := t.slots, free := t.free, pool := t.pool, units := t.units }

theorem OnlyStore.refl (s : State) : OnlyStore s s := rfl

theorem OnlyStore.trans {s t u : State} (h : OnlyStore s t) (k : OnlyStore t u) : OnlyStore s u := by
  unfold OnlyStore at h k ⊢
  rw [k, h]

theorem OnlyStore.outputs {s t : State} (h : OnlyStore s t) : t.outputs = s.outputs := by rw [h]
theorem OnlyStore.chans {s t : State} (h : OnlyStore s t) : t.chans = s.chans := by rw [h]
theorem OnlyStore.lanes {s t : State} (h : OnlyStore s t) : t.lanes = s.lanes := by rw [h]
theorem OnlyStore.queue {s t : State} (h : OnlyStore s t) : t.queue = s.queue := by rw [h]
theorem OnlyStore.profiles {s t : State} (h : OnlyStore s t) : t.profiles = s.profiles := by rw [h]
theorem OnlyStore.dram {s t : State} (h : OnlyStore s t) : t.dram = s.dram := by rw [h]

theorem onlyStore_release (n : SlotNo) (s : State) : OnlyStore s (release n s) := by
  unfold release
  dsimp only
  split_ifs <;> exact rfl

theorem onlyStore_releaseFrom (st : SlotState) (n : SlotNo) (s : State) : OnlyStore s (releaseFrom st n s) := by
  unfold releaseFrom
  split
  · exact onlyStore_release n s
  · exact rfl

theorem onlyStore_moveSlot (x y : SlotState) (n : SlotNo) (s : State) : OnlyStore s (moveSlot x y n s) := by
  unfold moveSlot
  split <;> exact rfl

theorem onlyStore_unpin (n : SlotNo) (s : State) : OnlyStore s (unpin n s) := by
  unfold unpin
  dsimp only
  split_ifs
  · exact rfl
  · exact OnlyStore.trans (t := s.modSlot n fun x => { x with pins := x.pins - 1 }) rfl (onlyStore_release ..)
  · exact rfl
  · exact rfl

theorem onlyStore_forEach {α : Type} {g : α → State → State} (h : ∀ x s, OnlyStore s (g x s)) (l : List α)
    (s : State) : OnlyStore s (forEach l g s) := by
  unfold forEach
  induction l generalizing s with
  | nil => exact .refl s
  | cons x rest ih => exact (h x s).trans (ih _)

theorem onlyStore_dropPins (j : Job) (s : State) : OnlyStore s (dropPins j s) :=
  onlyStore_forEach onlyStore_unpin j.slots s

/-- A release does not read the outputs. -/
theorem release_withOutputs (n : SlotNo) (s : State) (o : Vector Output 8) :
    release n { s with outputs := o } = { release n s with outputs := o } := by
  have count : retiredCount { s with outputs := o } = retiredCount s := rfl
  unfold release
  dsimp only
  rw [count]
  split_ifs <;> rfl

theorem forEach_addUser (r : Resolved) (s : State) : forEach r.entries addUser s =
    { s with profiles := mapOn s.profiles r.entries fun x => { x with users := x.users + 1 } } :=
  forEach_modProfile _ _ (nodup_eraseDups _) s

/-- The head of the queue starts (R151): its entries, its channel's record, its lane and the queue change. -/
theorem startJob_eq (l : LaneNo) (j : Job) (rest : List Job) (s : State) : startJob l j rest s = { s with
    queue := rest
    lanes := s.lanes.set l (some (startedJob s j))
    profiles := mapOn s.profiles (startedJob s j).resolved.entries fun x => { x with users := x.users + 1 }
    chans := s.chans.set j.chan { s.chans[j.chan] with resolved := some (startedJob s j).resolved } } := by
  unfold startJob
  dsimp only
  rw [forEach_addUser]
  rfl

/-! ## What an abandonment leaves of the outputs -/

theorem startLane_outputs (l : LaneNo) (s : State) : (startLane l s).outputs = s.outputs := by
  unfold startLane
  split
  · next j rest _ _ =>
    rw [startJob_eq]
  · rfl

theorem startLanes_outputs (s : State) : (startLanes s).outputs = s.outputs :=
  (startLane_outputs 1 _).trans (startLane_outputs 0 s)

theorem abandonJob_outputs (c : Chan) (s : State) : (abandonJob c s).2.outputs = s.outputs := by
  unfold abandonJob
  split
  · next l j _ =>
    obtain ⟨m, e⟩ := leftRunning_eq l j s
    rw [abandonRunning_eq, (onlyStore_dropPins ..).outputs, (onlyStore_releaseFrom ..).outputs, e]
  · split
    · rw [abandonQueued_eq, (onlyStore_dropPins ..).outputs, (onlyStore_releaseFrom ..).outputs]
      rfl
    · rfl

theorem Output.hold_set {v : Vector Output 8} {c : Chan} {x : Output} (h : x.hold = v[c].hold) :
    (v.set c x)[c].hold = v[c].hold := (congrArg Output.hold (modifyAt_same v c fun _ => x)).trans h

/-- The abandonment of a late job leaves the countdown as it is. -/
theorem abandonAtDeadline_hold (c : Chan) (s : State) :
    (abandonAtDeadline c s).outputs[c].hold = s.outputs[c].hold := by
  have kept := abandonJob_outputs c s
  cases h : abandonJob c s with
  | mk found v =>
    rw [h] at kept
    dsimp only at kept
    cases found with
    | false => rw [abandonAtDeadline_none h, kept]
    | true =>
      obtain ⟨a, ha, e⟩ := lateFrame_eq c (v.modChan c fun ch =>
        { ch with counters := { ch.counters with late := satAdd Config.max16 ch.counters.late 1 } })
      rw [abandonAtDeadline_some h, startLanes_outputs, ha, alertOccurrence_eq, e]
      dsimp only [State.modChan_outputs]
      rw [kept]
      exact Output.hold_set rfl

theorem abandonAtDeadline_idle {s : State} {c : Chan} (hq : ∀ j ∈ s.queue, j.chan ≠ c)
    (hl : ∀ (l : LaneNo) (j : Job), s.lanes[l] = some j → j.chan ≠ c) : abandonAtDeadline c s = s :=
  abandonAtDeadline_none (abandonJob_none (runningJob_none hl) (queuedJob_none hq))

/-! ## Presentation, one row of R164 and R166 each -/

/-- The countdown that a frame start leaves when it does not end the hold. -/
def HoldGoesOn (s : State) (c : Chan) (hold : Option Nat) : Prop :=
  (s.chans[c].state = .holding ∧ ∃ n, s.outputs[c].hold = some (n + 1) ∧ hold = some n) ∨
    (s.chans[c].state ≠ .holding ∧ hold = s.outputs[c].hold)

theorem present_goesOn {s : State} {c : Chan} {hold : Option Nat} (h : HoldGoesOn s c hold)
    (kept : (showFrame c s).outputs[c].hold = s.outputs[c].hold) :
    present c s = (showFrame c s).modOutput c fun o => { o with hold := hold } := by
  rcases h with ⟨hs, n, hn, rfl⟩ | ⟨hs, rfl⟩
  · rw [present, if_pos hs, hn]
  · rw [present, if_neg hs, ← kept, State.modOutput, modifyAt_self rfl]

/-- The old picture again, or black (R164). -/
theorem showOld_eq (c : Chan) (s : State) : showOld c s =
    (if (abandonAtDeadline c s).outputs[c].onAir.isSome then
      countRepeat c ((abandonAtDeadline c s).modOutput c fun o => { o with display := .repeat })
    else goBlack c (abandonAtDeadline c s)) := by
  unfold showOld
  dsimp only
  cases (abandonAtDeadline c s).outputs[c].onAir <;> rfl

theorem showOld_hold (c : Chan) (s : State) : (showOld c s).outputs[c].hold = s.outputs[c].hold := by
  rw [showOld_eq, ← abandonAtDeadline_hold c s]
  split
  · exact Output.hold_set rfl
  · exact Output.hold_set rfl

theorem showFrame_none {s : State} {c : Chan} (h : s.outputs[c].ready = none) : showFrame c s = showOld c s := by
  rw [showFrame, h]

theorem modOutput_modOutput (s : State) (c : Chan) (f g : Output → Output) :
    (s.modOutput c f).modOutput c g = s.modOutput c fun o => g (f o) := by
  simp only [State.modOutput, modifyAt, Fin.getElem_fin, Vector.getElem_set_self, Vector.set_set]

theorem present_repeat {s a : State} {c : Chan} {hold : Option Nat} {h : Held} (ha : a = abandonAtDeadline c s)
    (hr : s.outputs[c].ready = none) (hh : HoldGoesOn s c hold) (ho : a.outputs[c].onAir = some h) :
    present c s = { a with
      outputs := a.outputs.set c { a.outputs[c] with display := .repeat, hold := hold }
      chans := a.chans.set c { a.chans[c] with counters := { a.chans[c].counters with
        repeats := satAdd 65535 a.chans[c].counters.repeats 1 } } } := by
  rw [present_goesOn hh (by rw [showFrame_none hr, showOld_hold]), showFrame_none hr, showOld_eq, ← ha,
    if_pos (by rw [ho]; rfl)]
  exact congrArg (countRepeat c) (modOutput_modOutput a c (fun o => { o with display := .repeat })
    fun o => { o with hold := hold })

theorem present_black {s a : State} {c : Chan} {hold : Option Nat} (ha : a = abandonAtDeadline c s)
    (hr : s.outputs[c].ready = none) (hh : HoldGoesOn s c hold) (ho : a.outputs[c].onAir = none) :
    present c s = { a with
      outputs := a.outputs.set c { a.outputs[c] with display := .black, hold := hold } } := by
  rw [present_goesOn hh (by rw [showFrame_none hr, showOld_hold]), showFrame_none hr, showOld_eq, ← ha,
    if_neg (by rw [ho]; decide)]
  exact modOutput_modOutput a c (fun o => { o with display := .black }) fun o => { o with hold := hold }

/-- The ON_AIR slot as it is released, if there is one. -/
def releasedOnAir (o : Option Held) (s : State) : State :=
  match o with
  | some h => release h.slot s
  | none => s

theorem onlyStore_releasedOnAir (o : Option Held) (s : State) : OnlyStore s (releasedOnAir o s) := by
  cases o with
  | none => exact .refl s
  | some h => exact onlyStore_release h.slot s

theorem releasedOnAir_withOutputs (o : Option Held) (s : State) (x : Vector Output 8) :
    releasedOnAir o { s with outputs := x } = { releasedOnAir o s with outputs := x } := by
  cases o with
  | none => rfl
  | some h => exact release_withOutputs h.slot s x

theorem Output.onAir_none : ∀ {o : Output}, o.onAir = none → { o with onAir := none } = o
  | ⟨_, _, _, _, _, _, _⟩, rfl => rfl

theorem releaseOnAir_eq {c : Chan} {a : State}
    (h : ∀ x, a.outputs[c].onAir = some x → a.slots[x.slot].state = .onAir) :
    releaseOnAir c a = { releasedOnAir a.outputs[c].onAir a with
      outputs := a.outputs.set c { a.outputs[c] with onAir := none } } := by
  unfold releaseOnAir
  cases e : a.outputs[c].onAir with
  | none =>
    have self : a.outputs.set c { a.outputs[c] with onAir := none } = a.outputs :=
      modifyAt_self (g := fun o : Output => { o with onAir := none }) (Output.onAir_none e)
    rw [self]
    rfl
  | some x =>
    exact (if_pos (h x e)).trans (release_withOutputs x.slot a _)

/-- The end of the hold (R166). -/
theorem present_holdEnds {s b a : State} {c : Chan} (hs : s.chans[c].state = .holding)
    (hh : s.outputs[c].hold = some 0) (hb : b = releaseReady c s) (ha : a = abandonAtDeadline c b)
    (h : ∀ x, a.outputs[c].onAir = some x → a.slots[x.slot].state = .onAir) :
    present c s = { releasedOnAir a.outputs[c].onAir a with
      outputs := a.outputs.set c { a.outputs[c] with display := .black, onAir := none } } := by
  rw [present, if_pos hs, hh]
  dsimp only
  rw [← hb, ← ha, releaseOnAir_eq h]
  simp only [goBlack, State.modOutput, modifyAt, Fin.getElem_fin, Vector.getElem_set_self, Vector.set_set]

theorem releaseReady_none {c : Chan} {s : State} (h : s.outputs[c].ready = none) : releaseReady c s = s := by
  rw [releaseReady, h]

theorem releaseReady_some {c : Chan} {s : State} {r : Held} (h : s.outputs[c].ready = some r)
    (hs : s.slots[r.slot].state = .ready) : releaseReady c s =
      release r.slot { s with outputs := s.outputs.set c { s.outputs[c] with ready := none } } := by
  rw [releaseReady, h]
  exact if_pos hs

/-- The READY slot goes on air (R164). -/
theorem showNew_eq {c : Chan} {r : Held} {s : State} (hr : s.slots[r.slot].state = .ready)
    (hold : ∀ x, s.outputs[c].onAir = some x → x.slot ≠ r.slot ∧ s.slots[x.slot].state = .onAir) :
    showNew c r s = { releasedOnAir s.outputs[c].onAir (s.modSlot r.slot fun x => { x with state := .onAir }) with
      outputs := s.outputs.set c { s.outputs[c] with
        onAir := some r, ready := none, display := .live, lateRun := false }
      chans := s.chans.set c { s.chans[c] with counters := { s.chans[c].counters with
        presented := satAdd 65535 s.chans[c].counters.presented 1 } } } := by
  unfold showNew
  dsimp only
  rw [moveSlot, if_pos hr]
  cases e : s.outputs[c].onAir with
  | none => rfl
  | some x =>
    obtain ⟨hne, hx⟩ := hold x e
    have still : (s.modSlot r.slot fun x => { x with state := .onAir }).slots[x.slot].state = .onAir := by
      rw [State.modSlot_slots, modifyAt_other _ _ _ _ hne, hx]
    refine (congrArg (countPresented c) ((if_pos still).trans (release_withOutputs x.slot _ _))).trans ?_
    unfold countPresented State.modChan modifyAt
    dsimp only
    rw [(onlyStore_release ..).chans]
    rfl

theorem present_live {s : State} {c : Chan} {r : Held} {hold : Option Nat} (hh : HoldGoesOn s c hold)
    (hr : s.outputs[c].ready = some r) (hf : r.frame = s.chans[c].frame) (hs : s.slots[r.slot].state = .ready)
    (ho : ∀ x, s.outputs[c].onAir = some x → x.slot ≠ r.slot ∧ s.slots[x.slot].state = .onAir) :
    present c s = { releasedOnAir s.outputs[c].onAir (s.modSlot r.slot fun x => { x with state := .onAir }) with
      outputs := s.outputs.set c { s.outputs[c] with
        onAir := some r, ready := none, display := .live, lateRun := false, hold := hold }
      chans := s.chans.set c { s.chans[c] with counters := { s.chans[c].counters with
        presented := satAdd 65535 s.chans[c].counters.presented 1 } } } := by
  have shown : showFrame c s = showNew c r s := by rw [showFrame, hr]; exact if_pos hf
  rw [present_goesOn hh, shown, showNew_eq hs ho]
  · simp only [State.modOutput, modifyAt, Fin.getElem_fin, Vector.getElem_set_self, Vector.set_set]
  · rw [shown, showNew_eq hs ho]
    exact Output.hold_set rfl

end Sys2Proof.Machine

open Sys2Proof Sys2Proof.Machine

/-- Settles O29: a row of R164 or R166 for each case of the countdown, the READY slot and the ON_AIR slot. -/
theorem presentationFollowsTheTable : Obligations.PresentationFollowsTheTable := by
  unfold Obligations.PresentationFollowsTheTable
  refine ⟨?_, ?_, fun s c v h => abandonAtDeadline_none h, ?_⟩
  · intro s a c hold ha hr hh
    exact ⟨fun h ho => present_repeat ha hr hh ho, fun ho => present_black ha hr hh ho⟩
  · intro s b a c hs hh hready hb ha honAir
    refine (present_holdEnds hs hh (hb.trans ?_) ha honAir).trans ?_
    · cases e : s.outputs[c].ready with
      | none => exact (releaseReady_none e).symm
      | some r => exact (releaseReady_some e (hready r e)).symm
    · cases a.outputs[c].onAir <;> rfl
  · rintro s c _ hold rfl hq hl
    have idle := (abandonAtDeadline_idle hq hl).symm
    refine ⟨fun hh => ⟨fun r hr hf hs ho => ?_, fun h hr ho => present_repeat idle hr hh ho,
      fun hr ho => present_black idle hr hh ho⟩, fun hs hh hr ho => ?_⟩
    · rw [present_live hh hr hf hs ho]
      cases s.outputs[c].onAir <;> rfl
    · rw [present_holdEnds hs hh (releaseReady_none hr).symm idle ho]
      cases s.outputs[c].onAir <;> rfl

end

section
/-! Dispatch and selection (R107, R114 to R129): the outcomes of a dispatch, the queue's order, and the case of a
pass by the place of its target among the stamps. -/

namespace Sys2Proof.Machine

/-! ## The profile fields of a job (R141) -/

theorem entryFits_vertical (s : State) (e : EntryNo) : entryFits s e .vertical = holdsResample s e := by
  unfold entryFits holdsResample
  rcases s.profiles[e].active with _ | ⟨_ | _, _⟩ <;> rfl

theorem entryFits_horizontal (s : State) (e : EntryNo) : entryFits s e .horizontal = holdsResample s e := by
  unfold entryFits holdsResample
  rcases s.profiles[e].active with _ | ⟨_ | _, _⟩ <;> rfl

theorem entryFits_matrix (s : State) (e : EntryNo) : entryFits s e .matrix = holdsMatrix s e := by
  unfold entryFits holdsMatrix
  rcases s.profiles[e].active with _ | ⟨_ | _, _⟩ <;> rfl

/-- A profile field resolves to its entry where the entry fits, and to the AUTO entry otherwise. -/
theorem resolveField_eq (s : State) (i o : Bool) (st : ProfStage) (field : Option EntryNo) :
    resolveField s i o st field =
      field.elim (autoEntry i o st) fun e => if entryFits s e st then e else autoEntry i o st := by
  cases field <;> rfl

theorem resolveProfiles_eq (s : State) (i o : StdId) (v h m : Option EntryNo) : resolveProfiles s i o v h m = {
    v := v.elim 0 fun e => if holdsResample s e then e else 0
    h := h.elim 1 fun e => if holdsResample s e then e else 1
    m := m.elim (autoMatrix i o) fun e => if holdsMatrix s e then e else autoMatrix i o } := by
  unfold resolveProfiles
  simp only [resolveField_eq, entryFits_vertical, entryFits_horizontal, entryFits_matrix]
  rfl

/-! ## Hand-over (R107, R149, R150) -/

theorem startLane_chanState (l : LaneNo) (s : State) (c : Chan) :
    (startLane l s).chans[c].state = s.chans[c].state := by
  unfold startLane
  split
  · next j rest _ _ =>
    rw [startJob_eq]
    refine (congrArg Channel.state (modifyAt_get s.chans j.chan c fun ch =>
      { ch with resolved := some (startedJob s j).resolved })).trans ?_
    split
    · next e => rw [e]
    · rfl
  · rfl

theorem startLanes_chanState (s : State) (c : Chan) : (startLanes s).chans[c].state = s.chans[c].state :=
  (startLane_chanState 1 _ c).trans (startLane_chanState 0 s c)

/-- Entry into RUNNING from PRIMING reports the state and nothing of HOLDING (R111). -/
theorem setChanState_running {c : Chan} {s : State} (h : s.chans[c].state = .priming) :
    setChanState c .running s = raise (.channelState c) (s.modChan c fun ch => { ch with state := .running }) := by
  unfold setChanState
  rw [h]
  exact condition_same ..

/-- A job as it is handed over: its pins, its channel's resolved entries and the queue. -/
def handedOver (c : Chan) (j : Job) (s : State) : State :=
  let t := (forEach j.slots pin s).modChan c fun ch => { ch with resolved := some j.resolved }
  { t with queue := insertJob j t.queue }

theorem handedOver_eq {s : State} {c : Chan} {j : Job} (hn : j.slots.Nodup)
    (hc : ∀ n ∈ j.slots, s.slots[n].state = .complete) : handedOver c j s = { s with
      slots := mapOn s.slots j.slots fun x => { x with pins := x.pins + 1 }
      chans := s.chans.set c { s.chans[c] with resolved := some j.resolved }
      queue := insertJob j s.queue } := by
  unfold handedOver
  rw [forEach_complete (f := fun x => { x with pins := x.pins + 1 }) (fun _ => rfl) (fun _ _ h => pin_complete h)
    j.slots s hc, forEach_modSlot _ _ hn]
  dsimp only [State.modChan, modifyAt]

theorem onlyStore_pin (n : SlotNo) (s : State) : OnlyStore s (pin n s) := by
  unfold pin
  split <;> exact rfl

theorem handedOver_chanState (c : Chan) (j : Job) (s : State) :
    (startLanes (handedOver c j s)).chans[c].state = s.chans[c].state := by
  rw [startLanes_chanState, handedOver, State.modChan_chans, modifyAt_same]
  exact congrArg (fun v : Vector Channel 8 => v[c].state) (onlyStore_forEach onlyStore_pin j.slots s).chans

theorem queueJob_eq (c : Chan) (j : Job) (s : State) : queueJob c j s =
    (if s.chans[c].state = .priming then
      setChanState c .running ((startLanes (handedOver c j s)).modChan c fun ch => { ch with outcome := some .job })
    else (startLanes (handedOver c j s)).modChan c fun ch => { ch with outcome := some .job }) := by
  have state : (setOutcome c .job (startLanes (handedOver c j s))).chans[c].state = s.chans[c].state := by
    rw [setOutcome, State.modChan_chans, modifyAt_same]
    exact handedOver_chanState c j s
  rw [← state]
  rfl

/-! ## The queue's order (R149) -/

theorem before_iff (a b : Job) :
    a.before b = true ↔ a.deadline < b.deadline ∨ (a.deadline = b.deadline ∧ a.chan.val < b.chan.val) := by
  simp [Job.before]

/-- Placing a job keeps the queue in order. -/
theorem insertJob_ordered (j : Job) (q : List Job) (h : q.Pairwise fun x y => y.before x = false) :
    (insertJob j q).Pairwise fun x y => y.before x = false := by
  induction q with
  | nil => exact List.pairwise_singleton ..
  | cons k rest ih =>
    obtain ⟨hk, hrest⟩ := List.pairwise_cons.1 h
    unfold insertJob
    split
    · next first =>
      refine List.pairwise_cons.2 ⟨fun y hy => ?_, h⟩
      rw [before_iff] at first
      rcases List.mem_cons.1 hy with rfl | hy
      · rw [← Bool.not_eq_true, before_iff]; omega
      · have := hk y hy
        rw [← Bool.not_eq_true, before_iff] at this ⊢; omega
    · next after =>
      refine List.pairwise_cons.2 ⟨fun y hy => ?_, ih hrest⟩
      rcases List.mem_cons.1 ((insertJob_perm j rest).mem_iff.1 hy) with rfl | hy
      · exact Bool.eq_false_iff.2 after
      · exact hk y hy

/-! ## The outcomes of a dispatch (R107) -/

theorem recordSelection_frame (c : Chan) (kind : ListKind) (passes : List PassRec) (s : State) :
    (recordSelection c kind passes s).chans[c].frame = s.chans[c].frame := by
  rw [recordSelection, State.modChan_chans, modifyAt_same]

theorem recordSelection_bank (c : Chan) (kind : ListKind) (passes : List PassRec) (s : State) :
    bankOf (recordSelection c kind passes s) c = bankOf s c := by
  rw [bankOf, recordSelection, State.modChan_chans, modifyAt_same]
  rfl

section
variable {s rec : State} {c : Chan} {i : StdId} {kind : ListKind} {list : List Picture} {passes : List PassRec}
  (hstd : s.rxs[(bankOf s c).feed].detected = some i)
  (hkind : kind = listKindOf (some i) (bankOf s c).mode s.dets[(bankOf s c).feed].state)
  (hlist : list = pictureList s (bankOf s c).feed kind)
  (hpasses : passes = passRecords list (bankOf s c) (s.chans[c].listKind.any (· ≠ kind)) (s.chans[c].frame + 1)
    s.timing[c].next (s.chans[c].dlyEff.getD 0))
  (hrec : rec = recordSelection c kind passes s)
include hstd hkind hlist hpasses hrec

theorem dispatch_empty (h : list = []) :
    dispatch c s = prune (bankOf s c).feed (setOutcome c .noPicture rec) := by
  unfold dispatch
  dsimp only
  rw [hstd, ← hkind, ← hlist, ← hpasses, ← hrec, h]

theorem dispatch_list (h : list ≠ []) :
    dispatch c s = prune (bankOf s c).feed (dispatchJob c i passes rec) := by
  unfold dispatch
  dsimp only
  rw [hstd, ← hkind, ← hlist, ← hpasses, ← hrec]
  cases list with
  | nil => exact absurd rfl h
  | cons p rest => rfl

end

theorem makeJob_fields {u : State} {c : Chan} {i : StdId} {passes : List PassRec} {n : SlotNo} {b : Bank}
    {k : BitVec 32} (hb : bankOf u c = b) (hk : u.chans[c].frame = k) : makeJob u c i passes n = {
      chan := c, frame := k + 1, outStd := b.outStd, srcStd := i, deadline := u.timing[c].next, passes := passes
      slots := slotSet passes, fields := (b.vProf, b.hProf, b.mProf)
      resolved := resolveProfiles u i b.outStd b.vProf b.hProf b.mProf, captured := none, dest := n, start := none
      completion := none, failed := [], onAirFailed := [] } := by
  subst hb hk
  rfl

theorem dispatchJob_none {s : State} {c : Chan} {i : StdId} {passes : List PassRec} (h : s.free = []) :
    dispatchJob c i passes s = setOutcome c .noSlot (allocationFailure s) := by
  unfold dispatchJob
  dsimp only
  rw [allocate_none h]

theorem dispatchJob_some {s u : State} {c : Chan} {i : StdId} {passes : List PassRec} {n : SlotNo}
    {rest : List SlotNo} (h : s.free = n :: rest) (hu : u = { s with
      free := rest, slots := s.slots.set n (destRecord c (bankOf s c).outStd (s.chans[c].frame + 1)) }) :
    dispatchJob c i passes s = queueJob c (makeJob u c i passes n) u := by
  unfold dispatchJob
  dsimp only
  rw [allocate_some h, hu]

/-! ## Selection (R114 to R126) -/

theorem listKindOf_some (i : StdId) (mode : TempMode) (det : DetState) : listKindOf (some i) mode det =
    if (Config.std i).interlaced = false then .frames
    else if mode = .filmAware ∧ (det = .locked32 ∨ det = .locked22) then .film else .fields := by
  unfold listKindOf
  rw [Option.any_some]
  cases (Config.std i).interlaced with
  | false => rfl
  | true =>
    show (if (mode = .filmAware && det.isLocked) = true then ListKind.film else .fields) = _
    rw [if_neg (c := true = false) (by decide)]
    exact if_congr (by rw [Bool.and_eq_true, decide_eq_true_eq, isLocked_iff]) rfl rfl

/-- The target's place among the stamps is the number of pictures that are no later. -/
theorem takeWhile_split {t : Int} (pre post : List Picture) (hpre : ∀ p ∈ pre, p.stamp ≤ t)
    (hpost : ∀ p ∈ post.head?, t < p.stamp) : ((pre ++ post).takeWhile fun p => p.stamp ≤ t) = pre := by
  rw [List.takeWhile_append_of_pos fun p hp => decide_eq_true (hpre p hp)]
  cases post with
  | nil => exact List.append_nil pre
  | cons p rest =>
    have late : ¬ p.stamp ≤ t := not_le.2 (hpost p rfl)
    rw [List.takeWhile_cons_of_neg (by simpa using late), List.append_nil]

theorem selectPass_early {p : Picture} {rest : List Picture} {forceNearest : Bool} {n b : Nat} {t : Int}
    (h : t < p.stamp) : selectPass (p :: rest) forceNearest n b t = some ⟨.early, none, [p]⟩ := by
  have none_yet := takeWhile_split (t := t) [] (p :: rest) (by simp) (by simpa using h)
  unfold selectPass
  dsimp only
  rw [List.nil_append] at none_yet
  rw [none_yet]
  rfl

section
variable {pre : List Picture} {x : Picture} {forceNearest : Bool} {n b : Nat} {t : Int}

theorem takeWhile_length (post : List Picture) (hpre : ∀ p ∈ pre ++ [x], p.stamp ≤ t)
    (hpost : ∀ p ∈ post.head?, t < p.stamp) :
    ((pre ++ x :: post).takeWhile fun p => p.stamp ≤ t).length = pre.length + 1 := by
  have upTo := takeWhile_split (pre ++ [x]) post hpre hpost
  rw [List.append_assoc, List.singleton_append] at upTo
  rw [upTo, List.length_append, List.length_singleton]

theorem getElem?_append_next {α : Type} (l m : List α) (a : α) : (l ++ a :: m)[l.length + 1]? = m[0]? := by
  rw [List.getElem?_append_right (Nat.le_succ _), Nat.succ_sub (Nat.le_refl _), Nat.sub_self, List.getElem?_cons_succ]

theorem getElem?_append_here {α : Type} (l m : List α) (a : α) : (l ++ a :: m)[l.length + 1 - 1]? = some a := by
  rw [Nat.add_sub_cancel, List.getElem?_append_right (Nat.le_refl _), Nat.sub_self, List.getElem?_cons_zero]

/-- With every picture up to the target, the newest of them. -/
theorem selectPass_late (hpre : ∀ p ∈ pre ++ [x], p.stamp ≤ t) :
    selectPass (pre ++ [x]) forceNearest n b t = some ⟨.late, none, [x]⟩ := by
  unfold selectPass
  split
  · next e => simp at e
  · dsimp only
    rw [takeWhile_length [] hpre (by simp), if_neg (Nat.succ_ne_zero _), getElem?_append_here, getElem?_append_next]
    rfl

/-- The target lies between the newest picture up to it and the one after that. -/
theorem selectPass_between {y : Picture} {post : List Picture} (hpre : ∀ p ∈ pre ++ [x], p.stamp ≤ t)
    (hy : t < y.stamp) : selectPass (pre ++ x :: y :: post) forceNearest n b t =
      some (if y.brk || forceNearest then nearest t x y else blendSelection n b t x y) := by
  unfold selectPass
  split
  · next e => simp at e
  · dsimp only
    rw [takeWhile_length (y :: post) hpre (by simpa using hy), if_neg (Nat.succ_ne_zero _), getElem?_append_here,
      getElem?_append_next]
    rfl

end

/-- In an ascending list the pictures before one that is not after the target are not after it either. -/
theorem earlier_le {pre post : List Picture} {x : Picture} {t : Int}
    (h : (pre ++ x :: post).Pairwise fun a b => a.stamp < b.stamp) (hx : x.stamp ≤ t) :
    ∀ p ∈ pre ++ [x], p.stamp ≤ t := by
  intro p hp
  rcases List.mem_append.1 hp with hp | hp
  · have := (List.pairwise_append.1 h).2.2 p hp x List.mem_cons_self
    omega
  · rw [List.mem_singleton.1 hp]; exact hx

theorem blendSelection_eq {n b q : Nat} {t : Int} {x y : Picture}
    (hq : q = weight n b (t - x.stamp) (y.stamp - x.stamp)) : blendSelection n b t x y =
      if q = 0 then ⟨.single, some 0, [x]⟩ else if q = 32 then ⟨.single, some 32, [y]⟩
      else ⟨.blend, some q, [x, y]⟩ := by
  unfold blendSelection
  dsimp only
  rw [← hq]
  split
  · next h => rw [h]
  · split
    · next h => rw [h]
    · rfl

theorem passRecords_eq (l : List Picture) (b : Bank) (modeChange : Bool) (frame : BitVec 32) (start dly : Nat) :
    passRecords l b modeChange frame start dly =
      if (Config.std b.outStd).interlaced then
        (passRecord l b modeChange frame start dly 0).toList ++ (passRecord l b modeChange frame start dly 1).toList
      else (passRecord l b modeChange frame start dly 0).toList := by
  unfold passRecords passNumbers
  split <;> simp only [List.filterMap_cons, List.filterMap_nil] <;>
    cases passRecord l b modeChange frame start dly 0 <;> cases passRecord l b modeChange frame start dly 1 <;> rfl

end Sys2Proof.Machine

open Sys2Proof Sys2Proof.Machine

/-- Settles O32: the outcome goes by the list and the free list; a hand-over by the state of the channel. -/
theorem dispatchHasThreeOutcomes : Obligations.DispatchHasThreeOutcomes := by
  unfold Obligations.DispatchHasThreeOutcomes
  refine ⟨?_, ?_, ?_, fun passes => ⟨fun n => mem_slotSet, slotSet_nodup passes, slotSet_ascending passes⟩⟩
  · rintro s c _ kind list i passes rec rfl hstd hkind hlist hpasses hrec
    have hrec : rec = recordSelection c kind passes s := hrec
    refine ⟨dispatch_empty hstd hkind hlist hpasses hrec, fun h hf => ?_, fun n rest h hf => ?_⟩
    · rw [dispatch_list hstd hkind hlist hpasses hrec h, dispatchJob_none (by rw [hrec]; exact hf), hrec]
      rfl
    · have hb : bankOf rec c = bankOf s c := by rw [hrec, recordSelection_bank]
      have hk : rec.chans[c].frame = s.chans[c].frame := by rw [hrec, recordSelection_frame]
      have timing : rec.timing = s.timing := by rw [hrec]; rfl
      have profiles : rec.profiles = s.profiles := by rw [hrec]; rfl
      have slots : rec.slots = s.slots := by rw [hrec]; rfl
      rw [dispatch_list hstd hkind hlist hpasses hrec h, dispatchJob_some (by rw [hrec]; exact hf) rfl]
      obtain ⟨u, hu⟩ : ∃ u : State, u = { rec with
          free := rest, slots := s.slots.set n (destRecord c (bankOf s c).outStd (s.chans[c].frame + 1)) } := ⟨_, rfl⟩
      refine ⟨makeJob u c i passes n, ?_⟩
      have fields := makeJob_fields (u := u) (i := i) (passes := passes) (n := n) (b := bankOf s c) (k := s.chans[c].frame)
        (by rw [hu]; exact hb) (by rw [hu]; exact hk)
      rw [fields]
      refine ⟨rfl, rfl, rfl, rfl, by rw [hu, ← timing], rfl, rfl, rfl, rfl, rfl, ?_, ?_⟩
      · have hu' : u.profiles = s.profiles := by rw [hu, ← profiles]
        have resample : holdsResample u = holdsResample s := by unfold holdsResample; rw [hu']
        have matrix : holdsMatrix u = holdsMatrix s := by unfold holdsMatrix; rw [hu']
        rw [resolveProfiles_eq, resample, matrix]
      · have taken : u = { rec with free := rest, slots := s.slots.set n { Slot.cleared .rendering false with
            kind := some .output, owner := some c, std := some (bankOf s c).outStd
            seq := some (s.chans[c].frame + 1) } } := hu
        rw [hb, hk, slots, ← hu, ← taken, fields]
  · rintro s _ u c j hn hc rfl hu
    have hu : u = (startLanes (handedOver c j s)).modChan c fun ch => { ch with outcome := some .job } := by
      rw [hu, handedOver_eq hn hc]
      rfl
    rw [queueJob_eq, ← hu]
    split
    · next h =>
      refine setChanState_running ?_
      rw [hu, State.modChan_chans, modifyAt_same, ← h]
      exact handedOver_chanState c j s
    · rfl
  · intro j q after hafter hq
    have key : ∀ x y : Job, ¬ after x y ↔ y.before x = false := fun x y => by
      rw [hafter, ← Bool.not_eq_true, before_iff]
      exact not_congr (or_congr_right (and_congr_left fun _ => eq_comm))
    simp only [key] at hq ⊢
    exact ⟨insertJob_ordered j q hq, insertJob_perm j q⟩

/-- Settles O33: the case of a pass by the place of its target in the list. -/
theorem selectionFollowsTheBracket : Obligations.SelectionFollowsTheBracket := by
  unfold Obligations.SelectionFollowsTheBracket
  refine ⟨listKindOf_some, ?_, ?_, ?_⟩
  · intro s f members stamp1 stamp2 read hm h1 h2 hread
    obtain rfl := hm
    obtain rfl := funext h1
    obtain rfl := funext h2
    obtain rfl := funext hread
    exact ⟨rfl, rfl, rfl⟩
  · intro l b modeChange frame start dly target dither record ht hd hrec
    obtain rfl := funext ht
    obtain rfl := funext hd
    obtain rfl := funext hrec
    exact passRecords_eq l b modeChange frame start dly
  · intro l forceNearest n b t ascending
    refine ⟨?_, ?_, ?_, ?_⟩
    · rintro rfl
      rfl
    · rintro p rest rfl h
      exact selectPass_early h
    · rintro p init rfl h
      exact selectPass_late (earlier_le ascending h)
    · rintro pre x y post q rfl hx hy hq
      rw [selectPass_between (earlier_le ascending hx) hy, blendSelection_eq hq]
      exact congrArg some (if_congr (by rw [Bool.or_eq_true]) rfl rfl)

end

section
/-! The render engine's jobs: start, completion, and the picture that a completion writes (R131 to R139, R150 to
R156). -/

namespace Sys2Proof.Machine

/-! ## Start (R150 to R152) -/

theorem startLane_idle {s : State} {l : LaneNo} {j : Job} {rest : List Job} (hl : s.lanes[l] = none)
    (hq : s.queue = j :: rest) : startLane l s = startJob l j rest s := by
  rw [startLane, hl, hq]

theorem captureEntry_eq (s : State) (j : Job) (st : ProfStage) (e : EntryNo) : captureEntry s j st e =
    if entryFits s e st then e else autoEntry (Config.std j.srcStd).hd (Config.std j.outStd).hd st := rfl

theorem captureEntries_eq (s : State) (j : Job) : captureEntries s j = {
    v := if holdsResample s j.resolved.v then j.resolved.v else 0
    h := if holdsResample s j.resolved.h then j.resolved.h else 1
    m := if holdsMatrix s j.resolved.m then j.resolved.m else autoMatrix j.srcStd j.outStd } := by
  simp only [captureEntries, captureEntry_eq, entryFits_vertical, entryFits_horizontal, entryFits_matrix]
  rfl

theorem jobDuration_eq (j : Job) : jobDuration j = 8100 + (j.passes.map fun p =>
    (if (Config.std j.outStd).interlaced then (Config.std j.outStd).activeLines / 2
      else (Config.std j.outStd).activeLines) *
    (if (Config.std j.outStd).width = 1920 then 36 else if (Config.std j.outStd).width = 1280 then 24 else 14) *
    p.pics.length).sum := rfl

theorem entryContent_some {s : State} {e : EntryNo} {x : Content} (h : s.profiles[e].active = some x) :
    entryContent s e = x := by
  rw [entryContent, h]
  rfl

/-! ## Completion (R156) -/

theorem exec_jobCompletion (dt : Nat) (l : LaneNo) (s : State) :
    exec (.jobCompletion dt l) s = .next (jobCompletion l (s.elapse dt)) := rfl

/-- What each step of a fold keeps, the fold keeps. -/
theorem forEach_keeps {α β : Type} {f : State → β} {g : α → State → State} (h : ∀ x s, f (g x s) = f s)
    (l : List α) (s : State) : f (forEach l g s) = f s := by
  unfold forEach
  induction l generalizing s with
  | nil => rfl
  | cons x rest ih => rw [List.foldl_cons, ih, h]

/-- The state but for the DRAM. -/
def State.dropDram (s : State) : State := { s with dram := [] }

theorem writeLine_dropDram (n : SlotNo) (line : Nat) (y cb cr : List Sample) (s : State) :
    (writeLine n line y cb cr s).dropDram = s.dropDram := by
  obtain ⟨m, e⟩ := writeLine_eq n line y cb cr s
  rw [e]
  rfl

theorem writePicture_dropDram (j : Job) (s : State) : (writePicture j s).dropDram = s.dropDram := by
  unfold writePicture
  cases j.captured with
  | none => rfl
  | some cap => exact forEach_keeps (fun p u => forEach_keeps (fun y v => writeLine_dropDram ..) _ u) _ s

/-- A picture that is written changes the DRAM and nothing else. -/
theorem writePicture_eq (j : Job) (s : State) :
    writePicture j s = { s with dram := (writePicture j s).dram } :=
  congrArg (fun u : State => { u with dram := (writePicture j s).dram }) (writePicture_dropDram j s)

theorem writePicture_freeCount (j : Job) (s : State) : (writePicture j s).freeCount = s.freeCount := by
  rw [writePicture_eq]

/-- A sample is read from the DRAM, or is free. -/
theorem readSample_congr {s t : State} (hd : t.dram = s.dram) (hf : t.freeCount = s.freeCount) (n : SlotNo)
    (line : Nat) (c : Component) (x : Nat) : readSample t n line c x = readSample s n line c x := by
  rw [readSample, readSample, hd, hf]

theorem readSample_written (j : Job) {t u : State} (hd : u.dram = (writePicture j t).dram)
    (hf : u.freeCount = t.freeCount) (n : SlotNo) (line : Nat) (c : Component) (x : Nat) :
    readSample u n line c x = readSample (writePicture j t) n line c x :=
  readSample_congr hd (hf.trans (writePicture_freeCount j t).symm) n line c x

/-- A line written into one slot leaves the samples of the others. -/
theorem readSample_writeLine_other {n m : SlotNo} (hm : m ≠ n) (line line' : Nat) (v : Component → List Sample)
    (c : Component) (x : Nat) (s : State) (hl : line' < 1080) (hx : x < compRoom c) :
    readSample (writeLine n line (v .y) (v .cb) (v .cr) s) m line' c x = readSample s m line' c x := by
  by_cases h : line < 1080
  · rw [readSample_writeLine n m line line' v c x s h hl hx, if_neg fun k => hm k.1]
  · unfold writeLine writeComponent
    simp only [if_neg h]

theorem readSample_writePicture_other {j : Job} {m : SlotNo} (hm : m ≠ j.dest) (line : Nat) (c : Component) (x : Nat)
    (s : State) (hl : line < 1080) (hx : x < compRoom c) :
    readSample (writePicture j s) m line c x = readSample s m line c x := by
  unfold writePicture
  cases j.captured with
  | none => rfl
  | some cap =>
    exact forEach_keeps (f := fun u => readSample u m line c x) (fun p u =>
      forEach_keeps (f := fun u => readSample u m line c x) (fun y v =>
        readSample_writeLine_other hm y line (fun c => outputComponent s j cap p y c) c x v hl hx) _ u) _ s

theorem Profile.left_users (x : Profile) : x.left.users = x.users - 1 := by
  unfold Profile.left
  split
  · next h => show 0 = _; omega
  · rfl

theorem Profile.left_last {x : Profile} (h : x.users ≤ 1) :
    x.left.pending = none ∧ x.left.active = x.pending.or x.active := by
  rw [Profile.left, if_pos h]
  exact ⟨rfl, rfl⟩

theorem Profile.left_used {x : Profile} (h : 1 < x.users) :
    x.left.pending = x.pending ∧ x.left.active = x.active := by
  rw [Profile.left, if_neg (by omega)]
  exact ⟨rfl, rfl⟩

/-- A job as it completes, before idle lanes start (R156). -/
theorem completeJob_eq {l : LaneNo} {j : Job} {t : State} (hd : t.slots[j.dest].state = .rendering)
    (hs : j.dest ∉ j.slots) (hn : j.slots.Nodup) (hc : ∀ n ∈ j.slots, t.slots[n].state = .complete) :
    completeJob l j t = startLanes { t with
      slots := mapOn (t.slots.set j.dest { t.slots[j.dest] with state := .ready }) j.slots
        fun x => { x with pins := x.pins - 1 }
      outputs := t.outputs.set j.chan { t.outputs[j.chan] with ready := some ⟨j.dest, j.frame⟩ }
      profiles := mapOn t.profiles j.resolved.entries Profile.left
      lanes := t.lanes.set l none
      dram := (writePicture j t).dram } := by
  unfold completeJob
  dsimp only
  rw [writePicture_eq, moveSlot, if_pos hd, dropUses_eq, dropPins_complete hn]
  · rfl
  · intro n hn
    have hne : n ≠ j.dest := fun k => hs (k ▸ hn)
    rw [← hc n hn]
    exact congrArg Slot.state (modifyAt_other t.slots j.dest n (fun x => { x with state := .ready }) hne)

theorem completionDue_iff (s : State) (l : LaneNo) : completionDue s l = true ↔
    ∃ (j : Job) (at_ : Nat), s.dev.state = .ready ∧ s.lanes[l] = some j ∧ j.completion = some at_ ∧
      at_ ≤ s.dev.houseTime := by
  rw [completionDue, Bool.and_eq_true, State.isReady_iff, Option.any_eq_true]
  simp only [Option.bind_eq_some_iff, State.now]
  constructor
  · rintro ⟨hr, at_, ⟨j, hj, hc⟩, h⟩
    exact ⟨j, at_, hr, hj, hc, of_decide_eq_true h⟩
  · rintro ⟨j, at_, hr, hj, hc, h⟩
    exact ⟨hr, at_, ⟨j, hj, hc⟩, decide_eq_true h⟩

theorem jobCompletion_due {s : State} {l : LaneNo} {j : Job} (h : completionDue s l = true)
    (hj : s.lanes[l] = some j) : jobCompletion l s = completeJob l j s := by
  rw [jobCompletion, if_pos h, hj]

/-! ## The arithmetic of a sample (R131 to R139, R154, R155) -/

/-- A sample of picture `k` of a pass, where it has not failed. -/
def ownSample (s : State) (j : Job) (p : PassRec) (l : Nat) (c : Component) (x k : Nat) : Option Int :=
  (p.pics[k]?).bind fun q => if j.failedAt p.pass k l c x then none else some (pictureSample s q l c x)

theorem sourceSample_eq (s : State) (j : Job) (p : PassRec) (k l : Nat) (c : Component) (x : Nat) :
    sourceSample s j p k l c x = (ownSample s j p l c x k).or (ownSample s j p l c x (1 - k)) := by
  unfold sourceSample ownSample
  dsimp only
  cases p.pics[k]? <;> cases p.pics[1 - k]? <;> rfl

theorem failedAt_iff (j : Job) (pass pic l : Nat) (c : Component) (x : Nat) :
    j.failedAt pass pic l c x = true ↔ ⟨pass, pic, ⟨l, c, x / 8⟩⟩ ∈ j.failed := List.contains_iff_mem

theorem place_frames {q : Picture} {a : Read} (l : Nat) (hk : q.kind = .frames) (hr : q.reads = [a]) :
    q.place l = (a.slot, l) := by rw [Picture.place, hk, hr]

theorem place_fields {q : Picture} {a : Read} (l : Nat) (hk : q.kind = .fields) (hr : q.reads = [a]) :
    q.place l = (a.slot, 2 * l + (if a.role = .field2 then 1 else 0)) := by rw [Picture.place, hk, hr]

theorem place_film {q : Picture} {a b : Read} (l : Nat) (hk : q.kind = .film) (hr : q.reads = [a, b]) :
    q.place l = if l % 2 = 0 then (a.slot, l) else (b.slot, l) := by rw [Picture.place, hk, hr]

theorem lineCount_eq (q : Picture) (lines : Nat) : q.lineCount lines = if q.kind = .fields then lines / 2 else lines := by
  unfold Picture.lineCount
  cases q.kind <;> rfl

theorem verticalValue_some {s : State} {j : Job} {p : PassRec} {k : Nat} {q : Picture} (hq : p.pics[k]? = some q)
    (v : Content) (y : Nat) (c : Component) (x : Nat) : verticalValue s j v p k y c x = resampleAt v
      (if q.kind = .fields
        then fieldPos (pos64 y (Config.std j.srcStd).activeLines (Config.std j.outStd).activeLines) q.parity
        else pos64 y (Config.std j.srcStd).activeLines (Config.std j.outStd).activeLines)
      (q.lineCount (Config.std j.srcStd).activeLines - 1) fun l => sourceSample s j p k l c x := by
  rw [verticalValue, hq]

theorem verticalValue_field {s : State} {j : Job} {p : PassRec} {k : Nat} {q : Picture} {a : Read}
    (hq : p.pics[k]? = some q) (hk : q.kind = .fields) (hr : q.reads = [a]) (v : Content) (y : Nat) (c : Component)
    (x : Nat) : verticalValue s j v p k y c x = resampleAt v
      (fieldPos (pos64 y (Config.std j.srcStd).activeLines (Config.std j.outStd).activeLines)
        (if a.role = .field2 then 1 else 0))
      ((Config.std j.srcStd).activeLines / 2 - 1) fun l => sourceSample s j p k l c x := by
  rw [verticalValue_some hq, if_pos hk, lineCount_eq, if_pos hk, Picture.parity, hr]

theorem verticalValue_frame {s : State} {j : Job} {p : PassRec} {k : Nat} {q : Picture}
    (hq : p.pics[k]? = some q) (hk : q.kind ≠ .fields) (v : Content) (y : Nat) (c : Component) (x : Nat) :
    verticalValue s j v p k y c x = resampleAt v
      (pos64 y (Config.std j.srcStd).activeLines (Config.std j.outStd).activeLines)
      ((Config.std j.srcStd).activeLines - 1) fun l => sourceSample s j p k l c x := by
  rw [verticalValue_some hq, if_neg hk, lineCount_eq, if_neg hk]

section
variable {s : State} {j : Job} {cap : Captured} {p : PassRec} {y : Nat} {c : Component} {x : Nat}

theorem blended_single (h : p.pics.length ≠ 2) : blended s j cap p y c x = resampled s j cap p 0 y c x := if_neg h

theorem blended_pair {a b : Int} (h : p.pics.length = 2) (ha : resampled s j cap p 0 y c x = some a)
    (hb : resampled s j cap p 1 y c x = some b) :
    blended s j cap p y c x = some (clampInt (blendValue (p.q.getD 0) a b) 4 1019) := by
  rw [blended, if_pos h, ha, hb]

theorem blended_failed (h : p.pics.length = 2)
    (hf : resampled s j cap p 0 y c x = none ∨ resampled s j cap p 1 y c x = none) :
    blended s j cap p y c x = none := by
  rw [blended, if_pos h]
  rcases hf with hf | hf
  · rw [hf]
  · rw [hf]
    cases resampled s j cap p 0 y c x <;> rfl

theorem outputSample_some {a b d : Int} (ha : blended s j cap p y .y (if c = .y then x else 2 * x) = some a)
    (hb : blended s j cap p y .cb (if c = .y then x / 2 else x) = some b)
    (hd : blended s j cap p y .cr (if c = .y then x / 2 else x) = some d) :
    outputSample s j cap p y c x = BitVec.ofInt 10 (matrixRow cap.m (matrixRowOf c) a b d) := by
  unfold outputSample
  dsimp only
  rw [ha, hb, hd]

theorem outputSample_failed (h : blended s j cap p y .y (if c = .y then x else 2 * x) = none ∨
    blended s j cap p y .cb (if c = .y then x / 2 else x) = none ∨
    blended s j cap p y .cr (if c = .y then x / 2 else x) = none) :
    outputSample s j cap p y c x = substitute s j y c x := by
  unfold outputSample
  dsimp only
  split
  · next ha hb hd =>
    rw [ha, hb, hd] at h
    simp at h
  · rfl

end

theorem blackOf_eq (c : Component) : blackOf c = if c = .y then 64#10 else 512#10 := by cases c <;> rfl

theorem substitute_onAir {s : State} {j : Job} {a : Held} (h : s.outputs[j.chan].onAir = some a) (y : Nat)
    (c : Component) (x : Nat) : substitute s j y c x =
      if ⟨y, c, x / 8⟩ ∈ j.onAirFailed then (if c = .y then 64#10 else 512#10) else readSample s a.slot y c x := by
  rw [substitute, h, ← blackOf_eq]
  exact if_congr List.contains_iff_mem rfl rfl

theorem substitute_black {s : State} {j : Job} (h : s.outputs[j.chan].onAir = none) (y : Nat) (c : Component)
    (x : Nat) : substitute s j y c x = if c = .y then 64#10 else 512#10 := by
  rw [substitute, h, ← blackOf_eq]

theorem componentWidth_std (c : Component) (i : StdId) : componentWidth (Config.std i).width c =
    if c = .y then (Config.std i).width else (Config.std i).width / 2 := by cases c <;> rfl

end Sys2Proof.Machine

open Sys2Proof Sys2Proof.Machine

/-- Settles O35: a start is `startJob` of the queue's head. -/
theorem jobStartSetsItsCompletion : Obligations.JobStartSetsItsCompletion := by
  unfold Obligations.JobStartSetsItsCompletion
  refine ⟨fun s => rfl, fun s l h => startLane_eq_self h, fun s l j rest hl hq => ?_⟩
  rw [startLane_idle hl hq, startJob_eq]
  refine ⟨startedJob s j, rfl, rfl, rfl, ?_, rfl, rfl, rfl, rfl, rfl, rfl, rfl, captureEntries_eq s j, ?_, rfl, rfl, rfl,
    ?_, rfl, rfl, rfl⟩
  · show some (s.now + jobDuration j) = _
    rw [jobDuration_eq, ← Nat.add_assoc]
    rfl
  · intro v h m hv hh hm
    show some (Captured.mk (entryContent s (startedJob s j).resolved.v) (entryContent s (startedJob s j).resolved.h)
      (entryContent s (startedJob s j).resolved.m)) = _
    rw [entryContent_some hv, entryContent_some hh, entryContent_some hm]
  · intro e
    dsimp only
    rw [mapOn_get]
    exact if_congr (mem_entries (startedJob s j).resolved e) rfl rfl

/-- Settles O36: the arithmetic of a sample, and a due completion as one change of the state. -/
theorem jobCompletionFillsTheReadySlot : Obligations.JobCompletionFillsTheReadySlot := by
  unfold Obligations.JobCompletionFillsTheReadySlot
  refine ⟨⟨?_, ?_, ?_, ?_, ?_, ?_, ?_⟩, ?_⟩
  · intro s j p k l c x own hown
    have own_eq : ∀ i, own i = ownSample s j p l c x i := fun i => by
      rw [hown, ownSample]
      cases p.pics[i]? with
      | none => rfl
      | some q => exact (if_congr (failedAt_iff ..) rfl rfl).symm
    rw [sourceSample_eq, own_eq, own_eq]
  · exact fun q a b l => ⟨place_frames l, place_fields l, place_film l⟩
  · rintro s j v p k y c x q _ _ hq rfl rfl
    exact ⟨fun a hk hr => verticalValue_field hq hk hr v y c x, fun hk => verticalValue_frame hq hk v y c x⟩
  · intro s j cap p k y c x width hwidth
    obtain rfl : width = fun i => componentWidth (Config.std i).width c := funext fun i => by
      rw [hwidth]; cases c <;> rfl
    rfl
  · exact fun s j cap p y c x => ⟨blended_single, fun h => ⟨fun a b ha hb => blended_pair h ha hb, blended_failed h⟩⟩
  · rintro s j cap p y c x _ _ _ rfl rfl rfl
    refine ⟨fun a b d ha hb hd => ?_, fun h => ?_⟩
    · rw [outputSample_some ha hb hd]
      cases c <;> rfl
    · rw [outputSample_failed h]
      cases e : s.outputs[j.chan].onAir with
      | none => exact substitute_black e y c x
      | some a => exact substitute_onAir e y c x
  · intro cs vs h
    rw [tapValue, Option.map_eq_none_iff, tapSum_eq_none cs vs h]
  · rintro s _ dt l rfl
    rw [exec_jobCompletion]
    generalize s.elapse dt = t
    refine ⟨fun j at_ hr hj hat hle hd hs hn hc => ?_, fun h => ?_⟩
    · rw [jobCompletion_due ((completionDue_iff t l).2 ⟨j, at_, hr, hj, hat, hle⟩) hj, completeJob_eq hd hs hn hc]
      obtain ⟨dest, source, other⟩ := givenBack_get (v := t.slots) (fun x => { x with pins := x.pins - 1 })
        { t.slots[j.dest] with state := .ready } hs
      refine ⟨_, rfl, rfl, rfl, rfl, dest, source, other, ?_, ?_, ?_, ?_⟩
      · intro n line comp x hne hl hx
        exact (readSample_written j (by rfl) (by rfl) n line comp x).trans (readSample_writePicture_other hne line comp x t hl hx)
      · rintro cap _ width line comp x hcap hp rfl hw hl hx
        obtain rfl : width = componentWidth (Config.std j.outStd).width comp := hw.trans (by cases comp <;> rfl)
        obtain ⟨outside, inside⟩ := readSample_writePicture j cap t j.dest line comp x hcap hl hx hp
        exact ⟨fun h => (readSample_written j (by rfl) (by rfl) j.dest line comp x).trans (outside (.inr h)),
          fun p hp hline hwidth hpar =>
            (readSample_written j (by rfl) (by rfl) j.dest line comp x).trans (inside p hp rfl hline hwidth hpar)⟩
      · intro e hv hh hm
        dsimp only
        rw [mapOn_get, if_neg fun m => ((mem_entries ..).1 m).elim hv fun m => m.elim hh hm]
      · intro e he
        dsimp only
        rw [mapOn_get, if_pos ((mem_entries ..).2 he)]
        exact ⟨Profile.left_users _, Profile.left_last, Profile.left_used⟩
    · rw [jobCompletion_not_due fun due => h ((completionDue_iff t l).1 due)]

end

section
/-! Read errors, and the samples that an output emits (R26 to R29, R154, R163). -/

namespace Sys2Proof.Machine

/-! ## What an output emits (R163) -/

theorem emitsPicture_none {s : State} {c : Chan}
    (h : s.outputs[c].emitStd = none ∨ s.outputs[c].display = .black ∨ s.outputs[c].onAir = none) :
    emitsPicture s c = none := by
  unfold emitsPicture
  dsimp only
  rcases h with h | h | h
  · rw [h]; rfl
  · rw [h, if_neg (by simp)]
  · rw [h, ite_self]

theorem emitsPicture_some {s : State} {c : Chan} {a : Held} (he : s.outputs[c].emitStd ≠ none)
    (hd : s.outputs[c].display ≠ .black) (ha : s.outputs[c].onAir = some a) : emitsPicture s c = some a := by
  unfold emitsPicture
  dsimp only
  rw [if_pos, ha]
  rw [Bool.and_eq_true, Option.isSome_iff_ne_none, decide_eq_true_eq]
  exact ⟨he, hd⟩

theorem emittedLine_eq (std : StdId) (field2 : Bool) (line : Nat) : emittedLine std field2 line =
    if ((Config.std std).interlaced = true ∨ field2 = false) ∧
      (if (Config.std std).interlaced then (if field2 then 2 * line + 1 else 2 * line) else line) <
        (Config.std std).activeLines
    then some (if (Config.std std).interlaced then (if field2 then 2 * line + 1 else 2 * line) else line) else none := by
  have sum : 2 * line + (if field2 then 1 else 0) = if field2 then 2 * line + 1 else 2 * line := by cases field2 <;> rfl
  unfold emittedLine
  dsimp only
  rw [sum]
  exact if_congr (by simp) rfl rfl

section
variable {s : State} {c : Chan} {std : StdId} {field2 : Bool} {line y x : Nat} {comp : Component}

theorem emittedSample_off (h : s.outputs[c].emitStd = none) : emittedSample s c field2 line comp x = none := by
  rw [emittedSample, h]

theorem emittedSample_outside (hs : s.outputs[c].emitStd = some std)
    (h : emittedLine std field2 line = none ∨ componentWidth (Config.std std).width comp ≤ x) :
    emittedSample s c field2 line comp x = none := by
  unfold emittedSample
  rw [hs]
  dsimp only
  split
  · rfl
  · next y hy =>
    exact if_neg (not_lt.2 (h.resolve_left (by rw [hy]; simp)))

theorem emittedSample_picture {a : Held} (hs : s.outputs[c].emitStd = some std)
    (hy : emittedLine std field2 line = some y) (hx : x < componentWidth (Config.std std).width comp)
    (hp : emitsPicture s c = some a) : emittedSample s c field2 line comp x =
      some (if ⟨y, comp, x / 8⟩ ∈ s.outputs[c].emitFailed then blackOf comp else readSample s a.slot y comp x) := by
  unfold emittedSample
  rw [hs]
  dsimp only
  rw [hy]
  dsimp only
  rw [if_pos hx, hp]
  exact congrArg some (if_congr List.contains_iff_mem rfl rfl)

theorem emittedSample_black (hs : s.outputs[c].emitStd = some std) (hy : emittedLine std field2 line = some y)
    (hx : x < componentWidth (Config.std std).width comp) (hp : emitsPicture s c = none) :
    emittedSample s c field2 line comp x = some (blackOf comp) := by
  unfold emittedSample
  rw [hs]
  dsimp only
  rw [hy]
  dsimp only
  rw [if_pos hx, hp]

end

/-! ## Read errors (R26 to R29) -/

theorem exec_correctableRead (dt : Nat) (r : Reader) (s : State) :
    exec (.correctableRead dt r) s = .next (correctableRead r (s.elapse dt)) := rfl

theorem exec_uncorrectableRead (dt : Nat) (l : LaneNo) (r : LaneRead) (s : State) :
    exec (.uncorrectableRead dt l r) s = .next (uncorrectableRead l r (s.elapse dt)) := rfl

theorem exec_outputReadFault (dt : Nat) (c : Chan) (w : CodeWord) (s : State) :
    exec (.outputReadFault dt c w) s = .next (outputReadFault c w (s.elapse dt)) := rfl

theorem correctableRead_active {r : Reader} {s : State} (h : readerActive s r = true) : correctableRead r s =
    { s with pool := { s.pool with correctable := satAdd Config.max16 s.pool.correctable 1 } } := if_pos h

theorem correctableRead_idle {r : Reader} {s : State} (h : readerActive s r = false) : correctableRead r s = s :=
  if_neg (by rw [h]; decide)

theorem wordInside_iff (w : CodeWord) (lines : Nat) (std : StdId) : wordInside w lines std = true ↔
    w.line < lines ∧ w.word * 8 < componentWidth (Config.std std).width w.comp := by
  rw [wordInside, Bool.and_eq_true, decide_eq_true_eq, decide_eq_true_eq]

section
variable {s : State} {l : LaneNo} {j : Job} {w : CodeWord} {n : SlotNo}

theorem uncorrectableRead_idle (r : LaneRead) (h : s.lanes[l] = none) : uncorrectableRead l r s = s := by
  rw [uncorrectableRead, h]

theorem uncorrectableRead_source {pass pic : Fin 2} (hj : s.lanes[l] = some j)
    (hn : sourceRead j pass pic w = some n) : uncorrectableRead l (.source pass pic w) s = storeFault n (.lane l)
      { s with lanes := s.lanes.set l (some { j with failed := j.failed ++ [⟨pass.val, pic.val, w⟩] }) } := by
  unfold uncorrectableRead
  rw [hj]
  dsimp only
  rw [hn]

theorem uncorrectableRead_onAir (hj : s.lanes[l] = some j) (hn : onAirRead s j w = some n) :
    uncorrectableRead l (.onAir w) s = storeFault n (.lane l)
      { s with lanes := s.lanes.set l (some { j with onAirFailed := j.onAirFailed ++ [w] }) } := by
  unfold uncorrectableRead
  rw [hj]
  dsimp only
  rw [hn]

theorem sourceRead_some {pass pic : Fin 2} {pr : PassRec} {p : Picture}
    (hpr : j.passes.find? (fun x => x.pass = pass.val) = some pr) (hp : pr.pics[pic.val]? = some p)
    (hl : w.line < p.lineCount (Config.std j.srcStd).activeLines)
    (hw : w.word * 8 < componentWidth (Config.std j.srcStd).width w.comp) :
    sourceRead j pass pic w = some (p.place w.line).1 := by
  rw [sourceRead, hpr, Option.bind_some, hp, Option.bind_some, if_pos ((wordInside_iff ..).2 ⟨hl, hw⟩)]

theorem onAirRead_some {a : Held} (hf : j.failed ≠ []) (ha : s.outputs[j.chan].onAir = some a)
    (hl : w.line < (Config.std j.outStd).activeLines)
    (hw : w.word * 8 < componentWidth (Config.std j.outStd).width w.comp) : onAirRead s j w = some a.slot := by
  rw [onAirRead, if_neg (by rwa [List.isEmpty_iff]), ha, Option.bind_some, if_pos ((wordInside_iff ..).2 ⟨hl, hw⟩)]

theorem emissionRead_some {c : Chan} {std : StdId} {a : Held} (hs : s.outputs[c].emitStd = some std)
    (hp : emitsPicture s c = some a) (hl : w.line < (Config.std std).activeLines)
    (hw : w.word * 8 < componentWidth (Config.std std).width w.comp) : emissionRead s c w = some a.slot := by
  unfold emissionRead
  rw [hs, hp]
  exact if_pos ((wordInside_iff ..).2 ⟨hl, hw⟩)

theorem emissionRead_none {c : Chan} (hp : emitsPicture s c = none) : emissionRead s c w = none := by
  unfold emissionRead
  rw [hp]
  cases s.outputs[c].emitStd <;> rfl

theorem outputReadFault_some {c : Chan} (h : emissionRead s c w = some n) : outputReadFault c w s =
    storeFault n (.output c) (s.modOutput c fun o => { o with emitFailed := o.emitFailed ++ [w] }) := by
  rw [outputReadFault, h]

theorem outputReadFault_none {c : Chan} (h : emissionRead s c w = none) : outputReadFault c w s = s := by
  rw [outputReadFault, h]

end

end Sys2Proof.Machine

open Sys2Proof Sys2Proof.Machine

/-- Settles O37: each read by what its reader is reading. -/
theorem readErrorsAreRecorded : Obligations.ReadErrorsAreRecorded := by
  unfold Obligations.ReadErrorsAreRecorded
  refine ⟨⟨fun w => ⟨rfl, rfl, rfl⟩, lineCount_eq⟩, ?_, ?_⟩
  · rintro s c _ field2 line x comp rfl
    refine ⟨emittedSample_off, ?_⟩
    rintro std _ _ hs rfl rfl
    rw [← blackOf_eq]
    refine ⟨fun h => emittedSample_outside hs ?_, fun hf hy hx => ?_⟩
    · rw [emittedLine_eq, ite_eq_right_iff]
      rcases h with ⟨hi, hf⟩ | h | h
      · left; simp [hi, hf]
      · left; rintro ⟨-, k⟩; exact absurd k (by omega)
      · exact .inr h
    · have line_eq := (emittedLine_eq std field2 line).trans (if_pos ⟨hf, hy⟩)
      cases ha : s.outputs[c].onAir with
      | none => exact emittedSample_black hs line_eq hx (emitsPicture_none (.inr (.inr ha)))
      | some a =>
        by_cases hd : s.outputs[c].display = .black
        · rw [emittedSample_black hs line_eq hx (emitsPicture_none (.inr (.inl hd)))]
          exact congrArg some (if_pos (.inl hd)).symm
        · rw [emittedSample_picture hs line_eq hx (emitsPicture_some (by rw [hs]; simp) hd ha)]
          exact congrArg some (if_congr (or_iff_right hd).symm rfl rfl)
  · rintro s _ dt rfl
    simp only [exec_correctableRead, exec_uncorrectableRead, exec_outputReadFault]
    generalize s.elapse dt = t
    refine ⟨fun r h => ?_, fun l pass pic w j pr p hj hpr hp hl hw => ?_, fun c w std a hs hd ha hl hw => ?_,
      fun l w j a hj hf ha hl hw => ?_, fun l r h => ⟨?_, ?_⟩, fun c w h => ⟨?_, ?_⟩⟩
    · refine congrArg _ (correctableRead_active ?_)
      cases r with
      | lane l => exact h
      | output c =>
        obtain ⟨he, hd, ha⟩ := h
        obtain ⟨a, ha⟩ := Option.ne_none_iff_exists'.1 ha
        rw [readerActive, emitsPicture_some he hd ha]
        rfl
    · rw [uncorrectableRead_source hj (sourceRead_some hpr hp hl hw)]
      rfl
    · rw [outputReadFault_some (emissionRead_some hs (emitsPicture_some (by rw [hs]; simp) hd ha) hl hw)]
      rfl
    · rw [uncorrectableRead_onAir hj (onAirRead_some hf ha hl hw)]
      rfl
    · rw [correctableRead_idle (by rw [readerActive, h]; rfl)]
    · rw [uncorrectableRead_idle r h]
    · rw [correctableRead_idle (by rw [readerActive, emitsPicture_none h]; rfl)]
    · rw [outputReadFault_none (emissionRead_none (emitsPicture_none h))]

end

section
/-! Channels (R92 to R105, R111): the states a channel takes on a request, on a report of its feed and on a take. -/

namespace Sys2Proof.Machine

/-! ## The accepted feed and the effective delay (R92, R105) -/

theorem acceptedFeed_iff (s : State) (c : Chan) (i : StdId) : acceptedFeed s c = some i ↔
    s.rxs[(bankOf s c).feed].state = .locked ∧ s.rxs[(bankOf s c).feed].detected = some i ∧
      ((bankOf s c).expected = none ∨ (bankOf s c).expected = some i) := by
  have all : ∀ o : Option StdId, (o.all fun x => decide (x = i)) = true ↔ o = none ∨ o = some i := fun o => by
    cases o <;> simp
  unfold acceptedFeed
  dsimp only
  split
  · next h =>
    rw [Option.filter_eq_some_iff, all]
    exact ⟨fun k => ⟨h, k⟩, And.right⟩
  · next h => exact ⟨fun k => (Option.some_ne_none i k.symm).elim, fun k => (h k.1).elim⟩

/-- The channel's feed is LOCKED with a standard that the bank accepts. -/
theorem acceptedFeed_isSome (s : State) (c : Chan) : (acceptedFeed s c).isSome = true ↔
    s.rxs[(bankOf s c).feed].state = .locked ∧ ∃ i, s.rxs[(bankOf s c).feed].detected = some i ∧
      ((bankOf s c).expected = none ∨ (bankOf s c).expected = some i) := by
  rw [Option.isSome_iff_exists]
  simp only [acceptedFeed_iff]
  exact exists_and_left

theorem acceptedFeed_congr {s t : State} {c : Chan} (hb : bankOf t c = bankOf s c) (hr : t.rxs = s.rxs) :
    acceptedFeed t c = acceptedFeed s c := by
  simp only [acceptedFeed, hb, hr]

theorem computeDelay_some {s : State} {c : Chan} {i : StdId} (h : acceptedFeed s c = some i) :
    computeDelay c s = s.modChan c fun ch => { ch with
      dlyEff := some (effectiveDelay (bankOf s c) (Config.pNom i) s.rings[(bankOf s c).feed].depth) } := by
  rw [computeDelay, h]

theorem computeDelay_none {s : State} {c : Chan} (h : ¬ (acceptedFeed s c).isSome = true) : computeDelay c s = s := by
  rw [computeDelay, Option.not_isSome_iff_eq_none.1 h]

theorem effectiveDelay_auto {b : Bank} (pIn depth : Nat) (h : b.delay = none) : effectiveDelay b pIn depth =
    (if b.mode = .filmAware then 3 * pIn else 2 * pIn) + b.pOut + 27000 := by
  rw [effectiveDelay, h, ite_mul]

theorem effectiveDelay_shallow {b : Bank} {pIn depth x : Nat} (h : b.delay = some x)
    (hd : (depth - 1) * pIn < pIn + b.pOut) : effectiveDelay b pIn depth = pIn + b.pOut := by
  rw [effectiveDelay, h]
  exact if_pos hd

theorem effectiveDelay_clamped {b : Bank} {pIn depth x : Nat} (h : b.delay = some x)
    (hd : pIn + b.pOut ≤ (depth - 1) * pIn) :
    effectiveDelay b pIn depth = min (max x (pIn + b.pOut)) ((depth - 1) * pIn) := by
  rw [effectiveDelay, h]
  dsimp only
  generalize (depth - 1) * pIn = hi at *
  split_ifs <;> omega

/-! ## States of a channel (R101, R111) -/

theorem State.modChan_modChan (s : State) (c : Chan) (f g : Channel → Channel) :
    (s.modChan c f).modChan c g = s.modChan c fun ch => g (f ch) := by
  simp only [State.modChan, modifyAt, Fin.getElem_fin, Vector.getElem_set_self, Vector.set_set]

theorem setChanState_eq (c : Chan) (st : ChanState) (s : State) : setChanState c st s =
    condition (.holding c) (s.chans[c].state = .holding) (st = .holding)
      (raise (.channelState c) (s.modChan c fun ch => { ch with state := st })) := rfl

theorem setChanState_chans (c : Chan) (st : ChanState) (s : State) :
    (setChanState c st s).chans = modifyAt s.chans c fun ch => { ch with state := st } := by
  rw [setChanState_eq, condition_chans, raise_chans, State.modChan_chans]

theorem computeDelay_chan (c : Chan) (s : State) :
    (computeDelay c s).chans[c].state = s.chans[c].state ∧ (computeDelay c s).chans[c].revision = s.chans[c].revision := by
  unfold computeDelay
  split
  · rw [State.modChan_chans, modifyAt_same]
    exact ⟨rfl, rfl⟩
  · exact ⟨rfl, rfl⟩

theorem enterPriming_chan (c : Chan) (s : State) :
    (enterPriming c s).chans[c].state = .priming ∧ (enterPriming c s).chans[c].revision = s.chans[c].revision := by
  unfold enterPriming
  dsimp only
  obtain ⟨hs, hr⟩ := computeDelay_chan c ((setChanState c .priming (endHold c s)).modChan c fun ch =>
    { ch with listKind := none })
  rw [hs, hr, State.modChan_chans, modifyAt_same, setChanState_chans, modifyAt_same]
  exact ⟨rfl, rfl⟩

theorem raise_modChan (src : Source) (c : Chan) (f : Channel → Channel) (s : State) :
    (raise src s).modChan c f = raise src (s.modChan c f) := rfl

/-- The condition after a change of the channel's records. -/
theorem condition_modChan (src : Source) (x y : Bool) (c : Chan) (f : Channel → Channel) (s : State) :
    (condition src x y s).modChan c f = condition src x y (s.modChan c f) := by
  unfold condition
  split <;> rfl

/-- Entry into PRIMING with an accepted feed: the countdown is absent and Dly_eff is computed. -/
theorem enterPriming_eq {s : State} {c : Chan} {i : StdId} {d : Nat} (h : acceptedFeed s c = some i)
    (hd : d = effectiveDelay (bankOf s c) (Config.pNom i) s.rings[(bankOf s c).feed].depth) : enterPriming c s =
    condition (.holding c) (s.chans[c].state = .holding) false (raise (.channelState c) { s with
      outputs := s.outputs.set c { s.outputs[c] with hold := none }
      chans := s.chans.set c { s.chans[c] with state := .priming, listKind := none, dlyEff := some d } }) := by
  obtain ⟨u, hu⟩ : ∃ u, u = (setChanState c .priming (endHold c s)).modChan c fun ch => { ch with listKind := none } :=
    ⟨_, rfl⟩
  have primed : u = condition (.holding c) (s.chans[c].state = .holding) false (raise (.channelState c)
      ((endHold c s).modChan c fun ch => { ch with state := .priming, listKind := none })) := by
    rw [hu, setChanState_eq, condition_modChan, raise_modChan, State.modChan_modChan]
    rfl
  have bank : bankOf u c = bankOf s c := by
    rw [bankOf, primed, condition_chans, raise_chans, State.modChan_chans, modifyAt_same]
    rfl
  have rxs : u.rxs = s.rxs := by rw [primed, condition_rxs]; rfl
  have rings : u.rings = s.rings := by rw [primed, condition_rings]; rfl
  have delay : computeDelay c u = u.modChan c fun ch => { ch with dlyEff := some d } := by
    rw [computeDelay_some ((acceptedFeed_congr bank rxs).trans h), hd]
    simp only [bank, rings]
  unfold enterPriming
  dsimp only
  rw [← hu, delay, primed, condition_modChan, raise_modChan, State.modChan_modChan]
  rfl

/-! ## Entry into HOLDING (R101, R166, R173) -/

/-- A release does not read the channels. -/
theorem release_withChans (n : SlotNo) (s : State) (x : Vector Channel 8) :
    release n { s with chans := x } = { release n s with chans := x } := by
  have count : retiredCount { s with chans := x } = retiredCount s := rfl
  unfold release
  dsimp only
  rw [count]
  split_ifs <;> rfl

theorem releasedOnAir_withChans (o : Option Held) (s : State) (x : Vector Channel 8) :
    releasedOnAir o { s with chans := x } = { releasedOnAir o s with chans := x } := by
  cases o with
  | none => rfl
  | some h => exact release_withChans h.slot s x

/-- The event units as a channel enters HOLDING. -/
def holdingRaised (c : Chan) (s : State) : State := condition (.holding c) false true (raise (.channelState c) s)

theorem holdingRaised_eq (c : Chan) (s : State) :
    holdingRaised c s = { s with units := (holdingRaised c s).units } := by
  unfold holdingRaised
  rw [condition_units]
  rfl

theorem setChanState_holding {s : State} {c : Chan} (h : s.chans[c].state ≠ .holding) : setChanState c .holding s =
    (holdingRaised c s).modChan c fun ch => { ch with state := .holding } := by
  rw [setChanState_eq, decide_eq_false h, holdingRaised, condition_modChan]
  rfl

/-- What entry into HOLDING sets before the countdown is looked at. -/
def heldState (c : Chan) (s : State) : State := { holdingRaised c s with
  chans := s.chans.set c { s.chans[c] with state := .holding }
  outputs := s.outputs.set c { s.outputs[c] with hold := some (bankOf s c).lossHold } }

theorem enterHolding_eq {s : State} {c : Chan} (h : s.chans[c].state ≠ .holding) : enterHolding c s =
    alertOccurrence c (if (bankOf s c).lossHold = 0 then goBlack c (releaseOnAir c (heldState c s))
      else heldState c s) := by
  have bank : bankOf ((holdingRaised c s).modChan c fun ch => { ch with state := .holding }) c = bankOf s c := by
    rw [bankOf_modChan (f := fun ch => { ch with state := .holding }) rfl, holdingRaised_eq]
    rfl
  have held : ((holdingRaised c s).modChan c fun ch => { ch with state := .holding }).modOutput c
      (fun o => { o with hold := some (bankOf s c).lossHold }) = heldState c s := by
    unfold heldState
    rw [holdingRaised_eq]
    rfl
  unfold enterHolding beginHold
  rw [setChanState_holding h]
  dsimp only
  rw [bank, held]

theorem enterHolding_hold {s : State} {c : Chan} (h : s.chans[c].state ≠ .holding) (hl : (bankOf s c).lossHold ≠ 0) :
    enterHolding c s = { holdingRaised c s with
      chans := s.chans.set c { s.chans[c] with state := .holding }
      outputs := s.outputs.set c { s.outputs[c] with hold := some (bankOf s c).lossHold }
      aux := s.aux.map fun a => a.alerted c s.dev.houseTime } := by
  rw [enterHolding_eq h, if_neg hl, alertOccurrence_eq, heldState, holdingRaised_eq]

theorem enterHolding_black {s : State} {c : Chan} (h : s.chans[c].state ≠ .holding) (hl : (bankOf s c).lossHold = 0)
    (ho : ∀ x, s.outputs[c].onAir = some x → s.slots[x.slot].state = .onAir) : enterHolding c s =
      { releasedOnAir s.outputs[c].onAir (holdingRaised c s) with
        chans := s.chans.set c { s.chans[c] with state := .holding }
        outputs := s.outputs.set c { s.outputs[c] with hold := some 0, display := .black, onAir := none }
        aux := s.aux.map fun a => a.alerted c s.dev.houseTime } := by
  obtain ⟨u, hu⟩ : ∃ u, u = holdingRaised c s := ⟨_, rfl⟩
  have raised : u = { s with units := u.units } := by rw [hu]; exact holdingRaised_eq c s
  have held : heldState c s = { ({ u with chans := s.chans.set c { s.chans[c] with state := .holding } } : State) with
      outputs := s.outputs.set c { s.outputs[c] with hold := some 0 } } := by rw [heldState, hl, hu]
  have output : (heldState c s).outputs[c] = { s.outputs[c] with hold := some 0 } := by
    rw [held]
    exact modifyAt_same s.outputs c fun o => { o with hold := some 0 }
  have slots : (heldState c s).slots = s.slots := by rw [held, raised]
  have released : releaseOnAir c (heldState c s) = { releasedOnAir s.outputs[c].onAir u with
      chans := s.chans.set c { s.chans[c] with state := .holding }
      outputs := s.outputs.set c { s.outputs[c] with hold := some 0, onAir := none } } := by
    rw [releaseOnAir_eq (by rw [output, slots]; exact ho), output, held, releasedOnAir_withOutputs,
      releasedOnAir_withChans]
    simp only [Fin.getElem_fin, Vector.set_set]
  have kept := onlyStore_releasedOnAir s.outputs[c].onAir u
  have aux : (releasedOnAir s.outputs[c].onAir u).aux = s.aux := by rw [kept, raised]
  have dev : (releasedOnAir s.outputs[c].onAir u).dev = s.dev := by rw [kept, raised]
  rw [enterHolding_eq h, if_pos hl, released, alertOccurrence_eq, ← hu]
  generalize releasedOnAir s.outputs[c].onAir u = v at *
  simp only [goBlack, State.modOutput, modifyAt, Fin.getElem_fin, Vector.getElem_set_self, Vector.set_set, aux, dev]

/-! ## A channel on a report of its feed (R101) -/

section
variable {s : State} {c : Chan}

theorem followFeed_stopped (h : s.chans[c].state = .stopped) : followFeed c s = s := by
  rw [followFeed, h]

theorem followFeed_primes (ok : (acceptedFeed s c).isSome = true)
    (h : s.chans[c].state = .waitFeed ∨ s.chans[c].state = .holding) : followFeed c s = enterPriming c s := by
  rcases h with h | h <;> rw [followFeed, h] <;> exact if_pos ok

theorem followFeed_waits (ok : ¬ (acceptedFeed s c).isSome = true)
    (h : s.chans[c].state = .waitFeed ∨ s.chans[c].state = .holding) : followFeed c s = s := by
  rcases h with h | h <;> rw [followFeed, h] <;> exact if_neg ok

theorem followFeed_runs (ok : (acceptedFeed s c).isSome = true)
    (h : s.chans[c].state = .priming ∨ s.chans[c].state = .running) : followFeed c s = s := by
  rcases h with h | h <;> rw [followFeed, h] <;> exact if_pos ok

theorem followFeed_holds (ok : ¬ (acceptedFeed s c).isSome = true)
    (h : s.chans[c].state = .priming ∨ s.chans[c].state = .running) : followFeed c s = enterHolding c s := by
  rcases h with h | h <;> rw [followFeed, h] <;> exact if_neg ok

end

/-- The receiver's state and its condition, before it is reported. -/
def rxChanged (f : Feed) (st : RxState) (s : State) : State :=
  condition (.feedLock f) (s.rxs[f].state = .locked) (st = .locked) (s.modRx f fun r => { r with state := st })

theorem rxChanged_state (f : Feed) (st : RxState) (s : State) : (rxChanged f st s).rxs[f].state = st := by
  rw [rxChanged, condition_rxs, State.modRx_rxs, modifyAt_same]

theorem enterRxState_locked (f : Feed) (s : State) : enterRxState f .locked s =
    reportToChannels f (detectorRestart f (relock f (rxChanged f .locked s))) := by
  show reportState f (rxChanged f .locked s) = _
  rw [reportState, rxChanged_state]

theorem enterRxState_lost {f : Feed} {st : RxState} (h : st ≠ .locked) (s : State) : enterRxState f st s =
    reportToChannels f (detectorLoss f (rxChanged f st s)) := by
  show reportState f (rxChanged f st s) = _
  rw [reportState, rxChanged_state]
  cases st with
  | locked => exact absurd rfl h
  | noSignal => rfl
  | acquiring => rfl
  | unknown => rfl

theorem relock_eq (f : Feed) (s : State) : relock f s =
    ((s.rings[f].members.foldl (fun u n => removeMember f n u) s).modRing f fun r => { r with
      window := [], prevRaw := none, prevSmooth := none, lastError := none, pendingBreak := true }) := by
  rw [relock, removeOldest, List.take_length]
  rfl

/-! ## Takes (R97 to R100, R104) -/

theorem maskChans_eq (w : Word) : maskChans w.toNat = (List.finRange 8).filter fun c => w.getLsbD c.val := rfl

theorem ownTake_invalid {p : Port} {w : Word} (s : State) (h : w = 0#16 ∨ 255 < w.toNat) :
    ownTake p w.toNat s = .invalid s :=
  if_pos (h.imp_left fun e => by rw [e]; rfl)

theorem ownTake_mask {p : Port} {w : Word} (s : State) (h0 : w ≠ 0#16) (h : w.toNat ≤ 255) :
    ownTake p w.toNat s = .ok (takeAll p (maskChans w.toNat) s).1 (takeAll p (maskChans w.toNat) s).2 := by
  refine if_neg ?_
  rintro (e | e)
  · exact h0 (BitVec.eq_of_toNat_eq e)
  · omega

theorem takeOn_pending {s : State} {c : Chan} (h : s.chans[c].state ≠ .stopped ∨ s.chans[c].takePending = true) :
    takeOn c s = (.pending, s.modChan c fun ch => { ch with takePending := true }) := by
  refine if_neg ?_
  rintro ⟨hs, hp⟩
  rcases h with h | h
  · exact h hs
  · rw [h] at hp
    exact absurd hp (by decide)

theorem takeOn_stopped {s : State} {c : Chan} (hs : s.chans[c].state = .stopped)
    (hp : s.chans[c].takePending = false) : takeOn c s =
      (if bankCompatible s s.chans[c].nextBank then .applied else .rejected, applyTake c false s) :=
  if_pos ⟨hs, by rw [hp]; rfl⟩

theorem applyTake_rejected {s : State} {c : Chan} (fs : Bool) (h : ¬ bankCompatible s s.chans[c].nextBank = true) :
    applyTake c fs s = raise (.takeDone c)
      (s.modChan c fun ch => { ch with takePending := false, lastTake := .rejected s.now }) := if_neg h

theorem applyTake_applied {s : State} {c : Chan} (fs : Bool) (h : bankCompatible s s.chans[c].nextBank = true) :
    applyTake c fs s = raise (.takeDone c) (takeEffects c (bankOf s c) s.chans[c].nextBank
      (takeEmission c (bankOf s c) s.chans[c].nextBank fs
        (if sequenceChange (bankOf s c) s.chans[c].nextBank then rebuild c (bankOf s c).pOut (swapBanks c s)
          else swapBanks c s))) := if_pos h

theorem sequenceChange_iff (a b : Bank) : sequenceChange a b = true ↔
    a.ref ≠ b.ref ∨ a.outStd ≠ b.outStd ∨ a.offset ≠ b.offset := by
  simp only [sequenceChange, Bool.or_eq_true, decide_eq_true_eq, or_assoc]

theorem structuralChange_iff (a b : Bank) : structuralChange a b = true ↔
    a.feed ≠ b.feed ∨ a.outStd ≠ b.outStd ∨ a.ref ≠ b.ref ∨ a.expected ≠ b.expected := by
  simp only [structuralChange, Bool.or_eq_true, decide_eq_true_eq, or_assoc]

theorem takeEmission_eq (c : Chan) (old new : Bank) (fs : Bool) (s : State) : takeEmission c old new fs s =
    s.modOutput c fun o => { o with emitStd := if new.enable = false then none
      else if old.enable = false ∧ fs = true then some old.outStd else o.emitStd } := by
  refine congrArg (s.modOutput c) (funext fun o => ?_)
  cases new.enable <;> cases old.enable <;> cases fs <;> rfl

/-- The effects of a take by what it changes and by the channel's state (R93). -/
theorem takeEffects_eq (c : Chan) (old new : Bank) (s : State) : takeEffects c old new s =
    if structuralChange old new then (if s.chans[c].state = .stopped then s else reprime c old new s)
    else computeDelay c s := rfl

theorem rebuild_chans (c : Chan) (pOld : Nat) (s : State) : (rebuild c pOld s).chans = s.chans := by
  rw [rebuild_eq, State.modTiming_chans]

/-- The output as a structural take leaves it before the channel is primed again (R104). -/
def blanked (c : Chan) (old new : Bank) (s : State) : State :=
  if old.outStd = new.outStd then s
  else (releaseOnAir c s).modOutput c fun o => { o with display := .black }

theorem releaseOnAir_onlyOutput (c : Chan) (s : State) :
    (releaseOnAir c s).chans = s.chans ∧ (releaseOnAir c s).rxs = s.rxs := by
  unfold releaseOnAir
  cases s.outputs[c].onAir with
  | none => exact ⟨rfl, rfl⟩
  | some a =>
    dsimp only
    rw [onlyStore_releaseFrom]
    exact ⟨rfl, rfl⟩

theorem blanked_keeps (c : Chan) (old new : Bank) (s : State) :
    (blanked c old new s).chans = s.chans ∧ (blanked c old new s).rxs = s.rxs := by
  unfold blanked
  split
  · exact ⟨rfl, rfl⟩
  · exact releaseOnAir_onlyOutput c s

theorem blanked_eq (c : Chan) (old new : Bank) (s : State) :
    (if old.outStd ≠ new.outStd then goBlack c (releaseOnAir c s) else s) = blanked c old new s := ite_not ..

theorem acceptedFeed_blanked (c : Chan) (old new : Bank) (s : State) :
    acceptedFeed (blanked c old new s) c = acceptedFeed s c := by
  obtain ⟨chans, rxs⟩ := blanked_keeps c old new s
  exact acceptedFeed_congr (by unfold bankOf; rw [chans]) rxs

theorem reprime_accepted {s : State} {c : Chan} (old new : Bank) (ok : (acceptedFeed s c).isSome = true) :
    reprime c old new s = enterPriming c (blanked c old new s) := by
  unfold reprime
  rw [blanked_eq]
  dsimp only
  rw [acceptedFeed_blanked, if_pos ok]

theorem reprime_holds {s : State} {c : Chan} (old new : Bank) (ok : ¬ (acceptedFeed s c).isSome = true)
    (h : s.chans[c].state = .priming ∨ s.chans[c].state = .running) :
    reprime c old new s = enterHolding c (blanked c old new s) := by
  unfold reprime
  rw [blanked_eq]
  dsimp only
  rw [acceptedFeed_blanked, if_neg ok, (blanked_keeps c old new s).1]
  rcases h with h | h <;> rw [h]

theorem reprime_waits {s : State} {c : Chan} (old new : Bank) (ok : ¬ (acceptedFeed s c).isSome = true)
    (h : s.chans[c].state = .waitFeed ∨ s.chans[c].state = .holding) :
    reprime c old new s = blanked c old new s := by
  unfold reprime
  rw [blanked_eq]
  dsimp only
  rw [acceptedFeed_blanked, if_neg ok, (blanked_keeps c old new s).1]
  rcases h with h | h <;> rw [h]

theorem exec_take (dt : Nat) (p : Port) (tag : Byte) (params : List Word) (s : State) :
    exec (.take dt p tag params) s = .next (submit p tag params params1 (ownTake p) (s.elapse dt)) := rfl

end Sys2Proof.Machine

open Sys2Proof Sys2Proof.Machine

/-- Settles O54: a take on each channel, its two outcomes at a STOPPED channel, and its effects. -/
theorem takeSwapsTheBanks : Obligations.TakeSwapsTheBanks := by
  unfold Obligations.TakeSwapsTheBanks
  refine ⟨⟨rfl, rfl, rfl⟩, ⟨fun s c => rfl, bankCompatible_iff⟩, ?_, ?_, ?_, ?_⟩
  · rintro s _ dt p tag w rfl taken
    rw [exec_take]
    generalize s.elapse dt = t at *
    refine ⟨fun h => ?_, fun h0 h => ⟨_, _, rfl, ?_⟩⟩
    · rw [submit_reads p tag [w] params1 (ownTake p) t taken w.toNat rfl .invalid [] (ownTake_invalid _ h)]
      rfl
    · rw [submit_owner p tag [w] params1 (ownTake p) t taken w.toNat rfl, ownTake_mask _ h0 h]
      rfl
  · intro p s u v c rest w ws hw hrest
    refine ⟨rfl, ?_⟩
    unfold takeAll
    rw [hw]
    dsimp only [takeEntry]
    rw [hrest]
  · rintro s c _ _ new fs rfl rfl hnew
    obtain rfl : new = s.chans[c].nextBank := hnew
    have compatible := bankCompatible_iff s s.chans[c].nextBank
    refine ⟨takeOn_pending, fun hs hp h => ?_, fun hs hp h => ?_, fun h => ?_, fun a b h ha hb => ?_⟩
    · rw [takeOn_stopped hs hp, if_pos (compatible.2 h)]
    · rw [takeOn_stopped hs hp, if_neg fun k => h (compatible.1 k)]
    · exact applyTake_rejected fs fun k => h (compatible.1 k)
    · have ha : a = swapBanks c s := ha
      have built : (if sequenceChange (bankOf s c) s.chans[c].nextBank then rebuild c (bankOf s c).pOut (swapBanks c s)
          else swapBanks c s) = if (bankOf s c).ref ≠ s.chans[c].nextBank.ref ∨
            (bankOf s c).outStd ≠ s.chans[c].nextBank.outStd ∨ (bankOf s c).offset ≠ s.chans[c].nextBank.offset
          then rebuild c (bankOf s c).pOut a else a := by
        rw [ha]
        exact if_congr (sequenceChange_iff ..) rfl rfl
      have taken : takeEmission c (bankOf s c) s.chans[c].nextBank fs
          (if sequenceChange (bankOf s c) s.chans[c].nextBank then rebuild c (bankOf s c).pOut (swapBanks c s)
            else swapBanks c s) = b := by
        rw [takeEmission_eq, built, hb]
      have state : b.chans[c].state = s.chans[c].state := by
        have chans : b.chans = (swapBanks c s).chans := by
          rw [hb, State.modOutput_chans, apply_ite State.chans, rebuild_chans, ite_self, ha]
        rw [chans, swapBanks, State.modChan_chans, modifyAt_same]
      rw [applyTake_applied fs (compatible.2 h), taken, takeEffects_eq, state]
      exact congrArg _ (if_congr (structuralChange_iff ..) rfl rfl)
  · rintro s v c old new _ _ ok rfl rfl hok rfl
    have accepted : (acceptedFeed s c).isSome = true ↔ ok := (acceptedFeed_isSome s c).trans hok.symm
    refine ⟨fun h => reprime_accepted old new (accepted.2 h), fun h => reprime_holds old new fun k => h (accepted.1 k),
      fun h => reprime_waits old new fun k => h (accepted.1 k), fun i h hi => ?_,
      fun h => computeDelay_none fun k => h (accepted.1 k)⟩
    obtain ⟨hl, i', hi', he⟩ := hok.1 h
    have same : i' = i := Option.some_inj.1 (hi'.symm.trans hi)
    exact computeDelay_some ((acceptedFeed_iff s c i).2 ⟨hl, hi, same ▸ he⟩)

/-- Settles O56: the report of a receiver's state, and what the channel's state makes of it. -/
theorem channelsFollowTheirFeeds : Obligations.ChannelsFollowTheirFeeds := by
  unfold Obligations.ChannelsFollowTheirFeeds
  refine ⟨?_, ?_, ?_, ?_⟩
  · rintro s _ f st rfl
    refine ⟨?_, fun h => enterRxState_lost h s, rfl, relock_eq f s⟩
    rintro rfl
    exact enterRxState_locked f s
  · rintro s _ c _ rfl h hl rfl ho
    rw [enterHolding_black h hl ho]
    cases s.outputs[c].onAir <;> rfl
  · rintro s c _ _ _ ok rfl rfl rfl hok
    have accepted : (acceptedFeed s c).isSome = true ↔ ok := (acceptedFeed_isSome s c).trans hok.symm
    refine ⟨followFeed_stopped, fun h => followFeed_primes (accepted.2 h),
      fun h => followFeed_waits fun k => h (accepted.1 k), fun h => followFeed_runs (accepted.2 h),
      fun h => followFeed_holds fun k => h (accepted.1 k),
      fun i d hl hi he hd => enterPriming_eq ((acceptedFeed_iff s c i).2 ⟨hl, hi, he⟩) hd,
      fun h hl => ⟨_, rfl, enterHolding_hold h hl⟩⟩
  · exact fun b pIn depth => ⟨effectiveDelay_auto pIn depth, fun x hx =>
      ⟨effectiveDelay_shallow hx, effectiveDelay_clamped hx⟩⟩

end

section
/-! START_CHANNEL, STOP_CHANNEL and SET_CHANNEL (R94, R95, R102, R103). -/

namespace Sys2Proof.Machine

theorem idx_of_val {n v : Nat} {x : Fin n} (h : x.val = v) : idx n v = some x := by rw [← h, idx_val]

/-! ## START_CHANNEL (R102) -/

theorem exec_startChannel (dt : Nat) (p : Port) (tag : Byte) (params : List Word) (s : State) :
    exec (.startChannel dt p tag params) s =
      .next (submit p tag params params1 (ownStartChannel p) (s.elapse dt)) := rfl

theorem exec_stopChannel (dt : Nat) (p : Port) (tag : Byte) (params : List Word) (s : State) :
    exec (.stopChannel dt p tag params) s =
      .next (submit p tag params params1 (ownStopChannel p) (s.elapse dt)) := rfl

theorem releaseOnAir_none {c : Chan} {s : State} (h : s.outputs[c].onAir = none) : releaseOnAir c s = s := by
  rw [releaseOnAir, h]

theorem releaseOnAir_some {c : Chan} {s : State} {a : Held} (h : s.outputs[c].onAir = some a)
    (hs : s.slots[a.slot].state = .onAir) :
    releaseOnAir c s = release a.slot (s.modOutput c fun o => { o with onAir := none }) := by
  rw [releaseOnAir, h]
  exact if_pos hs

theorem abandonAtStop_some {c : Chan} {s v : State} (h : abandonJob c s = (true, v)) :
    abandonAtStop c s = startLanes v := by
  rw [abandonAtStop, h]

theorem abandonAtStop_none {c : Chan} {s v : State} (h : abandonJob c s = (false, v)) : abandonAtStop c s = v := by
  rw [abandonAtStop, h]

/-- Without a job nothing is abandoned. -/
theorem abandonJob_false {c : Chan} {s v : State} (h : abandonJob c s = (false, v)) : v = s := by
  unfold abandonJob at h
  split at h
  · cases h
  · split at h
    · cases h
    · exact (Prod.mk.inj h).2.symm

theorem clearRun_bank (c : Chan) (s : State) : bankOf (clearRun c s) c = bankOf s c :=
  bankOf_modChan (s := s) (f := fun ch =>
    { ch with counters := .zero, frame := 0, listKind := none, outcome := none, readback := none }) rfl c

theorem acceptedFeed_clearRun (c : Chan) (s : State) : acceptedFeed (clearRun c s) c = acceptedFeed s c :=
  acceptedFeed_congr (clearRun_bank c s) rfl

theorem clearRun_chan (c : Chan) (s : State) : (clearRun c s).chans[c] = { s.chans[c] with
    counters := .zero, frame := 0, listKind := none, outcome := none, readback := none } :=
  modifyAt_same s.chans c fun ch =>
    { ch with counters := .zero, frame := 0, listKind := none, outcome := none, readback := none }

theorem startState_accepted {c : Chan} {s : State} (ok : (acceptedFeed s c).isSome = true) :
    startState c s = enterPriming c s := if_pos ok

theorem startState_waits {c : Chan} {s : State} (ok : ¬ (acceptedFeed s c).isSome = true)
    (h : s.chans[c].state = .stopped) : startState c s =
      raise (.channelState c) (s.modChan c fun ch => { ch with state := .waitFeed, dlyEff := none }) := by
  rw [startState, if_neg ok, setChanState_eq, h]
  refine (congrArg (fun u : State => u.modChan c fun ch => { ch with dlyEff := none }) (condition_same ..)).trans ?_
  rw [raise_modChan, State.modChan_modChan]

section
variable {p : Port} {w : Nat} {c : Chan} {s : State}

theorem ownStartChannel_invalid (h : 8 ≤ w) : ownStartChannel p w s = .invalid s := by
  rw [ownStartChannel, idx_eq_none h]

theorem ownStartChannel_running (hc : c.val = w) (h : s.chans[c].state ≠ .stopped) :
    ownStartChannel p w s = .refused .notStopped s := by
  rw [ownStartChannel, idx_of_val hc]
  exact if_pos h

theorem ownStartChannel_incompatible (hc : c.val = w) (h : s.chans[c].state = .stopped)
    (hb : ¬ bankCompatible s (bankOf s c) = true) : ownStartChannel p w s = .refused .refIncompatible s := by
  rw [ownStartChannel, idx_of_val hc]
  exact (if_neg (not_not.2 h)).trans (if_neg hb)

/-- A channel that starts, in the state that it takes. -/
theorem ownStartChannel_starts {u : State} (hc : c.val = w) (h : s.chans[c].state = .stopped)
    (hb : bankCompatible s (bankOf s c) = true) (hu : u = startState c (clearRun c s)) :
    ownStartChannel p w s =
      .ok (w16 u.chans[c].state.code) (announce p ⟨0x32#8, some c.val, some u.chans[c].revision⟩ u) := by
  rw [ownStartChannel, idx_of_val hc, hu]
  exact (if_neg (not_not.2 h)).trans (if_pos hb)

/-! ## STOP_CHANNEL (R103) -/

theorem ownStopChannel_invalid (h : 8 ≤ w) : ownStopChannel p w s = .invalid s := by
  rw [ownStopChannel, idx_eq_none h]

theorem ownStopChannel_already (hc : c.val = w) (h : s.chans[c].state = .stopped) :
    ownStopChannel p w s = .complete .already [] s := by
  rw [ownStopChannel, idx_of_val hc]
  exact if_pos h

theorem ownStopChannel_stops (hc : c.val = w) (h : s.chans[c].state ≠ .stopped) :
    ownStopChannel p w s = .ok [] (announce p ⟨0x33#8, some c.val, some s.chans[c].revision⟩ (stopChannel c s)) := by
  rw [ownStopChannel, idx_of_val hc]
  exact if_neg h

end

theorem stopOutput_eq (c : Chan) (s : State) : stopOutput c s =
    (releaseOnAir c (releaseReady c s)).modOutput c fun o => { o with display := .black, hold := none } :=
  modOutput_modOutput (releaseOnAir c (releaseReady c s)) c (fun o => { o with display := .black }) fun o =>
    { o with hold := none }

end Sys2Proof.Machine

open Sys2Proof Sys2Proof.Machine

/-- Settles O55: a request at a STOPPED channel and at one that is not. -/
theorem startAndStopChannel : Obligations.StartAndStopChannel := by
  unfold Obligations.StartAndStopChannel
  refine ⟨fun s c => ⟨releaseOnAir_none, releaseReady_none, fun a => releaseOnAir_some, fun a => releaseReady_some⟩,
    fun c s v => ⟨abandonAtStop_some, fun h => ⟨abandonJob_false h, ?_⟩⟩, ?_⟩
  · rw [abandonAtStop_none h, abandonJob_false h]
  · rintro s _ dt p tag w rfl taken
    rw [exec_startChannel, exec_stopChannel]
    generalize s.elapse dt = t at *
    have reads := fun o => submit_reads p tag [w] params1 o t taken w.toNat rfl
    have owner : ∀ o : Nat → State → Answer, submit p tag [w] params1 o t =
        finish p tag (o w.toNat (t.taking p 1)) := fun o => submit_owner p tag [w] params1 o t taken w.toNat rfl
    refine ⟨fun h => ⟨?_, ?_⟩, ?_⟩
    · rw [reads _ .invalid [] (ownStartChannel_invalid h)]
      rfl
    · rw [reads _ .invalid [] (ownStopChannel_invalid h)]
      rfl
    · rintro c _ _ _ ok hc rfl rfl rfl hok
      have accepted : (acceptedFeed (t.taking p 1) c).isSome = true ↔ ok := (acceptedFeed_isSome t c).trans hok.symm
      have compatible := bankCompatible_iff t (bankOf t c)
      refine ⟨fun h => ?_, fun h hb => ?_, fun a h hb ha => ?_, fun h => ?_, fun a h ha => ?_⟩
      · rw [reads _ .refused [3#16] (ownStartChannel_running hc h)]
        rfl
      · rw [reads _ .refused [1#16] (ownStartChannel_incompatible hc h fun k => hb (compatible.1 k))]
        rfl
      · have ha : a = clearRun c (t.taking p 1) := ha
        have feed : (acceptedFeed a c).isSome = true ↔ ok := by rw [ha, acceptedFeed_clearRun, accepted]
        have chan : a.chans[c] = { t.chans[c] with
            counters := .zero, frame := 0, listKind := none, outcome := none, readback := none } := by
          rw [ha]; exact clearRun_chan c (t.taking p 1)
        have starts := fun u => ownStartChannel_starts (u := u) (p := p) (s := t.taking p 1) hc h (compatible.2 hb)
        refine ⟨fun k => ?_, fun k => ?_⟩
        · obtain ⟨state, revision⟩ := enterPriming_chan c a
          rw [owner, starts (enterPriming c a) (by rw [← ha, startState_accepted (feed.2 k)]), state, revision, chan]
          rfl
        · rw [owner, starts _ (by rw [← ha, startState_waits (fun k' => k (feed.1 k')) (by rw [chan]; exact h)])]
          rw [raise_chans, State.modChan_chans, modifyAt_same, chan]
          rfl
      · rw [reads _ .already [] (ownStopChannel_already hc h)]
        rfl
      · refine ⟨_, rfl, ?_⟩
        rw [owner, ownStopChannel_stops (s := t.taking p 1) hc h, stopChannel, stopOutput_eq, setChanState_eq, ha]
        rfl

end

section
/-! SET_CHANNEL (R94, R95): how its words spell the edit, which codes a field takes, and what the edit writes. -/

namespace Sys2Proof.Machine

/-! ## Bytes of a word -/

theorem hiByte_append (a b : Byte) : hiByte (a ++ b) = a.toNat := by
  have := b.isLt
  rw [hiByte, BitVec.toNat_append, Nat.shiftLeft_eq, Nat.mul_comm, ← Nat.two_pow_add_eq_or_of_lt this]
  omega

theorem loByte_append (a b : Byte) : loByte (a ++ b) = b.toNat := by
  have := b.isLt
  rw [loByte, BitVec.toNat_append, Nat.shiftLeft_eq, Nat.mul_comm, ← Nat.two_pow_add_eq_or_of_lt this]
  omega

theorem val32_extract (x : BitVec 32) : val32 (x.extractLsb' 16 16) (x.extractLsb' 0 16) = x.toNat := by
  have := x.isLt
  simp only [val32, BitVec.extractLsb'_toNat, Nat.shiftRight_eq_div_pow]
  omega

/-! ## The field items of SET_CHANNEL (note 2) -/

/-- The words of a field item. -/
def itemWords (x : Byte × BitVec 32) : List Word :=
  if x.1 = 4#8 ∨ x.1 = 5#8 then [x.1 ++ 0#8, x.2.extractLsb' 16 16, x.2.extractLsb' 0 16]
  else [x.1 ++ x.2.extractLsb' 0 8]

/-- A field code and a value that the item's words can carry. -/
def ItemOk (x : Byte × BitVec 32) : Prop := x.1.toNat ≤ 13 ∧ (x.1 ≠ 4#8 → x.1 ≠ 5#8 → x.2.toNat < 256)

theorem wide_iff (code : Byte) (low : Byte) :
    (hiByte (code ++ low) = 4 ∨ hiByte (code ++ low) = 5) ↔ (code = 4#8 ∨ code = 5#8) := by
  rw [hiByte_append]
  constructor <;> rintro (h | h)
  · exact .inl (BitVec.eq_of_toNat_eq h)
  · exact .inr (BitVec.eq_of_toNat_eq h)
  · exact .inl (by rw [h]; rfl)
  · exact .inr (by rw [h]; rfl)

theorem parseItems_item {x : Byte × BitVec 32} (h : ItemOk x) (k : Nat) (rest : List Word) :
    parseItems (k + 1) (itemWords x ++ rest) =
      (parseItems k rest).map ((x.1.toNat, x.2.toNat) :: ·) := by
  obtain ⟨hcode, hvalue⟩ := h
  unfold itemWords
  by_cases wide : x.1 = 4#8 ∨ x.1 = 5#8
  · rw [if_pos wide]
    simp only [List.cons_append, List.nil_append, parseItems]
    rw [if_pos ((wide_iff ..).2 wide), loByte_append, if_pos (by decide), hiByte_append, val32_extract]
  · rw [if_neg wide]
    have small : x.2.toNat < 256 := hvalue (fun e => wide (.inl e)) fun e => wide (.inr e)
    have value : (x.2.extractLsb' 0 8).toNat = x.2.toNat := by
      simp only [BitVec.extractLsb'_toNat, Nat.shiftRight_zero]
      exact Nat.mod_eq_of_lt small
    simp only [List.cons_append, List.nil_append, parseItems]
    rw [if_neg fun e => wide ((wide_iff ..).1 e), hiByte_append, if_pos hcode, loByte_append, value]

theorem itemWords_ne_nil (x : Byte × BitVec 32) : ∃ w ws, itemWords x = w :: ws := by
  unfold itemWords
  split <;> exact ⟨_, _, rfl⟩

theorem parseItems_zero {l : List Word} (h : l ≠ []) : parseItems 0 l = none := by
  cases l with
  | nil => exact absurd rfl h
  | cons w rest => rfl

theorem parseItems_spelled (items : List (Byte × BitVec 32)) (hok : ∀ x ∈ items, ItemOk x) (k : Nat)
    (hk : items.length ≤ k) :
    parseItems k (items.flatMap itemWords) = some (items.map fun x => (x.1.toNat, x.2.toNat)) := by
  induction items generalizing k with
  | nil => cases k <;> rfl
  | cons x rest ih =>
    obtain ⟨k, rfl⟩ : ∃ m, k = m + 1 := ⟨k - 1, by simp at hk; omega⟩
    rw [List.flatMap_cons, parseItems_item (hok x List.mem_cons_self),
      ih (fun y hy => hok y (List.mem_cons_of_mem x hy)) k (by simpa using hk)]
    rfl

/-- Nothing decodes that goes on, after its items, with words that do not. -/
theorem parseItems_spelled_none (items : List (Byte × BitVec 32)) (hok : ∀ x ∈ items, ItemOk x) {rest : List Word}
    (hrest : ∀ k, parseItems k rest = none) (k : Nat) : parseItems k (items.flatMap itemWords ++ rest) = none := by
  induction items generalizing k with
  | nil => exact hrest k
  | cons x more ih =>
    cases k with
    | zero =>
      obtain ⟨w, ws, e⟩ := itemWords_ne_nil x
      exact parseItems_zero (by rw [List.flatMap_cons, e]; simp)
    | succ k =>
      rw [List.flatMap_cons, List.append_assoc, parseItems_item (hok x List.mem_cons_self),
        ih (fun y hy => hok y (List.mem_cons_of_mem x hy)) k]
      rfl

theorem parseItems_bad {code low : Byte} {rest : List Word}
    (h : 13 < code.toNat ∨ ((code = 4#8 ∨ code = 5#8) ∧ (low ≠ 0#8 ∨ rest.length < 2))) (k : Nat) :
    parseItems k ((code ++ low) :: rest) = none := by
  cases k with
  | zero => rfl
  | succ k =>
    unfold parseItems
    by_cases wide : code = 4#8 ∨ code = 5#8
    · rw [if_pos ((wide_iff ..).2 wide)]
      have hbad : low ≠ 0#8 ∨ rest.length < 2 := by
        rcases h with h | h
        · rcases wide with e | e <;> rw [e] at h <;> exact absurd h (by decide)
        · exact h.2
      match rest, hbad with
      | [], _ => rfl
      | [_], _ => rfl
      | hi :: lo :: more, hbad =>
        have hlow : low ≠ 0#8 := hbad.resolve_right (by simp)
        exact if_neg fun e => hlow (BitVec.eq_of_toNat_eq (by rw [← loByte_append code low, e]; rfl))
    · rw [if_neg fun e => wide ((wide_iff ..).1 e), hiByte_append, if_neg]
      rcases h with h | h
      · omega
      · exact absurd h.1 wide

theorem length_le_flatMap (items : List (Byte × BitVec 32)) : items.length ≤ (items.flatMap itemWords).length := by
  induction items with
  | nil => exact Nat.le_refl 0
  | cons x rest ih =>
    obtain ⟨w, ws, e⟩ := itemWords_ne_nil x
    rw [List.flatMap_cons, e, List.length_append, List.length_cons, List.length_cons]
    omega

theorem paramsChannel_unconditional (chan : Byte) {items : List Word} (h1 : 1 ≤ items.length)
    (h7 : items.length ≤ 7) : paramsChannel ((chan ++ 0#8) :: items) =
      (parseItems 8 items).map fun l => ⟨chan.toNat, none, l⟩ := by
  unfold paramsChannel
  dsimp only
  rw [if_pos ⟨h1, h7⟩, loByte_append, if_neg (by decide), if_pos (by decide), hiByte_append]

theorem paramsChannel_expected (chan : Byte) (rev : Word) {items : List Word} (h6 : items.length ≤ 6) :
    paramsChannel ((chan ++ 1#8) :: rev :: items) =
      (parseItems 8 items).map fun l => ⟨chan.toNat, some rev, l⟩ := by
  unfold paramsChannel
  dsimp only
  rw [if_pos (by simp; omega), loByte_append, if_pos (by decide), hiByte_append]

theorem paramsChannel_count (w : Word) {rest : List Word} (h : rest = [] ∨ 7 < rest.length) :
    paramsChannel (w :: rest) = none := by
  unfold paramsChannel
  dsimp only
  rw [if_neg]
  rintro ⟨h1, h7⟩
  rcases h with rfl | h
  · simp at h1
  · omega

theorem paramsChannel_head {chan lo : Byte} (rest : List Word) (h : lo ≠ 0#8 ∧ lo ≠ 1#8) :
    paramsChannel ((chan ++ lo) :: rest) = none := by
  have h0 : lo.toNat ≠ 0 := fun e => h.1 (BitVec.eq_of_toNat_eq e)
  have h1 : lo.toNat ≠ 1 := fun e => h.2 (BitVec.eq_of_toNat_eq e)
  unfold paramsChannel
  dsimp only
  rw [loByte_append, if_neg h1, if_neg h0, ite_self]

theorem paramsChannel_none (chan : Byte) (rev : Word) {items : List Word} (h : parseItems 8 items = none) :
    paramsChannel ((chan ++ 0#8) :: items) = none ∧ paramsChannel ((chan ++ 1#8) :: rev :: items) = none := by
  constructor
  · by_cases hl : 1 ≤ items.length ∧ items.length ≤ 7
    · rw [paramsChannel_unconditional chan hl.1 hl.2, h]; rfl
    · exact if_neg hl
  · by_cases hl : items.length ≤ 6
    · rw [paramsChannel_expected chan rev hl, h]; rfl
    · exact paramsChannel_count _ (.inr (by simp; omega))

/-! ## The values that a field takes (R94) -/

theorem idx_eq_none_iff (n v : Nat) : idx n v = none ↔ n ≤ v := by
  unfold idx
  split
  · simp; omega
  · simp; omega

theorem autoIdx_eq_none_iff (n v : Nat) : autoIdx n v = none ↔ n ≤ v ∧ v ≠ 255 := by
  unfold autoIdx
  split
  · next h => simp [h]
  · next h => rw [Option.map_eq_none_iff, idx_eq_none_iff]; exact ⟨fun k => ⟨k, h⟩, And.left⟩

theorem tempMode_eq_none_iff : ∀ v, TempMode.ofCode v = none ↔ 3 ≤ v
  | 0 => by decide
  | 1 => by decide
  | 2 => by decide
  | v + 3 => iff_of_true rfl (Nat.le_add_left 3 v)

theorem ditherPeriod_eq_none_iff : ∀ v, DitherPeriod.ofCode v = none ↔ 5 ≤ v
  | 0 => by decide
  | 1 => by decide
  | 2 => by decide
  | 3 => by decide
  | 4 => by decide
  | v + 5 => iff_of_true rfl (Nat.le_add_left 5 v)

theorem flagOf_eq_none_iff : ∀ v, flagOf v = none ↔ 2 ≤ v
  | 0 => by decide
  | 1 => by decide
  | v + 2 => iff_of_true rfl (Nat.le_add_left 2 v)

theorem setField_delay_none (b : Bank) (v : Nat) : b.setField 5 v = none ↔ 6000000 < v ∧ v ≠ 0xFFFFFFFF := by
  rw [Bank.setField]
  split
  · next h => simp [h]
  · next h =>
    split
    · next k => simp; omega
    · next k => simp; omega

theorem setField_lossHold_none (b : Bank) (v : Nat) : b.setField 9 v = none ↔ 250 < v := by
  rw [Bank.setField]
  split
  · next h => simp; omega
  · next h => simp; omega

theorem setField_profile_none (b : Bank) (v : Nat) : ∀ k, k < 3 → (b.setField (10 + k) v = none ↔ 16 ≤ v ∧ v ≠ 255)
  | 0, _ => Option.map_eq_none_iff.trans (autoIdx_eq_none_iff 16 v)
  | 1, _ => Option.map_eq_none_iff.trans (autoIdx_eq_none_iff 16 v)
  | 2, _ => Option.map_eq_none_iff.trans (autoIdx_eq_none_iff 16 v)

/-- The delay field as the request spells it, 0xFFFFFFFF for AUTO. -/
theorem setField_delay (b : Bank) {x : Option Nat} (h : ∀ d, x = some d → d ≤ 6000000) :
    b.setField 5 (x.getD 0xFFFFFFFF) = some { b with delay := x } := by
  rw [Bank.setField]
  cases x with
  | none => rfl
  | some d =>
    have hd := h d rfl
    rw [Option.getD_some, if_neg (by omega), if_pos hd]

/-- The field codes and values that spell a bank. -/
def bankItems (x : Bank) : List (Nat × Nat) :=
  [(0, x.feed.val), (1, x.outStd.val), (2, x.ref.val), (3, x.expected.elim 255 Fin.val), (4, x.offset),
    (5, x.delay.getD 0xFFFFFFFF), (6, x.mode.code), (7, x.ditherPeriod.code), (8, x.ditherPhase.val),
    (9, x.lossHold), (10, x.vProf.elim 255 Fin.val), (11, x.hProf.elim 255 Fin.val),
    (12, x.mProf.elim 255 Fin.val), (13, if x.enable then 1 else 0)]

theorem setFields_bankItems (b x : Bank) (hl : x.lossHold ≤ 250) (hd : ∀ d, x.delay = some d → d ≤ 6000000) :
    b.setFields (bankItems x) = some x := by
  have hfeed (y : Bank) : y.setField 0 x.feed.val = some { y with feed := x.feed } := by
    rw [Bank.setField, idx_val]; rfl
  have hstd (y : Bank) : y.setField 1 x.outStd.val = some { y with outStd := x.outStd } := by
    rw [Bank.setField, idx_val]; rfl
  have href (y : Bank) : y.setField 2 x.ref.val = some { y with ref := x.ref } := by
    rw [Bank.setField, idx_val]; rfl
  have hexp (y : Bank) : y.setField 3 (x.expected.elim 255 Fin.val) = some { y with expected := x.expected } := by
    rw [Bank.setField, autoIdx_val (by decide)]; rfl
  have hmode (y : Bank) : y.setField 6 x.mode.code = some { y with mode := x.mode } := by
    rw [Bank.setField, TempMode.ofCode_code]; rfl
  have hdither (y : Bank) : y.setField 7 x.ditherPeriod.code = some { y with ditherPeriod := x.ditherPeriod } := by
    rw [Bank.setField, DitherPeriod.ofCode_code]; rfl
  have hphase (y : Bank) : y.setField 8 x.ditherPhase.val = some { y with ditherPhase := x.ditherPhase } := by
    rw [Bank.setField, idx_val]; rfl
  have hhold (y : Bank) : y.setField 9 x.lossHold = some { y with lossHold := x.lossHold } := by
    rw [Bank.setField, if_pos hl]
  have hv (y : Bank) : y.setField 10 (x.vProf.elim 255 Fin.val) = some { y with vProf := x.vProf } := by
    rw [Bank.setField, autoIdx_val (by decide)]; rfl
  have hh (y : Bank) : y.setField 11 (x.hProf.elim 255 Fin.val) = some { y with hProf := x.hProf } := by
    rw [Bank.setField, autoIdx_val (by decide)]; rfl
  have hm (y : Bank) : y.setField 12 (x.mProf.elim 255 Fin.val) = some { y with mProf := x.mProf } := by
    rw [Bank.setField, autoIdx_val (by decide)]; rfl
  have henable (y : Bank) : y.setField 13 (if x.enable then 1 else 0) = some { y with enable := x.enable } := by
    rw [Bank.setField, flagOf_bool]; rfl
  unfold bankItems
  rw [setFields_cons (hfeed b), setFields_cons (hstd _), setFields_cons (href _), setFields_cons (hexp _),
    setFields_cons rfl, setFields_cons (setField_delay _ hd), setFields_cons (hmode _), setFields_cons (hdither _),
    setFields_cons (hphase _), setFields_cons (hhold _), setFields_cons (hv _), setFields_cons (hh _),
    setFields_cons (hm _), setFields_cons (henable _)]
  rfl

/-! ## SET_CHANNEL at its owner (R94, R95) -/

theorem exec_setChannel (dt : Nat) (p : Port) (tag : Byte) (params : List Word) (s : State) :
    exec (.setChannel dt p tag params) s =
      .next (submit p tag params paramsChannel (ownSetChannel p) (s.elapse dt)) := rfl

theorem editBank_none {items : List (Nat × Nat)} (b : Bank) (h : items = [] ∨ ¬ (items.map Prod.fst).Nodup) :
    editBank items b = none := by
  refine if_pos (h.imp (fun e => by rw [e]; rfl) fun n => ?_)
  rw [Bool.not_eq_true', decide_eq_false_iff_not]
  exact n

theorem editBank_eq {items : List (Nat × Nat)} (b : Bank) (h : items ≠ []) (hn : (items.map Prod.fst).Nodup) :
    editBank items b = (b.setFields items).filter Bank.offsetOk := by
  refine if_neg ?_
  rintro (e | e)
  · exact h (List.isEmpty_iff.1 e)
  · rw [Bool.not_eq_true', decide_eq_false_iff_not] at e
    exact e hn

theorem setNext_eq (ch : Channel) (b : Bank) : ch.setNext b = { ch with
    bankA := match ch.active with | .a => ch.bankA | .b => b
    bankB := match ch.active with | .a => b | .b => ch.bankB } := by
  unfold Channel.setNext
  cases ch.active <;> rfl

section
variable {p : Port} {e : ChannelEdit} {c : Chan} {s : State}

theorem ownSetChannel_unnamed (h : 8 ≤ e.chan) : ownSetChannel p e s = .invalid s := by
  rw [ownSetChannel, idx_eq_none h]

theorem ownSetChannel_none (hc : c.val = e.chan) (h : editBank e.items s.chans[c].nextBank = none) :
    ownSetChannel p e s = .invalid s := by
  unfold ownSetChannel
  rw [idx_of_val hc]
  dsimp only
  rw [h]

theorem ownSetChannel_stale {b : Bank} (hc : c.val = e.chan) (h : editBank e.items s.chans[c].nextBank = some b)
    {r : Word} (hr : e.expected = some r) (hne : r ≠ s.chans[c].revision) :
    ownSetChannel p e s = .complete .stale [s.chans[c].revision] s := by
  unfold ownSetChannel
  rw [idx_of_val hc]
  dsimp only
  rw [h, hr]
  exact if_neg (by simpa using hne)

theorem ownSetChannel_writes {b : Bank} (hc : c.val = e.chan) (h : editBank e.items s.chans[c].nextBank = some b)
    (hr : ∀ r, e.expected = some r → r = s.chans[c].revision) : ownSetChannel p e s =
      .ok [s.chans[c].revision + 1] (announce p ⟨0x30#8, some c.val, some (s.chans[c].revision + 1)⟩
        (s.modChan c fun ch => { ch.setNext b with revision := s.chans[c].revision + 1 })) := by
  unfold ownSetChannel
  rw [idx_of_val hc]
  dsimp only
  rw [h]
  refine if_pos ?_
  cases he : e.expected with
  | none => rfl
  | some r => exact decide_eq_true (hr r he)

end

end Sys2Proof.Machine

open Sys2Proof Sys2Proof.Machine

/-- Settles O53: the items as they decode, the edit of the next bank, and each field's range. -/
theorem setChannelWritesTheNextBank : Obligations.SetChannelWritesTheNextBank := by
  unfold Obligations.SetChannelWritesTheNextBank
  refine ⟨?_, ?_, fun b x hl hd => setFields_bankItems b x hl hd, ?_⟩
  · intro chan lo rev items words hok hwords
    obtain rfl : words = items.flatMap itemWords := hwords
    have short := length_le_flatMap items
    refine ⟨fun h1 h7 => ?_, fun h6 => ?_, fun code low rest h => ?_, fun rest h => ?_⟩
    · rw [paramsChannel_unconditional chan h1 h7, parseItems_spelled items hok 8 (by omega)]
      rfl
    · rw [paramsChannel_expected chan rev h6, parseItems_spelled items hok 8 (by omega)]
      rfl
    · exact paramsChannel_none chan rev (parseItems_spelled_none items hok (parseItems_bad h) 8)
    · rcases h with h | h
      · exact paramsChannel_head rest h
      · exact paramsChannel_count _ h
  · rintro s _ dt p tag params e rfl taken he
    rw [exec_setChannel]
    generalize s.elapse dt = t at *
    have reads := submit_reads p tag params paramsChannel (ownSetChannel p) t taken e he
    refine ⟨fun h => ?_, ?_⟩
    · refine congrArg _ (reads .invalid [] ?_)
      by_cases hc : 8 ≤ e.chan
      · exact ownSetChannel_unnamed hc
      · exact ownSetChannel_none (c := ⟨e.chan, by omega⟩) rfl (editBank_none _ (h.resolve_left hc))
    · rintro c _ next hc rfl hnext hne hnd
      obtain rfl : next = t.chans[c].nextBank := hnext
      have edit := editBank_eq t.chans[c].nextBank hne hnd
      refine ⟨fun h => ?_, fun b hb hoff => ?_⟩
      · refine congrArg _ (reads .invalid [] (ownSetChannel_none (c := c) hc (edit.trans ?_)))
        rcases h with h | ⟨b, h, hoff⟩
        · rw [h]; rfl
        · rw [h, Option.filter_some, if_neg (by simpa [Bank.offsetOk] using hoff)]
      · have edited := edit.trans (show _ = some b by
          rw [hb, Option.filter_some, if_pos (by simpa [Bank.offsetOk] using hoff)])
        refine ⟨?_, fun h => ?_⟩
        · rintro ⟨r, hr, hne⟩
          exact congrArg _ (reads .stale [t.chans[c].revision] (ownSetChannel_stale (c := c) hc edited hr hne))
        · refine congrArg _ ((submit_announces p tag params paramsChannel (ownSetChannel p) t taken e he
            [t.chans[c].revision + 1] _ (fun u => u.modChan c fun ch =>
              { ch.setNext b with revision := t.chans[c].revision + 1 }) (fun f => rfl)
            (ownSetChannel_writes (c := c) hc edited h)).trans ?_)
          rw [State.modChan, modifyAt, setNext_eq]
          rfl
  · refine fun b v => ⟨Option.map_eq_none_iff.trans (idx_eq_none_iff 8 v),
      Option.map_eq_none_iff.trans (idx_eq_none_iff 12 v), Option.map_eq_none_iff.trans (idx_eq_none_iff 2 v),
      Option.map_eq_none_iff.trans (autoIdx_eq_none_iff 12 v), Option.some_ne_none _, setField_delay_none b v,
      Option.map_eq_none_iff.trans (tempMode_eq_none_iff v), Option.map_eq_none_iff.trans (ditherPeriod_eq_none_iff v),
      Option.map_eq_none_iff.trans (idx_eq_none_iff 4 v), setField_lossHold_none b v, setField_profile_none b v,
      Option.map_eq_none_iff.trans (flagOf_eq_none_iff v)⟩

end

section
/-! The profile table's requests (R143 to R146): staging, and the validation that a commit starts. -/

namespace Sys2Proof.Machine

/-! ## Staging (R143, R144) -/

theorem exec_profileBegin (dt : Nat) (p : Port) (tag : Byte) (params : List Word) (s : State) :
    exec (.profileBegin dt p tag params) s =
      .next (submit p tag params params4 (ownProfileBegin p) (s.elapse dt)) := rfl

theorem exec_profileData (dt : Nat) (p : Port) (tag : Byte) (params : List Word) (s : State) :
    exec (.profileData dt p tag params) s =
      .next (submit p tag params paramsData (ownProfileData p) (s.elapse dt)) := rfl

theorem exec_profileAbandon (dt : Nat) (p : Port) (tag : Byte) (params : List Word) (s : State) :
    exec (.profileAbandon dt p tag params) s =
      .next (submit p tag params params0 (ownProfileAbandon p) (s.elapse dt)) := rfl

theorem port_taking (s : State) (p : Port) (k : Nat) : ((s.taking p k).port p).staging = (s.port p).staging := by
  rw [State.taking, State.port_modPort]

/-- An owner's OK with a change of the port's own staging. -/
theorem done_staging (t : State) (p : Port) (k : Nat) (tag : Byte) (g : Option Staging) :
    finish p tag (.ok [] ((t.taking p k).modPort p fun r => { r with staging := g })) =
      (t.modPort p fun r => { r with staging := g }).replied t p .ok tag [] k := by
  rw [finish_ok, State.done, State.taking, State.replied, State.modPort_modPort, State.modPort_modPort,
    State.modPort_modPort]
  rfl

theorem eq_ofNat_iff (w : Word) {n : Nat} (hn : n < 65536) : w = BitVec.ofNat 16 n ↔ w.toNat = n := by
  rw [← BitVec.toNat_inj, BitVec.toNat_ofNat, Nat.mod_eq_of_lt hn]

/-- A kind and a shape that PROFILE_BEGIN takes (R143). -/
abbrev DeclaredOk (k n h : Word) : Prop :=
  (k = 0#16 ∧ (n = 2#16 ∨ n = 4#16 ∨ n = 6#16 ∨ n = 8#16) ∧ (h = 16#16 ∨ h = 32#16 ∨ h = 64#16)) ∨
    (k = 1#16 ∧ n = 0#16 ∧ h = 0#16)

theorem declaredShape_resample {k n h : Word} (hk : k = 0#16) : declaredShape k.toNat n.toNat h.toNat =
    if DeclaredOk k n h then some (.resample n.toNat h.toNat) else none := by
  have shape : ([2, 4, 6, 8].contains n.toNat && [16, 32, 64].contains h.toNat) = true ↔ DeclaredOk k n h := by
    subst hk
    simp [DeclaredOk, eq_ofNat_iff]
  subst hk
  unfold declaredShape
  exact (if_pos rfl).trans (if_congr shape rfl rfl)

theorem declaredShape_matrix {k n h : Word} (hk : k = 1#16) : declaredShape k.toNat n.toNat h.toNat =
    if DeclaredOk k n h then some .matrix else none := by
  have shape : (n.toNat = 0 ∧ h.toNat = 0) ↔ DeclaredOk k n h := by
    subst hk
    simp [DeclaredOk, eq_ofNat_iff]
  subst hk
  unfold declaredShape
  exact (if_neg (by decide)).trans ((if_pos rfl).trans (if_congr shape rfl rfl))

theorem declaredShape_eq (k n h : Word) : declaredShape k.toNat n.toNat h.toNat =
    if DeclaredOk k n h then some (if k = 0#16 then .resample n.toNat h.toNat else .matrix) else none := by
  by_cases h0 : k = 0#16
  · rw [declaredShape_resample h0, if_pos h0]
  · by_cases h1 : k = 1#16
    · rw [declaredShape_matrix h1, if_neg h0]
    · have bad : ¬ DeclaredOk k n h := fun e => e.elim (fun e => h0 e.1) fun e => h1 e.1
      rw [if_neg bad, declaredShape, if_neg fun e => h0 ((eq_ofNat_iff k (by decide)).2 e),
        if_neg fun e => h1 ((eq_ofNat_iff k (by decide)).2 e)]

section
variable {p : Port} {s : State} {w k n h : Word}

theorem ownProfileBegin_invalid (bad : 15 < w.toNat ∨ ¬ DeclaredOk k n h) :
    ownProfileBegin p (w.toNat, k.toNat, n.toNat, h.toNat) s = .invalid s := by
  unfold ownProfileBegin
  rw [declaredShape_eq]
  by_cases hw : 15 < w.toNat
  · rw [idx_eq_none hw]
  · rw [if_neg (bad.resolve_left hw)]
    cases idx 16 w.toNat <;> rfl

theorem ownProfileBegin_builtIn (hw : w.toNat ≤ 5) (ok : DeclaredOk k n h) :
    ownProfileBegin p (w.toNat, k.toNat, n.toNat, h.toNat) s = .refused .builtIn s := by
  unfold ownProfileBegin
  rw [declaredShape_eq, if_pos ok, idx_of_val (x := ⟨w.toNat, by omega⟩) rfl]
  exact if_pos hw

theorem ownProfileBegin_opens {e : EntryNo} (he : e.val = w.toNat) (h5 : 5 < e.val) (ok : DeclaredOk k n h)
    {shape : Shape} (hs : shape = if k = 0#16 then .resample n.toNat h.toNat else .matrix) :
    ownProfileBegin p (w.toNat, k.toNat, n.toNat, h.toNat) s =
      .ok [] (s.modPort p fun r => { r with staging := some ⟨e, shape, List.replicate shape.size none⟩ }) := by
  unfold ownProfileBegin
  rw [declaredShape_eq, if_pos ok, idx_of_val he, ← hs]
  exact if_neg (by omega)

end

/-! ## Words written into a staging buffer -/

theorem writeAt_length {l : List (Option Word)} {off : Nat} {ws : List Word} (h : off + ws.length ≤ l.length) :
    (writeAt l off ws).length = l.length := by
  simp only [writeAt, List.length_append, List.length_take, List.length_map, List.length_drop]
  omega

theorem writeAt_inside {l : List (Option Word)} {off : Nat} {ws : List Word} (h : off + ws.length ≤ l.length) {k : Nat}
    (hk : k < ws.length) : (writeAt l off ws)[off + k]? = some ws[k]? := by
  have start : (l.take off).length = off := by rw [List.length_take]; omega
  rw [writeAt, List.append_assoc, List.getElem?_append_right (by omega), start, Nat.add_sub_cancel_left,
    List.getElem?_append_left (by rwa [List.length_map]), List.getElem?_map, List.getElem?_eq_getElem hk]
  rfl

theorem writeAt_outside {l : List (Option Word)} {off : Nat} {ws : List Word} (h : off + ws.length ≤ l.length) {i : Nat}
    (hi : i < off ∨ off + ws.length ≤ i) : (writeAt l off ws)[i]? = l[i]? := by
  have start : (l.take off).length = off := by rw [List.length_take]; omega
  rw [writeAt, List.append_assoc]
  rcases hi with hi | hi
  · rw [List.getElem?_append_left (by omega), List.getElem?_take, if_pos hi]
  · rw [List.getElem?_append_right (by omega), List.getElem?_append_right (by rw [List.length_map]; omega),
      List.getElem?_drop, start, List.length_map]
    congr 1
    omega

theorem ownProfileData_none {p : Port} {s : State} (h : (s.port p).staging = none) (a : Nat × List Word) :
    ownProfileData p a s = .refused .noStaging s := by
  rw [ownProfileData, h]

theorem ownProfileData_outside {p : Port} {s : State} {g : Staging} (h : (s.port p).staging = some g)
    {a : Nat × List Word} (ha : g.shape.size ≤ a.1 + 3) : ownProfileData p a s = .invalid s := by
  rw [ownProfileData, h]
  exact if_neg (by omega)

theorem ownProfileData_writes {p : Port} {s : State} {g : Staging} (h : (s.port p).staging = some g)
    {a : Nat × List Word} (ha : a.1 + 3 < g.shape.size) : ownProfileData p a s = .ok [] (s.modPort p fun r =>
      { r with staging := some { g with words := writeAt g.words a.1 a.2 } }) := by
  rw [ownProfileData, h]
  exact if_pos ha

theorem ownProfileAbandon_none {p : Port} {s : State} (h : (s.port p).staging = none) :
    ownProfileAbandon p () s = .complete .already [] s := by
  rw [ownProfileAbandon, h]

theorem ownProfileAbandon_open {p : Port} {s : State} (h : (s.port p).staging ≠ none) :
    ownProfileAbandon p () s = .ok [] (closeStaging p s) := by
  obtain ⟨g, hg⟩ := Option.ne_none_iff_exists'.1 h
  rw [ownProfileAbandon, hg]

/-! ## Validation (R145, R146) -/

theorem exec_profileCommit (dt : Nat) (p : Port) (tag : Byte) (params : List Word) (s : State) :
    exec (.profileCommit dt p tag params) s =
      .next (submit p tag params params1 (ownProfileCommit p tag) (s.elapse dt)) := rfl

theorem exec_validationEnd (dt : Nat) (p : Port) (s : State) :
    exec (.validationEnd dt p) s = .next (validationEnd p (s.elapse dt)) := rfl

theorem ownProfileCommit_none {p : Port} {tag : Byte} {s : State} (h : (s.port p).staging = none) (n : Nat) :
    ownProfileCommit p tag n s = .refused .noStaging s := by
  rw [ownProfileCommit, h]

theorem ownProfileCommit_starts {p : Port} {tag : Byte} {s : State} {g : Staging} (h : (s.port p).staging = some g)
    (w : Word) : ownProfileCommit p tag w.toNat s =
      .stays (.commit tag w (s.dev.houseTime + (2700 + 27 * g.shape.size))) s := by
  rw [ownProfileCommit, h, BitVec.ofNat_toNat, BitVec.setWidth_eq]
  rfl

section
variable {s : State} {p : Port} {tag : Byte} {sum : Word} {ends : Nat}

theorem validationDue_commit (h : (s.port p).mailbox = .busy (.commit tag sum ends)) : validationDue s p = true ↔
    s.dev.state = .ready ∧ ends ≤ s.dev.houseTime := by
  rw [validationDue, Bool.and_eq_true, State.isReady_iff, validationEnds, h, Option.any_some, decide_eq_true_eq,
    State.now]

theorem validationDue_other (h : s.dev.state = .starting ∨
    ∀ tag sum ends, (s.port p).mailbox ≠ .busy (.commit tag sum ends)) : ¬ validationDue s p = true := by
  rw [validationDue, Bool.and_eq_true, State.isReady_iff]
  rintro ⟨hr, hv⟩
  rcases h with h | h
  · rw [h] at hr
    cases hr
  · unfold validationEnds at hv
    split at hv
    · next tag sum ends e => exact h tag sum ends e
    · cases hv

theorem validationEnd_due (h : (s.port p).mailbox = .busy (.commit tag sum ends)) (hd : validationDue s p = true) :
    validationEnd p s = endValidation p tag sum s := by
  rw [validationEnd, if_pos hd, h]

end

/-- The status, the result words and the change of a validation's end, before the port's answer. -/
def validated (p : Port) (e : EntryNo) (s : State) : (Status × List Word) ⊕ Content → Status × List Word × State
  | .inl (status, words) => (status, words, s)
  | .inr c => ((install e c s).1, [], announce p ⟨0x52#8, some e.val, none⟩ (install e c s).2)

theorem endValidation_eq {s : State} {p : Port} {tag : Byte} {sum : Word} {g : Staging} {r : Status × List Word × State}
    (h : (s.port p).staging = some g) (hr : r = validated p g.entry s (judgeStaging g sum)) :
    endValidation p tag sum s = raiseAt p .requestDone (r.2.2.modPort p fun x =>
      { x with staging := none, mailbox := .done, held := some ⟨r.1, tag, r.2.1⟩ }) := by
  unfold endValidation
  rw [h]
  dsimp only
  cases hj : judgeStaging g sum with
  | inl found =>
    rw [hr, hj]
    dsimp only [validated]
    rw [requestDone, post, closeStaging, State.modPort_modPort]
  | inr c =>
    rw [hr, hj]
    dsimp only [validated]
    rw [requestDone, post, closeStaging, announce_modPort, State.modPort_modPort]

theorem install_now {e : EntryNo} {s : State} (c : Content) (h : s.profiles[e].active = none ∨ s.profiles[e].users = 0) :
    install e c s = (.committed, s.modProfile e fun x => { x with active := some c, pending := none }) := by
  refine if_neg ?_
  rintro ⟨ha, hu⟩
  exact h.elim (fun k => by rw [k] at ha; cases ha) hu

theorem install_pending {e : EntryNo} {s : State} (c : Content) (ha : s.profiles[e].active ≠ none)
    (hu : s.profiles[e].users ≠ 0) :
    install e c s = (.committedPending, s.modProfile e fun x => { x with pending := some c }) :=
  if_pos ⟨Option.isSome_iff_ne_none.2 ha, hu⟩

section
variable {g : Staging} {sum : Word} {words : List Word} (hw : words = g.words.filterMap id)
include hw

theorem judgeStaging_empty (h : words = []) : judgeStaging g sum = .inl (.empty, []) := by
  unfold judgeStaging
  rw [← hw, h]
  rfl

variable (hne : words ≠ [])
include hne

theorem judgeStaging_checksum (h : words.foldl (· + ·) sum ≠ 0#16) :
    judgeStaging g sum = .inl (.checksumError, []) := by
  unfold judgeStaging
  rw [← hw]
  exact (if_neg (by rwa [List.isEmpty_iff])).trans (if_pos h)

variable (hsum : words.foldl (· + ·) sum = 0#16)
include hsum

theorem judgeStaging_unrecognised (h : words.length ≠ g.shape.size) :
    judgeStaging g sum = .inl (.unrecognised, []) := by
  unfold judgeStaging
  rw [← hw]
  exact (if_neg (by rwa [List.isEmpty_iff])).trans ((if_neg (not_not.2 hsum)).trans (if_pos h))

variable (hlen : words.length = g.shape.size)
include hlen

theorem judgeStaging_failed {i : Nat} (h : errorPointer g.shape (words.map BitVec.toInt) = some i) :
    judgeStaging g sum = .inl (.validationFailed, w16 i) := by
  unfold judgeStaging
  rw [← hw]
  refine (if_neg (by rwa [List.isEmpty_iff])).trans ((if_neg (not_not.2 hsum)).trans
    ((if_neg (not_not.2 hlen)).trans ?_))
  dsimp only
  rw [h]

theorem judgeStaging_valid (h : errorPointer g.shape (words.map BitVec.toInt) = none) :
    judgeStaging g sum = .inr ⟨g.shape, words.map BitVec.toInt⟩ := by
  unfold judgeStaging
  rw [← hw]
  refine (if_neg (by rwa [List.isEmpty_iff])).trans ((if_neg (not_not.2 hsum)).trans
    ((if_neg (not_not.2 hlen)).trans ?_))
  dsimp only
  rw [h]

end

theorem errorPointer_some {shape : Shape} {c : List Int} {i : Nat} (hi : i < shape.size)
    (h : failsAt shape c i = true) (first : ∀ j, j < i → failsAt shape c j = false) :
    errorPointer shape c = some i :=
  List.find?_range_eq_some.2 ⟨h, List.mem_range.2 hi, fun j hj => by rw [first j hj]; rfl⟩

theorem errorPointer_none {shape : Shape} {c : List Int} (h : ∀ i, i < shape.size → failsAt shape c i = false) :
    errorPointer shape c = none :=
  List.find?_range_eq_none.2 fun i hi => by rw [h i hi]; rfl

theorem failsAt_resample (n m : Nat) (c : List Int) (i : Nat) : failsAt (.resample n m) c i = true ↔
    ¬ (-512 ≤ c.getD i 0 ∧ c.getD i 0 ≤ 511) ∨ (i % n = n - 1 ∧ ((c.drop (i + 1 - n)).take n).sum ≠ 256) := by
  simp only [failsAt, inRange, Bool.or_eq_true, Bool.not_eq_true', Bool.and_eq_true, decide_eq_true_eq, ne_eq]
  refine or_congr ?_ Iff.rfl
  rw [← Bool.not_eq_true, Bool.and_eq_true, decide_eq_true_eq, decide_eq_true_eq]

theorem failsAt_matrix (c : List Int) (i : Nat) : failsAt .matrix c i = true ↔
    ¬ (-8192 ≤ c.getD i 0 ∧ c.getD i 0 ≤ 8191) := by
  simp only [failsAt, inRange, Bool.or_false, Bool.not_eq_true']
  rw [← Bool.not_eq_true, Bool.and_eq_true, decide_eq_true_eq, decide_eq_true_eq]

end Sys2Proof.Machine

open Sys2Proof Sys2Proof.Machine

/-- Settles O57: each request by its checks, in their order. -/
theorem profileStaging : Obligations.ProfileStaging := by
  unfold Obligations.ProfileStaging
  rintro s _ dt p tag rfl taken
  simp only [exec_profileBegin, exec_profileData, exec_profileAbandon]
  generalize s.elapse dt = t at *
  refine ⟨fun w k n h ok hok => ?_, fun o a b c d => ?_, fun h => ?_, fun h => ?_⟩
  · have reads := submit_reads p tag [w, k, n, h] params4 (ownProfileBegin p) t taken _ rfl
    have hok : ok ↔ DeclaredOk k n h := hok
    refine ⟨fun bad => congrArg _ (reads .invalid [] (ownProfileBegin_invalid (bad.imp_right fun e k => e (hok.2 k)))),
      fun hw good => congrArg _ (reads .refused [5#16] (ownProfileBegin_builtIn hw (hok.1 good))), ?_⟩
    intro e shape size he h5 good hs hsize
    have same : size = shape.size := by
      rw [hs, hsize]
      split <;> rfl
    refine congrArg _ ((submit_owner p tag [w, k, n, h] params4 (ownProfileBegin p) t taken _ rfl).trans ?_)
    rw [ownProfileBegin_opens he h5 (hok.1 good) hs, done_staging, same]
    rfl
  · have reads := submit_reads p tag [o, a, b, c, d] paramsData (ownProfileData p) t taken _ rfl
    refine ⟨fun h => congrArg _ (reads .refused [6#16] (ownProfileData_none ((port_taking t p 5).trans h) _)),
      fun g h hsize => congrArg _ (reads .invalid [] (ownProfileData_outside ((port_taking t p 5).trans h) hsize)),
      fun g h hsize hlen => ⟨writeAt g.words o.toNat [a, b, c, d], ?_, ?_, fun k => ?_, fun i hi => ?_⟩⟩
    · refine congrArg _ ((submit_owner p tag [o, a, b, c, d] paramsData (ownProfileData p) t taken _ rfl).trans ?_)
      rw [ownProfileData_writes (a := (o.toNat, [a, b, c, d])) ((port_taking t p _).trans h) hsize, done_staging]
      rfl
    · rw [writeAt_length (by rw [hlen]; simp; omega), hlen]
    · exact writeAt_inside (by rw [hlen]; simp; omega) k.isLt
    · exact writeAt_outside (by rw [hlen]; simp; omega) hi
  · exact congrArg _ (submit_reads p tag [] params0 (ownProfileAbandon p) t taken () rfl .already []
      (ownProfileAbandon_none ((port_taking t p 0).trans h)))
  · refine congrArg _ ((submit_owner p tag [] params0 (ownProfileAbandon p) t taken () rfl).trans ?_)
    rw [ownProfileAbandon_open (by rw [port_taking]; exact h), closeStaging, done_staging]
    rfl

/-- Settles O58: the validation's outcome by the first check that fails. -/
theorem commitValidatesAndInstalls : Obligations.CommitValidatesAndInstalls := by
  unfold Obligations.CommitValidatesAndInstalls
  refine ⟨?_, ?_, ?_⟩
  · rintro s _ dt p tag w rfl taken
    rw [exec_profileCommit]
    generalize s.elapse dt = t at *
    refine ⟨fun h => congrArg _ (submit_reads p tag [w] params1 (ownProfileCommit p tag) t taken _ rfl .refused [6#16]
      (ownProfileCommit_none ((port_taking t p 1).trans h) _)), fun g h => ?_⟩
    refine congrArg _ ((submit_owner p tag [w] params1 (ownProfileCommit p tag) t taken _ rfl).trans ?_)
    rw [ownProfileCommit_starts ((port_taking t p _).trans h)]
    rfl
  · rintro s _ dt ends p tag sum g words c fails rfl hr hm hg hw hc hfails
    rw [exec_validationEnd]
    generalize s.elapse dt = t at *
    have due := validationDue_commit hm
    have fails_iff : ∀ i, fails i ↔ i < g.shape.size ∧ failsAt g.shape c i = true := fun i => by
      rw [hfails]
      cases g.shape with
      | resample n m => rw [failsAt_resample]
      | matrix => rw [failsAt_matrix]
    refine ⟨fun h => ?_, fun h => ?_⟩
    · rw [validationEnd_not_due fun k => by have := (due.1 k).2; omega]
    · obtain ⟨r, hr'⟩ : ∃ r, r = validated p g.entry t (judgeStaging g sum) := ⟨_, rfl⟩
      refine ⟨r.1, r.2.1, r.2.2, ?_, fun h0 => ?_, fun hne hsum => ?_, fun hne hsum hlen => ?_,
        fun i hne hsum hlen hi first => ?_, fun x hx hne hsum hlen none_fails => ?_⟩
      · rw [validationEnd_due hm (due.2 ⟨hr, h⟩), endValidation_eq hg hr']
      · rw [hr', judgeStaging_empty hw h0]
        exact ⟨rfl, rfl, rfl⟩
      · rw [hr', judgeStaging_checksum hw hne hsum]
        exact ⟨rfl, rfl, rfl⟩
      · rw [hr', judgeStaging_unrecognised hw hne hsum hlen]
        exact ⟨rfl, rfl, rfl⟩
      · obtain ⟨hlt, hfail⟩ := (fails_iff i).1 hi
        have pointer := errorPointer_some hlt hfail fun j hj => by
          rw [← Bool.not_eq_true]
          exact fun k => first j hj ((fails_iff j).2 ⟨by omega, k⟩)
        rw [hr', judgeStaging_failed hw hne hsum hlen (hc ▸ pointer)]
        exact ⟨rfl, rfl, rfl⟩
      · have pointer : errorPointer g.shape c = none := errorPointer_none fun i hi => by
          rw [← Bool.not_eq_true]
          exact fun k => none_fails i ((fails_iff i).2 ⟨hi, k⟩)
        rw [hr', judgeStaging_valid hw hne hsum hlen (hc ▸ pointer), ← hc, hx]
        refine ⟨rfl, fun h => ?_, fun ha hu => ?_⟩
        · dsimp only [validated]
          rw [install_now _ h]
          exact ⟨rfl, rfl⟩
        · dsimp only [validated]
          rw [install_pending _ ha hu]
          exact ⟨rfl, rfl⟩
  · rintro s _ dt p rfl h
    rw [exec_validationEnd, validationEnd_not_due (validationDue_other h)]

end

section
/-! The auxiliary lines (R170 to R174). -/

namespace Sys2Proof.Machine

theorem exec_setAuxLine (dt : Nat) (p : Port) (tag : Byte) (params : List Word) (s : State) :
    exec (.setAuxLine dt p tag params) s =
      .next (submit p tag params params4 (ownSetAuxLine p) (s.elapse dt)) := rfl

theorem exec_auxLevelChange (dt : Nat) (x : AuxNo) (high : Bool) (s : State) :
    exec (.auxLevelChange dt x high) s = .next (auxLevelChange x high (s.elapse dt)) := rfl

theorem exec_debounceExpiry (dt : Nat) (x : AuxNo) (s : State) :
    exec (.debounceExpiry dt x) s = .next (debounceExpiry x (s.elapse dt)) := rfl

theorem exec_alertExpiry (dt : Nat) (x : AuxNo) (s : State) :
    exec (.alertExpiry dt x) s = .next (alertExpiry x (s.elapse dt)) := rfl

/-! ## SET_AUX_LINE (R170) -/

theorem ownSetAuxLine_invalid {p : Port} {s : State} {w m e k : Nat} (h : 3 < w ∨ 3 < m ∨ 2 < e ∨ 255 < k) :
    ownSetAuxLine p (w, m, e, k) s = .invalid s := by
  unfold ownSetAuxLine
  dsimp only
  split
  · next x mode edge hx hm he =>
    refine if_neg fun hk => ?_
    rcases h with h | h | h | h
    · rw [idx_eq_none h] at hx; cases hx
    · rw [AuxMode.ofCode_none h] at hm; cases hm
    · rw [AuxEdge.ofCode_none h] at he; cases he
    · omega
  · rfl

theorem ownSetAuxLine_legal {p : Port} {s : State} {x : AuxNo} (mode : AuxMode) (edge : AuxEdge) {k : Word}
    (hk : k.toNat ≤ 255) : ownSetAuxLine p (x.val, mode.code, edge.code, k.toNat) s =
      .ok [] (announceIf (!(s.aux[x].mode = mode && s.aux[x].edge = edge && s.aux[x].mask = k.setWidth 8)) p
        ⟨0x70#8, some x.val, none⟩ (s.modAux x fun l => setLine l mode edge (k.setWidth 8))) := by
  unfold ownSetAuxLine
  dsimp only
  rw [idx_val, AuxMode.ofCode_code, AuxEdge.ofCode_code]
  exact if_pos hk

theorem setLine_same {a : AuxLine} {mode : AuxMode} {edge : AuxEdge} {mask : BitVec 8}
    (h : a.mode = mode ∧ a.edge = edge ∧ a.mask = mask) : setLine a mode edge mask = a := by
  obtain ⟨rfl, rfl, rfl⟩ := h
  exact if_pos rfl

theorem State.modAux_self {s : State} {x : AuxNo} {f : AuxLine → AuxLine} (h : f s.aux[x] = s.aux[x]) :
    s.modAux x f = s := by
  rw [State.modAux, modifyAt_self h]

theorem State.modAux_congr {s : State} {x : AuxNo} {f g : AuxLine → AuxLine} (h : f s.aux[x] = g s.aux[x]) :
    s.modAux x f = s.modAux x g := by
  rw [State.modAux, State.modAux, modifyAt_congr h]

theorem State.modAux_modAux (s : State) (x : AuxNo) (f g : AuxLine → AuxLine) :
    (s.modAux x f).modAux x g = s.modAux x fun a => g (f a) := by
  simp only [State.modAux, modifyAt, Fin.getElem_fin, Vector.getElem_set_self, Vector.set_set]

section
variable {p : Port} {s : State} {x : AuxNo} {mode : AuxMode} {edge : AuxEdge} {k : Word} (hk : k.toNat ≤ 255)
include hk

theorem ownSetAuxLine_unchanged (h : s.aux[x].mode = mode ∧ s.aux[x].edge = edge ∧ s.aux[x].mask = k.setWidth 8) :
    ownSetAuxLine p (x.val, mode.code, edge.code, k.toNat) s = .ok [] s := by
  rw [ownSetAuxLine_legal mode edge hk, State.modAux_self (setLine_same h)]
  obtain ⟨hm, he, ha⟩ := h
  rw [hm, he, ha]
  simp [announceIf]

theorem ownSetAuxLine_changed
    (h : ¬ (s.aux[x].mode = mode ∧ s.aux[x].edge = edge ∧ s.aux[x].mask = k.setWidth 8)) :
    ownSetAuxLine p (x.val, mode.code, edge.code, k.toNat) s = .ok [] (announce p ⟨0x70#8, some x.val, none⟩
      (s.modAux x fun l => setLine l mode edge (k.setWidth 8))) := by
  have changed : (!(s.aux[x].mode = mode && s.aux[x].edge = edge && s.aux[x].mask = k.setWidth 8)) = true := by
    rw [Bool.not_eq_true', ← Bool.not_eq_true, Bool.and_eq_true, Bool.and_eq_true, decide_eq_true_eq,
      decide_eq_true_eq, decide_eq_true_eq, and_assoc]
    exact h
  rw [ownSetAuxLine_legal mode edge hk, changed]
  rfl

end

/-! ## Edges (R171) -/

theorem auxLevelChange_eq (x : AuxNo) (high : Bool) (s : State) : auxLevelChange x high s =
    s.modAux x fun a => { a with pin := high, timer :=
      if s.dev.state = .ready ∧ a.mode = .takeInput ∧ a.pin ≠ high
      then (if a.debounced = some high then none else some s.dev.houseTime) else a.timer } := by
  refine State.modAux_congr ?_
  refine congrArg (fun timer => { s.aux[x] with pin := high, timer := timer }) ?_
  refine if_congr ?_ rfl rfl
  rw [Bool.and_eq_true, Bool.and_eq_true, State.isReady_iff, decide_eq_true_eq, decide_eq_true_eq, and_assoc]

theorem debounceDue_iff (s : State) (x : AuxNo) : debounceDue s x = true ↔ s.dev.state = .ready ∧
    s.aux[x].mode = .takeInput ∧ ∃ from_, s.aux[x].timer = some from_ ∧ from_ + 27000 ≤ s.dev.houseTime := by
  rw [debounceDue, Bool.and_eq_true, Bool.and_eq_true, State.isReady_iff, decide_eq_true_eq, Option.any_eq_true,
    and_assoc]
  refine and_congr_right fun _ => and_congr_right fun _ => exists_congr fun from_ => and_congr_right fun _ => ?_
  exact decide_eq_true_iff

theorem debounceExpiry_edge {s : State} {x : AuxNo} (h : debounceDue s x = true)
    (he : s.aux[x].edge.includes s.aux[x].pin = true) : debounceExpiry x s =
      forEach (maskChans s.aux[x].mask.toNat) auxTake (s.modAux x fun a => { a with
        debounced := some s.aux[x].pin, timer := none, triggers := satAdd Config.max16 a.triggers 1 }) := by
  rw [debounceExpiry, if_pos h]
  dsimp only
  rw [if_pos he, State.modAux_modAux]

theorem debounceExpiry_noEdge {s : State} {x : AuxNo} (h : debounceDue s x = true)
    (he : s.aux[x].edge.includes s.aux[x].pin = false) : debounceExpiry x s =
      s.modAux x fun a => { a with debounced := some s.aux[x].pin, timer := none } := by
  rw [debounceExpiry, if_pos h]
  dsimp only
  rw [if_neg (by rw [he]; decide)]

theorem alertDue_iff (s : State) (x : AuxNo) : alertDue s x = true ↔ s.dev.state = .ready ∧
    ∃ e, s.aux[x].expiry = some e ∧ e ≤ s.dev.houseTime := by
  rw [alertDue, Bool.and_eq_true, State.isReady_iff, Option.any_eq_true]
  refine and_congr_right fun _ => exists_congr fun e => and_congr_right fun _ => ?_
  exact decide_eq_true_iff

theorem tally_eq (s : State) (mask : BitVec 8) : tally s mask = decide (∃ c : Chan, mask.getLsbD c.val = true ∧
    s.chans[c].state = .running ∧ (bankOf s c).enable = true) := by
  rw [Bool.eq_iff_iff, decide_eq_true_eq, tally, List.any_eq_true]
  simp only [allChans, List.mem_finRange, true_and, Bool.and_eq_true, decide_eq_true_eq, and_assoc]

end Sys2Proof.Machine

open Sys2Proof Sys2Proof.Machine

/-- Settles O59: the request, the edge, the alert hold and the driven level. -/
theorem auxiliaryLines : Obligations.AuxiliaryLines := by
  unfold Obligations.AuxiliaryLines
  refine ⟨?_, ?_⟩
  · rintro s _ dt p tag w m e k rfl taken
    rw [exec_setAuxLine]
    generalize s.elapse dt = t at *
    have reads := submit_reads p tag [w, m, e, k] params4 (ownSetAuxLine p) t taken _ rfl
    refine ⟨fun h => congrArg _ (reads .invalid [] (ownSetAuxLine_invalid h)), ?_⟩
    intro x a b mode edge hx ha hm he hk hb
    have mcode : m.toNat = mode.code := (eq_ofNat_iff m (by cases mode <;> decide)).1 hm
    have ecode : e.toNat = edge.code := (eq_ofNat_iff e (by cases edge <;> decide)).1 he
    have words : (w.toNat, m.toNat, e.toNat, k.toNat) = (x.val, mode.code, edge.code, k.toNat) := by
      rw [hx, mcode, ecode]
    subst ha
    refine ⟨fun h => congrArg _ (reads .ok [] ?_), fun h => ?_⟩
    · rw [words]
      exact ownSetAuxLine_unchanged (s := t.taking p 4) hk h
    · refine congrArg _ ((submit_announces p tag [w, m, e, k] params4 (ownSetAuxLine p) t taken _ rfl []
        ⟨0x70#8, some x.val, none⟩ (fun u => u.modAux x fun l => setLine l mode edge (k.setWidth 8)) (fun f => rfl) ?_).trans ?_)
      · rw [words]
        exact ownSetAuxLine_changed (s := t.taking p 4) hk h
      · rw [hb]
        rfl
  · rintro s _ dt x _ rfl rfl
    simp only [exec_auxLevelChange, exec_debounceExpiry, exec_alertExpiry]
    generalize s.elapse dt = t at *
    refine ⟨fun high => by rw [auxLevelChange_eq], ?_, fun h => ?_, fun e hr he hle => ?_, fun h => ?_, ?_⟩
    · intro from_ qualifies u hr hm ht hle hq hu
      have due := (debounceDue_iff t x).2 ⟨hr, hm, from_, ht, hle⟩
      have includes : t.aux[x].edge.includes t.aux[x].pin = qualifies := by
        rw [hq]
        cases t.aux[x].edge <;> rfl
      refine ⟨fun no => ?_, fun yes => ?_⟩
      · rw [debounceExpiry_noEdge due (includes.trans no), hu]
        refine congrArg _ (State.modAux_congr ?_)
        rw [no]
        rfl
      · rw [debounceExpiry_edge due (includes.trans yes), hu]
        have same : (t.modAux x fun a => { a with
            debounced := some t.aux[x].pin, timer := none, triggers := satAdd Config.max16 a.triggers 1 }) =
            t.modAux x fun a => { a with debounced := some a.pin, timer := none
                                         triggers := if qualifies then satAdd 65535 a.triggers 1 else a.triggers } :=
          State.modAux_congr (by rw [yes]; rfl)
        rw [same]
        rfl
    · refine congrArg _ (debounceExpiry_not_due fun k => ?_)
      obtain ⟨hr, hm, from_, ht, hle⟩ := (debounceDue_iff t x).1 k
      rcases h with h | h | h
      · rw [h] at hr; cases hr
      · exact h hm
      · have := h from_ ht; omega
    · exact congrArg _ (if_pos ((alertDue_iff t x).2 ⟨hr, e, he, hle⟩))
    · refine congrArg _ (alertExpiry_not_due fun k => ?_)
      obtain ⟨hr, e, he, hle⟩ := (alertDue_iff t x).1 k
      rcases h with h | h
      · rw [h] at hr; cases hr
      · have := h e he; omega
    · unfold auxAsserted
      dsimp only
      rw [tally_eq, State.isReady]
      cases t.dev.state <;> cases t.aux[x].mode <;> rfl

end

section
/-! The requests that read (R14, R33, R34, R53, R56, R73, R90, R96, R110, R147, R169, R174, R184). -/

namespace Sys2Proof.Machine

/-! ## The words of a value (note 3 of file 11) -/

/-- A word of a wider two's complement value is the value shifted down to it. -/
theorem extract_ofInt (n a : Nat) (h : a + 16 ≤ n) (v : Int) :
    (BitVec.ofInt n v).extractLsb' a 16 = BitVec.ofInt 16 (v / 2 ^ a) := by
  obtain ⟨k, rfl⟩ := Nat.exists_eq_add_of_le h
  have hv : v / 2 ^ a % 65536 = v % 2 ^ (a + 16 + k) / 2 ^ a % 65536 := by
    have split : v = v % 2 ^ (a + 16 + k) + 2 ^ a * (65536 * (2 ^ k * (v / 2 ^ (a + 16 + k)))) := by
      conv_lhs => rw [← Int.emod_add_mul_ediv v (2 ^ (a + 16 + k)), pow_add _ (a + 16), pow_add _ a]
      ring_nf
    conv_lhs => rw [split, Int.add_mul_ediv_left _ _ (by positivity), Int.add_mul_emod_self_left]
  apply BitVec.eq_of_toNat_eq
  have hr : 0 ≤ v % 2 ^ (a + 16 + k) := Int.emod_nonneg _ (by positivity)
  rw [BitVec.extractLsb'_toNat, BitVec.toNat_ofInt, BitVec.toNat_ofInt, Nat.shiftRight_eq_div_pow]
  push_cast
  rw [hv, ← Int.toNat_of_nonneg hr]
  norm_cast

theorem w32_words (v : Int) : w32 v = [BitVec.ofInt 16 (v / 65536), BitVec.ofInt 16 v] := by
  unfold w32
  simp only [extract_ofInt 32 16 (by decide), extract_ofInt 32 0 (by decide)]
  norm_num

theorem w64_words (v : Int) : w64 v = [BitVec.ofInt 16 (v / 281474976710656), BitVec.ofInt 16 (v / 4294967296),
    BitVec.ofInt 16 (v / 65536), BitVec.ofInt 16 v] := by
  unfold w64
  simp only [extract_ofInt 64 48 (by decide), extract_ofInt 64 32 (by decide), extract_ofInt 64 16 (by decide),
    extract_ofInt 64 0 (by decide)]
  norm_num

theorem wFlag_eq (b : Bool) : wFlag b = w16 (if b then 1 else 0) := by cases b <;> rfl

theorem wAuto_eq {n : Nat} (x : Option (Fin n)) : wAuto x = w16 (x.elim 255 Fin.val : Nat) := by cases x <;> rfl

/-! ## The records -/

theorem Bank.words_eq (b : Bank) : b.words = w16 b.feed.val ++ w16 b.outStd.val ++ w16 b.ref.val ++
    w16 (b.expected.elim 255 Fin.val : Nat) ++
    w32 b.offset ++ w32 (b.delay.getD 0xFFFFFFFF : Nat) ++ w16 b.mode.code ++ w16 b.ditherPeriod.code ++
    w16 b.ditherPhase.val ++ w16 b.lossHold ++ w16 (b.vProf.elim 255 Fin.val : Nat) ++
    w16 (b.hProf.elim 255 Fin.val : Nat) ++
    w16 (b.mProf.elim 255 Fin.val : Nat) ++ w16 (if b.enable then 1 else 0) := by
  unfold Bank.words
  simp only [wAuto_eq, wFlag_eq]
  cases b.delay <;> rfl

theorem stateCount_eq (s : State) (st : SlotState) :
    stateCount s st = (List.finRange 96).countP fun n => s.slots[n].state = st := by
  rw [stateCount, slots_toList, List.countP_map]; rfl

/-! ## The owners' answers -/

theorem idx_ofNat {n : Nat} (hn : n ≤ 65536) (x : Fin n) : idx n (BitVec.ofNat 16 x.val).toNat = some x :=
  idx_of_val (by rw [BitVec.toNat_ofNat, Nat.mod_eq_of_lt (x.isLt.trans_le hn)])

theorem ownGetReferenceStatus_ok {a : Nat} {n : RefNo} (h : idx 2 a = some n) (s : State) :
    ownGetReferenceStatus a s = .ok (referenceWords s s.refs[n]) s := by
  rw [ownGetReferenceStatus, h]

theorem ownGetFeedStatus_ok {a : Nat} {f : Feed} (h : idx 8 a = some f) (s : State) : ownGetFeedStatus a s =
    .ok (receiverWords s.rxs[f] ++ ringWords s f ++ detectorWords s.dets[f]) s := by
  rw [ownGetFeedStatus, h]

theorem ownGetChannel_ok {a : Nat} {c : Chan} (h : idx 8 a = some c) (s : State) : ownGetChannel a s =
    .ok (s.chans[c].bankA.words ++ s.chans[c].bankB.words ++ w16 s.chans[c].active.code ++
      [s.chans[c].revision] ++ wFlag s.chans[c].takePending) s := by
  rw [ownGetChannel, h]

theorem ownGetSlot_ok {a : Nat} {n : SlotNo} (h : idx 96 a = some n) (s : State) :
    ownGetSlot a s = .ok (slotWords n s.slots[n]) s := by
  rw [ownGetSlot, h]

theorem ownGetProfile_ok (p : Port) {a v off : Nat} {e : EntryNo} {pending : Bool} (ha : idx 16 a = some e)
    (hv : flagOf v = some pending) (ho : off ≤ 511) (s : State) :
    ownGetProfile p (a, v, off) s = .ok (profileWords s p s.profiles[e] pending off) s := by
  unfold ownGetProfile
  dsimp only
  rw [ha, hv]
  exact if_pos ho

theorem profileWords_taking (s : State) (p : Port) (k : Nat) (x : Profile) (pending : Bool) (off : Nat) :
    profileWords (s.taking p k) p x pending off = profileWords s p x pending off := by
  unfold profileWords
  rw [port_taking]

theorem ownGetLinkCheck_ok {a : Nat} {f : Feed} (h : idx 8 a = some f) (s : State) : ownGetLinkCheck a s =
    .ok (w16 s.rxs[f].state.code ++ w32 s.rxs[f].linkErrors ++ w16 s.rxs[f].erroredFrames ++ w16 s.rxs[f].margin ++
        w16 s.rxs[f].lowestMargin)
      (s.modRx f fun r => { r with linkErrors := 0, erroredFrames := 0, lowestMargin := r.margin }) := by
  rw [ownGetLinkCheck, h]

theorem ownGetChannelStatus_ok {a v : Nat} {c : Chan} {clear : Bool} (ha : idx 8 a = some c)
    (hv : flagOf v = some clear) (s : State) : ownGetChannelStatus (a, v) s =
    .ok (channelWords s c) (if clear then s.modChan c fun ch => { ch with counters := .zero } else s) := by
  unfold ownGetChannelStatus
  dsimp only
  rw [ha, hv]

/-! ## A number or a flag out of its range -/

theorem ownGetReferenceStatus_invalid {a : Nat} (h : 2 ≤ a) (s : State) : ownGetReferenceStatus a s = .invalid s := by
  rw [ownGetReferenceStatus, idx_eq_none h]

theorem ownGetFeedStatus_invalid {a : Nat} (h : 8 ≤ a) (s : State) : ownGetFeedStatus a s = .invalid s := by
  rw [ownGetFeedStatus, idx_eq_none h]

theorem ownGetLinkCheck_invalid {a : Nat} (h : 8 ≤ a) (s : State) : ownGetLinkCheck a s = .invalid s := by
  rw [ownGetLinkCheck, idx_eq_none h]

theorem ownGetChannel_invalid {a : Nat} (h : 8 ≤ a) (s : State) : ownGetChannel a s = .invalid s := by
  rw [ownGetChannel, idx_eq_none h]

theorem ownGetSlot_invalid {a : Nat} (h : 96 ≤ a) (s : State) : ownGetSlot a s = .invalid s := by
  rw [ownGetSlot, idx_eq_none h]

theorem ownGetPoolStatus_invalid {a : Nat} (h : 2 ≤ a) (s : State) : ownGetPoolStatus a s = .invalid s := by
  rw [ownGetPoolStatus, flagOf_eq_none h]

theorem ownGetChannelStatus_invalid {a v : Nat} (h : 8 ≤ a ∨ 2 ≤ v) (s : State) :
    ownGetChannelStatus (a, v) s = .invalid s := by
  unfold ownGetChannelStatus
  dsimp only
  split
  · next c clear hc hv =>
    rcases h with h | h
    · rw [idx_eq_none h] at hc; cases hc
    · rw [flagOf_eq_none h] at hv; cases hv
  · rfl

theorem ownGetProfile_invalid (p : Port) {a v off : Nat} (h : 16 ≤ a ∨ 2 ≤ v ∨ 511 < off) (s : State) :
    ownGetProfile p (a, v, off) s = .invalid s := by
  unfold ownGetProfile
  dsimp only
  split
  · next e pending he hv =>
    rcases h with h | h | h
    · rw [idx_eq_none h] at he; cases he
    · rw [flagOf_eq_none h] at hv; cases hv
    · exact if_neg (Nat.not_le.mpr h)
  · rfl

/-- The requests as executed. -/
theorem exec_getRequests (dt : Nat) (p : Port) (tag : Byte) (params : List Word) (s : State) :
    exec (.getReferenceStatus dt p tag params) s =
      .next (submit p tag params params1 ownGetReferenceStatus (s.elapse dt)) ∧
    exec (.getFeedStatus dt p tag params) s = .next (submit p tag params params1 ownGetFeedStatus (s.elapse dt)) ∧
    exec (.getLinkCheck dt p tag params) s = .next (submit p tag params params1 ownGetLinkCheck (s.elapse dt)) ∧
    exec (.getChannel dt p tag params) s = .next (submit p tag params params1 ownGetChannel (s.elapse dt)) ∧
    exec (.getSlot dt p tag params) s = .next (submit p tag params params1 ownGetSlot (s.elapse dt)) ∧
    exec (.getPoolStatus dt p tag params) s = .next (submit p tag params params1 ownGetPoolStatus (s.elapse dt)) ∧
    exec (.getChannelStatus dt p tag params) s =
      .next (submit p tag params params2 ownGetChannelStatus (s.elapse dt)) ∧
    exec (.getProfile dt p tag params) s = .next (submit p tag params params3 (ownGetProfile p) (s.elapse dt)) :=
  ⟨rfl, rfl, rfl, rfl, rfl, rfl, rfl, rfl⟩

end Sys2Proof.Machine

open Sys2Proof Sys2Proof.Machine

/-- Settles O60: each record's words are spelled by unfolding its layout; each request reaches its owner, which reads,
refuses a number or a flag out of range, or clears after reading. -/
theorem readRequests : Obligations.ReadRequests := by
  unfold Obligations.ReadRequests
  refine ⟨by decide, ⟨Bank.words_eq, ?pool, ?slot, ?profile, ?aux, ?chan⟩, ⟨?rx, ?ring, ?det, ?shapes⟩,
    ⟨?reads, ?invalid⟩, ?clears⟩
  case pool =>
    intro s
    have pending : (s.slots.toList.countP fun x => x.retirePending) =
        (List.finRange 96).countP fun n => s.slots[n].retirePending := by
      rw [slots_toList, List.countP_map]; rfl
    unfold poolWords FaultRec.words
    rw [pending]
    simp only [stateCount_eq, wFlag_eq, List.append_assoc, List.isEmpty_iff]
    rcases s.pool.faultRec.reader with _ | l | c <;> rfl
  case slot =>
    intro n x tag htag
    rw [htag, htag]
    simp only [slotWords, wFlag_eq, Slot.stamps]
    rfl
  case profile =>
    intro s p x pending off shape hresample hmatrix
    have hshape : ∀ h, shape h = h.words := fun h => by cases h <;> simp only [hresample, hmatrix] <;> rfl
    simp only [hshape]
    obtain ⟨active, held, users⟩ := x
    unfold profileWords Profile.code
    rcases (s.port p).staging with _ | ⟨entry, _ | _, words, started⟩ <;> rcases active with _ | c <;>
      rcases held with _ | d <;> cases pending <;> rfl
  case aux =>
    rintro s x a level rfl hlevel
    obtain rfl : level = fun h => w16 (levelCode h) := funext fun h => by rw [hlevel]; cases h <;> rfl
    simp only [auxWords, wFlag_eq, sensedLevel]
  case chan =>
    rintro s c ch o held rfl rfl hheld
    rw [hheld, hheld]
    unfold channelWords outputWords outputStateCode
    simp only [wFlag_eq, ← List.append_assoc]
    rcases s.chans[c].lastTake with _ | _ | _ <;> cases s.chans[c].active <;>
      cases (bankOf s c).enable <;> rfl
  case rx =>
    rintro r structure_ rfl
    have shown : Structure.words = fun x : Structure => w16 x.total ++ w16 x.active ++
        wOpt 1 (fun w : Nat => w16 w) x.width ++ w16 (if x.interlaced then 1 else 0) :=
      funext fun x => by rw [Structure.words, wFlag_eq]
    unfold receiverWords Receiver.shownStructure
    rw [shown]
    rcases r.state with _ | _ | _ | _ <;> rcases r.capture with _ | _ | _ <;> rfl
  case ring =>
    rintro s f r rfl
    simp only [ringWords, wFlag_eq, Slot.stamps]
  case det =>
    intro d field hfield
    obtain rfl : field = FieldRef.words := funext hfield
    have film : FilmEntry.words = fun x : FilmEntry => [x.number] ++ w64 x.stamp ++ FieldRef.words x.first ++
        FieldRef.words x.second ++ w16 (if x.brk then 1 else 0) :=
      funext fun x => by rw [FilmEntry.words, wFlag_eq]
    unfold detectorWords
    rw [film, wFlag_eq]
    rfl
  case shapes =>
    rintro v k words rfl
    refine ⟨rfl, w32_words v, w64_words v, rfl, rfl, ?_⟩
    simp [wList, w16]
  case reads =>
    rintro s _ dt p tag rfl taken
    refine ⟨?_, fun n => ?_, fun f => ?_, fun c => ?_, fun n => ?_, fun e pending off hoff => ?_, ?_⟩
    · exact congrArg _ (submit_reads p tag [] (decodeDevice 0x01#8) ownDeviceStatus _ taken () rfl .ok _ rfl)
    · exact congrArg _ (submit_reads p tag _ params1 ownGetReferenceStatus _ taken _ rfl .ok _
        (ownGetReferenceStatus_ok (idx_ofNat (by decide) n) _))
    · exact congrArg _ (submit_reads p tag _ params1 ownGetFeedStatus _ taken _ rfl .ok _
        (ownGetFeedStatus_ok (idx_ofNat (by decide) f) _))
    · exact congrArg _ (submit_reads p tag _ params1 ownGetChannel _ taken _ rfl .ok _
        (ownGetChannel_ok (idx_ofNat (by decide) c) _))
    · exact congrArg _ (submit_reads p tag _ params1 ownGetSlot _ taken _ rfl .ok _
        (ownGetSlot_ok (idx_ofNat (by decide) n) _))
    · have flag : flagOf (if pending then 1#16 else 0#16 : Word).toNat = some pending := by cases pending <;> rfl
      refine congrArg _ (submit_reads p tag _ params3 (ownGetProfile p) _ taken _ rfl .ok _ ?_)
      rw [ownGetProfile_ok p (idx_ofNat (by decide) e) flag hoff, profileWords_taking]
      rfl
    · exact congrArg _ (submit_reads p tag [] params0 ownGetAuxStatus _ taken () rfl .ok _ rfl)
  case invalid =>
    rintro s _ dt p tag w v rfl taken
    obtain ⟨reference, feed, link, channel, slot, pool, -, -⟩ := exec_getRequests dt p tag [w] s
    obtain ⟨-, -, -, -, -, -, status, -⟩ := exec_getRequests dt p tag [w, v] s
    rw [reference, feed, link, channel, slot, pool, status]
    refine ⟨fun h => ?_, fun h => ⟨?_, ?_, ?_⟩, fun h => ?_, fun h => ?_, fun h => ?_, fun off h => ?_⟩
    · exact congrArg _ (submit_reads p tag _ params1 _ _ taken _ rfl .invalid _ (ownGetReferenceStatus_invalid h _))
    · exact congrArg _ (submit_reads p tag _ params1 _ _ taken _ rfl .invalid _ (ownGetFeedStatus_invalid h _))
    · exact congrArg _ (submit_reads p tag _ params1 _ _ taken _ rfl .invalid _ (ownGetLinkCheck_invalid h _))
    · exact congrArg _ (submit_reads p tag _ params1 _ _ taken _ rfl .invalid _ (ownGetChannel_invalid h _))
    · exact congrArg _ (submit_reads p tag _ params1 _ _ taken _ rfl .invalid _ (ownGetSlot_invalid h _))
    · exact congrArg _ (submit_reads p tag _ params1 _ _ taken _ rfl .invalid _ (ownGetPoolStatus_invalid h _))
    · exact congrArg _ (submit_reads p tag _ params2 _ _ taken _ rfl .invalid _ (ownGetChannelStatus_invalid h _))
    · obtain ⟨-, -, -, -, -, -, -, profile⟩ := exec_getRequests dt p tag [w, v, off] s
      rw [profile]
      exact congrArg _ (submit_reads p tag _ params3 _ _ taken _ rfl .invalid _ (ownGetProfile_invalid p h _))
  case clears =>
    rintro s _ dt p tag rfl taken
    refine ⟨?_, ?_, fun f => ?_, fun c => ⟨?_, ?_⟩⟩
    · exact congrArg _ (submit_reads p tag _ params1 ownGetPoolStatus _ taken _ rfl .ok _ rfl)
    · exact congrArg _ (submit_changes p tag [1#16] params1 ownGetPoolStatus _ taken _ rfl .ok _ (fun u =>
        { u with pool := { u.pool with
          correctable := 0, uncorrectable := 0, allocFailures := 0, transitionErrors := 0 } }) (fun _ => rfl) rfl)
    · exact congrArg _ (submit_changes p tag _ params1 ownGetLinkCheck _ taken _ rfl .ok _ (fun u =>
        u.modRx f fun r => { r with linkErrors := 0, erroredFrames := 0, lowestMargin := r.margin }) (fun _ => rfl)
        (ownGetLinkCheck_ok (idx_ofNat (by decide) f) _))
    · exact congrArg _ (submit_reads p tag _ params2 ownGetChannelStatus _ taken _ rfl .ok _
        (ownGetChannelStatus_ok (idx_ofNat (by decide) c) (flagOf_bool false) _))
    · exact congrArg _ (submit_changes p tag _ params2 ownGetChannelStatus _ taken _ rfl .ok _ (fun u =>
        u.modChan c fun ch => { ch with counters := ⟨0, 0, 0, 0, 0⟩ }) (fun _ => rfl)
        (ownGetChannelStatus_ok (idx_ofNat (by decide) c) (flagOf_bool true) _))
end

section
/-! What the receivers' operations leave of the device record, so that a line is timed by the clock it arrived at. -/

namespace Sys2Proof.Machine

theorem State.modRx_modRx (s : State) (f : Feed) (g h : Receiver → Receiver) :
    (s.modRx f g).modRx f h = s.modRx f fun r => h (g r) := by
  simp only [State.modRx, modifyAt, Fin.getElem_fin, Vector.getElem_set_self, Vector.set_set]

theorem State.modRx_congr {s : State} {f : Feed} {g h : Receiver → Receiver} (e : g s.rxs[f] = h s.rxs[f]) :
    s.modRx f g = s.modRx f h := by
  rw [State.modRx, State.modRx, modifyAt_congr e]

theorem State.modRx_self {s : State} {f : Feed} {g : Receiver → Receiver} (e : g s.rxs[f] = s.rxs[f]) :
    s.modRx f g = s := by
  rw [State.modRx, modifyAt_self e]

@[simp] theorem State.rx_modRx (s : State) (f : Feed) (g : Receiver → Receiver) :
    (s.modRx f g).rxs[f] = g s.rxs[f] := modifyAt_same ..

/-! ## The store and the rings -/

theorem OnlyStore.dev {s t : State} (h : OnlyStore s t) : t.dev = s.dev := by rw [h]

theorem onlyStore_detachOrRelease (n : SlotNo) (s : State) : OnlyStore s (detachOrRelease n s) := by
  unfold detachOrRelease
  split_ifs
  · exact onlyStore_release n s
  · exact rfl
  · exact rfl

theorem removeMember_dev (f : Feed) (n : SlotNo) (s : State) : (removeMember f n s).dev = s.dev :=
  (onlyStore_detachOrRelease n _).dev

theorem removeOldest_dev (f : Feed) (k : Nat) (s : State) : (removeOldest f k s).dev = s.dev :=
  forEach_keeps (f := State.dev) (removeMember_dev f) _ s

theorem relock_dev (f : Feed) (s : State) : (relock f s).dev = s.dev := removeOldest_dev f _ s

theorem prune_dev (f : Feed) (s : State) : (prune f s).dev = s.dev := by
  unfold prune
  split
  · exact removeOldest_dev f _ s
  · exact removeOldest_dev f _ s

theorem dropFilling_dev (f : Feed) (n : SlotNo) (s : State) : (dropFilling f n s).dev = s.dev :=
  (onlyStore_releaseFrom .filling n _).dev

theorem smoothFrame_dev (f : Feed) (i : StdId) (raw : Nat) (s : State) : (smoothFrame f i raw s).dev = s.dev := by
  unfold smoothFrame
  dsimp only
  split <;> rfl

theorem overrun_dev (f : Feed) (s : State) : (overrun f s).dev = s.dev := by
  unfold overrun
  split
  · rfl
  · exact removeOldest_dev f 1 s

theorem allocate_dev (record : Slot) (s : State) : (allocate record s).2.dev = s.dev := by
  unfold allocate
  split <;> rfl

theorem admitCapture_dev (f : Feed) (i : StdId) (seq : BitVec 32) (raw : Nat) (s : State) :
    (admitCapture f i seq raw s).2.dev = s.dev := by
  have before : (overrun f (smoothFrame f i raw s)).dev = s.dev := (overrun_dev ..).trans (smoothFrame_dev ..)
  unfold admitCapture
  dsimp only
  split
  · next n t e => exact ((congrArg (fun x => x.2.dev) e).symm.trans (allocate_dev ..)).trans before
  · next t e => exact ((congrArg (fun x => x.2.dev) e).symm.trans (allocate_dev ..)).trans before

theorem smoothFrame_rxs (f : Feed) (i : StdId) (raw : Nat) (s : State) : (smoothFrame f i raw s).rxs = s.rxs := by
  unfold smoothFrame
  dsimp only
  split <;> rfl

theorem overrun_rxs (f : Feed) (s : State) : (overrun f s).rxs = s.rxs := by
  unfold overrun
  split
  · rfl
  · exact removeOldest_rxs f 1 s

theorem allocate_rxs (record : Slot) (s : State) : (allocate record s).2.rxs = s.rxs := by
  unfold allocate
  split <;> rfl

theorem admitCapture_rxs (f : Feed) (i : StdId) (seq : BitVec 32) (raw : Nat) (s : State) :
    (admitCapture f i seq raw s).2.rxs = s.rxs := by
  have before : (overrun f (smoothFrame f i raw s)).rxs = s.rxs := (overrun_rxs ..).trans (smoothFrame_rxs ..)
  unfold admitCapture
  dsimp only
  split
  · next n t e => exact ((congrArg (fun x => x.2.rxs) e).symm.trans (allocate_rxs ..)).trans before
  · next t e => exact ((congrArg (fun x => x.2.rxs) e).symm.trans (allocate_rxs ..)).trans before

/-! ## The channels' reports -/

theorem computeDelay_dev (c : Chan) (s : State) : (computeDelay c s).dev = s.dev := by
  unfold computeDelay
  split <;> rfl

theorem setChanState_dev (c : Chan) (st : ChanState) (s : State) : (setChanState c st s).dev = s.dev :=
  condition_dev ..

theorem enterPriming_dev (c : Chan) (s : State) : (enterPriming c s).dev = s.dev :=
  (computeDelay_dev c _).trans (setChanState_dev c .priming _)

theorem releaseOnAir_dev (c : Chan) (s : State) : (releaseOnAir c s).dev = s.dev := by
  unfold releaseOnAir
  split
  · exact (onlyStore_releaseFrom ..).dev
  · rfl

theorem enterHolding_dev (c : Chan) (s : State) : (enterHolding c s).dev = s.dev := by
  refine Eq.trans (b := (setChanState c .holding s).dev) ?_ (setChanState_dev c .holding s)
  unfold enterHolding alertOccurrence beginHold
  dsimp only
  split
  · exact releaseOnAir_dev c _
  · rfl

theorem followFeed_dev (c : Chan) (s : State) : (followFeed c s).dev = s.dev := by
  unfold followFeed
  dsimp only
  split
  · rfl
  · exact (apply_ite State.dev ..).trans (by split <;> [exact enterPriming_dev c s; rfl])
  · exact (apply_ite State.dev ..).trans (by split <;> [rfl; exact enterHolding_dev c s])
  · exact (apply_ite State.dev ..).trans (by split <;> [rfl; exact enterHolding_dev c s])
  · exact (apply_ite State.dev ..).trans (by split <;> [exact enterPriming_dev c s; rfl])

theorem reportToChannels_dev (f : Feed) (s : State) : (reportToChannels f s).dev = s.dev :=
  forEach_keeps (f := State.dev) followFeed_dev _ s

theorem enterRxState_dev (f : Feed) (st : RxState) (s : State) : (enterRxState f st s).dev = s.dev := by
  have changed : (rxChanged f st s).dev = s.dev := condition_dev ..
  by_cases h : st = .locked
  · subst h
    rw [enterRxState_locked, reportToChannels_dev]
    exact (condition_dev ..).trans ((relock_dev f _).trans changed)
  · rw [enterRxState_lost h, reportToChannels_dev]
    exact changed

/-! ## The detector -/

theorem enterLocked_dev (f : Feed) (st : DetState) (s : State) : (enterLocked f st s).dev = s.dev := condition_dev ..

theorem exitLocked_dev (f : Feed) (s : State) : (exitLocked f s).dev = s.dev := condition_dev ..

theorem tagField_dev (x : FieldIn) (t : FilmTag) (s : State) : (tagField x t s).dev = s.dev := by
  unfold tagField
  split <;> rfl

theorem filmField32_dev (f : Feed) (p : Nat) (x : Option FieldIn) (s : State) : (filmField32 f p x s).dev = s.dev := by
  unfold filmField32
  cases x with
  | none => dsimp only; split_ifs <;> rfl
  | some x => dsimp only; split_ifs <;> simp only [tagField_dev, State.modDet_dev]

theorem rule32_dev (f : Feed) (x : Option FieldIn) (s : State) : (rule32 f x s).dev = s.dev := by
  cases h : s.dets[f].state <;> simp only [rule32, h, cadenceBreak]
  case video => split <;> rfl
  case candidate32 => split_ifs <;> simp only [enterLocked_dev, State.modDet_dev]
  case locked32 => split_ifs <;> simp only [exitLocked_dev, filmField32_dev, State.modDet_dev]

theorem applyVerdict_dev (f : Feed) (v : Verdict) (s : State) : (applyVerdict f v s).dev = s.dev := by
  cases h : s.dets[f].state <;> simp only [applyVerdict, h, cadenceBreak]
  case video => split_ifs <;> rfl
  case candidate22 => split_ifs <;> simp only [enterLocked_dev, State.modDet_dev]
  case locked22 =>
    cases v <;> simp only [State.modDet_dev]
    split_ifs <;> simp only [exitLocked_dev, State.modDet_dev]

theorem film22_dev (f : Feed) (b : Bool) (x : Option FieldIn) (s : State) : (film22 f b x s).dev = s.dev := by
  unfold film22
  split
  · split_ifs
    · exact tagField_dev ..
    · exact tagField_dev ..
  · rfl

theorem takeField_dev (f : Feed) (b : Bool) (x : Option FieldIn) (s : State) : (takeField f b x s).dev = s.dev := by
  unfold takeField
  dsimp only
  split_ifs <;> simp only [rule32_dev, film22_dev, applyVerdict_dev, State.modDet_dev]

theorem handover_dev (f : Feed) (n : SlotNo) (a b : Signature) (s : State) : (handover f n a b s).dev = s.dev :=
  (takeField_dev ..).trans (takeField_dev ..)

end Sys2Proof.Machine
end

section
/-! The receivers' lines (R37 to R44): what a line does by the receiver's state, and the line's own record of it. -/

namespace Sys2Proof.Machine

/-! ## The device record -/

theorem formSignatures_only (f : Feed) (k : Nat) (lines : List LineCode) (s : State) :
    formSignatures f k lines s = { s with rxs := (formSignatures f k lines s).rxs } := by
  unfold formSignatures
  dsimp only
  split
  · split_ifs <;> rfl
  · rfl

theorem writeLine_only (n : SlotNo) (line : Nat) (y cb cr : List Sample) (s : State) :
    writeLine n line y cb cr s = { s with dram := (writeLine n line y cb cr s).dram } :=
  congrArg (fun u : State => { u with dram := (writeLine n line y cb cr s).dram }) (writeLine_dropDram n line y cb cr s)

theorem endSlotCapture_dev (f : Feed) (n : SlotNo) (s : State) : (endSlotCapture f n s).dev = s.dev := by
  have closed (u : State) : (prune f (moveSlot .filling .complete n u)).dev = u.dev :=
    (prune_dev f _).trans (onlyStore_moveSlot ..).dev
  unfold endSlotCapture
  dsimp only
  split
  · rw [handover_dev, closed]; split <;> rfl
  · rw [closed]; split <;> rfl

theorem endCapture_dev (f : Feed) (s : State) : (endCapture f s).dev = s.dev := by
  unfold endCapture
  dsimp only
  rw [State.modRx_dev]
  split
  · exact endSlotCapture_dev ..
  · exact (takeField_dev ..).trans (takeField_dev ..)
  · rfl

theorem activeLine_dev (f : Feed) (k : Nat) (y cb cr : List Sample) (s : State) :
    (activeLine f k y cb cr s).dev = s.dev := by
  have formed (lines : List LineCode) (u : State) : (formSignatures f k lines u).dev = u.dev := by
    rw [formSignatures_only]
  have written (n : SlotNo) (line : Nat) : (writeLine n line y cb cr s).dev = s.dev := by rw [writeLine_only]
  unfold activeLine
  split
  · rfl
  · dsimp only
    split
    · rw [endCapture_dev, formed]
      split
      · exact written ..
      · rfl
      · rfl
    · rw [formed]
      split
      · exact written ..
      · rfl
      · rfl

theorem openCapture_none {s : State} {f : Feed} (h : s.rxs[f].detected = none) (now : Nat) :
    openCapture f now s = s := by
  rw [openCapture, h]

theorem openCapture_some {s : State} {f : Feed} {i : StdId} (h : s.rxs[f].detected = some i) (now : Nat) :
    openCapture f now s = (admitCapture f i s.rxs[f].seq now s).2.modRx f fun r => { r with
      seq := s.rxs[f].seq + 1, capture := (admitCapture f i s.rxs[f].seq now s).1 } := by
  rw [openCapture, h]

theorem openCapture_dev (f : Feed) (now : Nat) (s : State) : (openCapture f now s).dev = s.dev := by
  cases h : s.rxs[f].detected with
  | none => rw [openCapture_none h]
  | some i => rw [openCapture_some h, State.modRx_dev, admitCapture_dev]

theorem openCapture_state (f : Feed) (now : Nat) (s : State) :
    (openCapture f now s).rxs[f].state = s.rxs[f].state := by
  cases h : s.rxs[f].detected with
  | none => rw [openCapture_none h]
  | some i => rw [openCapture_some h, State.rx_modRx, admitCapture_rxs]

theorem abandonCapture_dev (f : Feed) (s : State) : (abandonCapture f s).dev = s.dev := by
  unfold abandonCapture
  dsimp only
  split
  · exact dropFilling_dev ..
  · rfl
  · rfl

theorem structuralChangeRx_dev (f : Feed) (s : State) : (structuralChangeRx f s).dev = s.dev :=
  (enterRxState_dev ..).trans (abandonCapture_dev f s)

theorem enterRxState_state (f : Feed) (st : RxState) (s : State) : (enterRxState f st s).rxs[f].state = st := by
  rw [enterRxState_rxs, modifyAt_same]

/-! ## A run of three -/

theorem enterLockedRx_dev (f : Feed) (i : StdId) (now : Nat) (s : State) : (enterLockedRx f i now s).dev = s.dev := by
  unfold enterLockedRx
  dsimp only
  rw [openCapture_dev, enterRxState_dev]
  split <;> rfl

theorem identifyRun_dev (f : Feed) (now : Nat) (s : State) : (identifyRun f now s).dev = s.dev := by
  unfold identifyRun
  dsimp only
  split
  · rfl
  · split
    · exact enterLockedRx_dev ..
    · exact enterRxState_dev ..

/-- A receiver that follows its feed still follows it after its run is judged. -/
theorem identifyRun_follows {s : State} {f : Feed} (h : s.rxs[f].state ≠ .noSignal) (now : Nat) :
    (identifyRun f now s).rxs[f].state ≠ .noSignal := by
  unfold identifyRun
  dsimp only
  split
  · exact h
  · split
    · unfold enterLockedRx
      dsimp only
      rw [openCapture_state, enterRxState_state]
      decide
    · unfold enterUnknown
      rw [enterRxState_state]
      decide

/-! ## A line by the receiver's state -/

theorem countLine_state (r : Receiver) (l : FeedLineData) : (r.countLine l).state = r.state := by
  unfold Receiver.countLine
  split <;> rfl

theorem closeMeasure_state (r : Receiver) (now : Nat) : (r.closeMeasure now).state = r.state := by
  unfold Receiver.closeMeasure
  split <;> rfl

section
variable (f : Feed) (now : Nat) (c : LineCode) (l : FeedLineData) (s : State)

theorem acquireLine_dev : (acquireLine f now c l s).dev = s.dev := by
  unfold acquireLine acquireFrameStart
  dsimp only
  split_ifs
  · exact identifyRun_dev ..
  · rfl
  · rfl

theorem acquireLine_follows (h : s.rxs[f].state = .acquiring) :
    (acquireLine f now c l s).rxs[f].state ≠ .noSignal := by
  have started : (s.modRx f fun r => { ((r.closeMeasure now).atFrameStart now l).countLine l with
      measure := some (.first now c) }).rxs[f].state ≠ .noSignal := by
    rw [State.rx_modRx]
    show (((s.rxs[f].closeMeasure now).atFrameStart now l).countLine l).state ≠ _
    rw [countLine_state]
    show (s.rxs[f].closeMeasure now).state ≠ _
    rw [closeMeasure_state, h]
    decide
  unfold acquireLine acquireFrameStart
  dsimp only
  split_ifs
  · exact identifyRun_follows started now
  · exact started
  · rw [State.rx_modRx]
    show (s.rxs[f].countLine l).state ≠ _
    rw [countLine_state, h]
    decide

theorem restartAcquiring_dev : (restartAcquiring f now c l s).dev = s.dev := by
  unfold restartAcquiring
  rw [State.modRx_dev, structuralChangeRx_dev, State.modRx_dev]

theorem restartAcquiring_state : (restartAcquiring f now c l s).rxs[f].state = .acquiring := by
  have kept (r : Receiver) : ((r.atFrameStart now l).countLine l).state = r.state := countLine_state ..
  unfold restartAcquiring
  rw [State.rx_modRx]
  dsimp only
  rw [kept, structuralChangeRx_state]

theorem changeLine_dev : (changeLine f now c l s).dev = s.dev := by
  unfold changeLine
  split
  · exact restartAcquiring_dev ..
  · rw [State.modRx_dev, structuralChangeRx_dev]

theorem changeLine_state : (changeLine f now c l s).rxs[f].state = .acquiring := by
  unfold changeLine
  split
  · exact restartAcquiring_state ..
  · rw [State.rx_modRx, countLine_state, structuralChangeRx_state]

theorem receiveLine_dev (k : Nat) : (receiveLine f k c l s).dev = s.dev := by
  unfold receiveLine
  dsimp only
  split
  · rfl
  · exact activeLine_dev ..

theorem receiveLine_state (k : Nat) : (receiveLine f k c l s).rxs[f].state = s.rxs[f].state := by
  have counted : (s.modRx f fun r => { r.countLine l with nextPos := k + 1, posReceived := true }).rxs[f].state =
      s.rxs[f].state := by
    rw [State.rx_modRx]
    exact countLine_state ..
  unfold receiveLine
  dsimp only
  split
  · exact counted
  · rw [activeLine_state, counted]

theorem flywheelFrameStart_dev : (flywheelFrameStart f now c l s).dev = s.dev := by
  unfold flywheelFrameStart
  dsimp only
  split_ifs
  · exact openCapture_dev ..
  · rfl
  · exact restartAcquiring_dev ..

theorem flywheelFrameStart_follows (h : s.rxs[f].state ≠ .noSignal) :
    (flywheelFrameStart f now c l s).rxs[f].state ≠ .noSignal := by
  have started : (s.modRx f fun r =>
      (((r.closeFlywheel now).atFrameStart now l).countLine l).startFlywheel).rxs[f].state = s.rxs[f].state := by
    rw [State.rx_modRx]
    exact countLine_state ..
  unfold flywheelFrameStart
  dsimp only
  split_ifs
  · rw [openCapture_state, started]; exact h
  · rw [started]; exact h
  · rw [restartAcquiring_state]; decide

theorem flywheelLine_dev : (flywheelLine f now c l s).dev = s.dev := by
  unfold flywheelLine
  dsimp only
  split
  · split_ifs
    · exact receiveLine_dev ..
    · exact flywheelFrameStart_dev ..
    · exact changeLine_dev ..
  · exact changeLine_dev ..

theorem flywheelLine_follows (h : s.rxs[f].state ≠ .noSignal) :
    (flywheelLine f now c l s).rxs[f].state ≠ .noSignal := by
  have changed : (changeLine f now c l s).rxs[f].state ≠ .noSignal := by rw [changeLine_state]; decide
  unfold flywheelLine
  dsimp only
  split
  · split_ifs
    · rw [receiveLine_state]; exact h
    · exact flywheelFrameStart_follows f now c l s h
    · exact changed
  · exact changed

end

/-! ## FEED_LINE -/

/-- What every valid line leaves in the receiver's record: which line was the last, and the loss timer's start. -/
def Receiver.heard (r : Receiver) (c : LineCode) (l : FeedLineData) (now : Nat) : Receiver :=
  { r with prevActive := !c.blank, lossFrom := some (now + l.span) }

theorem lineCode_eq_some {l : FeedLineData} {c : LineCode} (hs : l.startCode = some c) (he : l.endCode = some c) :
    lineCode l = some c := by
  unfold lineCode
  rw [hs, he]
  exact if_pos rfl

theorem lineCode_eq_none {l : FeedLineData} (h : ∀ c, ¬ (l.startCode = some c ∧ l.endCode = some c)) :
    lineCode l = none := by
  unfold lineCode
  split
  · next a b ha hb =>
    refine if_neg ?_
    rintro rfl
    exact h a ⟨ha, hb⟩
  · rfl

theorem exec_feedLine (dt : Nat) (f : Feed) (l : FeedLineData) (s : State) :
    exec (.feedLine dt f l) s = .next (feedLine f l (s.elapse dt)) := rfl

theorem feedLine_starting {s : State} (h : s.dev.state = .starting) (f : Feed) (l : FeedLineData) :
    feedLine f l s = s := by
  refine if_neg ?_
  rw [State.isReady, h]
  decide

/-- A valid line: what `v` says of it by the receiver's state, and the record of the line. -/
theorem feedLine_valid {s v : State} {f : Feed} {l : FeedLineData} {c : LineCode} (ready : s.dev.state = .ready)
    (hs : l.startCode = some c) (he : l.endCode = some c)
    (hv : validLine f s.dev.houseTime c l s = v.modRx f fun r => { r with prevActive := !c.blank })
    (follows : v.rxs[f].state ≠ .noSignal) (dev : v.dev = s.dev) :
    feedLine f l s = v.modRx f fun r => r.heard c l s.dev.houseTime := by
  unfold feedLine
  rw [if_pos ((State.isReady_iff s).2 ready), lineCode_eq_some hs he]
  dsimp only [State.now]
  rw [hv, State.modRx_modRx]
  refine State.modRx_congr ?_
  have started : lossStart l v.dev.houseTime v.rxs[f].lossFrom = some (s.dev.houseTime + l.span) := by
    rw [lossStart, if_pos (by rw [he]; rfl), dev]
  dsimp only [State.modRx_dev]
  rw [if_neg follows, started]
  rfl

section
variable {s : State} {f : Feed} {l : FeedLineData} {c : LineCode} (ready : s.dev.state = .ready)
  (hs : l.startCode = some c) (he : l.endCode = some c)
include ready hs he

theorem feedLine_noSignal (h : s.rxs[f].state = .noSignal) : feedLine f l s =
    (enterRxState f .acquiring s).modRx f fun r => r.heard c l s.dev.houseTime := by
  refine feedLine_valid ready hs he ?_ ?_ (enterRxState_dev ..)
  · rw [validLine, h]
  · rw [enterRxState_state]; decide

theorem feedLine_acquiring (h : s.rxs[f].state = .acquiring) : feedLine f l s =
    (acquireLine f s.dev.houseTime c l s).modRx f fun r => r.heard c l s.dev.houseTime := by
  refine feedLine_valid ready hs he ?_ (acquireLine_follows _ _ _ _ _ h) (acquireLine_dev ..)
  rw [validLine, h]

theorem feedLine_flywheel (h : s.rxs[f].state = .locked ∨ s.rxs[f].state = .unknown) : feedLine f l s =
    (flywheelLine f s.dev.houseTime c l s).modRx f fun r => r.heard c l s.dev.houseTime := by
  refine feedLine_valid ready hs he ?_ (flywheelLine_follows _ _ _ _ _ ?_) (flywheelLine_dev ..)
  · rcases h with h | h <;> rw [validLine, h]
  · rcases h with h | h <;> rw [h] <;> decide

end

end Sys2Proof.Machine

namespace Sys2Proof.Machine

/-! ## Lines out of lock (R37 to R40) -/

theorem Measure.add_eq (m : Measure) (c : LineCode) (w : Nat) : m.add c w = { m with
    lines := m.lines ++ [c]
    width := if c.blank then m.width else m.width.or (some w)
    irregular := m.irregular || (!c.blank && m.width.any (· ≠ w)) } := by
  unfold Measure.add
  cases m.width <;> rfl

theorem withinPpm_iff (p ref : Nat) : withinPpm p ref = true ↔ absDiff p ref * 1000000 ≤ 200 * ref :=
  decide_eq_true_iff

theorem Run.judge_eq (run : Run) (m : Measure) (p : Nat) : run.judge m p =
    if m.irregular then .empty
    else if run.layout = some ⟨m.lines, m.width.getD 0⟩ ∧ absDiff p run.pRun * 1000000 ≤ 200 * run.pRun
    then { run with count := run.count + 1, periods := run.periods ++ [p] }
    else { layout := some ⟨m.lines, m.width.getD 0⟩, pRun := p, count := 1, periods := [p] } := by
  unfold Run.judge
  simp only [Bool.and_eq_true, decide_eq_true_iff, withinPpm_iff]
  rfl

theorem Measure.structure_eq (m : Measure) : m.structure_ = {
    total := m.lines.length + m.unread, active := m.lines.countP fun x => !x.blank
    width := if m.irregular then none else some (m.width.getD 0)
    interlaced := m.lines.any LineCode.field2 } := by
  unfold Measure.structure_ Layout.structure_
  cases m.irregular <;> rfl

theorem feedLine_invalid {s : State} (ready : s.dev.state = .ready) {l : FeedLineData}
    (h : ∀ c, ¬ (l.startCode = some c ∧ l.endCode = some c)) (f : Feed) :
    feedLine f l s = s.modRx f fun r => { r with
      measure := r.measure.map fun m => { m with unread := m.unread + 1, irregular := true }
      missed := r.missed || decide (r.state = .locked ∨ r.state = .unknown)
      lossFrom := if r.state = .noSignal then none
        else if l.endCode.isSome then some (s.dev.houseTime + l.span)
        else if l.startCode.isSome then some s.dev.houseTime else r.lossFrom } := by
  unfold feedLine
  rw [if_pos ((State.isReady_iff s).2 ready), lineCode_eq_none h]
  dsimp only [invalidLine]
  rw [State.modRx_modRx]
  refine State.modRx_congr ?_
  rw [Bool.or_assoc, ← Bool.decide_or]
  rfl

theorem startsFrame_iff (r : Receiver) (c : LineCode) :
    r.startsFrame c = true ↔ c.blank = true ∧ c.field2 = false ∧ r.prevActive = true := by
  unfold Receiver.startsFrame
  rw [Bool.and_eq_true, Bool.and_eq_true, Bool.not_eq_true', and_assoc]

theorem acquireLine_first {s : State} {f : Feed} {c : LineCode} {l : FeedLineData} {now : Nat} {q : Receiver}
    (h : s.rxs[f].startsFrame c = true)
    (hq : q = { ((s.rxs[f].closeMeasure now).atFrameStart now l).countLine l with measure := some (.first now c) }) :
    acquireLine f now c l s =
      if q.run.count = 3 then identifyRun f now (s.modRx f fun _ => q) else s.modRx f fun _ => q := by
  have started : (s.modRx f fun r => { ((r.closeMeasure now).atFrameStart now l).countLine l with
      measure := some (.first now c) }) = s.modRx f fun _ => q := State.modRx_congr hq.symm
  unfold acquireLine acquireFrameStart
  rw [if_pos h]
  dsimp only
  rw [started, State.rx_modRx]

end Sys2Proof.Machine

open Sys2Proof Sys2Proof.Machine

/-- Settles O40: a line goes to its receiver's state; in ACQUIRING a frame start closes the measured frame, and every
other line joins it. -/
theorem linesOutOfLock : Obligations.LinesOutOfLock := by
  unfold Obligations.LinesOutOfLock
  refine ⟨fun r l now => ⟨rfl, rfl, rfl⟩, ?_⟩
  rintro s _ dt f l _ rfl rfl
  rw [exec_feedLine]
  generalize s.elapse dt = t at *
  refine ⟨fun h => congrArg _ (feedLine_starting h f l), fun ready h => congrArg _ (feedLine_invalid ready h f),
    fun c ready hs he => ⟨fun h => ?_, fun h hfirst => ?_, fun q p h hblank hfield hprev hp hq => ?_⟩⟩
  · rw [feedLine_noSignal ready hs he h, enterRxState_lost (by decide)]
    have changed : rxChanged f .acquiring t = t.modRx f fun r => { r with state := .acquiring } := by
      rw [rxChanged, h]
      exact condition_same _ false _
    rw [changed]
    rfl
  · rw [feedLine_acquiring ready hs he h, acquireLine, if_neg (mt (startsFrame_iff _ c).1 hfirst), State.modRx_modRx]
    refine congrArg _ (State.modRx_congr ?_)
    simp only [Measure.add_eq]
    rfl
  · rw [feedLine_acquiring ready hs he h,
      acquireLine_first (q := q) ((startsFrame_iff _ c).2 ⟨hblank, hfield, hprev⟩) ?_]
    · simp only [Receiver.heard, hblank]
      rfl
    · subst hp hq
      unfold Receiver.closeMeasure Receiver.countLine
      rcases t.rxs[f].measure with _ | m
      · cases l.crcError <;> rfl
      · dsimp only
        rw [Run.judge_eq, Measure.structure_eq]
        cases l.crcError <;> rfl
end

section
/-! A run of three (R41, R45, R46, R47). -/

namespace Sys2Proof.Machine

theorem structureMatches_iff (x : Structure) (i : StdId) : structureMatches x i = true ↔
    x.total = (Config.std i).totalLines ∧ x.active = (Config.std i).activeLines ∧
      x.width = some (Config.std i).width ∧ x.interlaced = (Config.std i).interlaced := by
  unfold structureMatches
  simp only [Bool.and_eq_true, decide_eq_true_iff, and_assoc]

/-- What a catalogue entry must have to be identified (R41). -/
def Identified (x : Structure) (periods : List Nat) (i : StdId) : Prop :=
  x.total = (Config.std i).totalLines ∧ x.active = (Config.std i).activeLines ∧
    x.width = some (Config.std i).width ∧ x.interlaced = (Config.std i).interlaced ∧
    ∀ p ∈ periods, absDiff p (Config.pNom i) * 1000000 ≤ 200 * Config.pNom i

theorem identified_iff (x : Structure) (periods : List Nat) (i : StdId) :
    (structureMatches x i && periods.all (withinPpm · (Config.pNom i))) = true ↔ Identified x periods i := by
  rw [Bool.and_eq_true, structureMatches_iff, List.all_eq_true]
  simp only [withinPpm_iff, Identified, and_assoc]

theorem identify_eq_none_iff (x : Structure) (periods : List Nat) :
    identify x periods = none ↔ ∀ i, ¬ Identified x periods i := by
  unfold identify
  rw [List.find?_eq_none]
  simp only [identified_iff, List.mem_finRange, forall_const]

/-- An entry that alone has the structure and the periods is the one identified. -/
theorem identify_eq_some {x : Structure} {periods : List Nat} {i : StdId} (h : Identified x periods i)
    (only : ∀ j, Identified x periods j → j = i) : identify x periods = some i := by
  cases e : identify x periods with
  | none => exact absurd h ((identify_eq_none_iff x periods).1 e i)
  | some j =>
    have fits := List.find?_some (show List.find? _ _ = some j from e)
    rw [only j ((identified_iff x periods j).1 fits)]

theorem identifyRun_some {s : State} {f : Feed} {lay : Layout} {i : StdId} (hl : s.rxs[f].run.layout = some lay)
    (hi : identify (lay.structure_ true) s.rxs[f].run.periods = some i) (now : Nat) :
    identifyRun f now s = enterLockedRx f i now s := by
  unfold identifyRun
  dsimp only
  rw [hl]
  dsimp only
  rw [hi]

theorem identifyRun_none {s : State} {f : Feed} {lay : Layout} (hl : s.rxs[f].run.layout = some lay)
    (hi : identify (lay.structure_ true) s.rxs[f].run.periods = none) (now : Nat) :
    identifyRun f now s = enterUnknown f s := by
  unfold identifyRun
  dsimp only
  rw [hl]
  dsimp only
  rw [hi]

theorem raise_modRx (src : Source) (f : Feed) (g : Receiver → Receiver) (s : State) :
    (raise src s).modRx f g = raise src (s.modRx f g) := rfl

theorem rxChanged_eq {s : State} {f : Feed} {was : RxState} (h : s.rxs[f].state = was) (st : RxState) :
    rxChanged f st s =
      condition (.feedLock f) (was = .locked) (st = .locked) (s.modRx f fun r => { r with state := st }) := by
  rw [rxChanged, h]

/-- Entry into LOCKED from ACQUIRING: the record, STANDARD_CHANGE, the lock's condition and its report, and the first
capture. -/
theorem enterLockedRx_eq {s : State} {f : Feed} {lay : Layout} (h : s.rxs[f].state = .acquiring)
    (hl : s.rxs[f].run.layout = some lay) (i : StdId) (now : Nat) (v : State)
    (hv : v = s.modRx f fun r => { r with
      detected := some i, layout := some lay, lastLocked := some i, state := .locked
      nextPos := 1, posReceived := true, missed := false, measure := none }) :
    enterLockedRx f i now s = openCapture f now (reportToChannels f (detectorRestart f (relock f
      (condition (.feedLock f) false true
        (if s.rxs[f].lastLocked.any (· ≠ i) then raise (.standardChange f) v else v))))) := by
  have entered (u : State) (hu : u = s.modRx f fun r =>
      { r.startFlywheel with detected := some i, layout := r.run.layout, lastLocked := some i }) :
      u.rxs[f].state = .acquiring ∧ u.modRx f (fun r => { r with state := .locked }) = v := by
    subst hu hv
    rw [State.rx_modRx, State.modRx_modRx]
    exact ⟨h, State.modRx_congr (by rw [hl]; rfl)⟩
  unfold enterLockedRx
  dsimp only
  generalize hu : (s.modRx f fun r =>
      { r.startFlywheel with detected := some i, layout := r.run.layout, lastLocked := some i }) = u
  obtain ⟨state, locked⟩ := entered u hu.symm
  rw [enterRxState_locked]
  split
  · rw [rxChanged_eq (s := raise _ u) state, raise_modRx, locked]
    rfl
  · rw [rxChanged_eq state, locked]
    rfl

theorem enterUnknown_eq {s : State} {f : Feed} {lay : Layout} (h : s.rxs[f].state = .acquiring)
    (hl : s.rxs[f].run.layout = some lay) : enterUnknown f s = reportToChannels f ((s.modRx f fun r => { r with
        layout := some lay, state := .unknown
        nextPos := 1, posReceived := true, missed := false, measure := none }).modDet f
          fun d => { d with openFilm := none }) := by
  have started : (s.modRx f fun r => { r.startFlywheel with layout := r.run.layout }).rxs[f].state = .acquiring := by
    rw [State.rx_modRx]
    exact h
  unfold enterUnknown
  rw [enterRxState_lost (by decide), rxChanged_eq started, State.modRx_modRx, State.modRx_congr (h := fun r => { r with
    layout := some lay, state := .unknown, nextPos := 1, posReceived := true, missed := false, measure := none })
    (by rw [hl]; rfl)]
  exact congrArg (fun u => reportToChannels f (detectorLoss f u)) (condition_same _ false _)

end Sys2Proof.Machine

open Sys2Proof Sys2Proof.Machine

/-- Settles O41: the search of the catalogue finds the entry that alone fits, or none; each has its entry. -/
theorem runOfThreeIsIdentified : Obligations.RunOfThreeIsIdentified := by
  unfold Obligations.RunOfThreeIsIdentified
  refine ⟨⟨by decide, fun i => rfl, fun l regular => rfl, fun x periods => identify_eq_none_iff x periods⟩, ?_, ?_⟩
  · rintro s f now _ lay ok rfl hl h hok
    have identified (i : StdId) : ok i ↔ Identified (lay.structure_ true) s.rxs[f].run.periods i := by
      rw [hok, ← Option.some_inj (a := lay.width)]
      rfl
    refine ⟨fun i u hi only hu => ?_, fun hnone => ?_⟩
    · have found := identify_eq_some ((identified i).1 hi) fun j hj => only j ((identified j).2 hj)
      rw [identifyRun_some hl found, enterLockedRx_eq h hl i now _ rfl, hu]
    · have missing := (identify_eq_none_iff _ _).2 fun i hi => hnone i ((identified i).2 hi)
      rw [identifyRun_none hl missing, enterUnknown_eq h hl]
  · rintro s f now i _ hi rfl
    exact openCapture_some hi now
end

section
/-! Lines on the flywheel (R42, R48, R51). -/

namespace Sys2Proof.Machine

/-- What a frame start and its line's CRC error leave in the receiver's record (R51, R52). -/
theorem atFrameStart_countLine (r : Receiver) (now : Nat) (l : FeedLineData) :
    (r.atFrameStart now l).countLine l = { r with
      lastRaw := some now, sig1 := none, sig2 := none
      margin := l.margin.val, lowestMargin := min r.lowestMargin l.margin.val
      erroredFrames := if r.frameErrored then satAdd 65535 r.erroredFrames 1 else r.erroredFrames
      lineErrors := if l.crcError then 1 else 0
      linkErrors := if l.crcError then satAdd (2 ^ 32 - 1) r.linkErrors 1 else r.linkErrors
      frameErrored := l.crcError } := by
  unfold Receiver.countLine
  cases l.crcError <;> rfl

section
variable {r : Receiver} {a p : Nat} {lay : Layout} (ha : r.lastRaw = some a)
include ha

theorem framePeriod_eq (now : Nat) : r.framePeriod now = now - a := by
  rw [Receiver.framePeriod, ha]
  rfl

variable (hl : r.layout = some lay)
include hl

theorem closeFlywheel_eq (now : Nat) : r.closeFlywheel now = { r with
    pRef := some (now - a)
    lastClosed := some ((⟨lay.lines.take r.nextPos, lay.width⟩ : Layout).structure_ !r.missed) } := by
  rw [Receiver.closeFlywheel, framePeriod_eq ha, hl]
  rfl

variable (hp : r.pRef = some p)
include hp

theorem expected_eq (k : Nat) : r.expected k = some (a + k * p / lay.lines.length) := by
  rw [Receiver.expected, ha, hp, hl]

theorem inWindow_iff (k t : Nat) :
    r.inWindow k t = true ↔ absDiff t (a + k * p / lay.lines.length) ≤ 54 := by
  rw [Receiver.inWindow, expected_eq ha hl hp]
  exact decide_eq_true_iff

theorem position_next {t : Nat} (h : absDiff t (a + r.nextPos * p / lay.lines.length) ≤ 54) :
    r.position t = some r.nextPos :=
  if_pos ((inWindow_iff ha hl hp _ _).2 h)

theorem position_none {t : Nat} (h : ∀ k, k ≤ r.nextPos → 54 < absDiff t (a + k * p / lay.lines.length)) :
    r.position t = none := by
  have outside (k : Nat) (hk : k ≤ r.nextPos) : ¬ r.inWindow k t = true := fun inside =>
    Nat.not_le.2 (h k hk) ((inWindow_iff ha hl hp k t).1 inside)
  rw [Receiver.position, if_neg (outside _ le_rfl), if_neg]
  rw [Bool.and_eq_true]
  exact fun hw => outside _ (Nat.sub_le ..) hw.2

end

theorem fits_iff (lay : Layout) (k : Nat) (c : LineCode) (w : Nat) : lay.fits k c w = true ↔
    lay.lines[k % lay.lines.length]? = some c ∧ (c.blank = true ∨ w = lay.width) := by
  unfold Layout.fits
  rw [Bool.and_eq_true, Bool.or_eq_true, decide_eq_true_iff, decide_eq_true_iff]

theorem not_fits_iff (lay : Layout) (k : Nat) (c : LineCode) (w : Nat) : ¬ lay.fits k c w = true ↔
    lay.lines[k % lay.lines.length]? ≠ some c ∨ (c.blank = false ∧ w ≠ lay.width) := by
  rw [fits_iff, not_and_or, not_or, Bool.not_eq_true]

theorem Layout.structure_taken (lay : Layout) (k : Nat) (missed : Bool) :
    (⟨lay.lines.take k, lay.width⟩ : Layout).structure_ (!missed) = {
      total := min k lay.lines.length, active := (lay.lines.take k).countP fun x => !x.blank
      width := if missed then none else some lay.width, interlaced := (lay.lines.take k).any LineCode.field2 } := by
  rw [Layout.structure_, List.length_take]
  cases missed <;> rfl

section
variable {s : State} {f : Feed} {now : Nat} {c : LineCode} {l : FeedLineData} {lay : Layout} {k : Nat}

theorem flywheelLine_none (h : s.rxs[f].position now = none) : flywheelLine f now c l s = changeLine f now c l s := by
  unfold flywheelLine
  dsimp only
  rw [h]

variable (hk : s.rxs[f].position now = some k) (hl : s.rxs[f].layout = some lay)
include hk hl

theorem flywheelLine_change (h : ¬ lay.fits k c l.luma.length = true) :
    flywheelLine f now c l s = changeLine f now c l s := by
  unfold flywheelLine
  dsimp only
  rw [hk, hl]
  exact if_neg h

theorem flywheelLine_fits (h : lay.fits k c l.luma.length = true) : flywheelLine f now c l s =
    if k < lay.lines.length then receiveLine f k c l s else flywheelFrameStart f now c l s := by
  unfold flywheelLine
  dsimp only
  rw [hk, hl]
  exact if_pos h

end

end Sys2Proof.Machine

open Sys2Proof Sys2Proof.Machine

/-- Settles O42: the line's position decides: in its window and with the layout's indicators it is received, and
otherwise it is a structural change. -/
theorem linesOnTheFlywheel : Obligations.LinesOnTheFlywheel := by
  unfold Obligations.LinesOnTheFlywheel
  refine ⟨?_, ?_⟩
  · rintro s f now c l _ a lay rfl ha hl
    refine ⟨fun hmid => ?_, fun hblank hfield hprev => ?_⟩
    · rw [changeLine, if_neg (mt (startsFrame_iff _ c).1 hmid)]
      rfl
    · rw [changeLine, if_pos ((startsFrame_iff _ c).2 ⟨hblank, hfield, hprev⟩), restartAcquiring]
      simp only [atFrameStart_countLine]
      refine congrArg (fun u => (structuralChangeRx f u).modRx f _) (State.modRx_congr ?_)
      rw [closeFlywheel_eq ha hl, Layout.structure_taken]
  · rintro s _ dt f l _ c a p lay rfl rfl ready hstate hs he ha hp hl
    rw [exec_feedLine]
    generalize s.elapse dt = t at *
    rw [feedLine_flywheel ready hs he hstate]
    refine ⟨fun u hk hw hc hwidth hu => ?_, fun hout => ?_⟩
    · have position := position_next ha hl hp hw
      have fits : lay.fits t.rxs[f].nextPos c l.luma.length = true :=
        (fits_iff ..).2 ⟨by rw [Nat.mod_eq_of_lt hk]; exact hc, hwidth⟩
      rw [flywheelLine_fits position hl fits, if_pos hk, receiveLine, hu]
      rfl
    · have change : flywheelLine f t.dev.houseTime c l t = changeLine f t.dev.houseTime c l t := by
        rcases hout with ⟨hw, hfits⟩ | hout
        · exact flywheelLine_change (position_next ha hl hp hw) hl ((not_fits_iff ..).2 hfits)
        · exact flywheelLine_none (position_none ha hl hp hout)
      rw [change]
      rfl
end

section
/-! The flywheel's frame start, its windows that close with no line, and the loss of a feed (R38, R42 to R44, R50). -/

namespace Sys2Proof.Machine

/-! ## A frame start at position N_tot (R43, R44) -/

section
variable {r : Receiver} {lay : Layout} (hl : r.layout = some lay)
include hl

theorem keeps_iff (p : Nat) : r.keeps p = true ↔
    (r.state = .locked ∧ ∃ i, r.detected = some i ∧
        absDiff p (Config.pNom i) * 1000000 ≤ 200 * Config.pNom i) ∨
      (r.state = .unknown ∧ absDiff p r.run.pRun * 1000000 ≤ 200 * r.run.pRun ∧
        identify (lay.structure_ !r.missed) [p] = none) := by
  unfold Receiver.keeps
  rw [hl]
  rcases r.state with _ | _ | _ | _ <;> rcases r.detected with _ | i <;>
    simp [withinPpm_iff]

/-- The record of the frame that a frame start at position N_tot closes. -/
theorem closeFlywheel_last {a : Nat} (ha : r.lastRaw = some a) (hn : r.nextPos = lay.lines.length) (now : Nat) :
    r.closeFlywheel now = { r with
      pRef := some (now - a), lastClosed := some (lay.structure_ !r.missed) } := by
  rw [closeFlywheel_eq ha hl, hn, List.take_length]

end

theorem flywheelFrameStart_keeps {s : State} {f : Feed} {now : Nat}
    (h : s.rxs[f].keeps (s.rxs[f].framePeriod now) = true) (c : LineCode) (l : FeedLineData) {q : Receiver}
    (hq : q = (((s.rxs[f].closeFlywheel now).atFrameStart now l).countLine l).startFlywheel) :
    flywheelFrameStart f now c l s =
      if s.rxs[f].state = .locked then openCapture f now (s.modRx f fun _ => q) else s.modRx f fun _ => q := by
  have started : (s.modRx f fun r => (((r.closeFlywheel now).atFrameStart now l).countLine l).startFlywheel) =
      s.modRx f fun _ => q := State.modRx_congr hq.symm
  unfold flywheelFrameStart
  dsimp only
  rw [if_pos h, started]

theorem flywheelFrameStart_changes {s : State} {f : Feed} {now : Nat}
    (h : ¬ s.rxs[f].keeps (s.rxs[f].framePeriod now) = true) (c : LineCode) (l : FeedLineData) :
    flywheelFrameStart f now c l s = restartAcquiring f now c l s := if_neg h

/-! ## An abandoned capture and a structural change (R42, R50) -/

theorem Detector.dropSlot_eq (n : SlotNo) : Detector.dropSlot n = fun d => { d with
    films := d.films.filter fun x => x.first.slot ≠ n ∧ x.second.slot ≠ n
    openFilm := d.openFilm.filter fun o => o.first.slot ≠ n } := by
  funext d
  unfold Detector.dropSlot
  cases d.openFilm with
  | none => rfl
  | some o => by_cases h : o.first.slot = n <;> simp [h, Option.filter]

theorem abandonCapture_slot {s : State} {f : Feed} {n : SlotNo} (h : s.rxs[f].capture = .slot n) :
    abandonCapture f s =
      dropFilling f n (s.modRx f fun r => { r with capture := .none, sig1 := none, sig2 := none }) := by
  unfold abandonCapture
  dsimp only
  rw [h]

theorem abandonCapture_idle {s : State} {f : Feed} (h : ∀ n, s.rxs[f].capture ≠ .slot n) :
    abandonCapture f s = s.modRx f fun r => { r with capture := .none, sig1 := none, sig2 := none } := by
  unfold abandonCapture
  dsimp only
  split
  · next n e => exact absurd e (h n)
  · rfl
  · rfl

theorem abandonCapture_state (f : Feed) (s : State) : (abandonCapture f s).rxs[f].state = s.rxs[f].state := by
  rw [abandonCapture_rxs, modifyAt_same]

/-- A receiver that leaves the lock after an abandoned capture: its record, the lock's condition, and its report. -/
theorem enterRxState_abandoned (f : Feed) (s : State) {st : RxState} (h : st ≠ .locked) {g : Receiver → Receiver}
    (hg : ∀ r, (g r).state = r.state) :
    enterRxState f st ((abandonCapture f s).modRx f g) = reportToChannels f ((condition (.feedLock f)
      (s.rxs[f].state = .locked) false ((abandonCapture f s).modRx f fun r => { g r with state := st })).modDet f
        fun d => { d with openFilm := none }) := by
  have was : ((abandonCapture f s).modRx f g).rxs[f].state = s.rxs[f].state := by
    rw [State.rx_modRx, hg, abandonCapture_state]
  rw [enterRxState_lost h, rxChanged_eq was, State.modRx_modRx, decide_eq_false h]
  rfl

/-! ## The loss timer (R38) -/

theorem lossDue_iff (s : State) (f : Feed) : lossDue s f = true ↔ s.dev.state = .ready ∧
    s.rxs[f].state ≠ .noSignal ∧ ∃ x, s.rxs[f].lossFrom = some x ∧ x + 27000 ≤ s.dev.houseTime := by
  unfold lossDue
  rw [Bool.and_eq_true, Bool.and_eq_true, State.isReady_iff, decide_eq_true_iff, Option.any_eq_true, and_assoc]
  simp only [decide_eq_true_iff]
  rfl

theorem lossExpiry_due {s : State} {f : Feed} (h : lossDue s f = true) : lossExpiry f s =
    enterRxState f .noSignal ((abandonCapture f s).modRx f fun r =>
      { r.closeErrored with run := .empty, layout := none, lastRaw := none, detected := none, margin := 0,
                            lowestMargin := 0, lossFrom := none, measure := none, lastClosed := none,
                            prevActive := false }) := if_pos h

theorem exec_lossTimerExpiry (dt : Nat) (f : Feed) (s : State) :
    exec (.lossTimerExpiry dt f) s = .next (lossExpiry f (s.elapse dt)) := rfl

theorem exec_lineWindowClose (dt : Nat) (f : Feed) (s : State) :
    exec (.lineWindowClose dt f) s = .next (lineWindowClose f (s.elapse dt)) := rfl

/-! ## Windows that close (R42) -/

theorem lineWindowDue_iff {s : State} {f : Feed} {a p : Nat} {lay : Layout} (ha : s.rxs[f].lastRaw = some a)
    (hl : s.rxs[f].layout = some lay) (hp : s.rxs[f].pRef = some p) : lineWindowDue s f = true ↔
      s.dev.state = .ready ∧ (s.rxs[f].state = .locked ∨ s.rxs[f].state = .unknown) ∧
        a + s.rxs[f].nextPos * p / lay.lines.length + 54 ≤ s.dev.houseTime := by
  unfold lineWindowDue
  dsimp only
  rw [expected_eq ha hl hp, Bool.and_eq_true, Bool.and_eq_true, State.isReady_iff, Bool.or_eq_true,
    decide_eq_true_iff, decide_eq_true_iff, and_assoc]
  exact and_congr_right' (and_congr_right' decide_eq_true_iff)

theorem lineWindowClose_due {s : State} {f : Feed} {lay : Layout} (h : lineWindowDue s f = true)
    (hl : s.rxs[f].layout = some lay) : lineWindowClose f s =
      if s.rxs[f].nextPos < lay.lines.length then missLine f s.rxs[f].nextPos lay s else structuralChangeRx f s := by
  unfold lineWindowClose
  dsimp only
  rw [if_pos h, hl]

theorem missLine_eq {lay : Layout} {k : Nat} {c : LineCode} (h : lay.lines[k]? = some c) (f : Feed) {s u : State}
    (hu : u = s.modRx f fun r => { r.countError with nextPos := k + 1, posReceived := false, missed := true }) :
    missLine f k lay s = if c.blank then u
      else activeLine f k (List.replicate lay.width 64#10) (List.replicate (lay.width / 2) 512#10)
        (List.replicate (lay.width / 2) 512#10) u := by
  unfold missLine
  dsimp only
  rw [h, Option.any_some, ← hu]
  cases c.blank <;> rfl

end Sys2Proof.Machine

open Sys2Proof Sys2Proof.Machine

/-- Settles O44: the frame start at position N_tot is judged by its period; a change, a loss or a closed window each
abandons or continues the capture and reports the receiver. -/
theorem flywheelFrameStartsWindowsAndLoss : Obligations.FlywheelFrameStartsWindowsAndLoss := by
  unfold Obligations.FlywheelFrameStartsWindowsAndLoss
  refine ⟨?_, ?_, ?_, ?_⟩
  · rintro s _ dt f l _ c a p lay rfl rfl ready hstate hs he ha hp hl hne hn hw hc hwidth
    rw [exec_feedLine]
    generalize s.elapse dt = t at *
    have atEnd : a + t.rxs[f].nextPos * p / lay.lines.length = a + p := by
      rw [hn, Nat.mul_div_cancel_left p (List.length_pos_iff.2 hne)]
    have position := position_next ha hl hp (atEnd.symm ▸ hw)
    have fits : lay.fits t.rxs[f].nextPos c l.luma.length = true := by
      rw [fits_iff, hn, Nat.mod_self, ← List.head?_eq_getElem?]
      exact ⟨hc, hwidth⟩
    rw [feedLine_flywheel ready hs he hstate, flywheelLine_fits position hl fits, if_neg (by omega)]
    rfl
  · rintro s f now c l _ lay a q keeps rfl hl ha hn hkeeps hq
    have judged : s.rxs[f].keeps (s.rxs[f].framePeriod now) = true ↔ keeps := by
      rw [hkeeps, keeps_iff hl, framePeriod_eq ha]
    refine ⟨fun h => flywheelFrameStart_keeps (judged.2 h) c l ?_, fun h => ⟨_, rfl, ?_⟩⟩
    · rw [hq, closeFlywheel_last hl ha hn, atFrameStart_countLine]
      rfl
    · rw [flywheelFrameStart_changes (mt judged.1 h), restartAcquiring]
      refine congrArg (fun u => (structuralChangeRx f u).modRx f _) (State.modRx_congr ?_)
      exact closeFlywheel_last hl ha hn now
  · intro s f
    refine ⟨_, rfl, fun n b h hb => ?_, abandonCapture_idle, ?_, ?_, ?_⟩
    · rw [abandonCapture_slot h, hb, dropFilling, Detector.dropSlot_eq]
      rfl
    · exact enterRxState_abandoned f s (by decide) fun _ => rfl
    · rintro t dt from_ rfl ready hstate hfrom hdue
      rw [exec_lossTimerExpiry, lossExpiry_due ((lossDue_iff ..).2 ⟨ready, hstate, from_, hfrom, hdue⟩)]
      exact congrArg _ (enterRxState_abandoned f _ (by decide) fun _ => rfl)
    · rintro t dt rfl hidle
      rw [exec_lossTimerExpiry]
      refine congrArg _ (if_neg fun due => ?_)
      obtain ⟨ready, hstate, x, hx, hdue⟩ := (lossDue_iff ..).1 due
      rcases hidle with h | h | h
      · rw [ready] at h; cases h
      · exact hstate h
      · exact absurd hdue (Nat.not_le.2 (h x hx))
  · rintro s _ dt f _ a p lay rfl rfl ha hp hl
    rw [exec_lineWindowClose]
    generalize s.elapse dt = t at *
    refine ⟨fun ready hstate hlate => ?_, fun hidle => congrArg _ (if_neg fun due => ?_)⟩
    · rw [lineWindowClose_due ((lineWindowDue_iff ha hl hp).2 ⟨ready, hstate, hlate⟩) hl]
      refine ⟨fun hn => congrArg _ (if_neg (Nat.not_lt.2 hn)), ?_⟩
      rintro u c hc hu
      rw [if_pos (List.getElem?_eq_some_iff.1 hc).1, missLine_eq hc f (hu.trans (State.modRx_congr rfl))]
    · obtain ⟨ready, hstate, hlate⟩ := (lineWindowDue_iff ha hl hp).1 due
      rcases hidle with h | ⟨hlocked, hunknown⟩ | h
      · rw [ready] at h; cases h
      · exact hstate.elim hlocked hunknown
      · omega
end

section
/-! What an active line writes, and the end of a capture (R37, R48, R49, R54, R76, R86). -/

namespace Sys2Proof.Machine

/-! ## The end of a capture (R49) -/

/-- The captured slot is marked and becomes COMPLETE. -/
theorem complete_filling {s : State} {f : Feed} {n : SlotNo} (h : s.slots[n].state = .filling) :
    moveSlot .filling .complete n
        (if 64 < s.rxs[f].lineErrors then s.modSlot n fun x => { x with damaged := true } else s) =
      { s with slots := s.slots.set n { s.slots[n] with
        state := .complete, damaged := s.slots[n].damaged || decide (64 < s.rxs[f].lineErrors) } } := by
  by_cases errors : 64 < s.rxs[f].lineErrors
  · rw [if_pos errors, decide_eq_true errors, Bool.or_true]
    have marked : (s.modSlot n fun x => { x with damaged := true }).slots[n] = { s.slots[n] with damaged := true } :=
      modifyAt_same ..
    rw [moveSlot, if_pos (by rw [marked]; exact h)]
    simp only [State.modSlot, modifyAt, Fin.getElem_fin, Vector.getElem_set_self, Vector.set_set]
  · rw [if_neg errors, decide_eq_false errors, Bool.or_false, moveSlot, if_pos h]
    rfl

section
variable {s : State} {f : Feed}

theorem endCapture_none (h : s.rxs[f].capture = .none) : endCapture f s = s := by
  have cleared : { s.rxs[f] with capture := .none } = s.rxs[f] := by rw [← h]
  unfold endCapture
  dsimp only
  rw [h]
  exact State.modRx_self cleared

theorem endCapture_skipped (h : s.rxs[f].capture = .skipped) : endCapture f s =
    (takeField f true none (takeField f false none s)).modRx f fun r => { r with capture := .none } := by
  unfold endCapture
  dsimp only
  rw [h]
  rfl

variable {n : SlotNo} {a : State} (h : s.rxs[f].capture = .slot n) (hn : s.slots[n].state = .filling)
  (ha : a = prune f { s with slots := s.slots.set n { s.slots[n] with
    state := .complete, damaged := s.slots[n].damaged || decide (64 < s.rxs[f].lineErrors) } })
include h hn ha

theorem endCapture_handover {x y : Signature} (hx : s.rxs[f].sig1 = some x) (hy : s.rxs[f].sig2 = some y) :
    endCapture f s = (handover f n x y a).modRx f fun r => { r with capture := .none } := by
  unfold endCapture endSlotCapture
  dsimp only
  rw [h]
  dsimp only
  rw [hx, hy, complete_filling hn, ha]

theorem endCapture_unsigned (hsig : s.rxs[f].sig1 = none ∨ s.rxs[f].sig2 = none) :
    endCapture f s = a.modRx f fun r => { r with capture := .none } := by
  unfold endCapture endSlotCapture
  dsimp only
  rw [h]
  dsimp only
  rw [complete_filling hn, ha]
  split
  · next x y hx hy =>
    rcases hsig with e | e
    · rw [e] at hx; cases hx
    · rw [e] at hy; cases hy
  · rfl

end

/-! ## The handover (R76, R86) -/

section
variable {est stamp : Int} {seq : BitVec 32} {brk : Bool} {d : Detector}

theorem anchorShift_kept (h : ¬ (d.state = .locked32 ∧ brk = true)) : anchorShift est seq stamp brk d = d := if_neg h

theorem anchorShift_idle (h : d.lastSlot = none ∨ d.anchor = none) : anchorShift est seq stamp brk d = d := by
  unfold anchorShift
  split_ifs
  · split
    · next hl ha =>
      rcases h with h | h
      · rw [h] at hl; cases hl
      · rw [h] at ha; cases ha
    · rfl
  · rfl

theorem anchorShift_moves {seq0 : BitVec 32} {stamp0 a : Int} (h : d.state = .locked32 ∧ brk = true)
    (hl : d.lastSlot = some (seq0, stamp0)) (ha : d.anchor = some a) : anchorShift est seq stamp brk d =
      { d with anchor := some (a + (stamp - (stamp0 + ((seq - seq0).toNat : Int) * est))) } := by
  unfold anchorShift
  rw [if_pos h, hl, ha]

end

theorem handover_eq {s : State} {n : SlotNo} {seq : BitVec 32} {t1 t2 : Int} (hseq : s.slots[n].seq = some seq)
    (h1 : s.slots[n].stamp1 = some t1) (h2 : s.slots[n].stamp2 = some t2) (f : Feed) (a b : Signature) {d : Detector}
    (hd : { anchorShift (pEst s f) seq t1 s.slots[n].breakBefore s.dets[f] with
      lastSlot := some (seq, t1)
      breakSeen := (anchorShift (pEst s f) seq t1 s.slots[n].breakBefore s.dets[f]).breakSeen ||
        s.slots[n].breakBefore } = d) :
    handover f n a b s = takeField f true (some ⟨b, s.slots[n].damaged, ⟨n, true⟩, t2⟩)
      (takeField f false (some ⟨a, s.slots[n].damaged, ⟨n, false⟩, t1⟩) (s.modDet f fun _ => d)) := by
  unfold handover
  dsimp only
  rw [hseq, h1, h2]
  dsimp only [Option.getD_some]
  rw [State.modDet_modDet, State.modDet_congr (g' := fun _ => d) hd]

/-! ## Signatures (R54) -/

theorem lastActive_iff (lines : List LineCode) (k : Nat) :
    lastActive lines k = true ↔ ∀ c ∈ lines.drop (k + 1), c.blank = true := List.all_eq_true

theorem not_lastActive {lines : List LineCode} {k : Nat} (h : ∃ c ∈ lines.drop (k + 1), c.blank = false) :
    ¬ lastActive lines k = true := fun last => by
  obtain ⟨c, hc, active⟩ := h
  rw [(lastActive_iff lines k).1 last c hc] at active
  cases active

theorem lastOfField1_iff (lines : List LineCode) (k : Nat) :
    lastOfField1 lines k = true ↔ ∀ c ∈ lines.drop (k + 1), c.blank = true ∨ c.field2 = true := by
  unfold lastOfField1
  simp only [List.all_eq_true, Bool.or_eq_true]

section
variable {s : State} {f : Feed} {n : SlotNo} {i : StdId} (hc : s.rxs[f].capture = .slot n)
  (hd : s.rxs[f].detected = some i) (hi : (Config.std i).interlaced = true)
include hc hd hi

theorem formSignatures_interlaced (k : Nat) (lines : List LineCode) : formSignatures f k lines s =
    if lastActive lines k then s.modRx f fun r => { r with sig2 := some (signature s n i true) }
    else if lastOfField1 lines k && s.rxs[f].sig1.isNone then
      s.modRx f fun r => { r with sig1 := some (signature s n i false) }
    else s := by
  unfold formSignatures
  dsimp only
  rw [hc, hd]
  exact if_pos hi

end

theorem formSignatures_idle {s : State} {f : Feed} {i : StdId}
    (h : (∀ n, s.rxs[f].capture ≠ .slot n) ∨ s.rxs[f].detected = none ∨
      (s.rxs[f].detected = some i ∧ (Config.std i).interlaced = false)) (k : Nat) (lines : List LineCode) :
    formSignatures f k lines s = s := by
  unfold formSignatures
  dsimp only
  split
  · next n j hc hd =>
    refine if_neg fun interlaced => ?_
    rcases h with h | h | ⟨h, progressive⟩
    · exact h n hc
    · rw [h] at hd; cases hd
    · rw [h] at hd
      obtain rfl := Option.some.inj hd
      rw [progressive] at interlaced
      cases interlaced
  · rfl

/-- Rows of one length laid end to end. -/
theorem getElem?_rows {α : Type} {w : Nat} {g : Nat → List α} (hg : ∀ r, (g r).length = w) {n r c : Nat} (hr : r < n)
    (hc : c < w) : ((List.range n).flatMap g)[r * w + c]? = (g r)[c]? := by
  have length (m : Nat) : ((List.range m).flatMap g).length = m * w := by simp [List.length_flatMap, hg]
  induction n with
  | zero => omega
  | succ n ih =>
    rw [List.range_succ, List.flatMap_append, List.flatMap_singleton]
    by_cases h : r < n
    · have inside : r * w + c < n * w := by
        calc r * w + c < r * w + w := by omega
          _ = (r + 1) * w := by ring
          _ ≤ n * w := Nat.mul_le_mul_right w h
      rw [List.getElem?_append_left (by rw [length]; exact inside), ih h]
    · obtain rfl : r = n := by omega
      rw [List.getElem?_append_right (by rw [length]; omega), length, Nat.add_sub_cancel_left]

theorem signature_get (s : State) (n : SlotNo) (i : StdId) (field2 : Bool) {r c : Nat} (hr : r < 36) (hc : c < 64) :
    (signature s n i field2)[r * 64 + c]? = some (signatureElement s n (if field2 then 1 else 0) (Config.std i).width
      ((Config.std i).activeLines / 2) r c) := by
  unfold signature
  rw [getElem?_rows (by simp) hr hc, List.getElem?_map, List.getElem?_range hc]
  rfl

/-! ## An active line (R48) -/

theorem activeLine_layout {s : State} {f : Feed} {lay : Layout} {n : SlotNo} (hl : s.rxs[f].layout = some lay)
    (hc : s.rxs[f].capture = .slot n) (k : Nat) (y cb cr : List Sample) :
    activeLine f k y cb cr s =
      if lastActive lay.lines k
      then endCapture f (formSignatures f k lay.lines (writeLine n (slotLine lay.lines k) y cb cr s))
      else formSignatures f k lay.lines (writeLine n (slotLine lay.lines k) y cb cr s) := by
  unfold activeLine
  rw [hl]
  dsimp only
  rw [hc]

theorem activeLine_idle {s : State} {f : Feed} (hc : s.rxs[f].capture = .none) (k : Nat) (y cb cr : List Sample) :
    activeLine f k y cb cr s = s := by
  have formed (lines : List LineCode) : formSignatures f k lines s = s :=
    formSignatures_idle (i := 0) (.inl fun n e => by rw [hc] at e; cases e) k lines
  unfold activeLine
  split
  · rfl
  · dsimp only
    rw [hc]
    dsimp only
    rw [formed, endCapture_none hc, ite_self]

/-- The three components of a line, by component. -/
def componentsOf (y cb cr : List Sample) : Component → List Sample
  | .y => y
  | .cb => cb
  | .cr => cr

theorem clampSample_eq (v : Sample) : clampSample v =
    if v.toNat < 4 then 4#10 else if 1019 < v.toNat then 1019#10 else v := by
  unfold clampSample clampCode clampInt
  by_cases low : v.toNat < 4
  · rw [if_pos low, if_pos (by exact_mod_cast low)]
    rfl
  · rw [if_neg low, if_neg (by exact_mod_cast low)]
    by_cases high : 1019 < v.toNat
    · rw [if_pos high, if_pos (by exact_mod_cast high)]
      rfl
    · rw [if_neg high, if_neg (by exact_mod_cast high), BitVec.ofInt_natCast, BitVec.ofNat_toNat, BitVec.setWidth_eq]

theorem slotLine_eq {lines : List LineCode} {k : Nat} {c : LineCode} (h : lines[k]? = some c) : slotLine lines k =
    if lines.any LineCode.field2
    then 2 * (lines.take k).countP (fun x => !x.blank && x.field2 = c.field2) + (if c.field2 then 1 else 0)
    else (lines.take k).countP (fun x => !x.blank && x.field2 = c.field2) := by
  unfold slotLine
  rw [h]

end Sys2Proof.Machine

open Sys2Proof Sys2Proof.Machine

/-- Settles O43: an active line writes its slot line, forms a signature at its field's last active line, and ends the
capture at the last active position. -/
theorem activeLinesAreWritten : Obligations.ActiveLinesAreWritten := by
  unfold Obligations.ActiveLinesAreWritten
  refine ⟨fun s f => ⟨endCapture_none, endCapture_skipped, fun n a h hn ha =>
      ⟨fun x y => endCapture_handover h hn ha, endCapture_unsigned h hn ha⟩⟩, ?handover, ?signatures, ?elements, ?lines,
    ?samples, ⟨rfl, rfl, rfl⟩, clampSample_eq, fun lines k c => slotLine_eq⟩
  case handover =>
    rintro s f n a b _ seq t1 t2 _ field rfl hseq h1 h2 rfl hfield
    rw [hfield, hfield]
    refine handover_eq hseq h1 h2 f a b ?_
    generalize s.dets[f] = d
    generalize s.slots[n].breakBefore = brk
    rcases last : d.lastSlot with _ | ⟨seq0, stamp0⟩
    · rw [anchorShift_idle (.inl last)]
    · cases anchored : d.anchor with
      | none => simp only [anchorShift_idle (.inr anchored), anchored]
      | some anchor =>
        by_cases shifts : d.state = .locked32 ∧ brk = true
        · rw [anchorShift_moves shifts last anchored]
          simp only [if_pos shifts]
        · simp only [anchorShift_kept shifts, if_neg shifts, anchored]
  case signatures =>
    intro s f k lines n i
    refine ⟨fun hc hd hi => ?_, fun h => formSignatures_idle h k lines⟩
    rw [formSignatures_interlaced hc hd hi]
    refine ⟨fun last => if_pos ((lastActive_iff ..).2 last), fun later field1 hsig => ?_, fun later hrest => ?_⟩
    · rw [if_neg (not_lastActive later), if_pos]
      rw [(lastOfField1_iff ..).2 field1, hsig]
      rfl
    · rw [if_neg (not_lastActive later), if_neg]
      rw [Bool.and_eq_true, lastOfField1_iff, Option.isNone_iff_eq_none]
      rintro ⟨field1, hsig⟩
      rcases hrest with ⟨c, hc, active, first⟩ | h
      · rcases field1 c hc with e | e
        · rw [e] at active; cases active
        · rw [e] at first; cases first
      · exact h hsig
  case elements =>
    rintro s n i field2 r c _ _ _ _ _ hr hc rfl rfl rfl rfl rfl
    exact signature_get s n i field2 hr hc
  case lines =>
    intro s f k y cb cr lay hl
    refine ⟨fun n u hc hu => ⟨?_, ?_, ?_⟩, fun hc => activeLine_idle hc k y cb cr⟩
    · rw [hu, formSignatures_only, writeLine_only]
    · rw [hu, formSignatures_only]
    · rw [activeLine_layout hl hc, ← hu]
      rfl
  case samples =>
    intro s n m line line' y cb cr comp x hline hline' hx
    refine ⟨fun h => ?_, fun v hv => ?_⟩
    · exact (readSample_writeLine n m line line' (componentsOf y cb cr) comp x s hline hline' hx).trans
        (if_neg fun k => h.elim (fun e => e k.1) fun e => e k.2)
    · refine (readSample_writeLine n n line line (componentsOf y cb cr) comp x s hline hline hx).trans ?_
      have value : (componentsOf y cb cr comp)[x]? = some v := by
        cases comp <;> exact hv
      rw [if_pos ⟨rfl, rfl⟩, value]
      rfl
end
